-- ==== Sys2Proof/Word.lean ====
section
/-! DEFINITION. The word types of the engine: bytes, the 16-, 32- and 64-bit quantities of the spec, and byte order. -/

namespace Sys2Proof

/-- A byte: the unit of the ports and of the block buffer (00_scope.md R12, `u8`). -/
abbrev Byte := BitVec 8

/-- `u16` of 00_scope.md R12: the block counter, the checksum. -/
abbrev U16 := BitVec 16

/-- `u32` of 00_scope.md R12: every register of the register file (10_state.md R21). -/
abbrev U32 := BitVec 32

/-- `u64` of 00_scope.md R12: a command word (30_encoding.md R70), a byte counter (10_state.md R28). -/
abbrev U64 := BitVec 64

/-- Byte order of a field (20_memory.md R57). -/
inductive Endian where
  /-- least significant byte first -/
  | little
  /-- most significant byte first -/
  | big
  deriving DecidableEq, Repr, Inhabited

end Sys2Proof
end

