-- ==== Sys2Proof/Syntax.lean ====
section
/-! DEFINITION. The commands: one constructor per row of spec/opcode_table.json (30_encoding.md R73), operands as R71 gives them. -/

namespace Sys2Proof

/-- The commands of the engine (30_encoding.md R71, R73). -/
inductive Instr where
  /-- NOP, 44_driver.md R180 -/
  | nop
  /-- WRCFG register selector, value; 44_driver.md R181 -/
  | wrcfg (sel : Byte) (imm : U32)
  /-- RDREG register selector; 44_driver.md R182 -/
  | rdreg (sel : Byte)
  /-- BLKWR index, byte; 42_framer.md R140 -/
  | blkwr (index : Byte) (v : Byte)
  /-- BLKCLR, 42_framer.md R141 -/
  | blkclr
  /-- TIMING, 41_modulation.md R121 -/
  | timing
  /-- LEVELS, 41_modulation.md R124 -/
  | levels
  /-- INIT, 41_modulation.md R126 -/
  | init
  /-- EMITBIT bit; 41_modulation.md R130 -/
  | emitbit (b : Bool)
  /-- EMITBYTE byte; 41_modulation.md R131 -/
  | emitbyte (v : Byte)
  /-- TXBLOCK, 42_framer.md R142 -/
  | txblock
  /-- TXNAME, 42_framer.md R144 -/
  | txname
  /-- TXDATA count; 42_framer.md R145 -/
  | txdata (count : U32)
  /-- TXREST, 42_framer.md R146 -/
  | txrest
  /-- HDR, 43_container.md R160 -/
  | hdr
  /-- PUT8 byte; 40_codec.md R110 -/
  | put8 (v : Byte)
  /-- PUT16LE value; 40_codec.md R111 -/
  | put16le (v : U16)
  /-- PUT16BE value; 40_codec.md R112 -/
  | put16be (v : U16)
  /-- PUT32LE value; 40_codec.md R113 -/
  | put32le (v : U32)
  /-- PUT32BE value; 40_codec.md R114 -/
  | put32be (v : U32)
  /-- PUTTAG tag; 40_codec.md R115 -/
  | puttag (t : U32)
  /-- RUN, 44_driver.md R185 -/
  | run
  /-- CLOSE, 44_driver.md R186 -/
  | close
  /-- RESET, 44_driver.md R187 -/
  | reset
  deriving DecidableEq, Repr

end Sys2Proof
end

