-- ==== Sys2Proof/WellFormed.lean ====
section
/-! DEFINITION. Which commands have a word: the operand constraints of 30_encoding.md R71 that the operand types do not carry. -/

namespace Sys2Proof

/-- 30_encoding.md R71: the count of TXDATA lies in 1 to 253. The selector ranges of WRCFG and RDREG and the EXT bits are
no constraint of the word: the commands' own rules check them (R72, 90_conflicts.md C13). Every other operand fits its type. -/
def Instr.wellFormed : Instr → Bool
  | .txdata count => decide (1 ≤ count.toNat ∧ count.toNat ≤ 253)
  | .nop => true
  | .wrcfg _ _ => true
  | .rdreg _ => true
  | .blkwr _ _ => true
  | .blkclr => true
  | .timing => true
  | .levels => true
  | .init => true
  | .emitbit _ => true
  | .emitbyte _ => true
  | .txblock => true
  | .txname => true
  | .txrest => true
  | .hdr => true
  | .put8 _ => true
  | .put16le _ => true
  | .put16be _ => true
  | .put32le _ => true
  | .put32be _ => true
  | .puttag _ => true
  | .run => true
  | .close => true
  | .reset => true

end Sys2Proof
end

