-- ==== Sys2Proof/Decode.lean ====
section
/-! DEFINITION. The command word (30_encoding.md R70 to R75): the decoder, total on every word, and the encoder. -/

namespace Sys2Proof

/-- The listed operation codes of 30_encoding.md R73. PUT8 to PUTTAG share 0x50. -/
inductive Opcode where
  | nop | wrcfg | rdreg | blkwr | blkclr
  | timing | levels | init
  | emitbit | emitbyte
  | txblock | txname | txdata | txrest
  | hdr | put | run | close | reset
  deriving DecidableEq, Repr

/-- What a command word means (30_encoding.md R72, 60_exceptions.md R205). -/
inductive Decoded where
  /-- the word is the command `i` -/
  | instr (i : Instr)
  /-- the word raises ILLEGAL_COMMAND: its OPC is reserved (R74) -/
  | illegalCommand (opc : Byte)
  /-- the word raises ILLEGAL_OPERAND with this FAULT_VALUE (R72) -/
  | illegalOperand (value : U32)
  /-- the word is discarded before decoding: the engine is in the fault state (60_exceptions.md R205) -/
  | discarded
  deriving DecidableEq, Repr

/-! ### Fields of the word (R70) -/

/-- `OPC`, bits 63:56. -/
def fieldOpc (w : U64) : Byte := w.extractLsb' 56 8

/-- `SEL`, bits 55:48. -/
def fieldSel (w : U64) : Byte := w.extractLsb' 48 8

/-- `RSV`, bits 47:32. -/
def fieldRsv (w : U64) : U16 := w.extractLsb' 32 16

/-- `IMM`, bits 31:0. -/
def fieldImm (w : U64) : U32 := w.extractLsb' 0 32

/-- The word with these fields (R70: OPC in the high bits). -/
def commandWord (opc sel : Byte) (rsv : U16) (imm : U32) : U64 := opc ++ sel ++ rsv ++ imm

/-! ### The decoder -/

/-- The opcode map of 30_encoding.md R73; none for the reserved values of R74. -/
def opcodeOfByte (b : Byte) : Option Opcode :=
  match b.toNat with
  | 0x01 => some .nop
  | 0x02 => some .wrcfg
  | 0x03 => some .rdreg
  | 0x04 => some .blkwr
  | 0x05 => some .blkclr
  | 0x10 => some .timing
  | 0x11 => some .levels
  | 0x12 => some .init
  | 0x20 => some .emitbit
  | 0x21 => some .emitbyte
  | 0x30 => some .txblock
  | 0x31 => some .txname
  | 0x32 => some .txdata
  | 0x33 => some .txrest
  | 0x40 => some .hdr
  | 0x50 => some .put
  | 0x60 => some .run
  | 0x61 => some .close
  | 0x7F => some .reset
  | _ => none

/-- A command without operands: SEL and IMM are 0 (R71, "every other command"). -/
def bareOperands (i : Instr) (sel : Byte) (imm : U32) : Option Instr :=
  if sel = 0#8 ∧ imm = 0#32 then some i else none

/-- The PUT rows of R71: SEL selects the codec variant, the unused high bits of IMM are 0. -/
def putOperands (sel : Byte) (imm : U32) : Option Instr :=
  match sel.toNat with
  | 0 => if imm.toNat < 256 then some (.put8 (imm.setWidth 8)) else none
  | 1 => if imm.toNat < 65536 then some (.put16le (imm.setWidth 16)) else none
  | 2 => if imm.toNat < 65536 then some (.put16be (imm.setWidth 16)) else none
  | 3 => some (.put32le imm)
  | 4 => some (.put32be imm)
  | 5 => some (.puttag imm)
  | _ => none

/-- The operand rows of 30_encoding.md R71 that the decoder checks (R72); none where SEL or IMM violates the row. -/
def operandsOf (o : Opcode) (sel : Byte) (imm : U32) : Option Instr :=
  match o with
  | .nop => bareOperands .nop sel imm
  | .wrcfg => some (.wrcfg sel imm)
  | .rdreg => if imm = 0#32 then some (.rdreg sel) else none
  | .blkwr => if imm.toNat < 256 then some (.blkwr sel (imm.setWidth 8)) else none
  | .blkclr => bareOperands .blkclr sel imm
  | .timing => bareOperands .timing sel imm
  | .levels => bareOperands .levels sel imm
  | .init => bareOperands .init sel imm
  | .emitbit => if sel = 0#8 ∧ imm.toNat < 2 then some (.emitbit (imm.getLsbD 0)) else none
  | .emitbyte => if sel = 0#8 ∧ imm.toNat < 256 then some (.emitbyte (imm.setWidth 8)) else none
  | .txblock => bareOperands .txblock sel imm
  | .txname => bareOperands .txname sel imm
  | .txdata => if sel = 0#8 ∧ 1 ≤ imm.toNat ∧ imm.toNat ≤ 253 then some (.txdata imm) else none
  | .txrest => bareOperands .txrest sel imm
  | .hdr => bareOperands .hdr sel imm
  | .put => putOperands sel imm
  | .run => bareOperands .run sel imm
  | .close => bareOperands .close sel imm
  | .reset => bareOperands .reset sel imm

/-- `decode` of 30_encoding.md R72, for an engine that is not in the fault state: OPC, then RSV, then the row of R71. -/
def decode (w : U64) : Decoded :=
  match opcodeOfByte (fieldOpc w) with
  | none => .illegalCommand (fieldOpc w)
  | some o =>
    if fieldRsv w = 0#16 then
      match operandsOf o (fieldSel w) (fieldImm w) with
      | some i => .instr i
      | none => .illegalOperand (fieldImm w)
    else .illegalOperand ((fieldRsv w).setWidth 32)

/-- The fault state (60_exceptions.md R205): NOP, RDREG and RESET execute with their fields unchecked, every other word is discarded. -/
def decodeFaulted (w : U64) : Decoded :=
  match opcodeOfByte (fieldOpc w) with
  | some .nop => .instr .nop
  | some .rdreg => .instr (.rdreg (fieldSel w))
  | some .reset => .instr .reset
  | _ => .discarded

/-- What the engine makes of a word, in or out of the fault state (R72, last paragraph). -/
def decodeIn (faulted : Bool) (w : U64) : Decoded :=
  if faulted then decodeFaulted w else decode w

/-! ### The word as bytes (R70: big-endian, OPC first) -/

/-- The eight bytes of a command word, OPC first, IMM[7:0] last. -/
def commandBytes (w : U64) : List Byte :=
  [w.extractLsb' 56 8, w.extractLsb' 48 8, w.extractLsb' 40 8, w.extractLsb' 32 8,
   w.extractLsb' 24 8, w.extractLsb' 16 8, w.extractLsb' 8 8, w.extractLsb' 0 8]

/-- Decoding a byte sequence: the command in its first eight bytes, and the bytes after it; none where there are fewer. -/
def decodeBytes : List Byte → Option (Decoded × List Byte)
  | b7 :: b6 :: b5 :: b4 :: b3 :: b2 :: b1 :: b0 :: rest =>
    some (decode (b7 ++ b6 ++ b5 ++ b4 ++ b3 ++ b2 ++ b1 ++ b0), rest)
  | _ => none

/-- The word that spec/opcode_table.json numbers as `w`: `nbits` bits given, every higher bit 0. -/
def tableWord (nbits w : Nat) : U64 := BitVec.ofNat 64 (w % 2 ^ nbits)

/-- The instruction the decoder reads from a table word, carried as bytes in the engine's byte order. -/
def decodeTableWord (nbits w : Nat) : Option Instr :=
  match decodeBytes (commandBytes (tableWord nbits w)) with
  | some (.instr i, _) => some i
  | _ => none

/-! ### The encoder -/

/-- The byte of an operation code (30_encoding.md R73). -/
def opcodeByte : Opcode → Byte
  | .nop => 0x01#8
  | .wrcfg => 0x02#8
  | .rdreg => 0x03#8
  | .blkwr => 0x04#8
  | .blkclr => 0x05#8
  | .timing => 0x10#8
  | .levels => 0x11#8
  | .init => 0x12#8
  | .emitbit => 0x20#8
  | .emitbyte => 0x21#8
  | .txblock => 0x30#8
  | .txname => 0x31#8
  | .txdata => 0x32#8
  | .txrest => 0x33#8
  | .hdr => 0x40#8
  | .put => 0x50#8
  | .run => 0x60#8
  | .close => 0x61#8
  | .reset => 0x7F#8

/-- The operation code of a command (R73). -/
def opcodeOf : Instr → Opcode
  | .nop => .nop
  | .wrcfg _ _ => .wrcfg
  | .rdreg _ => .rdreg
  | .blkwr _ _ => .blkwr
  | .blkclr => .blkclr
  | .timing => .timing
  | .levels => .levels
  | .init => .init
  | .emitbit _ => .emitbit
  | .emitbyte _ => .emitbyte
  | .txblock => .txblock
  | .txname => .txname
  | .txdata _ => .txdata
  | .txrest => .txrest
  | .hdr => .hdr
  | .put8 _ => .put
  | .put16le _ => .put
  | .put16be _ => .put
  | .put32le _ => .put
  | .put32be _ => .put
  | .puttag _ => .put
  | .run => .run
  | .close => .close
  | .reset => .reset

/-- The SEL field of a command (R71). -/
def selOf : Instr → Byte
  | .wrcfg sel _ => sel
  | .rdreg sel => sel
  | .blkwr index _ => index
  | .put16le _ => 1#8
  | .put16be _ => 2#8
  | .put32le _ => 3#8
  | .put32be _ => 4#8
  | .puttag _ => 5#8
  | .nop => 0#8
  | .blkclr => 0#8
  | .timing => 0#8
  | .levels => 0#8
  | .init => 0#8
  | .emitbit _ => 0#8
  | .emitbyte _ => 0#8
  | .txblock => 0#8
  | .txname => 0#8
  | .txdata _ => 0#8
  | .txrest => 0#8
  | .hdr => 0#8
  | .put8 _ => 0#8
  | .run => 0#8
  | .close => 0#8
  | .reset => 0#8

/-- The IMM field of a command (R71). -/
def immOf : Instr → U32
  | .wrcfg _ imm => imm
  | .blkwr _ v => v.setWidth 32
  | .emitbit b => if b then 1#32 else 0#32
  | .emitbyte v => v.setWidth 32
  | .txdata count => count
  | .put8 v => v.setWidth 32
  | .put16le v => v.setWidth 32
  | .put16be v => v.setWidth 32
  | .put32le v => v
  | .put32be v => v
  | .puttag t => t
  | .nop => 0#32
  | .rdreg _ => 0#32
  | .blkclr => 0#32
  | .timing => 0#32
  | .levels => 0#32
  | .init => 0#32
  | .txblock => 0#32
  | .txname => 0#32
  | .txrest => 0#32
  | .hdr => 0#32
  | .run => 0#32
  | .close => 0#32
  | .reset => 0#32

/-- The word of a command (30_encoding.md R70, R71, R73), RSV = 0. -/
def encode (i : Instr) : U64 := commandWord (opcodeByte (opcodeOf i)) (selOf i) 0#16 (immOf i)

end Sys2Proof
end

