-- ==== Sys2Proof/Config.lean ====
section
/-! DEFINITION. The parameters an engine is built with (00_scope.md R10, R11) and the free values: what the spec leaves open and no proof can see. -/

namespace Sys2Proof

/-- HALF_BIT_ROUNDING of 00_scope.md R10: how `round_up_even` divides (41_modulation.md R122). -/
inductive Rounding where
  /-- CEIL, the default: the exact quotient is rounded up to even -/
  | ceil
  /-- FLOOR_EVEN: the integer quotient is rounded up to even -/
  | floorEven
  deriving DecidableEq, Repr

/-- RAW_CONVENTION of 00_scope.md R10: whose sample convention the raw container follows. -/
inductive RawConvention where
  /-- CHUNK, the default -/
  | chunk
  /-- SIMPLE -/
  | simple
  deriving DecidableEq, Repr

/-- The sample convention of a container (30_encoding.md R80): byte order, and whether 8-bit words are offset binary. -/
structure Convention where
  order : Endian
  offset8 : Bool
  deriving DecidableEq, Repr, Inhabited

/-- The parameters of 00_scope.md R10 that are not fixed by the source, with the constraints of R11.
An engine outside the constraints is outside the spec, so it cannot be written down. -/
structure Config where
  /-- BAUD_ALT, the second legal baud -/
  baudAlt : Nat
  /-- MIN_SAMPLE_RATE, the lowest accepted requested rate -/
  minSampleRate : Nat
  /-- HALF_BIT_ROUNDING -/
  rounding : Rounding
  /-- SYNC_BYTE, the value of each sync-pattern byte -/
  syncByte : Byte
  /-- STX_BYTE, the start-of-block marker -/
  stxByte : Byte
  /-- ETX_BYTE, the end-of-block marker -/
  etxByte : Byte
  /-- INIT_POLARITY, the polarity flag's value set by INIT and reset (false = 0 = low) -/
  initPolarity : Bool
  /-- RAW_CONVENTION -/
  rawConvention : RawConvention
  /-- AU_ANNOTATION[0], [1], [2], [3] -/
  annotation : Byte × Byte × Byte × Byte
  /-- R11: BAUD_ALT is at least 1, below 2^24, and not 700 -/
  baudAlt_legal : 1 ≤ baudAlt ∧ baudAlt < 16777216 ∧ baudAlt ≠ 700
  /-- R11: MIN_SAMPLE_RATE lies in 1 to 11200 -/
  minSampleRate_legal : 1 ≤ minSampleRate ∧ minSampleRate ≤ 11200
  deriving DecidableEq, Repr

/-- BAUD_ALT of the engine that State.reset describes, as a position among the legal values: a free value (92_eei_decisions.md D6, OPEN). Log entry 5. -/
opaque Config.freeBaudAlt : Fin 16777214

/-- MIN_SAMPLE_RATE of the engine that State.reset describes, as a position among the legal values: a free value (92_eei_decisions.md D7, OPEN). Log entry 5. -/
opaque Config.freeMinSampleRate : Fin 11200

/-- The host's answer to the n-th access, where State scripts none: true = the host refuses it.
The `draw ok` of 20_memory.md R51, R53 and 44_driver.md R186 is `ok = ¬ refuses`. Log entry 3. -/
opaque Config.hostRefuses : Nat → Bool

/-- The input sequence IN of the n-th session, where State scripts none (20_memory.md R50: any finite sequence). Log entry 4. -/
opaque Config.hostInput : Nat → List Byte

/-- OUTCNT after its largest value (10_state.md R28: the wrap is not specified), by the access it happens at. Log entry 9. -/
opaque Config.wrappedOutcnt : Nat → U64

/-- SBYTES after its largest value (10_state.md R28), by the access it happens at. Log entry 9. -/
opaque Config.wrappedSbytes : Nat → U64

/-- INCNT after its largest value (10_state.md R28), by the access it happens at. Log entry 9. -/
opaque Config.wrappedIncnt : Nat → U64

/-- What a half-bit run reads past the 128 entries of a level buffer (10_state.md R25; HALF is at most 128 after TIMING). Log entry 7. -/
opaque Config.levelBeyond : Nat → U32

/-- The sample convention of a CONTAINER value outside 1, 2, 3 (30_encoding.md R80 has no row for it; INIT refuses it). Log entry 8. -/
opaque Config.conventionBeyond : Nat → Convention

/-- The i-th legal value of BAUD_ALT: 1, 2, …, 699, 701, … -/
def Config.nthBaudAlt (i : Nat) : Nat := if i + 1 < 700 then i + 1 else i + 2

theorem Config.nthBaudAlt_legal (i : Fin 16777214) :
    1 ≤ Config.nthBaudAlt i ∧ Config.nthBaudAlt i < 16777216 ∧ Config.nthBaudAlt i ≠ 700 := by
  have := i.isLt
  unfold Config.nthBaudAlt
  split <;> omega

/-- The engine that State.reset describes: the defaults of 00_scope.md R10, and free values for the two
parameters that have none (log entry 5). -/
def Config.built : Config where
  baudAlt := Config.nthBaudAlt Config.freeBaudAlt
  minSampleRate := Config.freeMinSampleRate + 1
  rounding := .ceil
  syncByte := 0x16#8
  stxByte := 0x02#8
  etxByte := 0x03#8
  initPolarity := false
  rawConvention := .chunk
  annotation := (0#8, 0#8, 0#8, 0#8)
  baudAlt_legal := Config.nthBaudAlt_legal Config.freeBaudAlt
  minSampleRate_legal := by have := Config.freeMinSampleRate.isLt; omega

end Sys2Proof
end

