-- ==== Sys2Proof/Machine/State.lean ====
section
/-! DEFINITION. The state of the engine and its ports (10_state.md R20, 20_memory.md R50 to R55), the fault codes, and the state after power-on reset (10_state.md R30). -/

namespace Sys2Proof.Machine

/-- Why a step would stop with a fault. No constructor: every fault of the spec (60_exceptions.md R200) ends in the
fault state, which is a next state (R204, R205), so no step of this model stops with a fault. Safe. -/
inductive Fault where
  deriving DecidableEq, Repr

/-- Why a step would be refused. -/
inductive Refusal where
  /-- Raised by the dispatch alone, for an instruction that has no meaning yet, by its mnemonic. Safe: nothing is claimed of it.
  Every instruction of this model has its meaning, so no step raises it. -/
  | notModelled (mnemonic : String)
  deriving DecidableEq, Repr

/-- The fault codes of 60_exceptions.md R200, without NONE. -/
inductive FaultCode where
  | cfgBaud | cfgRate | cfgHalfbit | cfgWidth | cfgContainer | cfgMode | cfgLevel
  | lengthOverflow | lengthMismatch
  | ioOutput | ioInput
  | illegalCommand | illegalOperand
  | sequence
  deriving DecidableEq, Repr

/-- The block buffer's contents: the listed bytes, addresses strictly rising, no byte equal to what an unlisted address reads as. -/
abbrev Memory := List Host.Cell

/-- One level buffer: LEVEL_BUF_LEN = 128 entries (00_scope.md R10), each wide enough for the widest WIDTH. -/
abbrev LevelBuffer := Vector U32 128

/-- The engine (10_state.md R20), its ports (20_memory.md R50 to R54) and the parameters it was built with. -/
structure State where
  /-- the build parameters (00_scope.md R10); no step changes them (70_reset_and_hazards.md R230) -/
  cfg : Config
  /-- BAUD, selector 0 (10_state.md R21) -/
  baud : U32
  /-- REQ_RATE, selector 1 -/
  reqRate : U32
  /-- WIDTH, selector 2 -/
  width : U32
  /-- CONTAINER, selector 3: 1 = CHUNK, 2 = SIMPLE, 3 = RAW -/
  container : U32
  /-- INPUT_MODE, selector 4: 1 = BUFFERED, 2 = STREAMING -/
  inputMode : U32
  /-- DATA_LEN, selector 5 -/
  dataLen : U32
  /-- NAME_A, selector 6 -/
  nameA : U32
  /-- NAME_B, selector 7 -/
  nameB : U32
  /-- EXT, selector 8 -/
  ext : U32
  /-- LOW_VALUE, selector 9 -/
  lowValue : U32
  /-- HIGH_VALUE, selector 10 -/
  highValue : U32
  /-- HALF, selector 11 (R24) -/
  half : U32
  /-- ACT_RATE, selector 12 (R24) -/
  actRate : U32
  /-- STATUS.POL, the polarity flag P: true = high phase (R23) -/
  pol : Bool
  /-- STATUS.TIMING_OK -/
  timingOk : Bool
  /-- STATUS.INIT_DONE -/
  initDone : Bool
  /-- STATUS.HDR_DONE -/
  hdrDone : Bool
  /-- STATUS.NAME_DONE -/
  nameDone : Bool
  /-- STATUS.SAMPLES -/
  samples : Bool
  /-- STATUS.DECLARED -/
  declared : Bool
  /-- STATUS.CLOSED -/
  closed : Bool
  /-- STATUS.FAULT -/
  fault : Bool
  /-- STATUS.EOF -/
  eof : Bool
  /-- FAULT_CODE, selector 14 (R29) -/
  faultCode : U32
  /-- FAULT_INFO, selector 23 (R29) -/
  faultInfo : U32
  /-- FAULT_VALUE, selector 24 (R29) -/
  faultValue : U32
  /-- BLKCNT, selector 15 (R28) -/
  blkcnt : U16
  /-- OUTCNT, selectors 16 and 17 (R28) -/
  outcnt : U64
  /-- SBYTES, selectors 18 and 19 (R28) -/
  sbytes : U64
  /-- INCNT, selectors 21 and 22 (R28) -/
  incnt : U64
  /-- DECL_BYTES, selector 20 (R28) -/
  declBytes : U32
  /-- HI_BUF (R25) -/
  hiBuf : LevelBuffer
  /-- LO_BUF (R25) -/
  loBuf : LevelBuffer
  /-- BLK[0..255] (R27) -/
  blk : Memory
  /-- the command words the host will send, next first (10_state.md R26; log entry 1) -/
  commands : List U64
  /-- the bytes of IN not yet taken (20_memory.md R50); none where the host's input is not fixed (log entry 4) -/
  inPort : Option (List Byte)
  /-- the input sequences of the next sessions, next first (70_reset_and_hazards.md R230; log entry 4) -/
  nextInputs : List (List Byte)
  /-- OUT of this session, newest byte first (20_memory.md R52; log entry 14) -/
  outRev : List Byte
  /-- OUT of each earlier session, newest session first, bytes in emission order: the host's (R230; log entry 14) -/
  delivered : List (List Byte)
  /-- the values of the response port, oldest first (20_memory.md R54; log entry 13) -/
  responses : List U32
  /-- the MODEL's own: the host's answers to the next accesses, true = refuses (log entry 3) -/
  hostRefuses : List Bool
  /-- the MODEL's own: how many answers the host has given, the index of the free values (log entry 3) -/
  drawn : Nat
  /-- the MODEL's own: how many RESET commands have run, the index of the free inputs (log entry 4) -/
  session : Nat
  deriving DecidableEq, Repr

/-- Power-on reset of an engine with these parameters (10_state.md R30, 70_reset_and_hazards.md R230); nothing placed on the ports. -/
def State.powerOn (cfg : Config) : State where
  cfg := cfg
  baud := 0#32
  reqRate := 0#32
  width := 0#32
  container := 0#32
  inputMode := 0#32
  dataLen := 0#32
  nameA := 0#32
  nameB := 0#32
  ext := 0#32
  lowValue := 0#32
  highValue := 0#32
  half := 0#32
  actRate := 0#32
  pol := cfg.initPolarity
  timingOk := false
  initDone := false
  hdrDone := false
  nameDone := false
  samples := false
  declared := false
  closed := false
  fault := false
  eof := false
  faultCode := 0#32
  faultInfo := 0#32
  faultValue := 0#32
  blkcnt := 0#16
  outcnt := 0#64
  sbytes := 0#64
  incnt := 0#64
  declBytes := 0#32
  hiBuf := Vector.replicate 128 0#32
  loBuf := Vector.replicate 128 0#32
  blk := []
  commands := []
  inPort := none
  nextInputs := []
  outRev := []
  delivered := []
  responses := []
  hostRefuses := []
  drawn := 0
  session := 0

/-- The machine right after power-on reset, built with the default parameters (log entry 5). -/
def State.reset : State := State.powerOn Config.built

end Sys2Proof.Machine
end

