-- ==== Sys2Proof/Machine/Operands.lean ====
section
/-! DEFINITION. Operand forms: the bytes of a value in either order, the register selectors, the block buffer's cells. -/

namespace Sys2Proof.Machine

/-! ### Bytes of a value (20_memory.md R57, 40_codec.md R116, 30_encoding.md R83) -/

/-- `v[8i+7 : 8i]`. -/
def byteAt (v i : Nat) : Byte := BitVec.ofNat 8 (v >>> (8 * i))

/-- The `n` low bytes of `v` in the given order. -/
def bytesOf (n : Nat) (order : Endian) (v : Nat) : List Byte :=
  match order with
  | .little => (List.range n).map (byteAt v)
  | .big => ((List.range n).map (byteAt v)).reverse

/-- `Put16(v, order)` of R116 as the bytes it writes. -/
def put16Bytes (v : Nat) (order : Endian) : List Byte := bytesOf 2 order v

/-- `Put32(v, order)` of R116 as the bytes it writes. -/
def put32Bytes (v : Nat) (order : Endian) : List Byte := bytesOf 4 order v

/-- `PutTag(t)` of R116 as the bytes it writes. -/
def putTagBytes (t : Nat) : List Byte := put32Bytes t .big

/-- `SampleBytes(V, w, order)` of 30_encoding.md R83. -/
def sampleBytes (v : U32) (w : Nat) (order : Endian) : List Byte := bytesOf (w / 8) order v.toNat

/-- The bits of a byte, least significant first (41_modulation.md R131). -/
def bitsOf (v : Byte) : List Bool := (List.range 8).map v.getLsbD

/-! ### The register file (10_state.md R21) -/

/-- The largest selector RDREG may read (R21: 25 to 255 are reserved). -/
def lastReadable : Nat := 24

/-- The largest selector WRCFG may write (44_driver.md R184). -/
def lastWritable : Nat := 10

/-- The selectors that INIT locks (10_state.md R22). -/
def lockedSelector (sel : Byte) : Bool := [0, 1, 2, 3, 4, 5, 9, 10].contains sel.toNat

/-- `x[SEL] <- v` for a selector WRCFG may write (R21); the other selectors never get here (44_driver.md R184). -/
def writeRegister (sel : Byte) (v : U32) (s : State) : State :=
  match sel.toNat with
  | 0 => { s with baud := v }
  | 1 => { s with reqRate := v }
  | 2 => { s with width := v }
  | 3 => { s with container := v }
  | 4 => { s with inputMode := v }
  | 5 => { s with dataLen := v }
  | 6 => { s with nameA := v }
  | 7 => { s with nameB := v }
  | 8 => { s with ext := v }
  | 9 => { s with lowValue := v }
  | 10 => { s with highValue := v }
  | _ => s

/-! ### Cells of the block buffer (10_state.md R27, 20_memory.md R55) -/

/-- BLK has the addresses 0 to 255. -/
def blkSize : Nat := 256

/-- What an unlisted address of BLK reads as: its reset contents (10_state.md R30). -/
def unlistedByte : Byte := 0x00#8

/-- The memory `m` with the cell `(a, v)` in front, unless `v` is what an unlisted address reads as. -/
def consCell (a : Nat) (v : Byte) (m : Memory) : Memory := if v = unlistedByte then m else (a, v) :: m

/-- The byte at address `a`. -/
def readCell : Memory → Nat → Byte
  | [], _ => unlistedByte
  | (a, v) :: m, x => if a = x then v else readCell m x

/-- The memory after writing `v` at address `x`. -/
def writeCell : Memory → Nat → Byte → Memory
  | [], x, v => consCell x v []
  | (a, b) :: m, x, v =>
    if x < a then consCell x v ((a, b) :: m)
    else if x = a then consCell x v m
    else (a, b) :: writeCell m x v

/-- The memory that holds these bytes from address `a` on, and nothing else. -/
def cellsFrom : Nat → List Byte → Memory
  | _, [] => []
  | a, v :: vs => consCell a v (cellsFrom (a + 1) vs)

/-- The canonical form, for cells at addresses from `lo` to 255: strictly rising, none equal to what an unlisted address reads as. -/
def cellsWf : Nat → Memory → Bool
  | _, [] => true
  | lo, (a, v) :: m => decide (lo ≤ a) && decide (a < blkSize) && decide (v ≠ unlistedByte) && cellsWf (a + 1) m

/-- The canonical form of the block buffer. -/
def Memory.wf (m : Memory) : Bool := cellsWf 0 m

/-- BLK[0..255] as 256 bytes. -/
def blockBytes (m : Memory) : List Byte := (List.range blkSize).map (readCell m)

end Sys2Proof.Machine
end

