-- ==== Sys2Proof/Machine/Flags.lean ====
section
/-! DEFINITION. STATUS and the counters (10_state.md R23, R28), what RDREG reads, and the conditions the commands check on the flags (70_reset_and_hazards.md R233). -/

namespace Sys2Proof.Machine

/-- STATUS as RDREG reads it: the flags in bits 9:0, zeros above (44_driver.md R182). -/
def statusWord (s : State) : U32 :=
  0#22 ++ BitVec.ofBool s.eof ++ BitVec.ofBool s.fault ++ BitVec.ofBool s.closed ++ BitVec.ofBool s.declared
    ++ BitVec.ofBool s.samples ++ BitVec.ofBool s.nameDone ++ BitVec.ofBool s.hdrDone ++ BitVec.ofBool s.initDone
    ++ BitVec.ofBool s.timingOk ++ BitVec.ofBool s.pol

/-- The 32-bit content of a register (10_state.md R21, 44_driver.md R182); 0 for a reserved selector, which RDREG reads
only in the fault state (60_exceptions.md R205). -/
def readRegister (sel : Byte) (s : State) : U32 :=
  match sel.toNat with
  | 0 => s.baud
  | 1 => s.reqRate
  | 2 => s.width
  | 3 => s.container
  | 4 => s.inputMode
  | 5 => s.dataLen
  | 6 => s.nameA
  | 7 => s.nameB
  | 8 => s.ext
  | 9 => s.lowValue
  | 10 => s.highValue
  | 11 => s.half
  | 12 => s.actRate
  | 13 => statusWord s
  | 14 => s.faultCode
  | 15 => s.blkcnt.setWidth 32
  | 16 => s.outcnt.extractLsb' 0 32
  | 17 => s.outcnt.extractLsb' 32 32
  | 18 => s.sbytes.extractLsb' 0 32
  | 19 => s.sbytes.extractLsb' 32 32
  | 20 => s.declBytes
  | 21 => s.incnt.extractLsb' 0 32
  | 22 => s.incnt.extractLsb' 32 32
  | 23 => s.faultInfo
  | 24 => s.faultValue
  | _ => 0#32

/-- A byte counter plus one; past its largest value the free value `wrapped` (10_state.md R28; log entry 9). -/
def countUp (c wrapped : U64) : U64 := if c = BitVec.allOnes 64 then wrapped else c + 1#64

/-- The order of commands that every emitting command checks (41_modulation.md R127). -/
def mayEmit (s : State) : Bool := s.initDone && s.hdrDone && !s.closed

/-- The order of commands that TXNAME checks (42_framer.md R144, 70_reset_and_hazards.md R233): no name block has been sent. -/
def mayName (s : State) : Bool := mayEmit s && !s.nameDone

/-- The order of commands that TXDATA and TXREST check (42_framer.md R145, R146, R233): the name block has been sent. -/
def maySendData (s : State) : Bool := mayEmit s && s.nameDone

/-- The order of commands that HDR checks (43_container.md R160). -/
def mayWriteHeader (s : State) : Bool := s.initDone && !s.hdrDone && !s.samples && !s.closed

/-- The order of commands that RUN checks (44_driver.md R185). -/
def mayRun (s : State) : Bool := !s.initDone && !s.hdrDone && !s.closed

end Sys2Proof.Machine
end

