-- ==== Sys2Proof/Machine/Ops.lean ====
section
/-! DEFINITION. The shared operations: entering the fault state and leaving it by reset, the ports, the block buffer, and how a command runs. -/

namespace Sys2Proof.Machine

/-! ### Running the pseudocode of a rule (00_scope.md R13, R14) -/

/-- Where the pseudocode of a rule has got to: it goes on in a state, or a `raise` has ended it there (R14, 60_exceptions.md R204). -/
inductive Ran where
  /-- the pseudocode goes on from here -/
  | done (s : State)
  /-- `raise Fault(code, value)` was reached in this state -/
  | raised (code : FaultCode) (value : Nat) (s : State)
  deriving DecidableEq, Repr

/-- Go on with `next`, unless a `raise` has ended the command. -/
def Ran.andThen (r : Ran) (next : State → Ran) : Ran :=
  match r with
  | .done s => next s
  | .raised code value s => .raised code value s

/-! ### Taking a fault, and the way out of the fault state -/

/-- The number of a fault code (60_exceptions.md R200). -/
def codeWord : FaultCode → U32
  | .cfgBaud => 0x01#32
  | .cfgRate => 0x02#32
  | .cfgHalfbit => 0x03#32
  | .cfgWidth => 0x04#32
  | .cfgContainer => 0x05#32
  | .cfgMode => 0x06#32
  | .cfgLevel => 0x07#32
  | .lengthOverflow => 0x08#32
  | .lengthMismatch => 0x09#32
  | .ioOutput => 0x0A#32
  | .ioInput => 0x0B#32
  | .illegalCommand => 0x0C#32
  | .illegalOperand => 0x0D#32
  | .sequence => 0x0E#32

/-- FAULT_INFO of the command with these fields: OPC in bits 7:0, SEL in bits 15:8 (10_state.md R29). -/
def faultInfoWord (opc sel : Byte) : U32 := (sel ++ opc).setWidth 32

/-- Fault entry (60_exceptions.md R204): record the first fault of the session and set S.FAULT; nothing is rolled back. -/
def takeFault (code : FaultCode) (opc sel : Byte) (value : Nat) (s : State) : State :=
  if s.fault then s
  else { s with
    faultCode := codeWord code
    faultInfo := faultInfoWord opc sel
    faultValue := BitVec.ofNat 32 value
    fault := true }

/-- RESET, the only way out of the fault state (44_driver.md R187, 60_exceptions.md R206): every state element takes its value of
10_state.md R30, and a new session starts with a fresh IN and an empty OUT (70_reset_and_hazards.md R230). What belongs to the
host stays: the words it has still to send, its answers, the bytes and values it was given (log entries 1, 3, 4, 13, 14). -/
def newSession (s : State) : State :=
  { State.powerOn s.cfg with
    commands := s.commands
    inPort := s.nextInputs.head?
    nextInputs := s.nextInputs.tail
    delivered := s.outRev.reverse :: s.delivered
    responses := s.responses
    hostRefuses := s.hostRefuses
    drawn := s.drawn
    session := s.session + 1 }

/-- The state a command leaves: that of its pseudocode, or the fault state entered at the `raise`. -/
def settle (opc sel : Byte) : Ran → State
  | .done s => s
  | .raised code value s => takeFault code opc sel value s

/-- A command that the fault state discards (60_exceptions.md R205): outside it, its pseudocode runs (R204 on a `raise`). -/
def runCommand (opc sel : Byte) (body : State → Ran) (s : State) : Host.Outcome State Fault Refusal :=
  .next (if s.fault then s else settle opc sel (body s))

/-! ### The command port (30_encoding.md R70, 10_state.md R26) -/

/-- The next command word, and the state without it; none where the host has sent none (log entry 1). -/
def fetch (s : State) : Option (U64 × State) :=
  match s.commands with
  | [] => none
  | w :: rest => some (w, { s with commands := rest })

/-! ### The host's answers (20_memory.md R51, R53, 44_driver.md R186; log entry 3) -/

/-- Whether the host refuses the next access: `draw ok` with `ok = ¬ refuses`. -/
def refusesNext (s : State) : Bool :=
  match s.hostRefuses with
  | r :: _ => r
  | [] => Config.hostRefuses s.drawn

/-- The state after one answer of the host. -/
def State.drewOne (s : State) : State := { s with hostRefuses := s.hostRefuses.tail, drawn := s.drawn + 1 }

/-! ### The output port (20_memory.md R52, R53) -/

/-- OUT of this session, in emission order. -/
def State.out (s : State) : List Byte := s.outRev.reverse

/-- The state after the host has accepted one byte. -/
def State.accepted (s : State) (b : Byte) : State :=
  { s.drewOne with outRev := b :: s.outRev, outcnt := countUp s.outcnt (Config.wrappedOutcnt s.drawn) }

/-- `OutWrite(b)` (R53). -/
def outWrite (b : Byte) (s : State) : Ran :=
  if s.closed then .raised .sequence s.outcnt.toNat s
  else if refusesNext s then .raised .ioOutput s.outcnt.toNat s.drewOne
  else .done (s.accepted b)

/-- `OutWrite` of each byte in order. -/
def outWriteAll : List Byte → State → Ran
  | [], s => .done s
  | b :: bs, s => (outWrite b s).andThen (outWriteAll bs)

/-! ### The input port (20_memory.md R50, R51) -/

/-- The bytes of IN that have not been taken; free where the host's input is not fixed (log entry 4). -/
def State.inBytes (s : State) : List Byte := s.inPort.getD (Config.hostInput s.session)

/-- What `InRead()` gives. -/
inductive ReadResult where
  /-- the next byte of IN -/
  | byte (b : Byte) (s : State)
  /-- EOF -/
  | eof (s : State)
  /-- `raise Fault(IO_INPUT, INCNT[31:0])` -/
  | failed (s : State)
  deriving DecidableEq, Repr

/-- `InRead()` (R51). -/
def inRead (s : State) : ReadResult :=
  if s.eof then .eof s
  else if refusesNext s then .failed s.drewOne
  else
    match s.inBytes with
    | [] => .eof { s.drewOne with eof := true }
    | b :: rest =>
      .byte b { s.drewOne with inPort := some rest, incnt := countUp s.incnt (Config.wrappedIncnt s.drawn) }

/-- What reading up to n bytes gives: the bytes in input order. -/
inductive ReadAll where
  /-- all the bytes asked for -/
  | full (bytes : List Byte) (s : State)
  /-- EOF came first, after these bytes -/
  | short (bytes : List Byte) (s : State)
  /-- the host refused a read -/
  | failed (s : State)
  deriving DecidableEq, Repr

/-- `InRead()` until n bytes are read or EOF; `got` holds the bytes read so far, newest first. -/
def inReadUpTo : Nat → List Byte → State → ReadAll
  | 0, got, s => .full got.reverse s
  | n + 1, got, s =>
    match inRead s with
    | .byte b s' => inReadUpTo n (b :: got) s'
    | .eof s' => .short got.reverse s'
    | .failed s' => .failed s'

/-! ### The block buffer and the response port -/

/-- `BLK[i] <- v` (42_framer.md R140). -/
def setBlockByte (i v : Byte) (s : State) : State := { s with blk := writeCell s.blk i.toNat v }

/-- `BLK[0..255] <- bytes`. -/
def setBlock (bytes : List Byte) (s : State) : State := { s with blk := cellsFrom 0 bytes }

/-- `Respond(v)` (20_memory.md R54). -/
def respond (v : U32) (s : State) : State := { s with responses := s.responses ++ [v] }

end Sys2Proof.Machine
end

