-- ==== Sys2Proof/Machine/Codec.lean ====
section
/-! DEFINITION. The Byte-Order Codec (40_codec.md): PUT8, PUT16LE, PUT16BE, PUT32LE, PUT32BE, PUTTAG. -/

namespace Sys2Proof.Machine

/-- The pseudocode every PUT shares: SEQUENCE after CLOSE, else the value's bytes (R110 to R116). -/
def putBody (bytes : List Byte) (s : State) : Ran :=
  if s.closed then .raised .sequence 0 s else outWriteAll bytes s

/-- PUT8 (R110): OPC 0x50, SEL 0. -/
def execPut8 (v : Byte) (s : State) : Host.Outcome State Fault Refusal :=
  runCommand 0x50#8 0#8 (putBody [v]) s

/-- PUT16LE (R111): OPC 0x50, SEL 1. -/
def execPut16le (v : U16) (s : State) : Host.Outcome State Fault Refusal :=
  runCommand 0x50#8 1#8 (putBody (put16Bytes v.toNat .little)) s

/-- PUT16BE (R112): OPC 0x50, SEL 2. -/
def execPut16be (v : U16) (s : State) : Host.Outcome State Fault Refusal :=
  runCommand 0x50#8 2#8 (putBody (put16Bytes v.toNat .big)) s

/-- PUT32LE (R113): OPC 0x50, SEL 3. -/
def execPut32le (v : U32) (s : State) : Host.Outcome State Fault Refusal :=
  runCommand 0x50#8 3#8 (putBody (put32Bytes v.toNat .little)) s

/-- PUT32BE (R114): OPC 0x50, SEL 4. -/
def execPut32be (v : U32) (s : State) : Host.Outcome State Fault Refusal :=
  runCommand 0x50#8 4#8 (putBody (put32Bytes v.toNat .big)) s

/-- PUTTAG (R115): OPC 0x50, SEL 5. -/
def execPuttag (t : U32) (s : State) : Host.Outcome State Fault Refusal :=
  runCommand 0x50#8 5#8 (putBody (putTagBytes t.toNat)) s

end Sys2Proof.Machine
end

