-- ==== Sys2Proof/Machine/Modulation.lean ====
section
/-! DEFINITION. The Modulation Engine (41_modulation.md, 30_encoding.md R80 to R83): TIMING, LEVELS, INIT, EMITBIT, EMITBYTE. -/

namespace Sys2Proof.Machine

/-! ### Timing (R121, R122) -/

/-- The baud that the source names (00_scope.md R10). -/
def baudFixed : Nat := 700

/-- HALF_MAX (00_scope.md R10). -/
def halfMax : Nat := 128

/-- BAUD ∈ BAUD_SET = {700, BAUD_ALT}. -/
def baudLegal (cfg : Config) (baud : Nat) : Bool := baud == baudFixed || baud == cfg.baudAlt

/-- `DeriveHalf(R, B)` (R122). -/
def deriveHalf (rounding : Rounding) (r b : Nat) : Nat :=
  match rounding with
  | .ceil => (r + 2 * b - 1) / (2 * b)
  | .floorEven => (if r / b % 2 = 1 then r / b + 1 else r / b) / 2

/-- `ActualRate(H, B)` (R122). -/
def actualRate (h b : Nat) : Nat := 2 * h * b

/-- The pseudocode of TIMING (R121). -/
def timingBody (s : State) : Ran :=
  if s.initDone then .raised .sequence 0 s
  else if !baudLegal s.cfg s.baud.toNat then .raised .cfgBaud s.baud.toNat s
  else if s.reqRate.toNat < s.cfg.minSampleRate then .raised .cfgRate s.reqRate.toNat s
  else
    let h := deriveHalf s.cfg.rounding s.reqRate.toNat s.baud.toNat
    if h < 1 ∨ halfMax < h then .raised .cfgHalfbit h s
    else .done { s with
      half := BitVec.ofNat 32 h
      actRate := BitVec.ofNat 32 (actualRate h s.baud.toNat)
      timingOk := true }

/-- TIMING: OPC 0x10. -/
def execTiming (s : State) : Host.Outcome State Fault Refusal := runCommand 0x10#8 0#8 timingBody s

/-! ### Levels (30_encoding.md R80, R81; R124, R125) -/

/-- LOW_FRAC = −0.504, in thousandths (00_scope.md R10). -/
def lowMilli : Int := -504

/-- HIGH_FRAC = +0.678, in thousandths (00_scope.md R10). -/
def highMilli : Int := 678

/-- `round_half_away(n / 1000)`, exact (30_encoding.md R81). -/
def roundMilli (n : Int) : Int :=
  if n < 0 then -(((2 * n.natAbs + 1000) / 2000 : Nat) : Int) else ((2 * n.natAbs + 1000) / 2000 : Nat)

/-- `Q(f, w)` of 30_encoding.md R81, with f in thousandths. -/
def quantize (milli : Int) (w : Nat) : Int := roundMilli (milli * ((2 ^ (w - 1) - 1 : Nat) : Int))

/-- `levelword(f, w)` of 30_encoding.md R81. -/
def levelWord (milli : Int) (w : Nat) (offset8 : Bool) : U32 :=
  if w = 8 ∧ offset8 = true then BitVec.ofInt 32 (quantize milli w + 128)
  else BitVec.ofNat 32 (quantize milli w % ((2 ^ w : Nat) : Int)).toNat

/-- The convention of the chunk-style container (30_encoding.md R80). -/
def chunkConvention : Convention := { order := .little, offset8 := true }

/-- The convention of the simple-style container (30_encoding.md R80). -/
def simpleConvention : Convention := { order := .big, offset8 := false }

/-- `Conv()` of R125: the row of 30_encoding.md R80 for CONTAINER; free for a value that has no row (log entry 8). -/
def convention (s : State) : Convention :=
  match s.container.toNat with
  | 1 => chunkConvention
  | 2 => simpleConvention
  | 3 =>
    match s.cfg.rawConvention with
    | .chunk => chunkConvention
    | .simple => simpleConvention
  | n => Config.conventionBeyond n

/-- WIDTH ∈ {8, 16, 24, 32}. -/
def widthLegal (w : U32) : Bool := [8, 16, 24, 32].contains w.toNat

/-- CONTAINER ∈ {1, 2, 3}. -/
def containerLegal (c : U32) : Bool := [1, 2, 3].contains c.toNat

/-- `CheckGeometry()` (R125). -/
def checkGeometry (s : State) : Ran :=
  if !widthLegal s.width then .raised .cfgWidth s.width.toNat s
  else if !containerLegal s.container then .raised .cfgContainer s.container.toNat s
  else .done s

/-- The two level words of the configured width and container (R124). -/
def setLevels (s : State) : State :=
  { s with
    lowValue := levelWord lowMilli s.width.toNat (convention s).offset8
    highValue := levelWord highMilli s.width.toNat (convention s).offset8 }

/-- The pseudocode of LEVELS (R124). -/
def levelsBody (s : State) : Ran :=
  if s.initDone then .raised .sequence 0 s
  else (checkGeometry s).andThen fun s => .done (setLevels s)

/-- LEVELS: OPC 0x11. -/
def execLevels (s : State) : Host.Outcome State Fault Refusal := runCommand 0x11#8 0#8 levelsBody s

/-! ### Initialisation (R126) -/

/-- `v[w−1 : 0]`. -/
def levelBits (v : U32) (w : Nat) : U32 := BitVec.ofNat 32 (v.toNat % 2 ^ w)

/-- The level check of INIT (R126). -/
def checkLevels (s : State) : Ran :=
  if 2 ^ s.width.toNat ≤ s.lowValue.toNat then .raised .cfgLevel s.lowValue.toNat s
  else if 2 ^ s.width.toNat ≤ s.highValue.toNat then .raised .cfgLevel s.highValue.toNat s
  else .done s

/-- What INIT writes (R126): both buffers filled, P at INIT_POLARITY, the configuration locked. -/
def fillBuffers (s : State) : State :=
  { s with
    hiBuf := Vector.replicate 128 (levelBits s.highValue s.width.toNat)
    loBuf := Vector.replicate 128 (levelBits s.lowValue s.width.toNat)
    pol := s.cfg.initPolarity
    initDone := true }

/-- The pseudocode of INIT (R126). -/
def initBody (s : State) : Ran :=
  if s.initDone then .raised .sequence 0 s
  else if !s.timingOk then .raised .sequence 0 s
  else (checkGeometry s).andThen fun s => (checkLevels s).andThen fun s => .done (fillBuffers s)

/-- INIT: OPC 0x12. -/
def execInit (s : State) : Host.Outcome State Fault Refusal := runCommand 0x12#8 0#8 initBody s

/-! ### Emission (R127 to R131) -/

/-- Bytes of one sample: WIDTH/8 (43_container.md R166). -/
def frameSize (s : State) : Nat := s.width.toNat / 8

/-- `BitBytes` (R127). -/
def bitByteCount (s : State) : Nat := 2 * s.half.toNat * frameSize s

/-- `ByteBytes` (R127). -/
def byteByteCount (s : State) : Nat := 8 * bitByteCount s

/-- BLOCK_BYTES, the modulated bytes of a framed block (00_scope.md R10). -/
def blockByteTotal : Nat := 295

/-- `BlockBytes` (R127). -/
def blockByteCount (s : State) : Nat := blockByteTotal * byteByteCount s

/-- `EmitCheck(n)` (R127). -/
def emitCheck (n : Nat) (s : State) : Ran :=
  if !mayEmit s then .raised .sequence 0 s
  else if s.declared ∧ s.declBytes.toNat < s.sbytes.toNat + n then .raised .lengthMismatch (s.sbytes.toNat + n) s
  else .done s

/-- The accounting of one sample byte that the port has accepted (R128). -/
def State.counted (drawnBefore : Nat) (s : State) : State :=
  { s with sbytes := countUp s.sbytes (Config.wrappedSbytes drawnBefore), samples := true }

/-- The bytes of a sample to the output port, each one counted (R128). -/
def emitSampleBytes : List Byte → State → Ran
  | [], s => .done s
  | b :: bs, s => (outWrite b s).andThen fun s' => emitSampleBytes bs (State.counted s.drawn s')

/-- `SampleOut(V)` (R128). -/
def sampleOut (v : U32) (s : State) : Ran :=
  emitSampleBytes (sampleBytes v s.width.toNat (convention s).order) s

/-- Entry i of the buffer that P selects (R129); free past the buffer's end (log entry 7). -/
def levelAt (i : Nat) (s : State) : U32 := ((if s.pol then s.hiBuf else s.loBuf)[i]?).getD (Config.levelBeyond i)

/-- The frames i, i+1, …, i+n−1 of a half-bit run (R129). -/
def halfBitFrom : Nat → Nat → State → Ran
  | _, 0, s => .done s
  | i, n + 1, s => (sampleOut (levelAt i s) s).andThen (halfBitFrom (i + 1) n)

/-- `HalfBit()` (R129). -/
def halfBit (s : State) : Ran := halfBitFrom 0 s.half.toNat s

/-- `P <- not P`. -/
def togglePolarity (s : State) : State := { s with pol := !s.pol }

/-- `EmitBit(b)` (R130). -/
def emitBit (b : Bool) (s : State) : Ran :=
  (halfBit (togglePolarity s)).andThen fun s => halfBit (if b then togglePolarity s else s)

/-- `EmitBit` of each bit in order. -/
def emitBits : List Bool → State → Ran
  | [], s => .done s
  | b :: bs, s => (emitBit b s).andThen (emitBits bs)

/-- `EmitByte(v)` (R131): eight bits, least significant first. -/
def emitByte (v : Byte) (s : State) : Ran := emitBits (bitsOf v) s

/-- `EmitByte` of each byte in order. -/
def emitBytes : List Byte → State → Ran
  | [], s => .done s
  | v :: vs, s => (emitByte v s).andThen (emitBytes vs)

/-- The pseudocode of EMITBIT (R130). -/
def emitbitBody (b : Bool) (s : State) : Ran := (emitCheck (bitByteCount s) s).andThen (emitBit b)

/-- EMITBIT: OPC 0x20. -/
def execEmitbit (b : Bool) (s : State) : Host.Outcome State Fault Refusal :=
  runCommand 0x20#8 0#8 (emitbitBody b) s

/-- The pseudocode of EMITBYTE (R131). -/
def emitbyteBody (v : Byte) (s : State) : Ran := (emitCheck (byteByteCount s) s).andThen (emitByte v)

/-- EMITBYTE: OPC 0x21. -/
def execEmitbyte (v : Byte) (s : State) : Host.Outcome State Fault Refusal :=
  runCommand 0x21#8 0#8 (emitbyteBody v) s

end Sys2Proof.Machine
end

