-- ==== Sys2Proof/Machine/Framer.lean ====
section
/-! DEFINITION. The Block Framer (42_framer.md): BLKWR, BLKCLR, TXBLOCK, TXNAME, TXDATA, TXREST. -/

namespace Sys2Proof.Machine

/-! ### Layouts (R143, R147 to R149) -/

/-- DATA_CHUNK, the input bytes of a data block (00_scope.md R10). -/
def dataChunk : Nat := 253

/-- `csum` (R143): the payload bytes and the end marker, mod 2^16. -/
def checksum (etx : Byte) (payload : List Byte) : U16 :=
  BitVec.ofNat 16 ((payload.map BitVec.toNat).sum + etx.toNat)

/-- The 295 bytes of a framed block in order (R149). -/
def framedBytes (cfg : Config) (payload : List Byte) : List Byte :=
  List.replicate 32 0x00#8 ++ List.replicate 3 cfg.syncByte ++ [cfg.stxByte] ++ payload ++ [cfg.etxByte]
    ++ bytesOf 2 .little (checksum cfg.etxByte payload).toNat

/-- The name block's payload (R147). -/
def nameBlock (s : State) : List Byte :=
  [0xFF#8, 0xFF#8, 0xFF#8] ++ bytesOf 4 .little s.nameA.toNat ++ bytesOf 4 .little s.nameB.toNat
    ++ bytesOf 3 .little s.ext.toNat ++ List.replicate 242 0x00#8

/-- A data block's payload (R148). -/
def dataBlock (counter : U16) (bytes : List Byte) : List Byte :=
  [0x00#8] ++ bytesOf 2 .little counter.toNat ++ bytes ++ List.replicate (dataChunk - bytes.length) 0x00#8

/-! ### Framing -/

/-- `FrameBlock()` (R142): the whole payload is taken before any byte is sent. -/
def frameBlock (s : State) : Ran := emitBytes (framedBytes s.cfg (blockBytes s.blk)) s

/-- One data block: BLK is assembled, framed, and the counter moves on mod 2^16 (R145, R146). -/
def sendDataBlock (bytes : List Byte) (s : State) : Ran :=
  (frameBlock (setBlock (dataBlock s.blkcnt bytes) s)).andThen fun s => .done { s with blkcnt := s.blkcnt + 1#16 }

/-! ### BLKWR, BLKCLR, TXBLOCK, TXNAME -/

/-- BLKWR (R140): OPC 0x04, SEL = index. -/
def execBlkwr (index v : Byte) (s : State) : Host.Outcome State Fault Refusal :=
  runCommand 0x04#8 index (fun s => .done (setBlockByte index v s)) s

/-- BLKCLR (R141): OPC 0x05. -/
def execBlkclr (s : State) : Host.Outcome State Fault Refusal :=
  runCommand 0x05#8 0#8 (fun s => .done (setBlock (List.replicate blkSize 0x00#8) s)) s

/-- The pseudocode of TXBLOCK (R142). -/
def txblockBody (s : State) : Ran := (emitCheck (blockByteCount s) s).andThen frameBlock

/-- TXBLOCK: OPC 0x30. -/
def execTxblock (s : State) : Host.Outcome State Fault Refusal := runCommand 0x30#8 0#8 txblockBody s

/-- The pseudocode of TXNAME (R144). All of its sequence preconditions come before the check of the declared length, in the order of
60_exceptions.md R203 (log entry 11). -/
def txnameBody (s : State) : Ran :=
  if !mayName s then .raised .sequence 0 s
  else (emitCheck (blockByteCount s) s).andThen fun s =>
    (frameBlock (setBlock (nameBlock s) s)).andThen fun s => .done { s with nameDone := true }

/-- TXNAME: OPC 0x31. -/
def execTxname (s : State) : Host.Outcome State Fault Refusal := runCommand 0x31#8 0#8 txnameBody s

/-! ### TXDATA (R145) -/

/-- Read the c bytes of one TXDATA, then send the block. -/
def readAndSend (c : Nat) (s : State) : Ran :=
  match inReadUpTo c [] s with
  | .full bytes s' => sendDataBlock bytes s'
  | .short bytes s' => .raised .ioInput bytes.length s'
  | .failed s' => .raised .ioInput s'.incnt.toNat s'

/-- The pseudocode of TXDATA (R145). A count outside 1 to 253, which no decoded word has (30_encoding.md R72), raises ILLEGAL_OPERAND
with IMM here too (log entry 10). The sequence preconditions come first, as in TXNAME (log entry 11). -/
def txdataBody (count : U32) (s : State) : Ran :=
  if count.toNat < 1 ∨ dataChunk < count.toNat then .raised .illegalOperand count.toNat s
  else if !maySendData s then .raised .sequence 0 s
  else (emitCheck (blockByteCount s) s).andThen (readAndSend count.toNat)

/-- TXDATA: OPC 0x32. -/
def execTxdata (count : U32) (s : State) : Host.Outcome State Fault Refusal :=
  runCommand 0x32#8 0#8 (txdataBody count) s

/-! ### TXREST (R146) -/

/-- `ceil(a / b)` (00_scope.md R12). -/
def ceilDiv (a b : Nat) : Nat := (a + b - 1) / b

/-- The `while rem > 0` loop of BUFFERED mode; it runs once for each of the `blocks` = ceil(rem/253) blocks. -/
def sendBuffered : (blocks : Nat) → (rem : Nat) → State → Ran
  | 0, _, s => .done s
  | blocks + 1, rem, s =>
    match inReadUpTo (min dataChunk rem) [] s with
    | .full bytes s' => (sendDataBlock bytes s').andThen (sendBuffered blocks (rem - min dataChunk rem))
    | .short _ s' => .raised .ioInput s'.incnt.toNat s'
    | .failed s' => .raised .ioInput s'.incnt.toNat s'

/-- The loop of STREAMING mode; `rounds` bounds it by the input that is left (log entry 19). -/
def sendStreaming : (rounds : Nat) → State → Ran
  | 0, s => .done s
  | rounds + 1, s =>
    match inReadUpTo dataChunk [] s with
    | .full bytes s' => (sendDataBlock bytes s').andThen (sendStreaming rounds)
    | .short bytes s' => if bytes = [] then .done s' else sendDataBlock bytes s'
    | .failed s' => .raised .ioInput s'.incnt.toNat s'

/-- `rem` of R146: what of DATA_LEN has not been read. -/
def remaining (s : State) : Nat := s.dataLen.toNat - s.incnt.toNat

/-- INPUT_MODE = BUFFERED (10_state.md R21). -/
def isBuffered (s : State) : Bool := s.inputMode == 1#32

/-- How many rounds of the STREAMING loop the input that is left allows: every round but the last takes 253 bytes. -/
def streamingRounds (s : State) : Nat := s.inBytes.length / dataChunk + 1

/-- The pseudocode of TXREST (R146). The sequence preconditions come first, as in TXNAME (log entry 11). -/
def txrestBody (s : State) : Ran :=
  if !maySendData s then .raised .sequence 0 s
  else (emitCheck 0 s).andThen fun s =>
    if isBuffered s then
      (emitCheck (ceilDiv (remaining s) dataChunk * blockByteCount s) s).andThen
        (sendBuffered (ceilDiv (remaining s) dataChunk) (remaining s))
    else sendStreaming (streamingRounds s) s

/-- TXREST: OPC 0x33. -/
def execTxrest (s : State) : Host.Outcome State Fault Refusal := runCommand 0x33#8 0#8 txrestBody s

end Sys2Proof.Machine
end

