-- ==== Sys2Proof/Machine/Container.lean ====
section
/-! DEFINITION. The Container Writers (43_container.md): HDR. -/

namespace Sys2Proof.Machine

/-! ### Length (R162) -/

/-- `Known()` (R162): CONTAINER = CHUNK and INPUT_MODE = BUFFERED. -/
def lengthKnown (s : State) : Bool := s.container == 1#32 && isBuffered s

/-- `TotalBlocks` (R162). -/
def totalBlocks (s : State) : Nat := ceilDiv s.dataLen.toNat dataChunk + 1

/-- `TotalSamples` (R162). -/
def totalSamples (s : State) : Nat := totalBlocks s * blockByteTotal * 8 * 2 * s.half.toNat

/-- `DataBytes` (R162). -/
def dataBytes (s : State) : Nat := totalSamples s * frameSize s

/-- `RiffLen` (R162). -/
def riffLen (s : State) : Nat := 36 + dataBytes s

/-- The unknown-length sentinel. -/
def unknownLength : Nat := 0xFFFFFFFF

/-- What the chunk-style header's total-length field holds (R161). -/
def declaredRiffLen (s : State) : Nat := if lengthKnown s then riffLen s else unknownLength

/-- What the chunk-style header's data byte count holds (R161). -/
def declaredDataBytes (s : State) : Nat := if lengthKnown s then dataBytes s else unknownLength

/-! ### Layouts (R161, R163 to R165) -/

/-- CHANNELS (00_scope.md R10). -/
def channels : Nat := 1

/-- The 44 bytes of the chunk-style header (R161). -/
def chunkHeader (s : State) : List Byte :=
  putTagBytes 0x52494646 ++ put32Bytes (declaredRiffLen s) .little ++ putTagBytes 0x57415645
    ++ putTagBytes 0x666D7420 ++ put32Bytes 16 .little ++ put16Bytes 1 .little ++ put16Bytes channels .little
    ++ put32Bytes s.actRate.toNat .little ++ put32Bytes (s.actRate.toNat * frameSize s) .little
    ++ put16Bytes (frameSize s) .little ++ put16Bytes s.width.toNat .little
    ++ putTagBytes 0x64617461 ++ put32Bytes (declaredDataBytes s) .little

/-- The encoding code of a width (R164): linear-8 is 2, linear-16 is 3, linear-24 is 4, linear-32 is 5; no other width gets here. -/
def encodingCode (w : Nat) : Nat := w / 8 + 1

/-- The annotation's four bytes (R163). -/
def annotationBytes (cfg : Config) : List Byte :=
  [cfg.annotation.1, cfg.annotation.2.1, cfg.annotation.2.2.1, cfg.annotation.2.2.2]

/-- The 28 bytes of the simple-style header (R163). -/
def simpleHeader (s : State) : List Byte :=
  put32Bytes 0x2E736E64 .big ++ put32Bytes 28 .big ++ put32Bytes unknownLength .big
    ++ put32Bytes (encodingCode s.width.toNat) .big ++ put32Bytes s.actRate.toNat .big ++ put32Bytes channels .big
    ++ annotationBytes s.cfg

/-- The header of the configured container; RAW has none (R165). -/
def headerBytes (s : State) : List Byte :=
  match s.container.toNat with
  | 1 => chunkHeader s
  | 2 => simpleHeader s
  | _ => []

/-! ### HDR (R160) -/

/-- INPUT_MODE ∈ {BUFFERED, STREAMING}. -/
def modeLegal (m : U32) : Bool := [1, 2].contains m.toNat

/-- The mode check of HDR (R160). -/
def checkMode (s : State) : Ran :=
  if !modeLegal s.inputMode then .raised .cfgMode s.inputMode.toNat s else .done s

/-- The length check of HDR (R160, R162). -/
def checkLength (s : State) : Ran :=
  if lengthKnown s ∧ 0xFFFFFFFE < riffLen s then .raised .lengthOverflow (dataBytes s) s else .done s

/-- What HDR records once the header is written (R160): the declared length where it is known, and HDR_DONE. -/
def recordHeader (s : State) : State :=
  if lengthKnown s then { s with declBytes := BitVec.ofNat 32 (dataBytes s), declared := true, hdrDone := true }
  else { s with hdrDone := true }

/-- The pseudocode of HDR (R160). -/
def hdrBody (s : State) : Ran :=
  if !mayWriteHeader s then .raised .sequence 0 s
  else (checkGeometry s).andThen fun s => (checkMode s).andThen fun s => (checkLength s).andThen fun s =>
    (outWriteAll (headerBytes s) s).andThen fun s => .done (recordHeader s)

/-- HDR: OPC 0x40. -/
def execHdr (s : State) : Host.Outcome State Fault Refusal := runCommand 0x40#8 0#8 hdrBody s

end Sys2Proof.Machine
end

