-- ==== Sys2Proof/Machine/Driver.lean ====
section
/-! DEFINITION. The Transmission Driver and the control commands (44_driver.md): NOP, WRCFG, RDREG, RUN, CLOSE, RESET. -/

namespace Sys2Proof.Machine

/-- NOP (R180): no state changes, in every state. -/
def execNop (s : State) : Host.Outcome State Fault Refusal := .next s

/-- `WrcfgCheck(SEL, IMM)` (R184). -/
def wrcfgCheck (sel : Byte) (imm : U32) (s : State) : Ran :=
  if lastWritable < sel.toNat then .raised .illegalOperand sel.toNat s
  else if sel = 8#8 ∧ imm.extractLsb' 24 8 ≠ 0#8 then .raised .illegalOperand imm.toNat s
  else if s.initDone ∧ lockedSelector sel then .raised .sequence sel.toNat s
  else .done s

/-- WRCFG (R181): OPC 0x02, SEL = selector. -/
def execWrcfg (sel : Byte) (imm : U32) (s : State) : Host.Outcome State Fault Refusal :=
  runCommand 0x02#8 sel (fun s => (wrcfgCheck sel imm s).andThen fun s => .done (writeRegister sel imm s)) s

/-- RDREG (R182): OPC 0x03, SEL = selector. It executes in the fault state too, where a reserved selector reads 0 (60_exceptions.md R205). -/
def execRdreg (sel : Byte) (s : State) : Host.Outcome State Fault Refusal :=
  .next (if lastReadable < sel.toNat ∧ s.fault = false then takeFault .illegalOperand 0x03#8 sel sel.toNat s
    else respond (readRegister sel s) s)

/-- The pseudocode of CLOSE (R186). -/
def closeBody (s : State) : Ran :=
  if s.closed then .raised .sequence 0 s
  else if s.declared ∧ s.sbytes.toNat ≠ s.declBytes.toNat then .raised .lengthMismatch s.sbytes.toNat s
  else if refusesNext s then .raised .ioOutput s.outcnt.toNat s.drewOne
  else .done { s.drewOne with closed := true }

/-- CLOSE: OPC 0x61. -/
def execClose (s : State) : Host.Outcome State Fault Refusal := runCommand 0x61#8 0#8 closeBody s

/-- The pseudocode of RUN (R185): the bodies of the named rules in place, a fault in any of them ends RUN. -/
def runBody (s : State) : Ran :=
  if !mayRun s then .raised .sequence 0 s
  else (timingBody s).andThen fun s => (levelsBody s).andThen fun s => (initBody s).andThen fun s =>
    (hdrBody s).andThen fun s => (txnameBody s).andThen fun s => (txrestBody s).andThen closeBody

/-- RUN: OPC 0x60; a fault inside it names RUN (60_exceptions.md R204). -/
def execRun (s : State) : Host.Outcome State Fault Refusal := runCommand 0x60#8 0#8 runBody s

/-- RESET (R187): in every state, the fault state included. -/
def execReset (s : State) : Host.Outcome State Fault Refusal := .next (newSession s)

end Sys2Proof.Machine
end

