-- ==== Sys2Proof/Machine/Dispatch.lean ====
section
/-! DEFINITION. The dispatch: one arm per command, each one direct call of its meaning. -/

namespace Sys2Proof.Machine

/-- The effect of a command in a state (30_encoding.md R73). -/
def exec (i : Instr) (s : State) : Host.Outcome State Fault Refusal :=
  match i with
  | .nop => Sys2Proof.Machine.execNop s
  | .wrcfg sel imm => Sys2Proof.Machine.execWrcfg sel imm s
  | .rdreg sel => Sys2Proof.Machine.execRdreg sel s
  | .blkwr index v => Sys2Proof.Machine.execBlkwr index v s
  | .blkclr => Sys2Proof.Machine.execBlkclr s
  | .timing => Sys2Proof.Machine.execTiming s
  | .levels => Sys2Proof.Machine.execLevels s
  | .init => Sys2Proof.Machine.execInit s
  | .emitbit b => Sys2Proof.Machine.execEmitbit b s
  | .emitbyte v => Sys2Proof.Machine.execEmitbyte v s
  | .txblock => Sys2Proof.Machine.execTxblock s
  | .txname => Sys2Proof.Machine.execTxname s
  | .txdata count => Sys2Proof.Machine.execTxdata count s
  | .txrest => Sys2Proof.Machine.execTxrest s
  | .hdr => Sys2Proof.Machine.execHdr s
  | .put8 v => Sys2Proof.Machine.execPut8 v s
  | .put16le v => Sys2Proof.Machine.execPut16le v s
  | .put16be v => Sys2Proof.Machine.execPut16be v s
  | .put32le v => Sys2Proof.Machine.execPut32le v s
  | .put32be v => Sys2Proof.Machine.execPut32be v s
  | .puttag t => Sys2Proof.Machine.execPuttag t s
  | .run => Sys2Proof.Machine.execRun s
  | .close => Sys2Proof.Machine.execClose s
  | .reset => Sys2Proof.Machine.execReset s

end Sys2Proof.Machine
end

