-- ==== Sys2Proof/Machine/Execute.lean ====
section
/-! DEFINITION. What the engine does with a command word it has taken from the command port. -/

namespace Sys2Proof.Machine

/-- Execute the command, enter the fault state on an illegal word (30_encoding.md R72, R74), or discard the word (60_exceptions.md R205). -/
def perform (w : U64) (d : Decoded) (s : State) : Host.Outcome State Fault Refusal :=
  match d with
  | .instr i => exec i s
  | .illegalCommand opc => .next (takeFault .illegalCommand (fieldOpc w) (fieldSel w) opc.toNat s)
  | .illegalOperand value => .next (takeFault .illegalOperand (fieldOpc w) (fieldSel w) value.toNat s)
  | .discarded => .next s

/-- The step of an engine that has taken the word `w`; `s` is the state without it. -/
def performWord (w : U64) (s : State) : Host.Outcome State Fault Refusal := perform w (decodeIn s.fault w) s

/-- The step of an engine to which the host has sent no word: it is idle (log entry 1). -/
def idle (s : State) : Host.Outcome State Fault Refusal := .next s

end Sys2Proof.Machine
end

