-- ==== Sys2Proof/Machine/Step.lean ====
section
/-! DEFINITION. One step of the engine: the next command word of the host, executed as one atomic step (70_reset_and_hazards.md R243). -/

namespace Sys2Proof.Machine

/-- One step: take the next command word, decode it, execute it. With no word on the command port the engine is idle (log entry 1). -/
def step (s : State) : Host.Outcome State Fault Refusal :=
  match fetch s with
  | none => idle s
  | some (w, s') => performWord w s'

/-- The state with this command word as the next one the host sends (log entry 2). -/
def State.withFetchWord (s : State) (nbits w : Nat) : State :=
  { s with commands := tableWord nbits w :: s.commands }

end Sys2Proof.Machine
end

