-- ==== Sys2Proof/Safety.lean ====
section
/-! DEFINITION. The terms that claims about the engine use: accesses the host grants, the closed form of the output and of the waveform, and the invariant of every session. -/

namespace Sys2Proof.Machine

/-! ### The host's answers -/

/-- The host's answer to the k-th access from now (0 is the next one): true = it refuses. -/
def refusesAt (s : State) (k : Nat) : Bool := (s.hostRefuses[k]?).getD (Config.hostRefuses (s.drawn + k))

/-- The host grants the next `n` accesses (20_memory.md R51, R53: every `draw ok` of them is true). -/
def Granted (s : State) (n : Nat) : Prop := ∀ k, k < n → refusesAt s k = false

/-! ### The words and tables of the spec, written out -/

/-- The listed operation codes of 30_encoding.md R73. -/
def listedOpcodes : List Nat :=
  [0x01, 0x02, 0x03, 0x04, 0x05, 0x10, 0x11, 0x12, 0x20, 0x21, 0x30, 0x31, 0x32, 0x33, 0x40, 0x50, 0x60, 0x61, 0x7F]

/-- The rows of 30_encoding.md R71 as the decoder checks them (R72: not the selector ranges of WRCFG and RDREG, not the EXT bits). -/
def rowAdmits (opc sel imm : Nat) : Bool :=
  if opc = 0x02 then true
  else if opc = 0x03 then decide (imm = 0)
  else if opc = 0x04 then decide (imm < 256)
  else if opc = 0x20 then decide (sel = 0 ∧ imm < 2)
  else if opc = 0x21 then decide (sel = 0 ∧ imm < 256)
  else if opc = 0x32 then decide (sel = 0 ∧ 1 ≤ imm ∧ imm ≤ 253)
  else if opc = 0x50 then decide ((sel = 0 ∧ imm < 256) ∨ ((sel = 1 ∨ sel = 2) ∧ imm < 65536) ∨ (3 ≤ sel ∧ sel ≤ 5))
  else decide (sel = 0 ∧ imm = 0)

/-- The state that the first fault of a session leaves (60_exceptions.md R204): `number` is the code of R200. -/
def State.faulted (s : State) (number : Nat) (opc sel : Byte) (value : Nat) : State :=
  { s with
    faultCode := BitVec.ofNat 32 number
    faultInfo := BitVec.ofNat 32 (256 * sel.toNat + opc.toNat)
    faultValue := BitVec.ofNat 32 value
    fault := true }

/-- The numbers of the fault codes (60_exceptions.md R200). -/
def codeNumbers : List (FaultCode × Nat) :=
  [(.cfgBaud, 0x01), (.cfgRate, 0x02), (.cfgHalfbit, 0x03), (.cfgWidth, 0x04), (.cfgContainer, 0x05), (.cfgMode, 0x06),
   (.cfgLevel, 0x07), (.lengthOverflow, 0x08), (.lengthMismatch, 0x09), (.ioOutput, 0x0A), (.ioInput, 0x0B),
   (.illegalCommand, 0x0C), (.illegalOperand, 0x0D), (.sequence, 0x0E)]

/-- The registers by selector, 0 to 24 (10_state.md R21, R23, 44_driver.md R182). -/
def registerFile (s : State) : List U32 :=
  [s.baud, s.reqRate, s.width, s.container, s.inputMode, s.dataLen, s.nameA, s.nameB, s.ext, s.lowValue, s.highValue,
   s.half, s.actRate,
   BitVec.ofNat 32 (s.pol.toNat + 2 * s.timingOk.toNat + 4 * s.initDone.toNat + 8 * s.hdrDone.toNat + 16 * s.nameDone.toNat
     + 32 * s.samples.toNat + 64 * s.declared.toNat + 128 * s.closed.toNat + 256 * s.fault.toNat + 512 * s.eof.toNat),
   s.faultCode, BitVec.ofNat 32 s.blkcnt.toNat,
   BitVec.ofNat 32 s.outcnt.toNat, BitVec.ofNat 32 (s.outcnt.toNat / 2 ^ 32),
   BitVec.ofNat 32 s.sbytes.toNat, BitVec.ofNat 32 (s.sbytes.toNat / 2 ^ 32),
   s.declBytes,
   BitVec.ofNat 32 s.incnt.toNat, BitVec.ofNat 32 (s.incnt.toNat / 2 ^ 32),
   s.faultInfo, s.faultValue]

/-- A 16-bit value, low byte first (40_codec.md R116). -/
def le16 (v : U16) : List Byte := [v.extractLsb' 0 8, v.extractLsb' 8 8]

/-- A 16-bit value, high byte first. -/
def be16 (v : U16) : List Byte := [v.extractLsb' 8 8, v.extractLsb' 0 8]

/-- A 32-bit value, low byte first. -/
def le32 (v : U32) : List Byte := [v.extractLsb' 0 8, v.extractLsb' 8 8, v.extractLsb' 16 8, v.extractLsb' 24 8]

/-- A 32-bit value, high byte first. -/
def be32 (v : U32) : List Byte := [v.extractLsb' 24 8, v.extractLsb' 16 8, v.extractLsb' 8 8, v.extractLsb' 0 8]

/-- The PUT commands: SEL and the bytes each appends (40_codec.md R110 to R115); none for every other command. -/
def putImage : Instr → Option (Byte × List Byte)
  | .put8 v => some (0#8, [v])
  | .put16le v => some (1#8, le16 v)
  | .put16be v => some (2#8, be16 v)
  | .put32le v => some (3#8, le32 v)
  | .put32be v => some (4#8, be32 v)
  | .puttag t => some (5#8, be32 t)
  | _ => none

/-- The number that bytes stand for, the first one lowest: what a reader of little-endian bytes computes. -/
def littleValue : List Byte → Nat
  | [] => 0
  | b :: bs => b.toNat + 256 * littleValue bs

/-! ### Closed forms of the output (20_memory.md R53, 41_modulation.md R128) -/

/-- The state after the host has accepted these bytes one by one, OUTCNT not wrapping. -/
def State.written (s : State) (bytes : List Byte) : State :=
  { s with
    hostRefuses := s.hostRefuses.drop bytes.length
    drawn := s.drawn + bytes.length
    outRev := bytes.reverse ++ s.outRev
    outcnt := s.outcnt + BitVec.ofNat 64 bytes.length }

/-- The state after these sample bytes, with the polarity flag at `p`, SBYTES and OUTCNT not wrapping. -/
def State.emitted (s : State) (bytes : List Byte) (p : Bool) : State :=
  { s with
    hostRefuses := s.hostRefuses.drop bytes.length
    drawn := s.drawn + bytes.length
    outRev := bytes.reverse ++ s.outRev
    outcnt := s.outcnt + BitVec.ofNat 64 bytes.length
    sbytes := s.sbytes + BitVec.ofNat 64 bytes.length
    samples := s.samples || !bytes.isEmpty
    pol := p }

/-- The state after the host has supplied these bytes, the next bytes of its input, INCNT not wrapping (20_memory.md R51). -/
def State.taken (s : State) (bytes : List Byte) : State :=
  { s with
    hostRefuses := s.hostRefuses.drop bytes.length
    drawn := s.drawn + bytes.length
    inPort := some (s.inBytes.drop bytes.length)
    incnt := s.incnt + BitVec.ofNat 64 bytes.length }

/-! ### The waveform (41_modulation.md R129 to R134) -/

/-- One half-bit run at polarity `p`: HALF frames of HIGH_VALUE (p = 1) or LOW_VALUE (p = 0). -/
def levelRun (s : State) (p : Bool) : List Byte :=
  (List.replicate s.half.toNat
    (sampleBytes (if p then s.highValue else s.lowValue) s.width.toNat (convention s).order)).flatten

/-- The polarity after one bit that starts at polarity `p`: toggled by a 0, kept by a 1 (R130). -/
def polarityAfterBit (p b : Bool) : Bool := if b then p else !p

/-- The two half-bit runs of one bit that starts at polarity `p` (R130). -/
def bitWave (s : State) (p b : Bool) : List Byte := levelRun s (!p) ++ levelRun s (polarityAfterBit p b)

/-- The waveform of a bit sequence that starts at polarity `p`: one phase-continuous stream (R133). -/
def bitsWave (s : State) : Bool → List Bool → List Byte
  | _, [] => []
  | p, b :: bs => bitWave s p b ++ bitsWave s (polarityAfterBit p b) bs

/-- The polarity after a bit sequence that starts at polarity `p`. -/
def polarityAfter : Bool → List Bool → Bool
  | p, [] => p
  | p, b :: bs => polarityAfter (polarityAfterBit p b) bs

/-- P while the host is asked for each byte of `bitsWave s p bits`: toggled before the first half run of a bit, and again before the
second run of a 1 (R130). -/
def polarities (s : State) : Bool → List Bool → List Bool
  | _, [] => []
  | p, b :: bs =>
    List.replicate (s.half.toNat * frameSize s) (!p) ++ List.replicate (s.half.toNat * frameSize s) (polarityAfterBit p b)
      ++ polarities s (polarityAfterBit p b) bs

/-- The bits of a byte sequence, each byte least significant bit first (R131). -/
def bitStream (bytes : List Byte) : List Bool := bytes.flatMap bitsOf

/-- The state after these bytes have been modulated without a refusal. -/
def State.modulated (s : State) (bytes : List Byte) : State :=
  s.emitted (bitsWave s s.pol (bitStream bytes)) (polarityAfter s.pol (bitStream bytes))

/-! ### Data blocks (42_framer.md R146, R150) -/

/-- The input cut into runs of 253 bytes, the last one shorter; `blocks` bounds their number. -/
def chunksOf : (blocks : Nat) → List Byte → List (List Byte)
  | 0, _ => []
  | blocks + 1, bytes =>
    if bytes.isEmpty then [] else bytes.take dataChunk :: chunksOf blocks (bytes.drop dataChunk)

/-- The framed bytes of the data blocks that carry these chunks, the counter counting up from `counter` (R148, R149, R151). -/
def framedChunks (cfg : Config) : U16 → List (List Byte) → List Byte
  | _, [] => []
  | counter, c :: cs => framedBytes cfg (dataBlock counter c) ++ framedChunks cfg (counter + 1#16) cs

/-- What BLK holds after the data blocks that carry these chunks: the last one's payload (R148). -/
def lastBlock : Memory → U16 → List (List Byte) → Memory
  | blk, _, [] => blk
  | _, counter, c :: cs => lastBlock (cellsFrom 0 (dataBlock counter c)) (counter + 1#16) cs

/-- The state after the host has supplied these chunks and each has been sent as a data block, without a refusal and with no
64-bit counter wrapping: the samples of all the blocks as one phase-continuous stream. -/
def State.blocksSent (s : State) (chunks : List (List Byte)) : State :=
  let bits := bitStream (framedChunks s.cfg s.blkcnt chunks)
  let wave := bitsWave s s.pol bits
  let input := chunks.flatten
  { s.emitted wave (polarityAfter s.pol bits) with
    hostRefuses := s.hostRefuses.drop (input.length + wave.length)
    drawn := s.drawn + (input.length + wave.length)
    blk := lastBlock s.blk s.blkcnt chunks
    blkcnt := s.blkcnt + BitVec.ofNat 16 chunks.length
    incnt := s.incnt + BitVec.ofNat 64 input.length
    inPort := if input.isEmpty then s.inPort else some (s.inBytes.drop input.length) }

/-- The state after the host has reported the end of its input (20_memory.md R51). -/
def State.endOfInput (s : State) : State := { s.drewOne with eof := true }

/-- The state after TIMING, LEVELS and INIT have gone through (41_modulation.md R121, R124, R126): the timing registers, the level
words of the configured width and container, both buffers, P, and the three flags. -/
def State.prepared (s : State) : State :=
  { s with
    half := BitVec.ofNat 32 (deriveHalf s.cfg.rounding s.reqRate.toNat s.baud.toNat)
    actRate := BitVec.ofNat 32 (2 * deriveHalf s.cfg.rounding s.reqRate.toNat s.baud.toNat * s.baud.toNat)
    timingOk := true
    lowValue := levelWord lowMilli s.width.toNat (convention s).offset8
    highValue := levelWord highMilli s.width.toNat (convention s).offset8
    hiBuf := Vector.replicate 128 (levelWord highMilli s.width.toNat (convention s).offset8)
    loBuf := Vector.replicate 128 (levelWord lowMilli s.width.toNat (convention s).offset8)
    pol := s.cfg.initPolarity
    initDone := true }

/-! ### The accesses of a transmission, in the order the pseudocode makes them -/

/-- An access that the host grants or refuses (20_memory.md R51, R53, 44_driver.md R186). -/
inductive Access where
  /-- `InRead()` that takes a byte -/
  | byteIn
  /-- `InRead()` that reports the end of the input -/
  | endOfInput
  /-- `OutWrite` of a byte of the container header -/
  | headerByte
  /-- `OutWrite` of a sample byte -/
  | sampleByte
  /-- the flush of CLOSE -/
  | flush
  deriving DecidableEq, Repr

/-- A data block that carries `c` bytes: all are read before the first is modulated (42_framer.md R145, R146). -/
def State.blockAccesses (s : State) (c : Nat) : List Access :=
  List.replicate c Access.byteIn ++ List.replicate (blockByteCount s) Access.sampleByte

/-- TXREST with `left` bytes to send (42_framer.md R146): the full blocks, then a short one if bytes are left over. STREAMING meets the
end of the input when it asks for more. -/
def State.restAccesses (s : State) (left : Nat) : List Access :=
  (List.replicate (left / 253) (s.blockAccesses 253)).flatten
    ++ (List.replicate (left % 253) Access.byteIn ++ (if isBuffered s then [] else [Access.endOfInput])
      ++ if left % 253 = 0 then [] else List.replicate (blockByteCount s) Access.sampleByte)

/-- TXREST in BUFFERED mode over an input of `there` bytes that ends before DATA_LEN (42_framer.md R146): the full blocks, the bytes left
over, the end of the input. -/
def State.shortAccesses (s : State) (there : Nat) : List Access :=
  (List.replicate (there / 253) (s.blockAccesses 253)).flatten ++ (List.replicate (there % 253) Access.byteIn ++ [Access.endOfInput])

/-- RUN after INIT (44_driver.md R185): the header, the name block, and `rest`, what TXREST and CLOSE make. -/
def State.runAccesses (s : State) (rest : List Access) : List Access :=
  List.replicate (headerBytes s).length Access.headerByte ++ (List.replicate (blockByteCount s) Access.sampleByte ++ rest)

/-! ### When a command that emits samples completes -/

/-- What EMITBIT, EMITBYTE, TXBLOCK, TXNAME, TXDATA and TXREST need of the flags and the declared length to emit `n` sample bytes
(41_modulation.md R127), with counters that do not wrap (10_state.md R28). -/
structure EmitReady (s : State) (n : Nat) : Prop where
  running : s.fault = false
  initDone : s.initDone = true
  hdrDone : s.hdrDone = true
  open_ : s.closed = false
  room : s.declared = true → s.sbytes.toNat + n ≤ s.declBytes.toNat
  outcnt_fits : s.outcnt.toNat + n < 2 ^ 64
  sbytes_fits : s.sbytes.toNat + n < 2 ^ 64

/-! ### The invariant of a session -/

/-- What holds in every state of every session: the legal ranges of 10_state.md R21 to R29 and the order of commands
(70_reset_and_hazards.md R233), as the flags record it. -/
structure Inv (s : State) : Prop where
  /-- BLK is in canonical form, no address beyond 255 (R27) -/
  blk_wf : Memory.wf s.blk = true
  /-- R24: once TIMING_OK, 1 ≤ H ≤ 128 -/
  half_range : s.timingOk = true → 1 ≤ s.half.toNat ∧ s.half.toNat ≤ 128
  /-- R24: once TIMING_OK, ACT_RATE = 2·H·(the legal baud TIMING was given) -/
  actRate_eq : s.timingOk = true → ∃ b, baudLegal s.cfg b = true ∧ s.actRate.toNat = 2 * s.half.toNat * b
  /-- R24: both are 0 until TIMING succeeds -/
  untimed : s.timingOk = false → s.half = 0#32 ∧ s.actRate = 0#32
  /-- INIT requires TIMING_OK (41_modulation.md R126) -/
  init_timed : s.initDone = true → s.timingOk = true
  /-- after INIT the geometry is legal and locked (R22, 41_modulation.md R125) -/
  init_geometry : s.initDone = true → widthLegal s.width = true ∧ containerLegal s.container = true
  /-- after INIT both level words fit the width (41_modulation.md R126) -/
  init_levels : s.initDone = true → s.lowValue.toNat < 2 ^ s.width.toNat ∧ s.highValue.toNat < 2 ^ s.width.toNat
  /-- R25: after INIT every entry of a level buffer holds its level word -/
  init_buffers : s.initDone = true → s.hiBuf = Vector.replicate 128 s.highValue ∧ s.loBuf = Vector.replicate 128 s.lowValue
  /-- HDR requires INIT (43_container.md R160) -/
  hdr_init : s.hdrDone = true → s.initDone = true
  /-- after HDR the input mode is legal and locked -/
  hdr_mode : s.hdrDone = true → modeLegal s.inputMode = true
  /-- samples come only after the header (43_container.md R160) -/
  samples_hdr : s.samples = true → s.hdrDone = true
  /-- the name block comes only after the header (42_framer.md R144) -/
  name_hdr : s.nameDone = true → s.hdrDone = true
  /-- SBYTES counts sample bytes (R28) -/
  sbytes_zero : s.samples = false → s.sbytes = 0#64
  /-- a length is declared exactly by an HDR that knows it (43_container.md R160, R162) -/
  declared_known : s.hdrDone = true → s.declared = lengthKnown s
  /-- and by nothing else -/
  declared_hdr : s.declared = true → s.hdrDone = true
  /-- the declared length is that of the configured input (R162) -/
  declared_eq : s.declared = true → s.declBytes.toNat = dataBytes s
  /-- no emission goes past the declared length (41_modulation.md R127) -/
  declared_room : s.declared = true → s.sbytes.toNat ≤ s.declBytes.toNat
  /-- DECL_BYTES is written by HDR only -/
  undeclared : s.declared = false → s.declBytes = 0#32
  /-- the input is read, and data blocks are counted, only after the name block (42_framer.md R145, R146, R151) -/
  unread : s.nameDone = false → s.incnt = 0#64 ∧ s.eof = false ∧ s.blkcnt = 0#16
  /-- R28: OUTCNT counts the bytes of this session's OUT, as long as it does not wrap -/
  outcnt_eq : s.outRev.length < 2 ^ 64 → s.outcnt.toNat = s.outRev.length
  /-- R28: SBYTES counts some of those bytes -/
  sbytes_le : s.outRev.length < 2 ^ 64 → s.sbytes.toNat ≤ s.outRev.length
  /-- EXT holds three bytes (R21) -/
  ext_high : s.ext.toNat < 2 ^ 24
  /-- R29: outside the fault state the fault registers hold 0 -/
  no_fault : s.fault = false → s.faultCode = 0#32 ∧ s.faultInfo = 0#32 ∧ s.faultValue = 0#32
  /-- R29, 60_exceptions.md R200: in it FAULT_CODE holds a code of the table, and FAULT_INFO's high half reads as 0 -/
  fault_code : s.fault = true → 1 ≤ s.faultCode.toNat ∧ s.faultCode.toNat ≤ 14 ∧ s.faultInfo.toNat < 2 ^ 16

end Sys2Proof.Machine
end

