-- ==== Sys2Proof/Certificates/Slice0/Obligations.lean ====
section
/-! DEFINITION. The statements for the provers. Each docstring names the rule of spec/ it formalises, and says so where a clause is the model's choice. -/

open Sys2Proof Sys2Proof.Machine

/-! ### Decoding and encoding (30_encoding.md R70 to R75) -/

/-- R70 to R73: the word of a well-formed command decodes to that command, every operand at every value its row admits. -/
def Obligations.DecodeOfEncode : Prop :=
  ∀ i : Instr, i.wellFormed = true → decode (encode i) = .instr i

/-- R72: a word that decodes to a command is that command's one word, and the command is well formed: no two words share a meaning. -/
def Obligations.EncodeOfDecode : Prop :=
  ∀ (w : U64) (i : Instr), decode w = .instr i → encode i = w ∧ i.wellFormed = true

/-- R70, R71, R73: words written out from the encoding rows, the example of R181 among them, decode to the commands they stand for, and
the all-zero word is illegal. -/
def Obligations.DecodesTheSpecsWords : Prop :=
  decode 0x02000000000002BC#64 = .instr (.wrcfg 0#8 700#32) ∧
  decode 0x030D000000000000#64 = .instr (.rdreg 13#8) ∧
  decode 0x0403000000000041#64 = .instr (.blkwr 3#8 0x41#8) ∧
  decode 0x1000000000000000#64 = .instr .timing ∧
  decode 0x21000000000000A5#64 = .instr (.emitbyte 0xA5#8) ∧
  decode 0x32000000000000FD#64 = .instr (.txdata 253#32) ∧
  decode 0x4000000000000000#64 = .instr .hdr ∧
  decode 0x5002000000001234#64 = .instr (.put16be 0x1234#16) ∧
  decode 0x5005000052494646#64 = .instr (.puttag 0x52494646#32) ∧
  decode 0x7F00000000000000#64 = .instr .reset ∧
  decode 0x0000000000000000#64 = .illegalCommand 0x00#8

/-- R72, R74: what one step does with a word, whatever the word: a reserved OPC, then a non-zero RSV, then an operand outside the
row of R71 raise their faults; a selector or an EXT value that the commands' own rules check raises ILLEGAL_OPERAND too; every
other word is executed as the one command it names; and in the fault state a word other than NOP, RDREG and RESET is discarded. -/
def Obligations.DecodingIsTotal : Prop :=
  ∀ (s : State) (w : U64) (rest : List U64), s.commands = w :: rest →
    let u : State := { s with commands := rest }
    let opc := (fieldOpc w).toNat
    let sel := (fieldSel w).toNat
    let rsv := (fieldRsv w).toNat
    let imm := (fieldImm w).toNat
    (s.fault = true → opc ∉ [0x01, 0x03, 0x7F] → step s = .next u) ∧
    (s.fault = false →
      (opc ∉ listedOpcodes → step s = .next (u.faulted 0x0C (fieldOpc w) (fieldSel w) opc)) ∧
      (opc ∈ listedOpcodes → rsv ≠ 0 → step s = .next (u.faulted 0x0D (fieldOpc w) (fieldSel w) rsv)) ∧
      (opc ∈ listedOpcodes → rsv = 0 → rowAdmits opc sel imm = false →
        step s = .next (u.faulted 0x0D (fieldOpc w) (fieldSel w) imm)) ∧
      (opc = 0x02 → rsv = 0 → 10 < sel → step s = .next (u.faulted 0x0D (fieldOpc w) (fieldSel w) sel)) ∧
      (opc = 0x02 → rsv = 0 → sel = 8 → 2 ^ 24 ≤ imm → step s = .next (u.faulted 0x0D (fieldOpc w) (fieldSel w) imm)) ∧
      (opc = 0x03 → rsv = 0 → imm = 0 → 24 < sel → step s = .next (u.faulted 0x0D (fieldOpc w) (fieldSel w) sel)) ∧
      (opc ∈ listedOpcodes → rsv = 0 → rowAdmits opc sel imm = true →
        ∃ i, decode w = .instr i ∧ encode i = w ∧ step s = exec i u))

/-! ### One step -/

/-- 10_state.md R26, 70_reset_and_hazards.md R243: one step takes the next word of the command port and is the execution of the
command it decodes to (in the fault state, as R205 decodes it), on the state without that word; so a state given the word of a
well-formed command runs exactly that command. The queue of words in State is the model's (log entries 1 and 2). -/
def Obligations.StepRunsDecodedInstruction : Prop :=
  (∀ (s : State) (w : U64) (rest : List U64) (i : Instr), s.commands = w :: rest → decodeIn s.fault w = .instr i →
    step s = exec i { s with commands := rest }) ∧
  (∀ (s : State) (i : Instr), s.fault = false → i.wellFormed = true →
    step (s.withFetchWord 64 (encode i).toNat) = exec i s)

/-- Log entry 1, DESIGN CHOICE: with no word on the command port the engine is idle and nothing changes. -/
def Obligations.IdleWithoutCommand : Prop :=
  ∀ s : State, s.commands = [] → step s = .next s

/-! ### The fault state (60_exceptions.md R200 to R206) -/

/-- R205: while faulted, NOP, RDREG and RESET execute with their fields unchecked (a reserved selector reads 0), every other word,
a reserved OPC included, changes nothing; the first fault's record and the output stay. What RESET leaves is R187's statement. -/
def Obligations.FaultStateDiscards : Prop :=
  ∀ (s : State) (w : U64) (rest : List U64), s.fault = true → s.commands = w :: rest →
    let u : State := { s with commands := rest }
    (fieldOpc w = 0x01#8 → step s = .next u) ∧
    (fieldOpc w = 0x03#8 → step s = .next { u with responses := s.responses ++ [((registerFile s)[(fieldSel w).toNat]?).getD 0#32] }) ∧
    (fieldOpc w = 0x7F#8 → step s = exec .reset u) ∧
    (fieldOpc w ≠ 0x01#8 → fieldOpc w ≠ 0x03#8 → fieldOpc w ≠ 0x7F#8 → step s = .next u) ∧
    (∀ t, step s = .next t → fieldOpc w ≠ 0x7F#8 →
      t.fault = true ∧ t.faultCode = s.faultCode ∧ t.faultInfo = s.faultInfo ∧ t.faultValue = s.faultValue ∧ t.out = s.out)

/-- R204 with the codes of R200: a raise outside the fault state records the code, the command and the value, sets S.FAULT and ends
the command in the state of the raise point, nothing rolled back; in the fault state it records nothing. A fault inside RUN names RUN. -/
def Obligations.FaultEntryRecords : Prop :=
  (∀ (c : FaultCode) (n : Nat) (opc sel : Byte) (v : Nat) (s : State), (c, n) ∈ codeNumbers →
    (s.fault = false → takeFault c opc sel v s = s.faulted n opc sel v) ∧ (s.fault = true → takeFault c opc sel v s = s)) ∧
  (∀ (c : FaultCode) (n : Nat) (opc sel : Byte) (v : Nat) (body : State → Ran) (s r : State), (c, n) ∈ codeNumbers →
    s.fault = false → r.fault = false → body s = .raised c v r → runCommand opc sel body s = .next (r.faulted n opc sel v)) ∧
  (∀ s t : State, s.fault = false → exec .run s = .next t → t.fault = true → t.faultInfo = 0x60#32)

/-- R206: RESET is the only way out of the fault state, and it ends the session; faults do not nest: whatever the word, a step from
the fault state that is no RESET keeps the first fault's record. -/
def Obligations.OnlyResetLeavesTheFaultState : Prop :=
  (∀ (i : Instr) (s t : State), s.fault = true → exec i s = .next t →
    (i ≠ .reset → t.fault = true ∧ t.faultCode = s.faultCode ∧ t.faultInfo = s.faultInfo ∧ t.faultValue = s.faultValue) ∧
    (i = .reset → t.fault = false ∧ t.faultCode = 0#32 ∧ t.faultInfo = 0#32 ∧ t.faultValue = 0#32 ∧ t.session = s.session + 1)) ∧
  (∀ s t : State, s.fault = true → step s = .next t →
    t.fault = true ∧ t.faultCode = s.faultCode ∧ t.faultInfo = s.faultInfo ∧ t.faultValue = s.faultValue ∧
      t.session = s.session ∨
    ∃ w rest, s.commands = w :: rest ∧ fieldOpc w = 0x7F#8 ∧ step s = exec .reset { s with commands := rest })

/-! ### Control commands (44_driver.md R180 to R187) -/

/-- R180: NOP executes in every state and changes nothing. -/
def Obligations.NopChangesNothing : Prop :=
  ∀ s : State, exec .nop s = .next s

/-- R181: a WRCFG that passes the checks of R184 writes its value into the selected register, whatever the value, and changes no
other register, no flag, no memory and no port. -/
def Obligations.WrcfgWritesOneRegister : Prop :=
  ∀ (sel : Byte) (imm : U32) (s : State), s.fault = false → sel.toNat ≤ 10 → (sel.toNat = 8 → imm.toNat < 2 ^ 24) →
    (s.initDone = true → 6 ≤ sel.toNat ∧ sel.toNat ≤ 8) →
    ∃ t, exec (.wrcfg sel imm) s = .next t ∧ registerFile t = (registerFile s).set sel.toNat imm ∧
      t = { s with
        baud := t.baud, reqRate := t.reqRate, width := t.width, container := t.container, inputMode := t.inputMode,
        dataLen := t.dataLen, nameA := t.nameA, nameB := t.nameB, ext := t.ext, lowValue := t.lowValue,
        highValue := t.highValue }

/-- R184: the checks of WRCFG in their order: a selector above 10, then EXT bits above the three bytes, then the lock after INIT;
each one leaves the state but for the fault record, and a value that passes them is written. -/
def Obligations.WrcfgChecksInOrder : Prop :=
  ∀ (sel : Byte) (imm : U32) (s : State), s.fault = false →
    exec (.wrcfg sel imm) s = .next (
      if 10 < sel.toNat then s.faulted 0x0D 0x02#8 sel sel.toNat
      else if sel.toNat = 8 ∧ 2 ^ 24 ≤ imm.toNat then s.faulted 0x0D 0x02#8 sel imm.toNat
      else if s.initDone = true ∧ sel.toNat ∈ [0, 1, 2, 3, 4, 5, 9, 10] then s.faulted 0x0E 0x02#8 sel sel.toNat
      else writeRegister sel imm s)

/-- R182 with R21 and R23: RDREG sends the selected register's 32 bits to the response port and changes nothing else, in every
state; a reserved selector raises ILLEGAL_OPERAND with the selector, and in the fault state reads 0 (60_exceptions.md R205). -/
def Obligations.RdregRespondsTheRegister : Prop :=
  ∀ (sel : Byte) (s : State),
    (∀ v, (registerFile s)[sel.toNat]? = some v → exec (.rdreg sel) s = .next { s with responses := s.responses ++ [v] }) ∧
    (24 < sel.toNat → s.fault = false → exec (.rdreg sel) s = .next (s.faulted 0x0D 0x03#8 sel sel.toNat)) ∧
    (24 < sel.toNat → s.fault = true → exec (.rdreg sel) s = .next { s with responses := s.responses ++ [0#32] }) ∧
    (sel.toNat ≤ 24 → ∃ v, (registerFile s)[sel.toNat]? = some v)

/-- R187, 70_reset_and_hazards.md R230: RESET, in every state, gives every state element its reset value and starts a session with a
fresh input and an empty output; the earlier session's bytes stay the host's. What the host's fields hold after it is the model's
choice (log entries 1, 3, 4, 13, 14, 24, 27), and so is the 0 that State.powerOn leaves in HI_BUF and LO_BUF, which R30 leaves
unspecified (log entry 6). -/
def Obligations.ResetStartsANewSession : Prop :=
  ∀ s : State, exec .reset s = .next
    { State.powerOn s.cfg with
      commands := s.commands, inPort := s.nextInputs.head?, nextInputs := s.nextInputs.tail,
      delivered := s.out :: s.delivered, responses := s.responses, hostRefuses := s.hostRefuses, drawn := s.drawn,
      session := s.session + 1 }

/-- 10_state.md R30: after power-on reset and after RESET every register reads its reset value (STATUS holds INIT_POLARITY in bit 0
and 0 elsewhere) and every byte of BLK is 0x00; the level buffers are unspecified, so nothing is said of them. -/
def Obligations.ResetValues : Prop :=
  (∀ cfg : Config,
    registerFile (State.powerOn cfg) =
      List.replicate 13 0#32 ++ [if cfg.initPolarity then 1#32 else 0#32] ++ List.replicate 11 0#32 ∧
    ∀ a, readCell (State.powerOn cfg).blk a = 0x00#8) ∧
  (∃ cfg : Config, State.reset = State.powerOn cfg) ∧
  (∀ s t : State, exec .reset s = .next t →
    registerFile t = List.replicate 13 0#32 ++ [if s.cfg.initPolarity then 1#32 else 0#32] ++ List.replicate 11 0#32 ∧
    ∀ a, readCell t.blk a = 0x00#8)

/-! ### The block buffer (42_framer.md R140, R141) -/

/-- R140: BLKWR writes its byte at its index, in every state outside the fault state; every other byte of BLK and everything else
stays. -/
def Obligations.BlkwrStoresOneByte : Prop :=
  ∀ (index v : Byte) (s : State), s.fault = false → Memory.wf s.blk = true →
    ∃ t, exec (.blkwr index v) s = .next t ∧ t = { s with blk := t.blk } ∧ Memory.wf t.blk = true ∧
      readCell t.blk index.toNat = v ∧ ∀ a, a ≠ index.toNat → readCell t.blk a = readCell s.blk a

/-- R141: BLKCLR writes 0x00 to all 256 bytes and changes nothing else. -/
def Obligations.BlkclrClearsTheBuffer : Prop :=
  ∀ s : State, s.fault = false →
    ∃ t, exec .blkclr s = .next t ∧ t = { s with blk := t.blk } ∧ Memory.wf t.blk = true ∧ ∀ a, readCell t.blk a = 0x00#8

/-! ### The codec (40_codec.md R110 to R116) -/

/-- R110 to R115: PUT8, PUT16LE, PUT16BE, PUT32LE, PUT32BE and PUTTAG append their value's bytes in their order to OUT and count them
in OUTCNT, before or after INIT and HDR, where the port is open and grants each byte; nothing else changes but the host's answers. -/
def Obligations.PutAppendsItsBytes : Prop :=
  ∀ (i : Instr) (sel : Byte) (bytes : List Byte) (s : State), putImage i = some (sel, bytes) → s.fault = false →
    s.closed = false → Granted s bytes.length → s.outcnt.toNat + bytes.length < 2 ^ 64 →
    exec i s = .next { s with
      outRev := bytes.reverse ++ s.outRev
      outcnt := s.outcnt + BitVec.ofNat 64 bytes.length
      hostRefuses := s.hostRefuses.drop bytes.length
      drawn := s.drawn + bytes.length }

/-- 20_memory.md R53, 00_scope.md R14: where the port refuses the (k+1)-th byte of a PUT, the k bytes before it stay in OUT and in
OUTCNT, and IO_OUTPUT records OUTCNT. -/
def Obligations.PutRefusedKeepsItsPrefix : Prop :=
  ∀ (i : Instr) (sel : Byte) (bytes : List Byte) (k : Nat) (s : State), putImage i = some (sel, bytes) → s.fault = false →
    s.closed = false → k < bytes.length → Granted s k → refusesAt s k = true → s.outcnt.toNat + k < 2 ^ 64 →
    exec i s = .next (State.faulted { s with
      outRev := (bytes.take k).reverse ++ s.outRev
      outcnt := s.outcnt + BitVec.ofNat 64 k
      hostRefuses := s.hostRefuses.drop (k + 1)
      drawn := s.drawn + (k + 1) } 0x0A 0x50#8 sel (s.outcnt.toNat + k))

/-- R116: the primitives write the bytes of the value in the named order, and reading 2 or 4 bytes back in that order gives the value;
they change neither SBYTES nor SAMPLES. -/
def Obligations.CodecIsSymmetric : Prop :=
  (∀ v : U16, put16Bytes v.toNat .little = le16 v ∧ put16Bytes v.toNat .big = be16 v ∧
    littleValue (put16Bytes v.toNat .little) = v.toNat ∧ littleValue (put16Bytes v.toNat .big).reverse = v.toNat) ∧
  (∀ v : U32, put32Bytes v.toNat .little = le32 v ∧ put32Bytes v.toNat .big = be32 v ∧ putTagBytes v.toNat = be32 v ∧
    littleValue (put32Bytes v.toNat .little) = v.toNat ∧ littleValue (put32Bytes v.toNat .big).reverse = v.toNat) ∧
  (∀ (bytes : List Byte) (s t : State), outWriteAll bytes s = .done t →
    t.outRev = bytes.reverse ++ s.outRev ∧ t.sbytes = s.sbytes ∧ t.samples = s.samples)

/-! ### Timing (41_modulation.md R121 to R123) -/

/-- R122: under CEIL H is the least number with 2·H·B at least R; under FLOOR_EVEN 2·H is R div B made even upwards; the two differ
exactly when R/B lies strictly between an even number 2k and 2k+1; 48000 at 700 gives 35 and 34. -/
def Obligations.HalfBitDerivation : Prop :=
  (∀ r b : Nat, 0 < b → r ≤ 2 * b * deriveHalf .ceil r b ∧ ∀ h, r ≤ 2 * b * h → deriveHalf .ceil r b ≤ h) ∧
  (∀ r b : Nat, 2 * deriveHalf .floorEven r b = r / b + r / b % 2) ∧
  (∀ r b : Nat, 0 < b →
    (deriveHalf .ceil r b ≠ deriveHalf .floorEven r b ↔ ∃ k, 2 * k * b < r ∧ r < (2 * k + 1) * b)) ∧
  deriveHalf .ceil 48000 700 = 35 ∧ deriveHalf .floorEven 48000 700 = 34 ∧
  (∀ h b : Nat, actualRate h b = 2 * h * b)

/-- R121: TIMING with a legal baud, a rate not below the minimum and a derived H in 1 to 128 writes H and 2·H·BAUD, whole, sets
TIMING_OK, and changes nothing else. -/
def Obligations.TimingCompletes : Prop :=
  ∀ s : State, s.fault = false → s.initDone = false → (s.baud.toNat = 700 ∨ s.baud.toNat = s.cfg.baudAlt) →
    s.cfg.minSampleRate ≤ s.reqRate.toNat → 1 ≤ deriveHalf s.cfg.rounding s.reqRate.toNat s.baud.toNat →
    deriveHalf s.cfg.rounding s.reqRate.toNat s.baud.toNat ≤ 128 →
    ∃ t, exec .timing s = .next t ∧ t.half.toNat = deriveHalf s.cfg.rounding s.reqRate.toNat s.baud.toNat ∧
      t.actRate.toNat = 2 * t.half.toNat * s.baud.toNat ∧ t.timingOk = true ∧
      t = { s with half := t.half, actRate := t.actRate, timingOk := t.timingOk }

/-- R123: after a TIMING that raised nothing, H is a positive integer at most 128, re-deriving from the actual rate gives the same H
under both readings, and ACT_RATE divided by BAUD is exactly 2·H. -/
def Obligations.TimingLaws : Prop :=
  (∀ (m : Rounding) (h b : Nat), 0 < b → deriveHalf m (2 * h * b) b = h) ∧
  (∀ s t : State, s.fault = false → exec .timing s = .next t → t.fault = false →
    1 ≤ t.half.toNat ∧ t.half.toNat ≤ 128 ∧ deriveHalf t.cfg.rounding t.actRate.toNat t.baud.toNat = t.half.toNat ∧
    t.actRate.toNat / t.baud.toNat = 2 * t.half.toNat ∧ t.actRate.toNat % t.baud.toNat = 0)

/-- R121, 60_exceptions.md R203: the checks of TIMING in their order, before INIT; each leaves everything but the fault record. -/
def Obligations.TimingChecksInOrder : Prop :=
  ∀ s : State, s.fault = false → s.initDone = false →
    (s.baud.toNat ≠ 700 → s.baud.toNat ≠ s.cfg.baudAlt → exec .timing s = .next (s.faulted 0x01 0x10#8 0#8 s.baud.toNat)) ∧
    ((s.baud.toNat = 700 ∨ s.baud.toNat = s.cfg.baudAlt) →
      let h := deriveHalf s.cfg.rounding s.reqRate.toNat s.baud.toNat
      (s.reqRate.toNat < s.cfg.minSampleRate → exec .timing s = .next (s.faulted 0x02 0x10#8 0#8 s.reqRate.toNat)) ∧
      (s.cfg.minSampleRate ≤ s.reqRate.toNat → (h < 1 ∨ 128 < h) → exec .timing s = .next (s.faulted 0x03 0x10#8 0#8 h)))

/-! ### Levels and initialisation (30_encoding.md R80 to R83, 41_modulation.md R124 to R126) -/

/-- R82 by R124: LEVELS writes the two level words of the table for the configured width and the container's convention, RAW as
RAW_CONVENTION says, and changes nothing else. -/
def Obligations.LevelsWritesTheTable : Prop :=
  ∀ (s : State) (width low high : Nat) (offset : Bool), s.fault = false → s.initDone = false → s.width.toNat = width →
    (s.container = 1#32 ∧ offset = true ∨ s.container = 2#32 ∧ offset = false ∨
      s.container = 3#32 ∧ offset = (s.cfg.rawConvention == .chunk)) →
    (width, low, high) ∈ [(8, if offset then 0x40 else 0xC0, if offset then 0xD6 else 0x56), (16, 0xBF7D, 0x56C8),
      (24, 0xBF7CEE, 0x56C8B4), (32, 0xBF7CED92, 0x56C8B439)] →
    exec .levels s = .next { s with lowValue := BitVec.ofNat 32 low, highValue := BitVec.ofNat 32 high }

/-- R83 with R80: a sample word of 8, 16, 24 or 32 bits is written as its bytes, low byte first for the chunk-style container and
high byte first for the simple-style one, RAW as RAW_CONVENTION says. -/
def Obligations.SampleWordsFollowTheContainer : Prop :=
  (∀ v : U32, sampleBytes v 8 .little = (le32 v).take 1 ∧ sampleBytes v 16 .little = (le32 v).take 2 ∧
    sampleBytes v 24 .little = (le32 v).take 3 ∧ sampleBytes v 32 .little = le32 v) ∧
  (∀ (v : U32) (w : Nat), sampleBytes v w .big = (sampleBytes v w .little).reverse) ∧
  (∀ s : State, (s.container = 1#32 → (convention s).order = .little) ∧ (s.container = 2#32 → (convention s).order = .big) ∧
    (s.container = 3#32 → (convention s).order = if s.cfg.rawConvention = .chunk then .little else .big))

/-- R126: INIT after TIMING, with a legal geometry and level words that fit the width, fills every entry of both level buffers, sets
P to INIT_POLARITY, locks the configuration, writes no output and changes nothing else. -/
def Obligations.InitFillsTheBuffers : Prop :=
  ∀ s : State, s.fault = false → s.initDone = false → s.timingOk = true → s.width.toNat ∈ [8, 16, 24, 32] →
    s.container.toNat ∈ [1, 2, 3] → s.lowValue.toNat < 2 ^ s.width.toNat → s.highValue.toNat < 2 ^ s.width.toNat →
    exec .init s = .next { s with
      hiBuf := Vector.replicate 128 s.highValue
      loBuf := Vector.replicate 128 s.lowValue
      pol := s.cfg.initPolarity
      initDone := true }

/-- R124 to R126 and 43_container.md R160, in the order of 60_exceptions.md R203: the geometry checks of LEVELS, INIT and HDR, the
level check of INIT, the mode and length checks of HDR; each leaves everything but the fault record, no byte written. -/
def Obligations.ConfigurationChecks : Prop :=
  ∀ s : State, s.fault = false →
    let badWidth := s.width.toNat ∉ [8, 16, 24, 32]
    let badContainer := s.width.toNat ∈ [8, 16, 24, 32] ∧ s.container.toNat ∉ [1, 2, 3]
    let legal := s.width.toNat ∈ [8, 16, 24, 32] ∧ s.container.toNat ∈ [1, 2, 3]
    (s.initDone = false →
      (badWidth → exec .levels s = .next (s.faulted 0x04 0x11#8 0#8 s.width.toNat)) ∧
      (badContainer → exec .levels s = .next (s.faulted 0x05 0x11#8 0#8 s.container.toNat))) ∧
    (s.initDone = false → s.timingOk = true →
      (badWidth → exec .init s = .next (s.faulted 0x04 0x12#8 0#8 s.width.toNat)) ∧
      (badContainer → exec .init s = .next (s.faulted 0x05 0x12#8 0#8 s.container.toNat)) ∧
      (legal → 2 ^ s.width.toNat ≤ s.lowValue.toNat → exec .init s = .next (s.faulted 0x07 0x12#8 0#8 s.lowValue.toNat)) ∧
      (legal → s.lowValue.toNat < 2 ^ s.width.toNat → 2 ^ s.width.toNat ≤ s.highValue.toNat →
        exec .init s = .next (s.faulted 0x07 0x12#8 0#8 s.highValue.toNat))) ∧
    (s.initDone = true → s.hdrDone = false → s.samples = false → s.closed = false →
      (badWidth → exec .hdr s = .next (s.faulted 0x04 0x40#8 0#8 s.width.toNat)) ∧
      (badContainer → exec .hdr s = .next (s.faulted 0x05 0x40#8 0#8 s.container.toNat)) ∧
      (legal → s.inputMode.toNat ∉ [1, 2] → exec .hdr s = .next (s.faulted 0x06 0x40#8 0#8 s.inputMode.toNat)) ∧
      (legal → s.container = 1#32 → s.inputMode = 1#32 → 0xFFFFFFFE < 36 + dataBytes s →
        exec .hdr s = .next (s.faulted 0x08 0x40#8 0#8 (dataBytes s))))

/-- 10_state.md R22, 70_reset_and_hazards.md R240: from INIT on, until RESET, no command changes the locked registers, H, ACT_RATE or
the level buffers, and INIT_DONE stays. -/
def Obligations.ConfigurationStaysLocked : Prop :=
  ∀ (i : Instr) (s t : State), s.initDone = true → i ≠ .reset → exec i s = .next t →
    t.initDone = true ∧ t.baud = s.baud ∧ t.reqRate = s.reqRate ∧ t.width = s.width ∧ t.container = s.container ∧
    t.inputMode = s.inputMode ∧ t.dataLen = s.dataLen ∧ t.lowValue = s.lowValue ∧ t.highValue = s.highValue ∧
    t.half = s.half ∧ t.actRate = s.actRate ∧ t.hiBuf = s.hiBuf ∧ t.loBuf = s.loBuf

/-! ### Order of commands (70_reset_and_hazards.md R233) -/

/-- R233, 60_exceptions.md R203: a command whose sequence precondition fails raises SEQUENCE (value 0, or the selector of WRCFG) and
changes nothing else, whatever the declared length. That TXNAME, TXDATA and TXREST check NAME_DONE before the declared length is the order
of R203's list against that of their pseudocode (log entry 11). -/
def Obligations.SequencePreconditions : Prop :=
  ∀ s : State, s.fault = false →
    let mayNotEmit := s.initDone = false ∨ s.hdrDone = false ∨ s.closed = true
    (∀ (sel : Byte) (imm : U32), s.initDone = true → sel.toNat ∈ [0, 1, 2, 3, 4, 5, 9, 10] →
      exec (.wrcfg sel imm) s = .next (s.faulted 0x0E 0x02#8 sel sel.toNat)) ∧
    (s.initDone = true → exec .timing s = .next (s.faulted 0x0E 0x10#8 0#8 0)) ∧
    (s.initDone = true → exec .levels s = .next (s.faulted 0x0E 0x11#8 0#8 0)) ∧
    (s.initDone = true ∨ s.timingOk = false → exec .init s = .next (s.faulted 0x0E 0x12#8 0#8 0)) ∧
    (s.initDone = false ∨ s.hdrDone = true ∨ s.samples = true ∨ s.closed = true →
      exec .hdr s = .next (s.faulted 0x0E 0x40#8 0#8 0)) ∧
    (mayNotEmit →
      (∀ b, exec (.emitbit b) s = .next (s.faulted 0x0E 0x20#8 0#8 0)) ∧
      (∀ v, exec (.emitbyte v) s = .next (s.faulted 0x0E 0x21#8 0#8 0)) ∧
      exec .txblock s = .next (s.faulted 0x0E 0x30#8 0#8 0) ∧
      exec .txname s = .next (s.faulted 0x0E 0x31#8 0#8 0) ∧
      (∀ c : U32, 1 ≤ c.toNat → c.toNat ≤ 253 → exec (.txdata c) s = .next (s.faulted 0x0E 0x32#8 0#8 0)) ∧
      exec .txrest s = .next (s.faulted 0x0E 0x33#8 0#8 0)) ∧
    (s.nameDone = true → exec .txname s = .next (s.faulted 0x0E 0x31#8 0#8 0)) ∧
    (s.nameDone = false → ∀ c : U32, 1 ≤ c.toNat → c.toNat ≤ 253 →
      exec (.txdata c) s = .next (s.faulted 0x0E 0x32#8 0#8 0)) ∧
    (s.nameDone = false → exec .txrest s = .next (s.faulted 0x0E 0x33#8 0#8 0)) ∧
    (s.closed = true → ∀ i sel bytes, putImage i = some (sel, bytes) → exec i s = .next (s.faulted 0x0E 0x50#8 sel 0)) ∧
    (s.initDone = true ∨ s.hdrDone = true ∨ s.closed = true → exec .run s = .next (s.faulted 0x0E 0x60#8 0#8 0)) ∧
    (s.closed = true → exec .close s = .next (s.faulted 0x0E 0x61#8 0#8 0))

/-- 41_modulation.md R127, 42_framer.md R146, 44_driver.md R186: with a declared length, an emission that would pass it is refused
before its first byte, and CLOSE refuses to end short of it; the value recorded is the byte count. A second TXNAME, or a TXDATA or
TXREST without the name block, past the length raises SEQUENCE first, by the list of 60_exceptions.md R203 (log entry 11). -/
def Obligations.DeclaredLengthChecks : Prop :=
  ∀ s : State, s.fault = false → s.closed = false → s.declared = true →
    let bit := 2 * s.half.toNat * (s.width.toNat / 8)
    let block := 295 * (8 * bit)
    let blocks := (s.dataLen.toNat - s.incnt.toNat + 253 - 1) / 253
    let past (n : Nat) := s.declBytes.toNat < s.sbytes.toNat + n
    (s.initDone = true → s.hdrDone = true →
      (∀ b, past bit → exec (.emitbit b) s = .next (s.faulted 0x09 0x20#8 0#8 (s.sbytes.toNat + bit))) ∧
      (∀ v, past (8 * bit) → exec (.emitbyte v) s = .next (s.faulted 0x09 0x21#8 0#8 (s.sbytes.toNat + 8 * bit))) ∧
      (past block → exec .txblock s = .next (s.faulted 0x09 0x30#8 0#8 (s.sbytes.toNat + block))) ∧
      (s.nameDone = false → past block → exec .txname s = .next (s.faulted 0x09 0x31#8 0#8 (s.sbytes.toNat + block))) ∧
      (s.nameDone = true → past block → ∀ c : U32, 1 ≤ c.toNat → c.toNat ≤ 253 →
        exec (.txdata c) s = .next (s.faulted 0x09 0x32#8 0#8 (s.sbytes.toNat + block))) ∧
      (s.nameDone = true → s.inputMode = 1#32 → ¬ past 0 → past (blocks * block) →
        exec .txrest s = .next (s.faulted 0x09 0x33#8 0#8 (s.sbytes.toNat + blocks * block)))) ∧
    (s.sbytes.toNat ≠ s.declBytes.toNat → exec .close s = .next (s.faulted 0x09 0x61#8 0#8 s.sbytes.toNat))

/-! ### Emission (41_modulation.md R127 to R134) -/

/-- R130 by R127 to R129: an EMITBIT that may emit, every byte granted, toggles P and writes a run of H frames of that level, then,
P toggled again for a 1 and kept for a 0, a second run of H frames; SBYTES, OUTCNT and SAMPLES count the bytes, nothing else changes.
Counters that would wrap are left out (R28, log entry 9). -/
def Obligations.EmitbitWritesTwoRuns : Prop :=
  ∀ (b : Bool) (s : State), Inv s → EmitReady s (2 * s.half.toNat * (s.width.toNat / 8)) →
    Granted s (2 * s.half.toNat * (s.width.toNat / 8)) →
    exec (.emitbit b) s =
      .next (s.emitted (levelRun s (!s.pol) ++ levelRun s (if b then s.pol else !s.pol)) (if b then s.pol else !s.pol))

/-- R131: an EMITBYTE that may emit, every byte granted, writes the eight bits of its byte as EMITBIT does, least significant first,
phase-continuous; nothing else changes. -/
def Obligations.EmitbyteWritesEightBits : Prop :=
  ∀ (v : Byte) (s : State), Inv s → EmitReady s (8 * (2 * s.half.toNat * (s.width.toNat / 8))) →
    Granted s (8 * (2 * s.half.toNat * (s.width.toNat / 8))) →
    let bits := [v.getLsbD 0, v.getLsbD 1, v.getLsbD 2, v.getLsbD 3, v.getLsbD 4, v.getLsbD 5, v.getLsbD 6, v.getLsbD 7]
    exec (.emitbyte v) s = .next (s.emitted (bitsWave s s.pol bits) (polarityAfter s.pol bits))

/-- R132: whatever the configuration and the bit, an emission that goes through writes exactly 2·H frames of WIDTH/8 bytes for a bit,
16·H for a byte and 295·16·H for a framed block. -/
def Obligations.FramesPerBit : Prop :=
  ∀ s t : State,
    let frame := s.width.toNat / 8
    let h := s.half.toNat
    (∀ b, emitBit b s = .done t → t.outRev.length = s.outRev.length + 2 * h * frame) ∧
    (∀ v, emitByte v s = .done t → t.outRev.length = s.outRev.length + 16 * h * frame) ∧
    (frameBlock s = .done t → t.outRev.length = s.outRev.length + 295 * 16 * h * frame)

/-- R133: after a bit sequence, a byte or a byte sequence that went through, P is what it was, toggled once for each 0 bit. -/
def Obligations.PolarityLaw : Prop :=
  (∀ (bits : List Bool) (s t : State), emitBits bits s = .done t → t.pol = (s.pol ^^ decide (bits.count false % 2 = 1))) ∧
  (∀ (v : Byte) (s t : State), emitByte v s = .done t →
    t.pol = (s.pol ^^ decide (((List.range 8).map v.getLsbD).count false % 2 = 1))) ∧
  (∀ (bytes : List Byte) (s t : State), emitBytes bytes s = .done t →
    t.pol = (s.pol ^^ decide (((bytes.flatMap fun v => (List.range 8).map v.getLsbD)).count false % 2 = 1)))

/-- R134 with R129, R130: in a state of a session after INIT, every byte granted, 2n 0 bits come out as n periods of a square wave of 4·H
frames and n 1 bits as n periods of 2·H frames, each period starting at the level opposite to P; the frames hold HIGH_VALUE and LOW_VALUE
in the container's byte order. EMITBYTE 0x00 and EMITBYTE 0xFF are the runs of eight. -/
def Obligations.WaveformLaw : Prop :=
  ∀ (s : State) (n : Nat), Inv s → s.initDone = true → s.closed = false →
    let size := s.width.toNat / 8
    let frame (v : U32) : List Byte :=
      if s.container = 2#32 ∨ s.container = 3#32 ∧ s.cfg.rawConvention = .simple then ((le32 v).take size).reverse
      else (le32 v).take size
    let high := (List.replicate s.half.toNat (frame s.highValue)).flatten
    let low := (List.replicate s.half.toNat (frame s.lowValue)).flatten
    let slow := if s.pol then low ++ low ++ high ++ high else high ++ high ++ low ++ low
    let fast := if s.pol then low ++ high else high ++ low
    let fits (k : Nat) := Granted s k ∧ s.outcnt.toNat + k < 2 ^ 64 ∧ s.sbytes.toNat + k < 2 ^ 64
    slow.length = 4 * s.half.toNat * size ∧ fast.length = 2 * s.half.toNat * size ∧
    (fits (n * slow.length) → ∃ t, emitBits (List.replicate (2 * n) false) s = .done t ∧ t.pol = s.pol ∧
      t.out = s.out ++ (List.replicate n slow).flatten) ∧
    (fits (n * fast.length) → ∃ t, emitBits (List.replicate n true) s = .done t ∧ t.pol = s.pol ∧
      t.out = s.out ++ (List.replicate n fast).flatten) ∧
    (EmitReady s (8 * fast.length) → Granted s (8 * fast.length) →
      (∃ t, exec (.emitbyte 0x00#8) s = .next t ∧ t.pol = s.pol ∧ t.out = s.out ++ (List.replicate 4 slow).flatten) ∧
      (∃ t, exec (.emitbyte 0xFF#8) s = .next t ∧ t.pol = s.pol ∧ t.out = s.out ++ (List.replicate 8 fast).flatten))

/-- 70_reset_and_hazards.md R232: P is INIT_POLARITY after reset, INIT sets it to INIT_POLARITY again, and otherwise, so from INIT to
the next RESET, only the emitting commands EMITBIT, EMITBYTE, TXBLOCK, TXNAME, TXDATA, TXREST and RUN change it. -/
def Obligations.PolarityChangesOnlyByEmission : Prop :=
  (∀ cfg, (State.powerOn cfg).pol = cfg.initPolarity) ∧
  (∀ s t : State, exec .reset s = .next t → t.pol = s.cfg.initPolarity) ∧
  (∀ s t : State, exec .init s = .next t → s.initDone = false → t.initDone = true → t.pol = s.cfg.initPolarity) ∧
  (∀ (i : Instr) (s t : State), exec i s = .next t → t.pol ≠ s.pol →
    i = .reset ∨ i = .init ∧ s.initDone = false ∨ (∃ b, i = .emitbit b) ∨ (∃ v, i = .emitbyte v) ∨ i = .txblock ∨ i = .txname ∨
    (∃ c, i = .txdata c) ∨ i = .txrest ∨ i = .run)

/-- 60_exceptions.md R204, 20_memory.md R53: where the port refuses the (k+1)-th byte of an EMITBIT, an EMITBYTE, a TXBLOCK, a TXNAME, an
HDR or a TXDATA (its input taken before), the k bytes before it stay in OUT, OUTCNT counts them, SBYTES the sample bytes among them,
SAMPLES is set by the first of those, P is as it was toggled for the refused byte, BLK holds the payload TXNAME or TXDATA assembled, and
IO_OUTPUT records OUTCNT; NAME_DONE, HDR_DONE and BLKCNT are not written. TXREST and RUN are TransmissionStopsAtARefusal's. -/
def Obligations.EmissionRefusedKeepsItsPrefix : Prop :=
  let after (s : State) (k : Nat) (opc : Byte) (bits : List Bool) (t : State) : Prop :=
    t.out = s.out ++ (bitsWave s s.pol bits).take k ∧ (polarities s s.pol bits)[k]? = some t.pol ∧
    t.samples = (s.samples || decide (0 < k)) ∧ t.outcnt.toNat = s.outcnt.toNat + k ∧ t.sbytes.toNat = s.sbytes.toNat + k ∧
    t.fault = true ∧ t.faultCode = 0x0A#32 ∧ t.faultInfo = BitVec.ofNat 32 opc.toNat ∧
    t.faultValue = BitVec.ofNat 32 (s.outcnt.toNat + k)
  (∀ (s : State) (k : Nat), Inv s → Granted s k → refusesAt s k = true →
    (∀ b, EmitReady s (bitByteCount s) → k < bitByteCount s →
      ∃ t, exec (.emitbit b) s = .next t ∧ after s k 0x20#8 [b] t) ∧
    (∀ v, EmitReady s (byteByteCount s) → k < byteByteCount s →
      ∃ t, exec (.emitbyte v) s = .next t ∧ after s k 0x21#8 (bitsOf v) t) ∧
    (EmitReady s (blockByteCount s) → k < blockByteCount s →
      ∃ t, exec .txblock s = .next t ∧ after s k 0x30#8 (bitStream (framedBytes s.cfg (blockBytes s.blk))) t) ∧
    (EmitReady s (blockByteCount s) → s.nameDone = false → k < blockByteCount s →
      ∃ t, exec .txname s = .next t ∧ t.nameDone = false ∧ (∀ a, readCell t.blk a = ((nameBlock s)[a]?).getD 0x00#8) ∧
        after s k 0x31#8 (bitStream (framedBytes s.cfg (nameBlock s))) t) ∧
    (s.fault = false → s.initDone = true → s.hdrDone = false → s.samples = false → s.closed = false →
      s.inputMode.toNat ∈ [1, 2] → (lengthKnown s = true → riffLen s ≤ 0xFFFFFFFE) → k < (headerBytes s).length →
      s.outcnt.toNat + k < 2 ^ 64 →
      exec .hdr s = .next (State.faulted { s with
        outRev := ((headerBytes s).take k).reverse ++ s.outRev
        outcnt := s.outcnt + BitVec.ofNat 64 k
        hostRefuses := s.hostRefuses.drop (k + 1)
        drawn := s.drawn + (k + 1) } 0x0A 0x40#8 0#8 (s.outcnt.toNat + k)))) ∧
  (∀ (c : U32) (s : State) (k : Nat), Inv s → EmitReady s (blockByteCount s) → s.nameDone = true → s.eof = false →
    1 ≤ c.toNat → c.toNat ≤ 253 → c.toNat ≤ s.inBytes.length → s.incnt.toNat + c.toNat < 2 ^ 64 → k < blockByteCount s →
    Granted s (c.toNat + k) → refusesAt s (c.toNat + k) = true →
    let payload := dataBlock s.blkcnt (s.inBytes.take c.toNat)
    ∃ t, exec (.txdata c) s = .next t ∧ t.blkcnt = s.blkcnt ∧ t.incnt.toNat = s.incnt.toNat + c.toNat ∧
      t.inBytes = s.inBytes.drop c.toNat ∧ t.eof = false ∧ (∀ a, readCell t.blk a = (payload[a]?).getD 0x00#8) ∧
      after s k 0x32#8 (bitStream (framedBytes s.cfg payload)) t)

/-! ### Framing (42_framer.md R142 to R151) -/

/-- R142 with R149 and R143: a TXBLOCK that may emit, every byte granted, modulates the 32 leader zeros, the three sync bytes, the
start marker, the 256 bytes of BLK, the end marker and the checksum low byte first; BLK, BLKCNT and NAME_DONE stay. -/
def Obligations.TxblockFramesTheBuffer : Prop :=
  ∀ s : State, Inv s → EmitReady s (blockByteCount s) → Granted s (blockByteCount s) →
    let payload := (List.range 256).map (readCell s.blk)
    let csum : U16 := BitVec.ofNat 16 ((payload.map BitVec.toNat).sum + s.cfg.etxByte.toNat)
    let framed := List.replicate 32 0x00#8 ++ [s.cfg.syncByte, s.cfg.syncByte, s.cfg.syncByte, s.cfg.stxByte] ++ payload
      ++ [s.cfg.etxByte, csum.extractLsb' 0 8, csum.extractLsb' 8 8]
    framed.length = 295 ∧ exec .txblock s = .next (s.modulated framed)

/-- R143: the sum of the 256 payload bytes and the end marker never reaches 2^16, so the checksum is that sum itself, and reducing
before adding the marker gives the same. -/
def Obligations.ChecksumNeverWraps : Prop :=
  ∀ (payload : List Byte) (etx : Byte), payload.length = 256 →
    (checksum etx payload).toNat = (payload.map BitVec.toNat).sum + etx.toNat ∧
    (checksum etx payload).toNat = (payload.map BitVec.toNat).sum % 65536 + etx.toNat

/-- R144 with R147: a TXNAME that may emit, every byte granted, assembles the name block of NAME_A, NAME_B and EXT in BLK, modulates it
as a framed block, sets NAME_DONE and changes nothing else. -/
def Obligations.TxnameSendsTheNameBlock : Prop :=
  ∀ s : State, Inv s → EmitReady s (blockByteCount s) → s.nameDone = false → Granted s (blockByteCount s) →
    let payload := [0xFF#8, 0xFF#8, 0xFF#8] ++ le32 s.nameA ++ le32 s.nameB ++ (le32 s.ext).take 3 ++ List.replicate 242 0x00#8
    ∃ t, exec .txname s = .next t ∧ t = { s.modulated (framedBytes s.cfg payload) with blk := t.blk, nameDone := true } ∧
      Memory.wf t.blk = true ∧ ∀ a, readCell t.blk a = (payload[a]?).getD 0x00#8

/-- R145 with R148: a TXDATA of count c, 1 to 253, after the name block, every access granted and c bytes of input there, takes the
next c bytes, modulates the block of pad byte, BLKCNT low byte first, the bytes and zeros, and moves BLKCNT on mod 2^16. -/
def Obligations.TxdataSendsOneBlock : Prop :=
  ∀ (c : U32) (s : State), Inv s → EmitReady s (blockByteCount s) → s.nameDone = true → s.eof = false → 1 ≤ c.toNat →
    c.toNat ≤ 253 → c.toNat ≤ s.inBytes.length → s.incnt.toNat + c.toNat < 2 ^ 64 → Granted s (c.toNat + blockByteCount s) →
    let input := s.inBytes.take c.toNat
    let payload := [0x00#8] ++ le16 s.blkcnt ++ input ++ List.replicate (253 - c.toNat) 0x00#8
    let wave := bitsWave s s.pol (bitStream (framedBytes s.cfg payload))
    ∃ t, exec (.txdata c) s = .next t ∧
      t = { s.emitted wave (polarityAfter s.pol (bitStream (framedBytes s.cfg payload))) with
        hostRefuses := s.hostRefuses.drop (c.toNat + wave.length)
        drawn := s.drawn + (c.toNat + wave.length)
        inPort := some (s.inBytes.drop c.toNat)
        incnt := s.incnt + BitVec.ofNat 64 c.toNat
        blkcnt := s.blkcnt + 1#16
        blk := t.blk } ∧
      Memory.wf t.blk = true ∧ ∀ a, readCell t.blk a = (payload[a]?).getD 0x00#8

/-- R145, R146, 20_memory.md R51: an input that ends before a required byte, or a read the host refuses. TXDATA raises IO_INPUT before any
byte of the block, with the number of bytes it has read where the input ends (0 where the end was reported before) and with INCNT where
the host refuses a read (log entry 17); the bytes read are taken, the output and BLK stay. TXREST in BUFFERED mode raises IO_INPUT with
INCNT where the input ends, the full blocks before it sent. Its refused reads, and RUN on such an input, are TransmissionStopsAtARefusal's. -/
def Obligations.TxdataNeedsItsInput : Prop :=
  (∀ (c : U32) (s : State), s.fault = false → s.initDone = true → s.hdrDone = true → s.closed = false →
    (s.declared = true → s.sbytes.toNat + blockByteCount s ≤ s.declBytes.toNat) → s.nameDone = true → c.toNat ≤ 253 →
    (s.eof = true → 1 ≤ c.toNat → exec (.txdata c) s = .next (s.faulted 0x0B 0x32#8 0#8 0)) ∧
    (s.eof = false → s.inBytes.length < c.toNat → s.incnt.toNat + s.inBytes.length < 2 ^ 64 →
      Granted s (s.inBytes.length + 1) →
      exec (.txdata c) s = .next (State.faulted { s with
        hostRefuses := s.hostRefuses.drop (s.inBytes.length + 1)
        drawn := s.drawn + (s.inBytes.length + 1)
        inPort := if s.inBytes.isEmpty then s.inPort else some []
        incnt := s.incnt + BitVec.ofNat 64 s.inBytes.length
        eof := true } 0x0B 0x32#8 0#8 s.inBytes.length)) ∧
    (∀ k, s.eof = false → k < c.toNat → k ≤ s.inBytes.length → s.incnt.toNat + k < 2 ^ 64 → Granted s k →
      refusesAt s k = true →
      exec (.txdata c) s = .next (State.faulted { s with
        hostRefuses := s.hostRefuses.drop (k + 1)
        drawn := s.drawn + (k + 1)
        inPort := if k = 0 then s.inPort else some (s.inBytes.drop k)
        incnt := s.incnt + BitVec.ofNat 64 k } 0x0B 0x32#8 0#8 (s.incnt.toNat + k)))) ∧
  (∀ s : State, Inv s → s.inputMode = 1#32 → s.nameDone = true →
    let rem := s.dataLen.toNat - s.incnt.toNat
    let there := s.inBytes.length
    let full := there / 253
    let u := s.blocksSent (chunksOf full s.inBytes)
    EmitReady s ((rem + 253 - 1) / 253 * blockByteCount s) →
    (s.eof = true → 0 < rem → exec .txrest s = .next (s.faulted 0x0B 0x33#8 0#8 s.incnt.toNat)) ∧
    (s.eof = false → there < rem → Granted s (there + full * blockByteCount s + 1) →
      exec .txrest s = .next (State.faulted { u with
        hostRefuses := u.hostRefuses.drop (there % 253 + 1)
        drawn := u.drawn + (there % 253 + 1)
        inPort := if s.inBytes.isEmpty then s.inPort else some []
        incnt := s.incnt + BitVec.ofNat 64 there
        eof := true } 0x0B 0x33#8 0#8 (s.incnt.toNat + there))))

/-- R146, BUFFERED: a TXREST that may emit, every access granted and the rest of DATA_LEN there, sends it as ceil(rem/253) data
blocks: counters ascending, 253 bytes each and the last one padded, one phase-continuous stream; extra input is not read. -/
def Obligations.TxrestBufferedSendsTheRest : Prop :=
  ∀ s : State, Inv s → s.inputMode = 1#32 → s.nameDone = true →
    let rem := s.dataLen.toNat - s.incnt.toNat
    let blocks := (rem + 253 - 1) / 253
    EmitReady s (blocks * blockByteCount s) → (0 < rem → s.eof = false) → rem ≤ s.inBytes.length →
    s.incnt.toNat + rem < 2 ^ 64 → Granted s (rem + blocks * blockByteCount s) →
    exec .txrest s = .next (s.blocksSent (chunksOf blocks (s.inBytes.take rem)))

/-- R146, STREAMING: a TXREST that may emit, every access granted, sends all the input that is left as data blocks up to its end, and
sets EOF; where the end was reported before, it sends nothing. -/
def Obligations.TxrestStreamingSendsTheRest : Prop :=
  ∀ s : State, Inv s → s.inputMode = 2#32 → s.nameDone = true →
    let len := s.inBytes.length
    let blocks := (len + 253 - 1) / 253
    (s.eof = true → EmitReady s 0 → exec .txrest s = .next s) ∧
    (s.eof = false → EmitReady s (blocks * blockByteCount s) → s.incnt.toNat + len < 2 ^ 64 → Granted s (len + blocks * blockByteCount s + 1) →
      exec .txrest s = .next (s.blocksSent (chunksOf blocks s.inBytes)).endOfInput)

/-- R150 over TXREST: with the name block sent, no input taken (INCNT = 0, BLKCNT = 0), the L bytes of input there and every access
granted, TXREST emits exactly ceil(L/253) data blocks: the k-th carries the counter k mod 2^16 and the bytes from 253·k on, at most 253,
padded with zeros, the last one L − 253·(ceil(L/253) − 1) of them. L is DATA_LEN in BUFFERED mode, the whole input in STREAMING mode.
BLKCNT, SBYTES and INCNT count them; an empty input emits nothing. -/
def Obligations.BlockCountLaw : Prop :=
  ∀ s : State, Inv s → s.nameDone = true → s.eof = false → s.incnt = 0#64 → s.blkcnt = 0#16 → s.inputMode.toNat ∈ [1, 2] →
    let length := if s.inputMode = 1#32 then s.dataLen.toNat else s.inBytes.length
    let n := (length + 253 - 1) / 253
    let block := 295 * (8 * (2 * s.half.toNat * (s.width.toNat / 8)))
    let chunk (k : Nat) := ((s.inBytes.take length).drop (253 * k)).take 253
    let payload (k : Nat) := [0x00#8] ++ le16 (BitVec.ofNat 16 k) ++ chunk k ++ List.replicate (253 - (chunk k).length) 0x00#8
    let bits := bitStream ((List.range n).flatMap fun k => framedBytes s.cfg (payload k))
    length ≤ s.inBytes.length → length < 2 ^ 64 → EmitReady s (n * block) → Granted s (length + n * block + 1) →
    (∀ k, k + 1 < n → (chunk k).length = 253) ∧ (0 < n → (chunk (n - 1)).length = length - 253 * (n - 1)) ∧
    ∃ t, exec .txrest s = .next t ∧ t.out = s.out ++ bitsWave s s.pol bits ∧ t.pol = polarityAfter s.pol bits ∧
      t.blkcnt = BitVec.ofNat 16 n ∧ t.sbytes.toNat = s.sbytes.toNat + n * block ∧ t.outcnt.toNat = s.outcnt.toNat + n * block ∧
      t.incnt.toNat = length ∧ t.inBytes = s.inBytes.drop length ∧ t.eof = decide (s.inputMode = 2#32)

/-! ### The container header (43_container.md R160 to R166) -/

/-- R160 with R161, R163 to R166: an HDR that may write, its checks passed, every byte granted, appends the 44 bytes of the
chunk-style header (lengths known exactly for CHUNK and BUFFERED, else the sentinel), the 28 bytes of the simple-style one, or
nothing for RAW, declares the length where it is known, sets HDR_DONE and changes nothing else. A byte rate of 2^32 or more is written
as its low 32 bits, as Put32 selects them (log entry 22). -/
def Obligations.HdrWritesTheHeader : Prop :=
  ∀ (s : State) (header : List Byte), s.fault = false → s.initDone = true → s.hdrDone = false → s.samples = false →
    s.closed = false → s.width.toNat ∈ [8, 16, 24, 32] → s.inputMode.toNat ∈ [1, 2] →
    let known := s.container = 1#32 ∧ s.inputMode = 1#32
    let frame := s.width.toNat / 8
    let data := ((s.dataLen.toNat + 253 - 1) / 253 + 1) * 295 * 8 * 2 * s.half.toNat * frame
    let len (n : Nat) : U32 := if s.inputMode = 1#32 then BitVec.ofNat 32 n else 0xFFFFFFFF#32
    (s.container = 1#32 ∧ header = [0x52#8, 0x49#8, 0x46#8, 0x46#8] ++ le32 (len (36 + data))
        ++ [0x57#8, 0x41#8, 0x56#8, 0x45#8] ++ [0x66#8, 0x6D#8, 0x74#8, 0x20#8] ++ le32 16#32 ++ le16 1#16 ++ le16 1#16
        ++ le32 s.actRate ++ le32 (BitVec.ofNat 32 (s.actRate.toNat * frame)) ++ le16 (BitVec.ofNat 16 frame)
        ++ le16 (BitVec.ofNat 16 s.width.toNat) ++ [0x64#8, 0x61#8, 0x74#8, 0x61#8] ++ le32 (len data) ∨
      s.container = 2#32 ∧ header = [0x2E#8, 0x73#8, 0x6E#8, 0x64#8] ++ be32 28#32 ++ be32 0xFFFFFFFF#32
        ++ be32 (if s.width = 8#32 then 2#32 else if s.width = 16#32 then 3#32 else if s.width = 24#32 then 4#32 else 5#32)
        ++ be32 s.actRate ++ be32 1#32
        ++ [s.cfg.annotation.1, s.cfg.annotation.2.1, s.cfg.annotation.2.2.1, s.cfg.annotation.2.2.2] ∨
      s.container = 3#32 ∧ header = []) →
    (known → 36 + data ≤ 0xFFFFFFFE) → Granted s header.length → s.outcnt.toNat + header.length < 2 ^ 64 →
    (s.container = 1#32 → header.length = 44) ∧ (s.container = 2#32 → header.length = 28) ∧
    exec .hdr s = .next { s.written header with
      hdrDone := true
      declared := if known then true else s.declared
      declBytes := if known then BitVec.ofNat 32 data else s.declBytes }

/-! ### CLOSE and RUN (44_driver.md R185 to R189) -/

/-- R186: a CLOSE with the declared length met ends the session's output where the host grants the flush, changing CLOSED alone; where
the host refuses it, IO_OUTPUT records OUTCNT. -/
def Obligations.CloseFlushesTheOutput : Prop :=
  ∀ s : State, s.fault = false → s.closed = false → (s.declared = true → s.sbytes.toNat = s.declBytes.toNat) →
    let u : State := { s with hostRefuses := s.hostRefuses.drop 1, drawn := s.drawn + 1 }
    (refusesAt s 0 = false → exec .close s = .next { u with closed := true }) ∧
    (refusesAt s 0 = true → exec .close s = .next (u.faulted 0x0A 0x61#8 0#8 s.outcnt.toNat))

/-- R185 and R188: a RUN on a legal configuration before INIT, every access granted and the input there, completes: OUT is what it was
(the PUT bytes), then the header, then the modulated name block and the ceil(L/253) data blocks as one phase-continuous stream that
starts at INIT_POLARITY; TIMING_OK, INIT_DONE, HDR_DONE, NAME_DONE, SAMPLES and CLOSED are set, DECLARED exactly where the length is
known, EOF exactly in STREAMING mode; BLK holds the payload of the last data block, or of the name block where there is none (42_framer.md
R144, R148); the input is what is left of it. -/
def Obligations.RunWritesTheTransmission : Prop :=
  ∀ s : State, Inv s → s.fault = false → s.initDone = false → s.closed = false →
    let p := s.prepared
    let h := deriveHalf s.cfg.rounding s.reqRate.toNat s.baud.toNat
    let block := 295 * (8 * (2 * h * (s.width.toNat / 8)))
    let input := if s.inputMode = 1#32 then s.inBytes.take s.dataLen.toNat else s.inBytes
    let blocks := (input.length + 253 - 1) / 253
    let stream := bitStream (framedBytes s.cfg (nameBlock s) ++ framedChunks s.cfg 0#16 (chunksOf blocks input))
    let total := (headerBytes p).length + (blocks + 1) * block
    (s.baud.toNat = 700 ∨ s.baud.toNat = s.cfg.baudAlt) → s.cfg.minSampleRate ≤ s.reqRate.toNat → 1 ≤ h → h ≤ 128 →
    s.width.toNat ∈ [8, 16, 24, 32] → s.container.toNat ∈ [1, 2, 3] → s.inputMode.toNat ∈ [1, 2] →
    (lengthKnown s = true → riffLen p ≤ 0xFFFFFFFE) → (s.inputMode = 1#32 → s.dataLen.toNat ≤ s.inBytes.length) →
    s.outcnt.toNat + total + input.length < 2 ^ 64 → Granted s (total + input.length + 2) →
    ∃ t, exec .run s = .next t ∧ t.out = s.out ++ headerBytes p ++ bitsWave p s.cfg.initPolarity stream ∧
      (bitsWave p s.cfg.initPolarity stream).length = (blocks + 1) * block ∧
      t.pol = polarityAfter s.cfg.initPolarity stream ∧ t.fault = false ∧ t.timingOk = true ∧ t.initDone = true ∧
      t.hdrDone = true ∧ t.nameDone = true ∧ t.samples = true ∧ t.closed = true ∧ t.declared = lengthKnown s ∧
      t.eof = decide (s.inputMode = 2#32) ∧
      t.half = p.half ∧ t.actRate = p.actRate ∧ t.lowValue = p.lowValue ∧ t.highValue = p.highValue ∧
      t.sbytes.toNat = (blocks + 1) * block ∧ t.outcnt.toNat = s.outcnt.toNat + total ∧
      t.blk = lastBlock (cellsFrom 0 (nameBlock s)) 0#16 (chunksOf blocks input) ∧ t.inBytes = s.inBytes.drop input.length ∧
      t.incnt.toNat = input.length ∧ t.blkcnt = BitVec.ofNat 16 blocks ∧
      (lengthKnown s = true → t.declBytes.toNat = (blocks + 1) * block)

/-- R185, R189, 60_exceptions.md R200, R203: where RUN traps on an illegal configuration, and in which order. BAUD is checked first
(BAUD = 0 with WIDTH = 12 reports CFG_BAUD), then REQ_RATE, then H, then, the timing registers written, WIDTH, then CONTAINER, then, LEVELS
and INIT done, INPUT_MODE, then the length that a CHUNK header declares; RUN records that code, the value checked and FAULT_INFO 0x60, and
changes nothing else. In every state, whatever configuration fault (codes 1 to 8) ends a RUN, it comes before the first byte RUN writes or
reads. -/
def Obligations.ConfigurationFaultsBeforeOutput : Prop :=
  (∀ s t : State, s.fault = false → exec .run s = .next t → t.fault = true → 1 ≤ t.faultCode.toNat → t.faultCode.toNat ≤ 8 →
    t.out = s.out ∧ t.outcnt = s.outcnt ∧ t.sbytes = s.sbytes ∧ t.incnt = s.incnt ∧ t.drawn = s.drawn) ∧
  (∀ s : State, s.fault = false → s.initDone = false → s.hdrDone = false → s.closed = false →
    let h := deriveHalf s.cfg.rounding s.reqRate.toNat s.baud.toNat
    let p := s.prepared
    let timed : State := { s with half := p.half, actRate := p.actRate, timingOk := true }
    (s.baud.toNat ≠ 700 → s.baud.toNat ≠ s.cfg.baudAlt → exec .run s = .next (s.faulted 0x01 0x60#8 0#8 s.baud.toNat)) ∧
    ((s.baud.toNat = 700 ∨ s.baud.toNat = s.cfg.baudAlt) →
      (s.reqRate.toNat < s.cfg.minSampleRate → exec .run s = .next (s.faulted 0x02 0x60#8 0#8 s.reqRate.toNat)) ∧
      (s.cfg.minSampleRate ≤ s.reqRate.toNat →
        ((h < 1 ∨ 128 < h) → exec .run s = .next (s.faulted 0x03 0x60#8 0#8 h)) ∧
        (1 ≤ h → h ≤ 128 →
          (s.width.toNat ∉ [8, 16, 24, 32] → exec .run s = .next (timed.faulted 0x04 0x60#8 0#8 s.width.toNat)) ∧
          (s.width.toNat ∈ [8, 16, 24, 32] →
            (s.container.toNat ∉ [1, 2, 3] → exec .run s = .next (timed.faulted 0x05 0x60#8 0#8 s.container.toNat)) ∧
            (s.container.toNat ∈ [1, 2, 3] → s.samples = false →
              (s.inputMode.toNat ∉ [1, 2] → exec .run s = .next (p.faulted 0x06 0x60#8 0#8 s.inputMode.toNat)) ∧
              (s.container = 1#32 → s.inputMode = 1#32 → 0xFFFFFFFE < 36 + dataBytes p →
                exec .run s = .next (p.faulted 0x08 0x60#8 0#8 (dataBytes p)))))))))

/-- R185: LENGTH_MISMATCH and CFG_LEVEL cannot occur within RUN, in any state of a session, and SEQUENCE only where RUN's own
precondition fails. -/
def Obligations.RunNeverMismatches : Prop :=
  ∀ s t : State, Inv s → s.fault = false → exec .run s = .next t → t.fault = true →
    t.faultCode ≠ 0x09#32 ∧ t.faultCode ≠ 0x07#32 ∧
    (t.faultCode = 0x0E#32 → s.initDone = true ∨ s.hdrDone = true ∨ s.closed = true)

/-- 43_container.md R167: after HDR with a known length, TXNAME, TXREST and CLOSE without a fault, SBYTES is DECL_BYTES is the header's
data byte count, already before CLOSE checks it, and OUTCNT has grown by 44 and that count. -/
def Obligations.LengthLaw : Prop :=
  ∀ s s1 s2 s3 s4 : State, Inv s → lengthKnown s = true → s.outRev.length + 44 + dataBytes s < 2 ^ 64 →
    exec .hdr s = .next s1 → exec .txname s1 = .next s2 → exec .txrest s2 = .next s3 → exec .close s3 = .next s4 →
    s4.fault = false →
    s3.sbytes.toNat = s3.declBytes.toNat ∧ s4.sbytes = s3.sbytes ∧ s4.declBytes = s3.declBytes ∧
    s4.declBytes.toNat = ((s.dataLen.toNat + 253 - 1) / 253 + 1) * 295 * 8 * 2 * s.half.toNat * (s.width.toNat / 8) ∧
    s4.outcnt.toNat = s.outcnt.toNat + 44 + s4.declBytes.toNat ∧
    s1.out.drop (s.out.length + 40) = le32 s4.declBytes

/-! ### Frames: what a next state leaves unchanged, whatever happens -/

/-- R110 to R115: a PUT, in every state and whatever the host answers, changes the output, OUTCNT, the host's answers and the fault
registers at most: no register, no flag but FAULT, no memory. -/
def Obligations.FrameOfPut : Prop :=
  ∀ (i : Instr) (sel : Byte) (bytes : List Byte) (s t : State), putImage i = some (sel, bytes) → exec i s = .next t →
    t = { s with
      outRev := t.outRev, outcnt := t.outcnt, hostRefuses := t.hostRefuses, drawn := t.drawn,
      fault := t.fault, faultCode := t.faultCode, faultInfo := t.faultInfo, faultValue := t.faultValue } ∧
    ∀ a, readCell t.blk a = readCell s.blk a

/-- R121, R124, R126, R140, R141, R180 to R182: what NOP, WRCFG, RDREG, BLKWR, BLKCLR, TIMING, LEVELS and INIT can change at most, in
every state; the fault registers apart, each writes only what its rule names, and none touches a port but RDREG its response. -/
def Obligations.FrameOfConfiguration : Prop :=
  ∀ s t : State,
    let faultOf (u : State) : State :=
      { u with fault := t.fault, faultCode := t.faultCode, faultInfo := t.faultInfo, faultValue := t.faultValue }
    (exec .nop s = .next t → t = s) ∧
    (∀ sel imm, exec (.wrcfg sel imm) s = .next t → t = faultOf s ∨ t = writeRegister sel imm s) ∧
    (∀ sel, exec (.rdreg sel) s = .next t → t = faultOf { s with responses := t.responses }) ∧
    (∀ index v, exec (.blkwr index v) s = .next t → t = { s with blk := t.blk } ∧
      (Memory.wf s.blk = true → ∀ a, a ≠ index.toNat → readCell t.blk a = readCell s.blk a)) ∧
    (exec .blkclr s = .next t → t = { s with blk := t.blk }) ∧
    (exec .timing s = .next t → t = faultOf { s with half := t.half, actRate := t.actRate, timingOk := t.timingOk }) ∧
    (exec .levels s = .next t → t = faultOf { s with lowValue := t.lowValue, highValue := t.highValue }) ∧
    (exec .init s = .next t →
      t = faultOf { s with hiBuf := t.hiBuf, loBuf := t.loBuf, pol := t.pol, initDone := t.initDone })

/-- R130, R131, R142, R144 to R146: what the emitting commands can change at most, in every state and whatever the ports do. EMITBIT,
EMITBYTE and TXBLOCK leave BLK, BLKCNT, the input and every register but the counters; TXNAME the input and BLKCNT; TXDATA and TXREST
everything but the ports, P, SAMPLES, EOF, BLK and the counters. -/
def Obligations.FrameOfEmission : Prop :=
  ∀ s t : State,
    let faultOf (u : State) : State :=
      { u with fault := t.fault, faultCode := t.faultCode, faultInfo := t.faultInfo, faultValue := t.faultValue }
    let emits : State := faultOf { s with
      outRev := t.outRev, outcnt := t.outcnt, hostRefuses := t.hostRefuses, drawn := t.drawn, sbytes := t.sbytes,
      samples := t.samples, pol := t.pol }
    let reads : State := { emits with
      blk := t.blk, blkcnt := t.blkcnt, incnt := t.incnt, inPort := t.inPort, eof := t.eof }
    (∀ b, exec (.emitbit b) s = .next t → t = emits) ∧
    (∀ v, exec (.emitbyte v) s = .next t → t = emits) ∧
    (exec .txblock s = .next t → t = emits) ∧
    (exec .txname s = .next t → t = { emits with blk := t.blk, nameDone := t.nameDone }) ∧
    (∀ c, exec (.txdata c) s = .next t → t = reads) ∧
    (exec .txrest s = .next t → t = reads)

/-- R160, R185, R186, R230: what HDR, CLOSE and RUN can change at most: HDR and CLOSE leave BLK and every register but their own, RUN the
configuration the host wrote except the two level words. No command changes the queued words or the build parameters, only RESET an
earlier session's output and the inputs to come, only RDREG the responses (10_state.md R26, 20_memory.md R54, R62), and only RESET clears
a flag of STATUS other than P (10_state.md R23, in every state and wherever the command stops). That RESET too keeps the queued words and
the responses is the model's choice (log entries 27 and 13). -/
def Obligations.FrameOfHeaderCloseAndRun : Prop :=
  (∀ s t : State,
    let faultOf (u : State) : State :=
      { u with fault := t.fault, faultCode := t.faultCode, faultInfo := t.faultInfo, faultValue := t.faultValue }
    (exec .hdr s = .next t → t = faultOf { s with
      outRev := t.outRev, outcnt := t.outcnt, hostRefuses := t.hostRefuses, drawn := t.drawn, declBytes := t.declBytes,
      declared := t.declared, hdrDone := t.hdrDone }) ∧
    (exec .close s = .next t → t = faultOf { s with hostRefuses := t.hostRefuses, drawn := t.drawn, closed := t.closed }) ∧
    (exec .run s = .next t → t.cfg = s.cfg ∧ t.baud = s.baud ∧ t.reqRate = s.reqRate ∧ t.width = s.width ∧
      t.container = s.container ∧ t.inputMode = s.inputMode ∧ t.dataLen = s.dataLen ∧ t.nameA = s.nameA ∧
      t.nameB = s.nameB ∧ t.ext = s.ext ∧ t.commands = s.commands ∧ t.nextInputs = s.nextInputs ∧
      t.delivered = s.delivered ∧ t.responses = s.responses ∧ t.session = s.session)) ∧
  (∀ (i : Instr) (s t : State), exec i s = .next t →
    t.cfg = s.cfg ∧ t.commands = s.commands ∧
    (i ≠ .reset → t.delivered = s.delivered ∧ t.nextInputs = s.nextInputs ∧ t.session = s.session ∧
      ∀ flag ∈ [State.timingOk, State.initDone, State.hdrDone, State.nameDone, State.samples, State.declared, State.closed,
        State.fault, State.eof], flag s = true → flag t = true) ∧
    ((∀ sel, i ≠ .rdreg sel) → t.responses = s.responses))

/-! ### Invariants -/

/-- 20_memory.md R52, 70_reset_and_hazards.md R230: no command removes or changes a byte of OUT; RESET hands it over whole and starts an
empty one. -/
def Obligations.OutIsAppendOnly : Prop :=
  ∀ (i : Instr) (s t : State), exec i s = .next t →
    (i ≠ .reset → ∃ bytes, t.out = s.out ++ bytes) ∧ (i = .reset → t.out = [] ∧ t.delivered = s.out :: s.delivered)

/-- The invariant of a session (10_state.md R21 to R29, 70_reset_and_hazards.md R233) holds after power-on reset, whatever the
engine was built with, and so at State.reset. -/
def Obligations.InvAtReset : Prop :=
  (∀ cfg : Config, Inv (State.powerOn cfg)) ∧ Inv State.reset

/-- The invariant of a session is kept by every step from every state that has it, whatever the word and whatever the host answers. -/
def Obligations.StepKeepsInv : Prop :=
  ∀ s t : State, Inv s → step s = .next t → Inv t

/-! ### A transmission that the host cuts short -/

/-- 60_exceptions.md R204, 20_memory.md R51, R53, 42_framer.md R146, 44_driver.md R185: TXREST and RUN make the accesses that Safety.lean
lists, in that order. Where the host grants the first n and refuses the next one, a, or where a is the end of a BUFFERED input that falls
short of DATA_LEN, the output before it stays in OUT (the header, the name block, the full data blocks, the bytes of a block cut short),
OUTCNT, SBYTES and INCNT count what came before it, and BLKCNT the data blocks that were sent whole; SAMPLES is set by the first sample
byte, EOF where the end of the input was reported, the input is what is left of it, P is as it was toggled for the last sample byte tried
(a itself where it is one), and BLK holds the last block begun. After RUN the timing registers and the level words are those of its TIMING
and LEVELS, TIMING_OK and INIT_DONE are set, HDR_DONE, DECLARED and DECL_BYTES are written if the header is out, NAME_DONE if the name
block is. IO_OUTPUT records OUTCNT where a is a byte or the flush, IO_INPUT records INCNT where a is a read, refused or not (log entry 17).
FAULT_INFO names the command, RUN for a fault inside RUN, and CLOSED is not written. -/
def Obligations.TransmissionStopsAtARefusal : Prop :=
  let records (s t : State) (a : Access) : Prop := t.fault = true ∧ t.closed = s.closed ∧
    (a ∈ [Access.headerByte, Access.sampleByte, Access.flush] → t.faultCode = 0x0A#32 ∧ t.faultValue = BitVec.ofNat 32 t.outcnt.toNat) ∧
    (a ∈ [Access.byteIn, Access.endOfInput] → t.faultCode = 0x0B#32 ∧ t.faultValue = BitVec.ofNat 32 t.incnt.toNat)
  (∀ (s : State) (n : Nat) (a : Access), Inv s → s.nameDone = true → s.eof = false → s.inputMode.toNat ∈ [1, 2] →
    let rem := s.dataLen.toNat - s.incnt.toNat
    let input := if s.inputMode = 1#32 then s.inBytes.take rem else s.inBytes
    let short := s.inputMode = 1#32 ∧ input.length < rem
    let accesses := if short then s.shortAccesses input.length else s.restAccesses input.length
    let blocks := ((if s.inputMode = 1#32 then rem else input.length) + 253 - 1) / 253
    let chunks := chunksOf ((input.length + 253 - 1) / 253) input
    let stream := bitStream (framedChunks s.cfg s.blkcnt chunks)
    let made := accesses.take n
    let tried := (accesses.take (n + 1)).count Access.sampleByte
    EmitReady s (blocks * blockByteCount s) → s.incnt.toNat + input.length < 2 ^ 64 → accesses[n]? = some a → Granted s n →
    (refusesAt s n = true ∨ short ∧ n + 1 = accesses.length) →
    ∃ t, exec .txrest s = .next t ∧ records s t a ∧ t.faultInfo = 0x33#32 ∧
      t.out = s.out ++ (bitsWave s s.pol stream).take (made.count Access.sampleByte) ∧
      t.outcnt.toNat = s.outcnt.toNat + made.count Access.sampleByte ∧
      t.sbytes.toNat = s.sbytes.toNat + made.count Access.sampleByte ∧
      t.incnt.toNat = s.incnt.toNat + made.count Access.byteIn ∧
      t.blkcnt = s.blkcnt + BitVec.ofNat 16 (made.count Access.sampleByte / blockByteCount s) ∧
      t.samples = (s.samples || decide (0 < made.count Access.sampleByte)) ∧
      t.eof = (made.contains Access.endOfInput || !refusesAt s n) ∧
      t.inBytes = s.inBytes.drop (made.count Access.byteIn) ∧ (s.pol :: polarities s s.pol stream)[tried]? = some t.pol ∧
      t.blk = lastBlock s.blk s.blkcnt (chunks.take ((tried + blockByteCount s - 1) / blockByteCount s))) ∧
  (∀ (s : State) (n : Nat) (a : Access), Inv s → s.fault = false → s.initDone = false → s.closed = false →
    let p := s.prepared
    let h := deriveHalf s.cfg.rounding s.reqRate.toNat s.baud.toNat
    let input := if s.inputMode = 1#32 then s.inBytes.take s.dataLen.toNat else s.inBytes
    let short := s.inputMode = 1#32 ∧ input.length < s.dataLen.toNat
    let accesses := p.runAccesses (if short then p.shortAccesses input.length else p.restAccesses input.length ++ [Access.flush])
    let blocks := ((if s.inputMode = 1#32 then s.dataLen.toNat else input.length) + 253 - 1) / 253
    let chunks := chunksOf ((input.length + 253 - 1) / 253) input
    let stream := bitStream (framedBytes s.cfg (nameBlock s) ++ framedChunks s.cfg 0#16 chunks)
    let made := accesses.take n
    let tried := (accesses.take (n + 1)).count Access.sampleByte
    let came := made.count Access.headerByte + made.count Access.sampleByte
    (s.baud.toNat = 700 ∨ s.baud.toNat = s.cfg.baudAlt) → s.cfg.minSampleRate ≤ s.reqRate.toNat → 1 ≤ h → h ≤ 128 →
    s.width.toNat ∈ [8, 16, 24, 32] → s.container.toNat ∈ [1, 2, 3] → s.inputMode.toNat ∈ [1, 2] →
    (lengthKnown s = true → riffLen p ≤ 0xFFFFFFFE) →
    s.outcnt.toNat + (headerBytes p).length + (blocks + 1) * blockByteCount p + input.length < 2 ^ 64 →
    accesses[n]? = some a → Granted s n → (refusesAt s n = true ∨ short ∧ n + 1 = accesses.length) →
    ∃ t, exec .run s = .next t ∧ records s t a ∧ t.faultInfo = 0x60#32 ∧
      t.out = s.out ++ (headerBytes p ++ bitsWave p s.cfg.initPolarity stream).take came ∧
      t.outcnt.toNat = s.outcnt.toNat + came ∧ t.sbytes.toNat = made.count Access.sampleByte ∧
      t.incnt.toNat = made.count Access.byteIn ∧
      t.blkcnt = BitVec.ofNat 16 (made.count Access.sampleByte / blockByteCount p - 1) ∧
      t.samples = decide (0 < made.count Access.sampleByte) ∧ t.eof = (made.contains Access.endOfInput || !refusesAt s n) ∧
      t.inBytes = s.inBytes.drop (made.count Access.byteIn) ∧
      (s.cfg.initPolarity :: polarities p s.cfg.initPolarity stream)[tried]? = some t.pol ∧
      t.blk = (if tried = 0 then s.blk else lastBlock (cellsFrom 0 (nameBlock s)) 0#16
        (chunks.take ((tried + blockByteCount p - 1) / blockByteCount p - 1))) ∧
      t.half = p.half ∧ t.actRate = p.actRate ∧ t.lowValue = p.lowValue ∧ t.highValue = p.highValue ∧
      t.timingOk = true ∧ t.initDone = true ∧ t.hdrDone = decide ((headerBytes p).length ≤ n) ∧
      t.nameDone = decide ((headerBytes p).length + blockByteCount p ≤ n) ∧ t.declared = (t.hdrDone && lengthKnown s) ∧
      t.declBytes = if t.declared then BitVec.ofNat 32 (dataBytes p) else 0#32)
end

