-- ==== Sys2Proof/Laws/State.lean ====
section
/-! SUPPORT. The named updates of State, field by field: what each one leaves a field at. -/

namespace Sys2Proof.Machine

/-! ### drewOne -/

@[simp] theorem drewOne_cfg (s : State) : s.drewOne.cfg = s.cfg := rfl
@[simp] theorem drewOne_baud (s : State) : s.drewOne.baud = s.baud := rfl
@[simp] theorem drewOne_reqRate (s : State) : s.drewOne.reqRate = s.reqRate := rfl
@[simp] theorem drewOne_width (s : State) : s.drewOne.width = s.width := rfl
@[simp] theorem drewOne_container (s : State) : s.drewOne.container = s.container := rfl
@[simp] theorem drewOne_inputMode (s : State) : s.drewOne.inputMode = s.inputMode := rfl
@[simp] theorem drewOne_dataLen (s : State) : s.drewOne.dataLen = s.dataLen := rfl
@[simp] theorem drewOne_nameA (s : State) : s.drewOne.nameA = s.nameA := rfl
@[simp] theorem drewOne_nameB (s : State) : s.drewOne.nameB = s.nameB := rfl
@[simp] theorem drewOne_ext (s : State) : s.drewOne.ext = s.ext := rfl
@[simp] theorem drewOne_lowValue (s : State) : s.drewOne.lowValue = s.lowValue := rfl
@[simp] theorem drewOne_highValue (s : State) : s.drewOne.highValue = s.highValue := rfl
@[simp] theorem drewOne_half (s : State) : s.drewOne.half = s.half := rfl
@[simp] theorem drewOne_actRate (s : State) : s.drewOne.actRate = s.actRate := rfl
@[simp] theorem drewOne_pol (s : State) : s.drewOne.pol = s.pol := rfl
@[simp] theorem drewOne_timingOk (s : State) : s.drewOne.timingOk = s.timingOk := rfl
@[simp] theorem drewOne_initDone (s : State) : s.drewOne.initDone = s.initDone := rfl
@[simp] theorem drewOne_hdrDone (s : State) : s.drewOne.hdrDone = s.hdrDone := rfl
@[simp] theorem drewOne_nameDone (s : State) : s.drewOne.nameDone = s.nameDone := rfl
@[simp] theorem drewOne_samples (s : State) : s.drewOne.samples = s.samples := rfl
@[simp] theorem drewOne_declared (s : State) : s.drewOne.declared = s.declared := rfl
@[simp] theorem drewOne_closed (s : State) : s.drewOne.closed = s.closed := rfl
@[simp] theorem drewOne_fault (s : State) : s.drewOne.fault = s.fault := rfl
@[simp] theorem drewOne_eof (s : State) : s.drewOne.eof = s.eof := rfl
@[simp] theorem drewOne_faultCode (s : State) : s.drewOne.faultCode = s.faultCode := rfl
@[simp] theorem drewOne_faultInfo (s : State) : s.drewOne.faultInfo = s.faultInfo := rfl
@[simp] theorem drewOne_faultValue (s : State) : s.drewOne.faultValue = s.faultValue := rfl
@[simp] theorem drewOne_blkcnt (s : State) : s.drewOne.blkcnt = s.blkcnt := rfl
@[simp] theorem drewOne_outcnt (s : State) : s.drewOne.outcnt = s.outcnt := rfl
@[simp] theorem drewOne_sbytes (s : State) : s.drewOne.sbytes = s.sbytes := rfl
@[simp] theorem drewOne_incnt (s : State) : s.drewOne.incnt = s.incnt := rfl
@[simp] theorem drewOne_declBytes (s : State) : s.drewOne.declBytes = s.declBytes := rfl
@[simp] theorem drewOne_hiBuf (s : State) : s.drewOne.hiBuf = s.hiBuf := rfl
@[simp] theorem drewOne_loBuf (s : State) : s.drewOne.loBuf = s.loBuf := rfl
@[simp] theorem drewOne_blk (s : State) : s.drewOne.blk = s.blk := rfl
@[simp] theorem drewOne_commands (s : State) : s.drewOne.commands = s.commands := rfl
@[simp] theorem drewOne_inPort (s : State) : s.drewOne.inPort = s.inPort := rfl
@[simp] theorem drewOne_nextInputs (s : State) : s.drewOne.nextInputs = s.nextInputs := rfl
@[simp] theorem drewOne_outRev (s : State) : s.drewOne.outRev = s.outRev := rfl
@[simp] theorem drewOne_delivered (s : State) : s.drewOne.delivered = s.delivered := rfl
@[simp] theorem drewOne_responses (s : State) : s.drewOne.responses = s.responses := rfl
@[simp] theorem drewOne_hostRefuses (s : State) : s.drewOne.hostRefuses = s.hostRefuses.tail := rfl
@[simp] theorem drewOne_drawn (s : State) : s.drewOne.drawn = s.drawn + 1 := rfl
@[simp] theorem drewOne_session (s : State) : s.drewOne.session = s.session := rfl

/-! ### accepted -/

@[simp] theorem accepted_cfg (s : State) (b : Byte) : (s.accepted b).cfg = s.cfg := rfl
@[simp] theorem accepted_baud (s : State) (b : Byte) : (s.accepted b).baud = s.baud := rfl
@[simp] theorem accepted_reqRate (s : State) (b : Byte) : (s.accepted b).reqRate = s.reqRate := rfl
@[simp] theorem accepted_width (s : State) (b : Byte) : (s.accepted b).width = s.width := rfl
@[simp] theorem accepted_container (s : State) (b : Byte) : (s.accepted b).container = s.container := rfl
@[simp] theorem accepted_inputMode (s : State) (b : Byte) : (s.accepted b).inputMode = s.inputMode := rfl
@[simp] theorem accepted_dataLen (s : State) (b : Byte) : (s.accepted b).dataLen = s.dataLen := rfl
@[simp] theorem accepted_nameA (s : State) (b : Byte) : (s.accepted b).nameA = s.nameA := rfl
@[simp] theorem accepted_nameB (s : State) (b : Byte) : (s.accepted b).nameB = s.nameB := rfl
@[simp] theorem accepted_ext (s : State) (b : Byte) : (s.accepted b).ext = s.ext := rfl
@[simp] theorem accepted_lowValue (s : State) (b : Byte) : (s.accepted b).lowValue = s.lowValue := rfl
@[simp] theorem accepted_highValue (s : State) (b : Byte) : (s.accepted b).highValue = s.highValue := rfl
@[simp] theorem accepted_half (s : State) (b : Byte) : (s.accepted b).half = s.half := rfl
@[simp] theorem accepted_actRate (s : State) (b : Byte) : (s.accepted b).actRate = s.actRate := rfl
@[simp] theorem accepted_pol (s : State) (b : Byte) : (s.accepted b).pol = s.pol := rfl
@[simp] theorem accepted_timingOk (s : State) (b : Byte) : (s.accepted b).timingOk = s.timingOk := rfl
@[simp] theorem accepted_initDone (s : State) (b : Byte) : (s.accepted b).initDone = s.initDone := rfl
@[simp] theorem accepted_hdrDone (s : State) (b : Byte) : (s.accepted b).hdrDone = s.hdrDone := rfl
@[simp] theorem accepted_nameDone (s : State) (b : Byte) : (s.accepted b).nameDone = s.nameDone := rfl
@[simp] theorem accepted_samples (s : State) (b : Byte) : (s.accepted b).samples = s.samples := rfl
@[simp] theorem accepted_declared (s : State) (b : Byte) : (s.accepted b).declared = s.declared := rfl
@[simp] theorem accepted_closed (s : State) (b : Byte) : (s.accepted b).closed = s.closed := rfl
@[simp] theorem accepted_fault (s : State) (b : Byte) : (s.accepted b).fault = s.fault := rfl
@[simp] theorem accepted_eof (s : State) (b : Byte) : (s.accepted b).eof = s.eof := rfl
@[simp] theorem accepted_faultCode (s : State) (b : Byte) : (s.accepted b).faultCode = s.faultCode := rfl
@[simp] theorem accepted_faultInfo (s : State) (b : Byte) : (s.accepted b).faultInfo = s.faultInfo := rfl
@[simp] theorem accepted_faultValue (s : State) (b : Byte) : (s.accepted b).faultValue = s.faultValue := rfl
@[simp] theorem accepted_blkcnt (s : State) (b : Byte) : (s.accepted b).blkcnt = s.blkcnt := rfl
@[simp] theorem accepted_outcnt (s : State) (b : Byte) : (s.accepted b).outcnt = countUp s.outcnt (Config.wrappedOutcnt s.drawn) := rfl
@[simp] theorem accepted_sbytes (s : State) (b : Byte) : (s.accepted b).sbytes = s.sbytes := rfl
@[simp] theorem accepted_incnt (s : State) (b : Byte) : (s.accepted b).incnt = s.incnt := rfl
@[simp] theorem accepted_declBytes (s : State) (b : Byte) : (s.accepted b).declBytes = s.declBytes := rfl
@[simp] theorem accepted_hiBuf (s : State) (b : Byte) : (s.accepted b).hiBuf = s.hiBuf := rfl
@[simp] theorem accepted_loBuf (s : State) (b : Byte) : (s.accepted b).loBuf = s.loBuf := rfl
@[simp] theorem accepted_blk (s : State) (b : Byte) : (s.accepted b).blk = s.blk := rfl
@[simp] theorem accepted_commands (s : State) (b : Byte) : (s.accepted b).commands = s.commands := rfl
@[simp] theorem accepted_inPort (s : State) (b : Byte) : (s.accepted b).inPort = s.inPort := rfl
@[simp] theorem accepted_nextInputs (s : State) (b : Byte) : (s.accepted b).nextInputs = s.nextInputs := rfl
@[simp] theorem accepted_outRev (s : State) (b : Byte) : (s.accepted b).outRev = b :: s.outRev := rfl
@[simp] theorem accepted_delivered (s : State) (b : Byte) : (s.accepted b).delivered = s.delivered := rfl
@[simp] theorem accepted_responses (s : State) (b : Byte) : (s.accepted b).responses = s.responses := rfl
@[simp] theorem accepted_hostRefuses (s : State) (b : Byte) : (s.accepted b).hostRefuses = s.hostRefuses.tail := rfl
@[simp] theorem accepted_drawn (s : State) (b : Byte) : (s.accepted b).drawn = s.drawn + 1 := rfl
@[simp] theorem accepted_session (s : State) (b : Byte) : (s.accepted b).session = s.session := rfl

/-! ### counted -/

@[simp] theorem counted_cfg (k : Nat) (s : State) : (State.counted k s).cfg = s.cfg := rfl
@[simp] theorem counted_baud (k : Nat) (s : State) : (State.counted k s).baud = s.baud := rfl
@[simp] theorem counted_reqRate (k : Nat) (s : State) : (State.counted k s).reqRate = s.reqRate := rfl
@[simp] theorem counted_width (k : Nat) (s : State) : (State.counted k s).width = s.width := rfl
@[simp] theorem counted_container (k : Nat) (s : State) : (State.counted k s).container = s.container := rfl
@[simp] theorem counted_inputMode (k : Nat) (s : State) : (State.counted k s).inputMode = s.inputMode := rfl
@[simp] theorem counted_dataLen (k : Nat) (s : State) : (State.counted k s).dataLen = s.dataLen := rfl
@[simp] theorem counted_nameA (k : Nat) (s : State) : (State.counted k s).nameA = s.nameA := rfl
@[simp] theorem counted_nameB (k : Nat) (s : State) : (State.counted k s).nameB = s.nameB := rfl
@[simp] theorem counted_ext (k : Nat) (s : State) : (State.counted k s).ext = s.ext := rfl
@[simp] theorem counted_lowValue (k : Nat) (s : State) : (State.counted k s).lowValue = s.lowValue := rfl
@[simp] theorem counted_highValue (k : Nat) (s : State) : (State.counted k s).highValue = s.highValue := rfl
@[simp] theorem counted_half (k : Nat) (s : State) : (State.counted k s).half = s.half := rfl
@[simp] theorem counted_actRate (k : Nat) (s : State) : (State.counted k s).actRate = s.actRate := rfl
@[simp] theorem counted_pol (k : Nat) (s : State) : (State.counted k s).pol = s.pol := rfl
@[simp] theorem counted_timingOk (k : Nat) (s : State) : (State.counted k s).timingOk = s.timingOk := rfl
@[simp] theorem counted_initDone (k : Nat) (s : State) : (State.counted k s).initDone = s.initDone := rfl
@[simp] theorem counted_hdrDone (k : Nat) (s : State) : (State.counted k s).hdrDone = s.hdrDone := rfl
@[simp] theorem counted_nameDone (k : Nat) (s : State) : (State.counted k s).nameDone = s.nameDone := rfl
@[simp] theorem counted_samples (k : Nat) (s : State) : (State.counted k s).samples = true := rfl
@[simp] theorem counted_declared (k : Nat) (s : State) : (State.counted k s).declared = s.declared := rfl
@[simp] theorem counted_closed (k : Nat) (s : State) : (State.counted k s).closed = s.closed := rfl
@[simp] theorem counted_fault (k : Nat) (s : State) : (State.counted k s).fault = s.fault := rfl
@[simp] theorem counted_eof (k : Nat) (s : State) : (State.counted k s).eof = s.eof := rfl
@[simp] theorem counted_faultCode (k : Nat) (s : State) : (State.counted k s).faultCode = s.faultCode := rfl
@[simp] theorem counted_faultInfo (k : Nat) (s : State) : (State.counted k s).faultInfo = s.faultInfo := rfl
@[simp] theorem counted_faultValue (k : Nat) (s : State) : (State.counted k s).faultValue = s.faultValue := rfl
@[simp] theorem counted_blkcnt (k : Nat) (s : State) : (State.counted k s).blkcnt = s.blkcnt := rfl
@[simp] theorem counted_outcnt (k : Nat) (s : State) : (State.counted k s).outcnt = s.outcnt := rfl
@[simp] theorem counted_sbytes (k : Nat) (s : State) : (State.counted k s).sbytes = countUp s.sbytes (Config.wrappedSbytes k) := rfl
@[simp] theorem counted_incnt (k : Nat) (s : State) : (State.counted k s).incnt = s.incnt := rfl
@[simp] theorem counted_declBytes (k : Nat) (s : State) : (State.counted k s).declBytes = s.declBytes := rfl
@[simp] theorem counted_hiBuf (k : Nat) (s : State) : (State.counted k s).hiBuf = s.hiBuf := rfl
@[simp] theorem counted_loBuf (k : Nat) (s : State) : (State.counted k s).loBuf = s.loBuf := rfl
@[simp] theorem counted_blk (k : Nat) (s : State) : (State.counted k s).blk = s.blk := rfl
@[simp] theorem counted_commands (k : Nat) (s : State) : (State.counted k s).commands = s.commands := rfl
@[simp] theorem counted_inPort (k : Nat) (s : State) : (State.counted k s).inPort = s.inPort := rfl
@[simp] theorem counted_nextInputs (k : Nat) (s : State) : (State.counted k s).nextInputs = s.nextInputs := rfl
@[simp] theorem counted_outRev (k : Nat) (s : State) : (State.counted k s).outRev = s.outRev := rfl
@[simp] theorem counted_delivered (k : Nat) (s : State) : (State.counted k s).delivered = s.delivered := rfl
@[simp] theorem counted_responses (k : Nat) (s : State) : (State.counted k s).responses = s.responses := rfl
@[simp] theorem counted_hostRefuses (k : Nat) (s : State) : (State.counted k s).hostRefuses = s.hostRefuses := rfl
@[simp] theorem counted_drawn (k : Nat) (s : State) : (State.counted k s).drawn = s.drawn := rfl
@[simp] theorem counted_session (k : Nat) (s : State) : (State.counted k s).session = s.session := rfl

/-! ### written -/

@[simp] theorem written_cfg (s : State) (bs : List Byte) : (s.written bs).cfg = s.cfg := rfl
@[simp] theorem written_baud (s : State) (bs : List Byte) : (s.written bs).baud = s.baud := rfl
@[simp] theorem written_reqRate (s : State) (bs : List Byte) : (s.written bs).reqRate = s.reqRate := rfl
@[simp] theorem written_width (s : State) (bs : List Byte) : (s.written bs).width = s.width := rfl
@[simp] theorem written_container (s : State) (bs : List Byte) : (s.written bs).container = s.container := rfl
@[simp] theorem written_inputMode (s : State) (bs : List Byte) : (s.written bs).inputMode = s.inputMode := rfl
@[simp] theorem written_dataLen (s : State) (bs : List Byte) : (s.written bs).dataLen = s.dataLen := rfl
@[simp] theorem written_nameA (s : State) (bs : List Byte) : (s.written bs).nameA = s.nameA := rfl
@[simp] theorem written_nameB (s : State) (bs : List Byte) : (s.written bs).nameB = s.nameB := rfl
@[simp] theorem written_ext (s : State) (bs : List Byte) : (s.written bs).ext = s.ext := rfl
@[simp] theorem written_lowValue (s : State) (bs : List Byte) : (s.written bs).lowValue = s.lowValue := rfl
@[simp] theorem written_highValue (s : State) (bs : List Byte) : (s.written bs).highValue = s.highValue := rfl
@[simp] theorem written_half (s : State) (bs : List Byte) : (s.written bs).half = s.half := rfl
@[simp] theorem written_actRate (s : State) (bs : List Byte) : (s.written bs).actRate = s.actRate := rfl
@[simp] theorem written_pol (s : State) (bs : List Byte) : (s.written bs).pol = s.pol := rfl
@[simp] theorem written_timingOk (s : State) (bs : List Byte) : (s.written bs).timingOk = s.timingOk := rfl
@[simp] theorem written_initDone (s : State) (bs : List Byte) : (s.written bs).initDone = s.initDone := rfl
@[simp] theorem written_hdrDone (s : State) (bs : List Byte) : (s.written bs).hdrDone = s.hdrDone := rfl
@[simp] theorem written_nameDone (s : State) (bs : List Byte) : (s.written bs).nameDone = s.nameDone := rfl
@[simp] theorem written_samples (s : State) (bs : List Byte) : (s.written bs).samples = s.samples := rfl
@[simp] theorem written_declared (s : State) (bs : List Byte) : (s.written bs).declared = s.declared := rfl
@[simp] theorem written_closed (s : State) (bs : List Byte) : (s.written bs).closed = s.closed := rfl
@[simp] theorem written_fault (s : State) (bs : List Byte) : (s.written bs).fault = s.fault := rfl
@[simp] theorem written_eof (s : State) (bs : List Byte) : (s.written bs).eof = s.eof := rfl
@[simp] theorem written_faultCode (s : State) (bs : List Byte) : (s.written bs).faultCode = s.faultCode := rfl
@[simp] theorem written_faultInfo (s : State) (bs : List Byte) : (s.written bs).faultInfo = s.faultInfo := rfl
@[simp] theorem written_faultValue (s : State) (bs : List Byte) : (s.written bs).faultValue = s.faultValue := rfl
@[simp] theorem written_blkcnt (s : State) (bs : List Byte) : (s.written bs).blkcnt = s.blkcnt := rfl
@[simp] theorem written_outcnt (s : State) (bs : List Byte) : (s.written bs).outcnt = s.outcnt + BitVec.ofNat 64 bs.length := rfl
@[simp] theorem written_sbytes (s : State) (bs : List Byte) : (s.written bs).sbytes = s.sbytes := rfl
@[simp] theorem written_incnt (s : State) (bs : List Byte) : (s.written bs).incnt = s.incnt := rfl
@[simp] theorem written_declBytes (s : State) (bs : List Byte) : (s.written bs).declBytes = s.declBytes := rfl
@[simp] theorem written_hiBuf (s : State) (bs : List Byte) : (s.written bs).hiBuf = s.hiBuf := rfl
@[simp] theorem written_loBuf (s : State) (bs : List Byte) : (s.written bs).loBuf = s.loBuf := rfl
@[simp] theorem written_blk (s : State) (bs : List Byte) : (s.written bs).blk = s.blk := rfl
@[simp] theorem written_commands (s : State) (bs : List Byte) : (s.written bs).commands = s.commands := rfl
@[simp] theorem written_inPort (s : State) (bs : List Byte) : (s.written bs).inPort = s.inPort := rfl
@[simp] theorem written_nextInputs (s : State) (bs : List Byte) : (s.written bs).nextInputs = s.nextInputs := rfl
@[simp] theorem written_outRev (s : State) (bs : List Byte) : (s.written bs).outRev = bs.reverse ++ s.outRev := rfl
@[simp] theorem written_delivered (s : State) (bs : List Byte) : (s.written bs).delivered = s.delivered := rfl
@[simp] theorem written_responses (s : State) (bs : List Byte) : (s.written bs).responses = s.responses := rfl
@[simp] theorem written_hostRefuses (s : State) (bs : List Byte) : (s.written bs).hostRefuses = s.hostRefuses.drop bs.length := rfl
@[simp] theorem written_drawn (s : State) (bs : List Byte) : (s.written bs).drawn = s.drawn + bs.length := rfl
@[simp] theorem written_session (s : State) (bs : List Byte) : (s.written bs).session = s.session := rfl

/-! ### emitted -/

@[simp] theorem emitted_cfg (s : State) (bs : List Byte) (p : Bool) : (s.emitted bs p).cfg = s.cfg := rfl
@[simp] theorem emitted_baud (s : State) (bs : List Byte) (p : Bool) : (s.emitted bs p).baud = s.baud := rfl
@[simp] theorem emitted_reqRate (s : State) (bs : List Byte) (p : Bool) : (s.emitted bs p).reqRate = s.reqRate := rfl
@[simp] theorem emitted_width (s : State) (bs : List Byte) (p : Bool) : (s.emitted bs p).width = s.width := rfl
@[simp] theorem emitted_container (s : State) (bs : List Byte) (p : Bool) : (s.emitted bs p).container = s.container := rfl
@[simp] theorem emitted_inputMode (s : State) (bs : List Byte) (p : Bool) : (s.emitted bs p).inputMode = s.inputMode := rfl
@[simp] theorem emitted_dataLen (s : State) (bs : List Byte) (p : Bool) : (s.emitted bs p).dataLen = s.dataLen := rfl
@[simp] theorem emitted_nameA (s : State) (bs : List Byte) (p : Bool) : (s.emitted bs p).nameA = s.nameA := rfl
@[simp] theorem emitted_nameB (s : State) (bs : List Byte) (p : Bool) : (s.emitted bs p).nameB = s.nameB := rfl
@[simp] theorem emitted_ext (s : State) (bs : List Byte) (p : Bool) : (s.emitted bs p).ext = s.ext := rfl
@[simp] theorem emitted_lowValue (s : State) (bs : List Byte) (p : Bool) : (s.emitted bs p).lowValue = s.lowValue := rfl
@[simp] theorem emitted_highValue (s : State) (bs : List Byte) (p : Bool) : (s.emitted bs p).highValue = s.highValue := rfl
@[simp] theorem emitted_half (s : State) (bs : List Byte) (p : Bool) : (s.emitted bs p).half = s.half := rfl
@[simp] theorem emitted_actRate (s : State) (bs : List Byte) (p : Bool) : (s.emitted bs p).actRate = s.actRate := rfl
@[simp] theorem emitted_pol (s : State) (bs : List Byte) (p : Bool) : (s.emitted bs p).pol = p := rfl
@[simp] theorem emitted_timingOk (s : State) (bs : List Byte) (p : Bool) : (s.emitted bs p).timingOk = s.timingOk := rfl
@[simp] theorem emitted_initDone (s : State) (bs : List Byte) (p : Bool) : (s.emitted bs p).initDone = s.initDone := rfl
@[simp] theorem emitted_hdrDone (s : State) (bs : List Byte) (p : Bool) : (s.emitted bs p).hdrDone = s.hdrDone := rfl
@[simp] theorem emitted_nameDone (s : State) (bs : List Byte) (p : Bool) : (s.emitted bs p).nameDone = s.nameDone := rfl
@[simp] theorem emitted_samples (s : State) (bs : List Byte) (p : Bool) : (s.emitted bs p).samples = (s.samples || !bs.isEmpty) := rfl
@[simp] theorem emitted_declared (s : State) (bs : List Byte) (p : Bool) : (s.emitted bs p).declared = s.declared := rfl
@[simp] theorem emitted_closed (s : State) (bs : List Byte) (p : Bool) : (s.emitted bs p).closed = s.closed := rfl
@[simp] theorem emitted_fault (s : State) (bs : List Byte) (p : Bool) : (s.emitted bs p).fault = s.fault := rfl
@[simp] theorem emitted_eof (s : State) (bs : List Byte) (p : Bool) : (s.emitted bs p).eof = s.eof := rfl
@[simp] theorem emitted_faultCode (s : State) (bs : List Byte) (p : Bool) : (s.emitted bs p).faultCode = s.faultCode := rfl
@[simp] theorem emitted_faultInfo (s : State) (bs : List Byte) (p : Bool) : (s.emitted bs p).faultInfo = s.faultInfo := rfl
@[simp] theorem emitted_faultValue (s : State) (bs : List Byte) (p : Bool) : (s.emitted bs p).faultValue = s.faultValue := rfl
@[simp] theorem emitted_blkcnt (s : State) (bs : List Byte) (p : Bool) : (s.emitted bs p).blkcnt = s.blkcnt := rfl
@[simp] theorem emitted_outcnt (s : State) (bs : List Byte) (p : Bool) : (s.emitted bs p).outcnt = s.outcnt + BitVec.ofNat 64 bs.length := rfl
@[simp] theorem emitted_sbytes (s : State) (bs : List Byte) (p : Bool) : (s.emitted bs p).sbytes = s.sbytes + BitVec.ofNat 64 bs.length := rfl
@[simp] theorem emitted_incnt (s : State) (bs : List Byte) (p : Bool) : (s.emitted bs p).incnt = s.incnt := rfl
@[simp] theorem emitted_declBytes (s : State) (bs : List Byte) (p : Bool) : (s.emitted bs p).declBytes = s.declBytes := rfl
@[simp] theorem emitted_hiBuf (s : State) (bs : List Byte) (p : Bool) : (s.emitted bs p).hiBuf = s.hiBuf := rfl
@[simp] theorem emitted_loBuf (s : State) (bs : List Byte) (p : Bool) : (s.emitted bs p).loBuf = s.loBuf := rfl
@[simp] theorem emitted_blk (s : State) (bs : List Byte) (p : Bool) : (s.emitted bs p).blk = s.blk := rfl
@[simp] theorem emitted_commands (s : State) (bs : List Byte) (p : Bool) : (s.emitted bs p).commands = s.commands := rfl
@[simp] theorem emitted_inPort (s : State) (bs : List Byte) (p : Bool) : (s.emitted bs p).inPort = s.inPort := rfl
@[simp] theorem emitted_nextInputs (s : State) (bs : List Byte) (p : Bool) : (s.emitted bs p).nextInputs = s.nextInputs := rfl
@[simp] theorem emitted_outRev (s : State) (bs : List Byte) (p : Bool) : (s.emitted bs p).outRev = bs.reverse ++ s.outRev := rfl
@[simp] theorem emitted_delivered (s : State) (bs : List Byte) (p : Bool) : (s.emitted bs p).delivered = s.delivered := rfl
@[simp] theorem emitted_responses (s : State) (bs : List Byte) (p : Bool) : (s.emitted bs p).responses = s.responses := rfl
@[simp] theorem emitted_hostRefuses (s : State) (bs : List Byte) (p : Bool) : (s.emitted bs p).hostRefuses = s.hostRefuses.drop bs.length := rfl
@[simp] theorem emitted_drawn (s : State) (bs : List Byte) (p : Bool) : (s.emitted bs p).drawn = s.drawn + bs.length := rfl
@[simp] theorem emitted_session (s : State) (bs : List Byte) (p : Bool) : (s.emitted bs p).session = s.session := rfl

/-! ### taken -/

@[simp] theorem taken_cfg (s : State) (bs : List Byte) : (s.taken bs).cfg = s.cfg := rfl
@[simp] theorem taken_baud (s : State) (bs : List Byte) : (s.taken bs).baud = s.baud := rfl
@[simp] theorem taken_reqRate (s : State) (bs : List Byte) : (s.taken bs).reqRate = s.reqRate := rfl
@[simp] theorem taken_width (s : State) (bs : List Byte) : (s.taken bs).width = s.width := rfl
@[simp] theorem taken_container (s : State) (bs : List Byte) : (s.taken bs).container = s.container := rfl
@[simp] theorem taken_inputMode (s : State) (bs : List Byte) : (s.taken bs).inputMode = s.inputMode := rfl
@[simp] theorem taken_dataLen (s : State) (bs : List Byte) : (s.taken bs).dataLen = s.dataLen := rfl
@[simp] theorem taken_nameA (s : State) (bs : List Byte) : (s.taken bs).nameA = s.nameA := rfl
@[simp] theorem taken_nameB (s : State) (bs : List Byte) : (s.taken bs).nameB = s.nameB := rfl
@[simp] theorem taken_ext (s : State) (bs : List Byte) : (s.taken bs).ext = s.ext := rfl
@[simp] theorem taken_lowValue (s : State) (bs : List Byte) : (s.taken bs).lowValue = s.lowValue := rfl
@[simp] theorem taken_highValue (s : State) (bs : List Byte) : (s.taken bs).highValue = s.highValue := rfl
@[simp] theorem taken_half (s : State) (bs : List Byte) : (s.taken bs).half = s.half := rfl
@[simp] theorem taken_actRate (s : State) (bs : List Byte) : (s.taken bs).actRate = s.actRate := rfl
@[simp] theorem taken_pol (s : State) (bs : List Byte) : (s.taken bs).pol = s.pol := rfl
@[simp] theorem taken_timingOk (s : State) (bs : List Byte) : (s.taken bs).timingOk = s.timingOk := rfl
@[simp] theorem taken_initDone (s : State) (bs : List Byte) : (s.taken bs).initDone = s.initDone := rfl
@[simp] theorem taken_hdrDone (s : State) (bs : List Byte) : (s.taken bs).hdrDone = s.hdrDone := rfl
@[simp] theorem taken_nameDone (s : State) (bs : List Byte) : (s.taken bs).nameDone = s.nameDone := rfl
@[simp] theorem taken_samples (s : State) (bs : List Byte) : (s.taken bs).samples = s.samples := rfl
@[simp] theorem taken_declared (s : State) (bs : List Byte) : (s.taken bs).declared = s.declared := rfl
@[simp] theorem taken_closed (s : State) (bs : List Byte) : (s.taken bs).closed = s.closed := rfl
@[simp] theorem taken_fault (s : State) (bs : List Byte) : (s.taken bs).fault = s.fault := rfl
@[simp] theorem taken_eof (s : State) (bs : List Byte) : (s.taken bs).eof = s.eof := rfl
@[simp] theorem taken_faultCode (s : State) (bs : List Byte) : (s.taken bs).faultCode = s.faultCode := rfl
@[simp] theorem taken_faultInfo (s : State) (bs : List Byte) : (s.taken bs).faultInfo = s.faultInfo := rfl
@[simp] theorem taken_faultValue (s : State) (bs : List Byte) : (s.taken bs).faultValue = s.faultValue := rfl
@[simp] theorem taken_blkcnt (s : State) (bs : List Byte) : (s.taken bs).blkcnt = s.blkcnt := rfl
@[simp] theorem taken_outcnt (s : State) (bs : List Byte) : (s.taken bs).outcnt = s.outcnt := rfl
@[simp] theorem taken_sbytes (s : State) (bs : List Byte) : (s.taken bs).sbytes = s.sbytes := rfl
@[simp] theorem taken_incnt (s : State) (bs : List Byte) : (s.taken bs).incnt = s.incnt + BitVec.ofNat 64 bs.length := rfl
@[simp] theorem taken_declBytes (s : State) (bs : List Byte) : (s.taken bs).declBytes = s.declBytes := rfl
@[simp] theorem taken_hiBuf (s : State) (bs : List Byte) : (s.taken bs).hiBuf = s.hiBuf := rfl
@[simp] theorem taken_loBuf (s : State) (bs : List Byte) : (s.taken bs).loBuf = s.loBuf := rfl
@[simp] theorem taken_blk (s : State) (bs : List Byte) : (s.taken bs).blk = s.blk := rfl
@[simp] theorem taken_commands (s : State) (bs : List Byte) : (s.taken bs).commands = s.commands := rfl
@[simp] theorem taken_inPort (s : State) (bs : List Byte) : (s.taken bs).inPort = some (s.inBytes.drop bs.length) := rfl
@[simp] theorem taken_nextInputs (s : State) (bs : List Byte) : (s.taken bs).nextInputs = s.nextInputs := rfl
@[simp] theorem taken_outRev (s : State) (bs : List Byte) : (s.taken bs).outRev = s.outRev := rfl
@[simp] theorem taken_delivered (s : State) (bs : List Byte) : (s.taken bs).delivered = s.delivered := rfl
@[simp] theorem taken_responses (s : State) (bs : List Byte) : (s.taken bs).responses = s.responses := rfl
@[simp] theorem taken_hostRefuses (s : State) (bs : List Byte) : (s.taken bs).hostRefuses = s.hostRefuses.drop bs.length := rfl
@[simp] theorem taken_drawn (s : State) (bs : List Byte) : (s.taken bs).drawn = s.drawn + bs.length := rfl
@[simp] theorem taken_session (s : State) (bs : List Byte) : (s.taken bs).session = s.session := rfl

/-! ### togglePolarity -/

@[simp] theorem togglePolarity_cfg (s : State) : (togglePolarity s).cfg = s.cfg := rfl
@[simp] theorem togglePolarity_baud (s : State) : (togglePolarity s).baud = s.baud := rfl
@[simp] theorem togglePolarity_reqRate (s : State) : (togglePolarity s).reqRate = s.reqRate := rfl
@[simp] theorem togglePolarity_width (s : State) : (togglePolarity s).width = s.width := rfl
@[simp] theorem togglePolarity_container (s : State) : (togglePolarity s).container = s.container := rfl
@[simp] theorem togglePolarity_inputMode (s : State) : (togglePolarity s).inputMode = s.inputMode := rfl
@[simp] theorem togglePolarity_dataLen (s : State) : (togglePolarity s).dataLen = s.dataLen := rfl
@[simp] theorem togglePolarity_nameA (s : State) : (togglePolarity s).nameA = s.nameA := rfl
@[simp] theorem togglePolarity_nameB (s : State) : (togglePolarity s).nameB = s.nameB := rfl
@[simp] theorem togglePolarity_ext (s : State) : (togglePolarity s).ext = s.ext := rfl
@[simp] theorem togglePolarity_lowValue (s : State) : (togglePolarity s).lowValue = s.lowValue := rfl
@[simp] theorem togglePolarity_highValue (s : State) : (togglePolarity s).highValue = s.highValue := rfl
@[simp] theorem togglePolarity_half (s : State) : (togglePolarity s).half = s.half := rfl
@[simp] theorem togglePolarity_actRate (s : State) : (togglePolarity s).actRate = s.actRate := rfl
@[simp] theorem togglePolarity_pol (s : State) : (togglePolarity s).pol = !s.pol := rfl
@[simp] theorem togglePolarity_timingOk (s : State) : (togglePolarity s).timingOk = s.timingOk := rfl
@[simp] theorem togglePolarity_initDone (s : State) : (togglePolarity s).initDone = s.initDone := rfl
@[simp] theorem togglePolarity_hdrDone (s : State) : (togglePolarity s).hdrDone = s.hdrDone := rfl
@[simp] theorem togglePolarity_nameDone (s : State) : (togglePolarity s).nameDone = s.nameDone := rfl
@[simp] theorem togglePolarity_samples (s : State) : (togglePolarity s).samples = s.samples := rfl
@[simp] theorem togglePolarity_declared (s : State) : (togglePolarity s).declared = s.declared := rfl
@[simp] theorem togglePolarity_closed (s : State) : (togglePolarity s).closed = s.closed := rfl
@[simp] theorem togglePolarity_fault (s : State) : (togglePolarity s).fault = s.fault := rfl
@[simp] theorem togglePolarity_eof (s : State) : (togglePolarity s).eof = s.eof := rfl
@[simp] theorem togglePolarity_faultCode (s : State) : (togglePolarity s).faultCode = s.faultCode := rfl
@[simp] theorem togglePolarity_faultInfo (s : State) : (togglePolarity s).faultInfo = s.faultInfo := rfl
@[simp] theorem togglePolarity_faultValue (s : State) : (togglePolarity s).faultValue = s.faultValue := rfl
@[simp] theorem togglePolarity_blkcnt (s : State) : (togglePolarity s).blkcnt = s.blkcnt := rfl
@[simp] theorem togglePolarity_outcnt (s : State) : (togglePolarity s).outcnt = s.outcnt := rfl
@[simp] theorem togglePolarity_sbytes (s : State) : (togglePolarity s).sbytes = s.sbytes := rfl
@[simp] theorem togglePolarity_incnt (s : State) : (togglePolarity s).incnt = s.incnt := rfl
@[simp] theorem togglePolarity_declBytes (s : State) : (togglePolarity s).declBytes = s.declBytes := rfl
@[simp] theorem togglePolarity_hiBuf (s : State) : (togglePolarity s).hiBuf = s.hiBuf := rfl
@[simp] theorem togglePolarity_loBuf (s : State) : (togglePolarity s).loBuf = s.loBuf := rfl
@[simp] theorem togglePolarity_blk (s : State) : (togglePolarity s).blk = s.blk := rfl
@[simp] theorem togglePolarity_commands (s : State) : (togglePolarity s).commands = s.commands := rfl
@[simp] theorem togglePolarity_inPort (s : State) : (togglePolarity s).inPort = s.inPort := rfl
@[simp] theorem togglePolarity_nextInputs (s : State) : (togglePolarity s).nextInputs = s.nextInputs := rfl
@[simp] theorem togglePolarity_outRev (s : State) : (togglePolarity s).outRev = s.outRev := rfl
@[simp] theorem togglePolarity_delivered (s : State) : (togglePolarity s).delivered = s.delivered := rfl
@[simp] theorem togglePolarity_responses (s : State) : (togglePolarity s).responses = s.responses := rfl
@[simp] theorem togglePolarity_hostRefuses (s : State) : (togglePolarity s).hostRefuses = s.hostRefuses := rfl
@[simp] theorem togglePolarity_drawn (s : State) : (togglePolarity s).drawn = s.drawn := rfl
@[simp] theorem togglePolarity_session (s : State) : (togglePolarity s).session = s.session := rfl

/-! ### setBlock -/

@[simp] theorem setBlock_cfg (bs : List Byte) (s : State) : (setBlock bs s).cfg = s.cfg := rfl
@[simp] theorem setBlock_baud (bs : List Byte) (s : State) : (setBlock bs s).baud = s.baud := rfl
@[simp] theorem setBlock_reqRate (bs : List Byte) (s : State) : (setBlock bs s).reqRate = s.reqRate := rfl
@[simp] theorem setBlock_width (bs : List Byte) (s : State) : (setBlock bs s).width = s.width := rfl
@[simp] theorem setBlock_container (bs : List Byte) (s : State) : (setBlock bs s).container = s.container := rfl
@[simp] theorem setBlock_inputMode (bs : List Byte) (s : State) : (setBlock bs s).inputMode = s.inputMode := rfl
@[simp] theorem setBlock_dataLen (bs : List Byte) (s : State) : (setBlock bs s).dataLen = s.dataLen := rfl
@[simp] theorem setBlock_nameA (bs : List Byte) (s : State) : (setBlock bs s).nameA = s.nameA := rfl
@[simp] theorem setBlock_nameB (bs : List Byte) (s : State) : (setBlock bs s).nameB = s.nameB := rfl
@[simp] theorem setBlock_ext (bs : List Byte) (s : State) : (setBlock bs s).ext = s.ext := rfl
@[simp] theorem setBlock_lowValue (bs : List Byte) (s : State) : (setBlock bs s).lowValue = s.lowValue := rfl
@[simp] theorem setBlock_highValue (bs : List Byte) (s : State) : (setBlock bs s).highValue = s.highValue := rfl
@[simp] theorem setBlock_half (bs : List Byte) (s : State) : (setBlock bs s).half = s.half := rfl
@[simp] theorem setBlock_actRate (bs : List Byte) (s : State) : (setBlock bs s).actRate = s.actRate := rfl
@[simp] theorem setBlock_pol (bs : List Byte) (s : State) : (setBlock bs s).pol = s.pol := rfl
@[simp] theorem setBlock_timingOk (bs : List Byte) (s : State) : (setBlock bs s).timingOk = s.timingOk := rfl
@[simp] theorem setBlock_initDone (bs : List Byte) (s : State) : (setBlock bs s).initDone = s.initDone := rfl
@[simp] theorem setBlock_hdrDone (bs : List Byte) (s : State) : (setBlock bs s).hdrDone = s.hdrDone := rfl
@[simp] theorem setBlock_nameDone (bs : List Byte) (s : State) : (setBlock bs s).nameDone = s.nameDone := rfl
@[simp] theorem setBlock_samples (bs : List Byte) (s : State) : (setBlock bs s).samples = s.samples := rfl
@[simp] theorem setBlock_declared (bs : List Byte) (s : State) : (setBlock bs s).declared = s.declared := rfl
@[simp] theorem setBlock_closed (bs : List Byte) (s : State) : (setBlock bs s).closed = s.closed := rfl
@[simp] theorem setBlock_fault (bs : List Byte) (s : State) : (setBlock bs s).fault = s.fault := rfl
@[simp] theorem setBlock_eof (bs : List Byte) (s : State) : (setBlock bs s).eof = s.eof := rfl
@[simp] theorem setBlock_faultCode (bs : List Byte) (s : State) : (setBlock bs s).faultCode = s.faultCode := rfl
@[simp] theorem setBlock_faultInfo (bs : List Byte) (s : State) : (setBlock bs s).faultInfo = s.faultInfo := rfl
@[simp] theorem setBlock_faultValue (bs : List Byte) (s : State) : (setBlock bs s).faultValue = s.faultValue := rfl
@[simp] theorem setBlock_blkcnt (bs : List Byte) (s : State) : (setBlock bs s).blkcnt = s.blkcnt := rfl
@[simp] theorem setBlock_outcnt (bs : List Byte) (s : State) : (setBlock bs s).outcnt = s.outcnt := rfl
@[simp] theorem setBlock_sbytes (bs : List Byte) (s : State) : (setBlock bs s).sbytes = s.sbytes := rfl
@[simp] theorem setBlock_incnt (bs : List Byte) (s : State) : (setBlock bs s).incnt = s.incnt := rfl
@[simp] theorem setBlock_declBytes (bs : List Byte) (s : State) : (setBlock bs s).declBytes = s.declBytes := rfl
@[simp] theorem setBlock_hiBuf (bs : List Byte) (s : State) : (setBlock bs s).hiBuf = s.hiBuf := rfl
@[simp] theorem setBlock_loBuf (bs : List Byte) (s : State) : (setBlock bs s).loBuf = s.loBuf := rfl
@[simp] theorem setBlock_blk (bs : List Byte) (s : State) : (setBlock bs s).blk = cellsFrom 0 bs := rfl
@[simp] theorem setBlock_commands (bs : List Byte) (s : State) : (setBlock bs s).commands = s.commands := rfl
@[simp] theorem setBlock_inPort (bs : List Byte) (s : State) : (setBlock bs s).inPort = s.inPort := rfl
@[simp] theorem setBlock_nextInputs (bs : List Byte) (s : State) : (setBlock bs s).nextInputs = s.nextInputs := rfl
@[simp] theorem setBlock_outRev (bs : List Byte) (s : State) : (setBlock bs s).outRev = s.outRev := rfl
@[simp] theorem setBlock_delivered (bs : List Byte) (s : State) : (setBlock bs s).delivered = s.delivered := rfl
@[simp] theorem setBlock_responses (bs : List Byte) (s : State) : (setBlock bs s).responses = s.responses := rfl
@[simp] theorem setBlock_hostRefuses (bs : List Byte) (s : State) : (setBlock bs s).hostRefuses = s.hostRefuses := rfl
@[simp] theorem setBlock_drawn (bs : List Byte) (s : State) : (setBlock bs s).drawn = s.drawn := rfl
@[simp] theorem setBlock_session (bs : List Byte) (s : State) : (setBlock bs s).session = s.session := rfl

/-! ### modulated -/

@[simp] theorem modulated_cfg (s : State) (vs : List Byte) : (s.modulated vs).cfg = s.cfg := emitted_cfg s _ _
@[simp] theorem modulated_baud (s : State) (vs : List Byte) : (s.modulated vs).baud = s.baud := emitted_baud s _ _
@[simp] theorem modulated_reqRate (s : State) (vs : List Byte) : (s.modulated vs).reqRate = s.reqRate := emitted_reqRate s _ _
@[simp] theorem modulated_width (s : State) (vs : List Byte) : (s.modulated vs).width = s.width := emitted_width s _ _
@[simp] theorem modulated_container (s : State) (vs : List Byte) : (s.modulated vs).container = s.container := emitted_container s _ _
@[simp] theorem modulated_inputMode (s : State) (vs : List Byte) : (s.modulated vs).inputMode = s.inputMode := emitted_inputMode s _ _
@[simp] theorem modulated_dataLen (s : State) (vs : List Byte) : (s.modulated vs).dataLen = s.dataLen := emitted_dataLen s _ _
@[simp] theorem modulated_nameA (s : State) (vs : List Byte) : (s.modulated vs).nameA = s.nameA := emitted_nameA s _ _
@[simp] theorem modulated_nameB (s : State) (vs : List Byte) : (s.modulated vs).nameB = s.nameB := emitted_nameB s _ _
@[simp] theorem modulated_ext (s : State) (vs : List Byte) : (s.modulated vs).ext = s.ext := emitted_ext s _ _
@[simp] theorem modulated_lowValue (s : State) (vs : List Byte) : (s.modulated vs).lowValue = s.lowValue := emitted_lowValue s _ _
@[simp] theorem modulated_highValue (s : State) (vs : List Byte) : (s.modulated vs).highValue = s.highValue := emitted_highValue s _ _
@[simp] theorem modulated_half (s : State) (vs : List Byte) : (s.modulated vs).half = s.half := emitted_half s _ _
@[simp] theorem modulated_actRate (s : State) (vs : List Byte) : (s.modulated vs).actRate = s.actRate := emitted_actRate s _ _
@[simp] theorem modulated_timingOk (s : State) (vs : List Byte) : (s.modulated vs).timingOk = s.timingOk := emitted_timingOk s _ _
@[simp] theorem modulated_initDone (s : State) (vs : List Byte) : (s.modulated vs).initDone = s.initDone := emitted_initDone s _ _
@[simp] theorem modulated_hdrDone (s : State) (vs : List Byte) : (s.modulated vs).hdrDone = s.hdrDone := emitted_hdrDone s _ _
@[simp] theorem modulated_nameDone (s : State) (vs : List Byte) : (s.modulated vs).nameDone = s.nameDone := emitted_nameDone s _ _
@[simp] theorem modulated_declared (s : State) (vs : List Byte) : (s.modulated vs).declared = s.declared := emitted_declared s _ _
@[simp] theorem modulated_closed (s : State) (vs : List Byte) : (s.modulated vs).closed = s.closed := emitted_closed s _ _
@[simp] theorem modulated_fault (s : State) (vs : List Byte) : (s.modulated vs).fault = s.fault := emitted_fault s _ _
@[simp] theorem modulated_eof (s : State) (vs : List Byte) : (s.modulated vs).eof = s.eof := emitted_eof s _ _
@[simp] theorem modulated_faultCode (s : State) (vs : List Byte) : (s.modulated vs).faultCode = s.faultCode := emitted_faultCode s _ _
@[simp] theorem modulated_faultInfo (s : State) (vs : List Byte) : (s.modulated vs).faultInfo = s.faultInfo := emitted_faultInfo s _ _
@[simp] theorem modulated_faultValue (s : State) (vs : List Byte) : (s.modulated vs).faultValue = s.faultValue := emitted_faultValue s _ _
@[simp] theorem modulated_blkcnt (s : State) (vs : List Byte) : (s.modulated vs).blkcnt = s.blkcnt := emitted_blkcnt s _ _
@[simp] theorem modulated_incnt (s : State) (vs : List Byte) : (s.modulated vs).incnt = s.incnt := emitted_incnt s _ _
@[simp] theorem modulated_declBytes (s : State) (vs : List Byte) : (s.modulated vs).declBytes = s.declBytes := emitted_declBytes s _ _
@[simp] theorem modulated_hiBuf (s : State) (vs : List Byte) : (s.modulated vs).hiBuf = s.hiBuf := emitted_hiBuf s _ _
@[simp] theorem modulated_loBuf (s : State) (vs : List Byte) : (s.modulated vs).loBuf = s.loBuf := emitted_loBuf s _ _
@[simp] theorem modulated_blk (s : State) (vs : List Byte) : (s.modulated vs).blk = s.blk := emitted_blk s _ _
@[simp] theorem modulated_commands (s : State) (vs : List Byte) : (s.modulated vs).commands = s.commands := emitted_commands s _ _
@[simp] theorem modulated_inPort (s : State) (vs : List Byte) : (s.modulated vs).inPort = s.inPort := emitted_inPort s _ _
@[simp] theorem modulated_nextInputs (s : State) (vs : List Byte) : (s.modulated vs).nextInputs = s.nextInputs := emitted_nextInputs s _ _
@[simp] theorem modulated_delivered (s : State) (vs : List Byte) : (s.modulated vs).delivered = s.delivered := emitted_delivered s _ _
@[simp] theorem modulated_responses (s : State) (vs : List Byte) : (s.modulated vs).responses = s.responses := emitted_responses s _ _
@[simp] theorem modulated_session (s : State) (vs : List Byte) : (s.modulated vs).session = s.session := emitted_session s _ _

end Sys2Proof.Machine
end

