-- ==== Sys2Proof/Laws/Memory.lean ====
section
/-! SUPPORT. The block buffer: what a read gives after a write, and that every operation keeps the canonical form. -/

namespace Sys2Proof.Machine

theorem cellsWf_cons {lo a : Nat} {v : Byte} {m : Memory} :
    cellsWf lo ((a, v) :: m) = true ↔ lo ≤ a ∧ a < 256 ∧ v ≠ 0x00#8 ∧ cellsWf (a + 1) m = true := by
  rw [cellsWf]
  simp only [Bool.and_eq_true, decide_eq_true_eq, and_assoc]
  rfl

theorem cellsWf_of_le {lo lo' : Nat} {m : Memory} (h : cellsWf lo m = true) (hl : lo' ≤ lo) : cellsWf lo' m = true := by
  cases m with
  | nil => rfl
  | cons c m => obtain ⟨a, v⟩ := c; rw [cellsWf_cons] at *; exact ⟨by omega, h.2⟩

theorem readCell_below {lo x : Nat} {m : Memory} (h : cellsWf lo m = true) (hx : x < lo) : readCell m x = 0x00#8 := by
  induction m generalizing lo with
  | nil => rfl
  | cons c m ih =>
    obtain ⟨a, v⟩ := c
    rw [cellsWf_cons] at h
    rw [readCell, if_neg (by omega)]
    exact ih h.2.2.2 (by omega)

theorem cellsWf_consCell {lo a : Nat} {v : Byte} {m : Memory} (hl : lo ≤ a) (ha : a < 256)
    (h : cellsWf (a + 1) m = true) : cellsWf lo (consCell a v m) = true := by
  unfold consCell
  split
  · exact cellsWf_of_le h (by omega)
  · next hv => exact cellsWf_cons.2 ⟨hl, ha, hv, h⟩

theorem readCell_consCell {a x : Nat} {v : Byte} {m : Memory} (h : cellsWf (a + 1) m = true) :
    readCell (consCell a v m) x = if x = a then v else readCell m x := by
  unfold consCell
  split
  · next hv =>
    split
    · next hx => rw [hv, unlistedByte, readCell_below h (by omega)]
    · rfl
  · rw [readCell]
    by_cases hx : x = a
    · rw [if_pos hx, if_pos hx.symm]
    · rw [if_neg hx, if_neg (fun h => hx h.symm)]

/-- A write keeps the canonical form. -/
theorem cellsWf_writeCell {lo x : Nat} {v : Byte} {m : Memory} (h : cellsWf lo m = true) (hl : lo ≤ x) (hx : x < 256) :
    cellsWf lo (writeCell m x v) = true := by
  induction m generalizing lo with
  | nil => exact cellsWf_consCell hl hx rfl
  | cons c m ih =>
    obtain ⟨a, b⟩ := c
    obtain ⟨h1, h2, h3, h4⟩ := cellsWf_cons.1 h
    unfold writeCell
    split
    · exact cellsWf_consCell hl hx (cellsWf_cons.2 ⟨by omega, h2, h3, h4⟩)
    · split
      · next h6 => subst h6; exact cellsWf_consCell h1 h2 h4
      · exact cellsWf_cons.2 ⟨h1, h2, h3, ih h4 (by omega)⟩

/-- Reading after a write: the written byte at its address, every other byte as before. -/
theorem readCell_writeCell {lo x y : Nat} {v : Byte} {m : Memory} (h : cellsWf lo m = true) :
    readCell (writeCell m x v) y = if y = x then v else readCell m y := by
  induction m generalizing lo with
  | nil => exact readCell_consCell rfl
  | cons c m ih =>
    obtain ⟨a, b⟩ := c
    obtain ⟨h1, h2, h3, h4⟩ := cellsWf_cons.1 h
    unfold writeCell
    split
    · next hxa => exact readCell_consCell (cellsWf_cons.2 ⟨by omega, h2, h3, h4⟩)
    · split
      · next hxa =>
        subst hxa
        rw [readCell_consCell h4, readCell]
        split
        · rfl
        · next hy => rw [if_neg (fun h => hy h.symm)]
      · next hne =>
        rw [readCell, readCell, ih h4]
        split
        · next hay => rw [if_neg (by omega)]
        · rfl

theorem cellsWf_cellsFrom {a : Nat} {bs : List Byte} (h : a + bs.length ≤ 256) : cellsWf a (cellsFrom a bs) = true := by
  induction bs generalizing a with
  | nil => rfl
  | cons b bs ih =>
    simp only [List.length_cons] at h
    exact cellsWf_consCell (Nat.le_refl a) (by omega) (ih (by omega))

theorem readCell_cellsFrom {a x : Nat} {bs : List Byte} (h : a + bs.length ≤ 256) (hx : a ≤ x) :
    readCell (cellsFrom a bs) x = bs.getD (x - a) 0x00#8 := by
  induction bs generalizing a with
  | nil => simp [cellsFrom, readCell, unlistedByte]
  | cons b bs ih =>
    simp only [List.length_cons] at h
    rw [cellsFrom, readCell_consCell (cellsWf_cellsFrom (by omega))]
    split
    · next hxa => simp [hxa]
    · next hxa =>
      rw [ih (by omega) (by omega), show x - a = (x - (a + 1)) + 1 by omega, List.getD_cons_succ]

/-- Writing a whole block of at most 256 bytes gives the canonical form. -/
theorem wf_cellsFrom {bs : List Byte} (h : bs.length ≤ 256) : Memory.wf (cellsFrom 0 bs) = true :=
  cellsWf_cellsFrom (by omega)

/-- A byte write gives the canonical form. -/
theorem wf_writeCell {m : Memory} {i v : Byte} (h : Memory.wf m = true) : Memory.wf (writeCell m i.toNat v) = true :=
  cellsWf_writeCell h (Nat.zero_le _) i.isLt

@[simp] theorem length_blockBytes (m : Memory) : (blockBytes m).length = 256 := by simp [blockBytes, blkSize]

/-- A whole block reads back as it was written (10_state.md R27). -/
theorem blockBytes_cellsFrom {bs : List Byte} (h : bs.length = 256) : blockBytes (cellsFrom 0 bs) = bs := by
  apply List.ext_getElem
  · simp [h]
  · intro i h1 h2
    simp only [blockBytes, List.getElem_map, List.getElem_range]
    rw [readCell_cellsFrom (by omega) (Nat.zero_le _)]
    simp [List.getD_eq_getElem?_getD, List.getElem?_eq_getElem h2]

theorem cellsFrom_zeros (a n : Nat) : cellsFrom a (List.replicate n 0x00#8) = [] := by
  induction n generalizing a with
  | zero => rfl
  | succ n ih => simp [List.replicate_succ, cellsFrom, consCell, unlistedByte, ih]

end Sys2Proof.Machine
end

