-- ==== Sys2Proof/Laws/Ports.lean ====
section
/-! SUPPORT. The ports: what the host's answers decide, and the output port in closed form. -/

namespace Sys2Proof.Machine

/-! ### Running pseudocode -/

@[simp] theorem done_andThen (s : State) (f : State → Ran) : (Ran.done s).andThen f = f s := rfl

@[simp] theorem raised_andThen (c : FaultCode) (v : Nat) (s : State) (f : State → Ran) :
    (Ran.raised c v s).andThen f = .raised c v s := rfl

theorem andThen_assoc (r : Ran) (f g : State → Ran) : (r.andThen f).andThen g = r.andThen fun s => (f s).andThen g := by
  cases r <;> rfl

/-- The two ways a sequence of two pieces of pseudocode can go. -/
theorem andThen_cases (r : Ran) (f : State → Ran) :
    (∃ s, r = .done s ∧ r.andThen f = f s) ∨ (∃ c v s, r = .raised c v s ∧ r.andThen f = .raised c v s) := by
  cases r with
  | done s => exact .inl ⟨s, rfl, rfl⟩
  | raised c v s => exact .inr ⟨c, v, s, rfl, rfl⟩

/-! ### The host's answers -/

theorem refusesNext_eq (s : State) : refusesNext s = refusesAt s 0 := by
  cases h : s.hostRefuses <;> simp [refusesNext, refusesAt, h]

theorem refusesAt_congr {s t : State} (h1 : t.hostRefuses = s.hostRefuses) (h2 : t.drawn = s.drawn) (k : Nat) :
    refusesAt t k = refusesAt s k := by
  simp [refusesAt, h1, h2]

/-- After `n` answers, the k-th one to come was the (n+k)-th. -/
theorem refusesAt_drop {s t : State} {n : Nat} (h1 : t.hostRefuses = s.hostRefuses.drop n) (h2 : t.drawn = s.drawn + n)
    (k : Nat) : refusesAt t k = refusesAt s (n + k) := by
  simp [refusesAt, h1, h2, List.getElem?_drop, Nat.add_assoc]

theorem granted_of_le {s : State} {n m : Nat} (h : Granted s n) (hm : m ≤ n) : Granted s m :=
  fun k hk => h k (by omega)

theorem granted_congr {s t : State} (h1 : t.hostRefuses = s.hostRefuses) (h2 : t.drawn = s.drawn) {n : Nat}
    (h : Granted s n) : Granted t n :=
  fun k hk => by rw [refusesAt_congr h1 h2]; exact h k hk

/-- What is granted after `n` answers. -/
theorem granted_drop {s t : State} {n m : Nat} (h1 : t.hostRefuses = s.hostRefuses.drop n) (h2 : t.drawn = s.drawn + n)
    (h : Granted s (n + m)) : Granted t m :=
  fun k hk => by rw [refusesAt_drop h1 h2]; exact h _ (by omega)

theorem refusesNext_of_granted {s : State} {n : Nat} (h : Granted s n) (hn : 0 < n) : refusesNext s = false := by
  rw [refusesNext_eq]; exact h 0 hn

/-! ### Counters -/

theorem countUp_of_lt {c w : U64} (h : c.toNat + 1 < 2 ^ 64) : countUp c w = c + 1#64 := by
  unfold countUp
  rw [if_neg]
  intro hc
  rw [hc] at h
  simp at h

theorem countUp_toNat {c w : U64} (h : c.toNat + 1 < 2 ^ 64) : (countUp c w).toNat = c.toNat + 1 := by
  rw [countUp_of_lt h, BitVec.toNat_add]; simp; omega

theorem counter_toNat {c : U64} {n : Nat} (h : c.toNat + n < 2 ^ 64) : (c + BitVec.ofNat 64 n).toNat = c.toNat + n := by
  rw [BitVec.toNat_add, BitVec.toNat_ofNat]; omega

theorem counter_add (c : U64) (n m : Nat) :
    c + BitVec.ofNat 64 n + BitVec.ofNat 64 m = c + BitVec.ofNat 64 (n + m) := by
  rw [BitVec.add_assoc, ← BitVec.ofNat_add]

/-! ### The output port -/

/-- The state with these contents of everything that an output of samples changes. -/
def State.port (s : State) (hr : List Bool) (dr : Nat) (o : List Byte) (oc sb : U64) (sm p : Bool) : State :=
  { s with hostRefuses := hr, drawn := dr, outRev := o, outcnt := oc, sbytes := sb, samples := sm, pol := p }

/-- What `OutWrite` can do (20_memory.md R53). -/
theorem outWrite_cases (b : Byte) (s : State) :
    (s.closed = true ∧ outWrite b s = .raised .sequence s.outcnt.toNat s) ∨
    (s.closed = false ∧ refusesNext s = true ∧ outWrite b s = .raised .ioOutput s.outcnt.toNat s.drewOne) ∨
    (s.closed = false ∧ refusesNext s = false ∧ outWrite b s = .done (s.accepted b)) := by
  unfold outWrite
  cases s.closed <;> cases refusesNext s <;> simp

theorem outWrite_done {b : Byte} {s : State} (hc : s.closed = false) (hr : refusesNext s = false) :
    outWrite b s = .done (s.accepted b) := by simp [outWrite, hc, hr]

theorem outWrite_refused {b : Byte} {s : State} (hc : s.closed = false) (hr : refusesNext s = true) :
    outWrite b s = .raised .ioOutput s.outcnt.toNat s.drewOne := by simp [outWrite, hc, hr]

theorem written_nil (s : State) : s.written [] = s := by
  show s.port _ _ _ _ _ _ _ = s.port s.hostRefuses s.drawn s.outRev s.outcnt s.sbytes s.samples s.pol
  congr 1
  simp

theorem written_written (s : State) (bs cs : List Byte) : (s.written bs).written cs = s.written (bs ++ cs) := by
  show s.port _ _ _ _ _ _ _ = s.port _ _ _ _ _ _ _
  congr 1 <;> simp [counter_add, Nat.add_assoc]

theorem accepted_eq_written {s : State} {b : Byte} (h : s.outcnt.toNat + 1 < 2 ^ 64) : s.accepted b = s.written [b] := by
  show s.port _ _ _ _ _ _ _ = s.port _ _ _ _ _ _ _
  congr 1
  · simp
  · rw [countUp_of_lt h]; rfl

/-- Every byte is accepted: OUT grows by the bytes in order (20_memory.md R53, R60). -/
theorem outWriteAll_granted {bs : List Byte} {s : State} (hc : s.closed = false) (hg : Granted s bs.length)
    (ho : s.outcnt.toNat + bs.length < 2 ^ 64) : outWriteAll bs s = .done (s.written bs) := by
  induction bs generalizing s with
  | nil => rw [written_nil]; rfl
  | cons b bs ih =>
    simp only [List.length_cons] at hg ho
    have hacc : s.accepted b = s.written [b] := accepted_eq_written (by omega)
    rw [outWriteAll, outWrite_done hc (refusesNext_of_granted hg (by omega)), done_andThen, hacc, ih]
    · rw [written_written]; rfl
    · exact hc
    · exact granted_drop (n := 1) rfl rfl (granted_of_le hg (by omega))
    · simp only [written_outcnt, List.length_singleton]
      rw [counter_toNat (by omega)]; omega

/-- The host refuses the (k+1)-th byte: the k bytes before it stay, and IO_OUTPUT is raised with OUTCNT (R53). -/
theorem outWriteAll_refused {bs : List Byte} {s : State} {k : Nat} (hc : s.closed = false) (hk : k < bs.length)
    (hg : Granted s k) (hr : refusesAt s k = true) (ho : s.outcnt.toNat + k < 2 ^ 64) :
    outWriteAll bs s = .raised .ioOutput (s.outcnt.toNat + k) (s.written (bs.take k)).drewOne := by
  induction bs generalizing s k with
  | nil => simp at hk
  | cons b bs ih =>
    cases k with
    | zero =>
      rw [outWriteAll, outWrite_refused hc (by rw [refusesNext_eq]; exact hr), List.take_zero, written_nil]
      rfl
    | succ k =>
      simp only [List.length_cons] at hk
      have hacc : s.accepted b = s.written [b] := accepted_eq_written (by omega)
      have hcount : (s.written [b]).outcnt.toNat = s.outcnt.toNat + 1 := counter_toNat (n := 1) (by omega)
      rw [outWriteAll, outWrite_done hc (refusesNext_of_granted hg (by omega)), done_andThen, hacc, ih (k := k)]
      · rw [written_written, hcount, List.take_succ_cons]
        congr 1
        omega
      · exact hc
      · omega
      · exact granted_drop (n := 1) rfl rfl (granted_of_le hg (by omega))
      · rw [refusesAt_drop (n := 1) (s := s) rfl rfl, Nat.add_comm]; exact hr
      · rw [hcount]; omega

end Sys2Proof.Machine
end

