-- ==== Sys2Proof/Laws/Emission.lean ====
section
/-! SUPPORT. The Modulation Engine's output: the waveform in closed form where the host grants every byte, and what an emission can do in any case. -/

namespace Sys2Proof.Machine

/-! ### Bytes of a value -/

@[simp] theorem length_bytesOf (n : Nat) (o : Endian) (v : Nat) : (bytesOf n o v).length = n := by
  cases o <;> simp [bytesOf]

@[simp] theorem length_sampleBytes (v : U32) (w : Nat) (o : Endian) : (sampleBytes v w o).length = w / 8 := by
  simp [sampleBytes]

@[simp] theorem length_bitsOf (v : Byte) : (bitsOf v).length = 8 := by simp [bitsOf]

theorem length_bitStream (vs : List Byte) : (bitStream vs).length = 8 * vs.length := by
  induction vs with
  | nil => rfl
  | cons v vs ih =>
    rw [bitStream, List.flatMap_cons, List.length_append, length_bitsOf, List.length_cons]
    rw [bitStream] at ih
    omega

theorem bitStream_cons (v : Byte) (vs : List Byte) : bitStream (v :: vs) = bitsOf v ++ bitStream vs := by
  simp [bitStream]

theorem bitStream_append (vs ws : List Byte) : bitStream (vs ++ ws) = bitStream vs ++ bitStream ws := by
  simp [bitStream]

/-! ### Lengths of the waveform (41_modulation.md R132) -/

@[simp] theorem length_levelRun (s : State) (p : Bool) : (levelRun s p).length = s.half.toNat * frameSize s := by
  simp [levelRun, frameSize]

@[simp] theorem length_bitWave (s : State) (p b : Bool) : (bitWave s p b).length = bitByteCount s := by
  simp only [bitWave, List.length_append, length_levelRun, bitByteCount]
  ring

/-- Every bit lasts `BitBytes`, whatever its value (R132). -/
theorem length_bitsWave (s : State) (p : Bool) (bs : List Bool) :
    (bitsWave s p bs).length = bs.length * bitByteCount s := by
  induction bs generalizing p with
  | nil => simp [bitsWave]
  | cons b bs ih => rw [bitsWave, List.length_append, length_bitWave, ih, List.length_cons]; ring

/-- Every byte lasts `ByteBytes` (R132). -/
theorem length_byteWave (s : State) (p : Bool) (vs : List Byte) :
    (bitsWave s p (bitStream vs)).length = vs.length * byteByteCount s := by
  rw [length_bitsWave, length_bitStream, byteByteCount]; ring

theorem bitsWave_append (s : State) (p : Bool) (bs cs : List Bool) :
    bitsWave s p (bs ++ cs) = bitsWave s p bs ++ bitsWave s (polarityAfter p bs) cs := by
  induction bs generalizing p with
  | nil => rfl
  | cons b bs ih => simp [bitsWave, polarityAfter, ih]

theorem polarityAfter_append (p : Bool) (bs cs : List Bool) :
    polarityAfter p (bs ++ cs) = polarityAfter (polarityAfter p bs) cs := by
  induction bs generalizing p with
  | nil => rfl
  | cons b bs ih => simp [polarityAfter, ih]

/-- The waveform takes one entry of P for each of its bytes. -/
@[simp] theorem length_polarities (s : State) (p : Bool) (bs : List Bool) :
    (polarities s p bs).length = bs.length * bitByteCount s := by
  induction bs generalizing p with
  | nil => simp [polarities]
  | cons b bs ih =>
    simp only [polarities, List.length_append, List.length_replicate, List.length_cons, ih, bitByteCount]
    ring

theorem polarities_append (s : State) (p : Bool) (bs cs : List Bool) :
    polarities s p (bs ++ cs) = polarities s p bs ++ polarities s (polarityAfter p bs) cs := by
  induction bs generalizing p with
  | nil => rfl
  | cons b bs ih => simp [polarities, polarityAfter, ih]

theorem polarities_congr {s t : State} (h1 : t.half = s.half) (h2 : t.width = s.width) (p : Bool) (bs : List Bool) :
    polarities t p bs = polarities s p bs := by
  induction bs generalizing p with
  | nil => rfl
  | cons b bs ih => rw [polarities, polarities, ih, h1, frameSize, frameSize, h2]

/-- The last byte of a waveform is written at the polarity the waveform leaves. -/
theorem polarities_end {s : State} (h : 0 < bitByteCount s) (p : Bool) (bs : List Bool) :
    (p :: polarities s p bs)[bs.length * bitByteCount s]? = some (polarityAfter p bs) := by
  induction bs generalizing p with
  | nil => simp [polarityAfter]
  | cons b bs ih =>
    have hrun : bitByteCount s = s.half.toNat * frameSize s + s.half.toNat * frameSize s := by unfold bitByteCount; ring
    have hpos : 0 < s.half.toNat * frameSize s := by omega
    have hlen : (List.replicate (s.half.toNat * frameSize s) (!p)
        ++ List.replicate (s.half.toNat * frameSize s) (polarityAfterBit p b)).length = bitByteCount s := by
      rw [List.length_append, List.length_replicate, List.length_replicate, hrun]
    have hsum : (b :: bs).length * bitByteCount s = bitByteCount s + bs.length * bitByteCount s := by
      rw [List.length_cons]; ring
    rw [polarityAfter, ← ih, polarities, hsum]
    cases hn : bs.length * bitByteCount s with
    | zero =>
      rw [Nat.add_zero, List.getElem?_cons, if_neg (by omega), List.getElem?_append_left (by rw [hlen]; omega),
        List.getElem?_append_right (by rw [List.length_replicate]; omega), List.getElem?_replicate, List.length_replicate,
        if_pos (by omega)]
      rfl
    | succ k =>
      rw [← Nat.add_assoc, List.getElem?_cons_succ, List.getElem?_cons_succ, List.getElem?_append_right (by rw [hlen]; omega), hlen,
        Nat.add_sub_cancel_left]

/-- The waveform depends on the timing, the levels, the width and the container alone. -/
theorem bitsWave_congr {s t : State} (h1 : t.half = s.half) (h2 : t.highValue = s.highValue)
    (h3 : t.lowValue = s.lowValue) (h4 : t.width = s.width) (h5 : t.container = s.container) (h6 : t.cfg = s.cfg)
    (p : Bool) (bs : List Bool) : bitsWave t p bs = bitsWave s p bs := by
  induction bs generalizing p with
  | nil => rfl
  | cons b bs ih =>
    rw [bitsWave, bitsWave, ih]
    simp [bitWave, levelRun, convention, h1, h2, h3, h4, h5, h6]

/-! ### Updates by samples -/

theorem emitted_nil (s : State) : s.emitted [] s.pol = s := by
  show s.port _ _ _ _ _ _ _ = s.port s.hostRefuses s.drawn s.outRev s.outcnt s.sbytes s.samples s.pol
  congr 1 <;> simp

theorem emitted_emitted (s : State) (bs cs : List Byte) (p q : Bool) :
    (s.emitted bs p).emitted cs q = s.emitted (bs ++ cs) q := by
  show s.port _ _ _ _ _ _ _ = s.port _ _ _ _ _ _ _
  congr 1 <;> simp [counter_add, Nat.add_assoc]
  cases bs <;> cases cs <;> simp

theorem togglePolarity_eq (s : State) : togglePolarity s = s.emitted [] (!s.pol) := by
  show s.port _ _ _ _ _ _ _ = s.port _ _ _ _ _ _ _
  congr 1 <;> simp

theorem counted_accepted {s : State} {b : Byte} (ho : s.outcnt.toNat + 1 < 2 ^ 64) (hs : s.sbytes.toNat + 1 < 2 ^ 64) :
    State.counted s.drawn (s.accepted b) = s.emitted [b] s.pol := by
  show s.port _ _ _ _ _ _ _ = s.port _ _ _ _ _ _ _
  congr 1
  · simp
  · simp [countUp_of_lt ho]
  · simp [countUp_of_lt hs]
  · simp

theorem modulated_nil (s : State) : s.modulated [] = s := emitted_nil s

theorem modulated_modulated (s : State) (vs ws : List Byte) : (s.modulated vs).modulated ws = s.modulated (vs ++ ws) := by
  unfold State.modulated
  rw [emitted_emitted, bitStream_append, bitsWave_append, polarityAfter_append, emitted_pol]
  congr 2
  exact bitsWave_congr (by rfl) (by rfl) (by rfl) (by rfl) (by rfl) (by rfl) _ _

/-! ### Emission where the host grants every byte -/

/-- What an emission of `n` bytes needs of the state, apart from the checks of the command: an open output port, granted
accesses, no counter wrapping, and the level buffers as INIT fills them (41_modulation.md R126). -/
structure Emittable (s : State) (n : Nat) : Prop where
  opened : s.closed = false
  granted : Granted s n
  outcnt_fits : s.outcnt.toNat + n < 2 ^ 64
  sbytes_fits : s.sbytes.toNat + n < 2 ^ 64
  half_le : s.half.toNat ≤ 128
  hi : s.hiBuf = Vector.replicate 128 s.highValue
  lo : s.loBuf = Vector.replicate 128 s.lowValue

theorem Emittable.of_le {s : State} {n m : Nat} (h : Emittable s n) (hm : m ≤ n) : Emittable s m :=
  ⟨h.opened, granted_of_le h.granted hm, by have := h.outcnt_fits; omega, by have := h.sbytes_fits; omega, h.half_le, h.hi, h.lo⟩

/-- What is left to emit after `bs`. -/
theorem Emittable.emitted {s : State} {n : Nat} (bs : List Byte) (p : Bool) (h : Emittable s (bs.length + n)) :
    Emittable (s.emitted bs p) n where
  opened := h.opened
  granted := granted_drop (n := bs.length) rfl rfl h.granted
  outcnt_fits := by rw [emitted_outcnt, counter_toNat (by have := h.outcnt_fits; omega)]; have := h.outcnt_fits; omega
  sbytes_fits := by rw [emitted_sbytes, counter_toNat (by have := h.sbytes_fits; omega)]; have := h.sbytes_fits; omega
  half_le := h.half_le
  hi := h.hi
  lo := h.lo

/-- Entry i of the buffer the polarity flag selects holds that polarity's level word (10_state.md R25). -/
theorem Emittable.levelAt_eq {s : State} {n i : Nat} (h : Emittable s n) (hi : i < s.half.toNat) :
    levelAt i s = if s.pol then s.highValue else s.lowValue := by
  have hi' : i < 128 := by have := h.half_le; omega
  unfold levelAt
  rw [h.hi, h.lo]
  cases s.pol <;> simp [hi']

theorem emitSampleBytes_granted {bs : List Byte} {s : State} (h : Emittable s bs.length) :
    emitSampleBytes bs s = .done (s.emitted bs s.pol) := by
  induction bs generalizing s with
  | nil => rw [emitted_nil]; rfl
  | cons b bs ih =>
    have ho := h.outcnt_fits
    have hs := h.sbytes_fits
    simp only [List.length_cons] at ho hs
    rw [emitSampleBytes, outWrite_done h.opened (refusesNext_of_granted h.granted (by simp)), done_andThen,
      counted_accepted (by omega) (by omega), ih]
    · rw [emitted_emitted, emitted_pol]; rfl
    · exact Emittable.emitted [b] _ (by rw [List.length_singleton, Nat.add_comm]; exact h)

theorem halfBitFrom_granted {n i : Nat} {s : State} (hin : i + n ≤ s.half.toNat) (h : Emittable s (n * frameSize s)) :
    halfBitFrom i n s = .done (s.emitted (List.replicate n
      (sampleBytes (if s.pol then s.highValue else s.lowValue) s.width.toNat (convention s).order)).flatten s.pol) := by
  induction n generalizing i s with
  | zero => simp [halfBitFrom, emitted_nil]
  | succ n ih =>
    have hn : (n + 1) * frameSize s = frameSize s + n * frameSize s := by ring
    rw [halfBitFrom, h.levelAt_eq (by omega), sampleOut,
      emitSampleBytes_granted (h.of_le (by rw [length_sampleBytes, hn]; exact Nat.le_add_right _ _)), done_andThen, ih]
    · rw [emitted_emitted, List.replicate_succ, List.flatten_cons]; rfl
    · simp only [emitted_half]; omega
    · rw [hn] at h
      exact Emittable.emitted _ _ (by rw [length_sampleBytes]; exact h)

/-- A half-bit run (R129). -/
theorem halfBit_granted {s : State} (h : Emittable s (s.half.toNat * frameSize s)) :
    halfBit s = .done (s.emitted (levelRun s s.pol) s.pol) := by
  rw [halfBit, halfBitFrom_granted (by omega) h]; rfl

/-- One bit (R130). -/
theorem emitBit_granted {s : State} {b : Bool} (h : Emittable s (bitByteCount s)) :
    emitBit b s = .done (s.emitted (bitWave s s.pol b) (polarityAfterBit s.pol b)) := by
  have hb : bitByteCount s = s.half.toNat * frameSize s + s.half.toNat * frameSize s := by
    unfold bitByteCount; ring
  rw [hb] at h
  have h0 : Emittable (s.emitted [] (!s.pol)) (s.half.toNat * frameSize s + s.half.toNat * frameSize s) :=
    Emittable.emitted [] _ (by simpa using h)
  have h1 := Emittable.emitted (levelRun s (!s.pol)) (polarityAfterBit s.pol b)
    (h0.of_le (by rw [length_levelRun]))
  rw [emitBit, togglePolarity_eq, halfBit_granted (h0.of_le (Nat.le_add_left _ _)), done_andThen]
  have hs : (if b = true then togglePolarity ((s.emitted [] !s.pol).emitted
        (levelRun (s.emitted [] !s.pol) (s.emitted [] !s.pol).pol) (s.emitted [] !s.pol).pol)
      else ((s.emitted [] !s.pol).emitted (levelRun (s.emitted [] !s.pol) (s.emitted [] !s.pol).pol)
        (s.emitted [] !s.pol).pol)) =
      (s.emitted [] (!s.pol)).emitted (levelRun s (!s.pol)) (polarityAfterBit s.pol b) := by
    cases b
    · rfl
    · rw [if_pos rfl, togglePolarity_eq, emitted_emitted, List.append_nil]
      simp only [emitted_pol, Bool.not_not]
      rfl
  rw [hs, halfBit_granted h1, emitted_emitted, emitted_emitted]
  rfl

theorem emitBits_granted {bs : List Bool} {s : State} (h : Emittable s (bs.length * bitByteCount s)) :
    emitBits bs s = .done (s.emitted (bitsWave s s.pol bs) (polarityAfter s.pol bs)) := by
  induction bs generalizing s with
  | nil => rw [bitsWave, polarityAfter, emitted_nil]; rfl
  | cons b bs ih =>
    have hn : (b :: bs).length * bitByteCount s = bitByteCount s + bs.length * bitByteCount s := by
      rw [List.length_cons]; ring
    rw [hn] at h
    rw [emitBits, emitBit_granted (h.of_le (Nat.le_add_right _ _)), done_andThen, ih]
    · rw [emitted_emitted, bitsWave, polarityAfter, emitted_pol]
      congr 2
      rw [bitsWave_congr (s := s) (by rfl) (by rfl) (by rfl) (by rfl) (by rfl) (by rfl)]
    · exact Emittable.emitted _ _ (by rw [length_bitWave]; exact h)

/-- One byte, least significant bit first (R131). -/
theorem emitByte_granted {v : Byte} {s : State} (h : Emittable s (byteByteCount s)) :
    emitByte v s = .done (s.modulated [v]) := by
  rw [emitByte, emitBits_granted (by rw [length_bitsOf]; exact h), State.modulated, bitStream_cons]
  simp [bitStream]

/-- A byte sequence, phase-continuous (R133). -/
theorem emitBytes_granted {vs : List Byte} {s : State} (h : Emittable s (vs.length * byteByteCount s)) :
    emitBytes vs s = .done (s.modulated vs) := by
  induction vs generalizing s with
  | nil => rw [modulated_nil]; rfl
  | cons v vs ih =>
    have hn : (v :: vs).length * byteByteCount s = byteByteCount s + vs.length * byteByteCount s := by
      rw [List.length_cons]; ring
    rw [hn] at h
    rw [emitBytes, emitByte_granted (h.of_le (Nat.le_add_right _ _)), done_andThen, ih]
    · rw [modulated_modulated]; rfl
    · exact Emittable.emitted _ _ (by rw [length_byteWave, List.length_singleton, Nat.one_mul]; exact h)

end Sys2Proof.Machine
end

