-- ==== Sys2Proof/Laws/Framer.lean ====
section
/-! SUPPORT. The Block Framer in closed form where the host grants every access: blocks, reads of the input, and the loops of TXREST. -/

namespace Sys2Proof.Machine

/-! ### Layouts (42_framer.md R147 to R149) -/

theorem length_framedBytes {cfg : Config} {p : List Byte} (h : p.length = 256) : (framedBytes cfg p).length = 295 := by
  simp [framedBytes, h]

theorem length_nameBlock (s : State) : (nameBlock s).length = 256 := by
  simp only [nameBlock, List.length_append, length_bytesOf, List.length_replicate, List.length_cons, List.length_nil]

theorem length_dataBlock {counter : U16} {bytes : List Byte} (h : bytes.length ≤ 253) :
    (dataBlock counter bytes).length = 256 := by
  simp [dataBlock, dataChunk]
  omega

theorem length_framedChunks {cfg : Config} {counter : U16} {cs : List (List Byte)} (h : ∀ c ∈ cs, c.length ≤ 253) :
    (framedChunks cfg counter cs).length = cs.length * 295 := by
  induction cs generalizing counter with
  | nil => simp [framedChunks]
  | cons c cs ih =>
    rw [framedChunks, List.length_append, length_framedBytes (length_dataBlock (h c (by simp))),
      ih (fun d hd => h d (by simp [hd])), List.length_cons]
    ring

/-! ### One block -/

/-- A framed block where every byte is granted (R142). -/
theorem frameBlock_granted {s : State} (h : Emittable s (blockByteCount s)) :
    frameBlock s = .done (s.modulated (framedBytes s.cfg (blockBytes s.blk))) := by
  rw [frameBlock]
  exact emitBytes_granted (by rw [length_framedBytes (length_blockBytes _)]; exact h)

theorem Emittable.setBlock {s : State} {n : Nat} (bytes : List Byte) (h : Emittable s n) : Emittable (setBlock bytes s) n :=
  ⟨h.opened, h.granted, h.outcnt_fits, h.sbytes_fits, h.half_le, h.hi, h.lo⟩

/-- The state with this payload in BLK, framed and modulated. -/
theorem frameBlock_setBlock {s : State} {payload : List Byte} (hp : payload.length = 256)
    (h : Emittable s (blockByteCount s)) :
    frameBlock (setBlock payload s) = .done ((setBlock payload s).modulated (framedBytes s.cfg payload)) := by
  rw [frameBlock_granted (h.setBlock payload), setBlock_blk, blockBytes_cellsFrom hp]
  rfl

/-- One data block (R145, R148). -/
theorem sendDataBlock_granted {s : State} {bytes : List Byte} (hb : bytes.length ≤ 253)
    (h : Emittable s (blockByteCount s)) :
    sendDataBlock bytes s = .done
      { (setBlock (dataBlock s.blkcnt bytes) s).modulated (framedBytes s.cfg (dataBlock s.blkcnt bytes)) with
        blkcnt := s.blkcnt + 1#16 } := by
  rw [sendDataBlock, frameBlock_setBlock (length_dataBlock hb) h]
  rfl

/-! ### Reading the input (20_memory.md R51) -/

/-- What `InRead()` can do. -/
theorem inRead_cases (s : State) :
    (s.eof = true ∧ inRead s = .eof s) ∨
    (s.eof = false ∧ refusesNext s = true ∧ inRead s = .failed s.drewOne) ∨
    (s.eof = false ∧ refusesNext s = false ∧ s.inBytes = [] ∧ inRead s = .eof s.endOfInput) ∨
    (∃ b rest, s.eof = false ∧ refusesNext s = false ∧ s.inBytes = b :: rest ∧ inRead s = .byte b
      { s.drewOne with inPort := some rest, incnt := countUp s.incnt (Config.wrappedIncnt s.drawn) }) := by
  unfold inRead
  cases s.eof <;> cases refusesNext s <;> cases h : s.inBytes <;> simp [State.endOfInput]

/-- The state with these contents of everything that reading the input changes. -/
def State.inputPort (s : State) (hr : List Bool) (dr : Nat) (ip : Option (List Byte)) (ic : U64) (e : Bool) : State :=
  { s with hostRefuses := hr, drawn := dr, inPort := ip, incnt := ic, eof := e }

theorem taken_taken {s : State} {bs cs : List Byte} : (s.taken bs).taken cs = s.taken (bs ++ cs) := by
  show s.inputPort _ _ _ _ _ = s.inputPort _ _ _ _ _
  congr 1 <;> simp [counter_add, Nat.add_assoc, State.inBytes]

theorem taken_inBytes (s : State) (bs : List Byte) : (s.taken bs).inBytes = s.inBytes.drop bs.length := rfl

theorem inRead_granted {s : State} {b : Byte} {rest : List Byte} (he : s.eof = false) (hr : refusesNext s = false)
    (hi : s.inBytes = b :: rest) (hc : s.incnt.toNat + 1 < 2 ^ 64) : inRead s = .byte b (s.taken [b]) := by
  rcases inRead_cases s with h | h | h | ⟨b', rest', -, -, h3, h4⟩
  · simp [he] at h
  · simp [hr] at h
  · simp [hi] at h
  · rw [hi] at h3
    obtain ⟨rfl, rfl⟩ := List.cons.inj h3
    rw [h4]
    congr 1
    show s.inputPort _ _ _ _ _ = s.inputPort _ _ _ _ _
    congr 1 <;> simp [hi, countUp_of_lt hc]

theorem inRead_end {s : State} (he : s.eof = false) (hr : refusesNext s = false) (hi : s.inBytes = []) :
    inRead s = .eof s.endOfInput := by
  simp [inRead, he, hr, hi, State.endOfInput]

theorem taken_take_zero (s : State) (h : s.inPort ≠ none) : s.taken [] = s := by
  obtain ⟨x, hx⟩ := Option.ne_none_iff_exists'.1 h
  show s.inputPort _ _ _ _ _ = s.inputPort s.hostRefuses s.drawn s.inPort s.incnt s.eof
  congr 1 <;> simp [State.inBytes, hx]

/-- All the bytes asked for are there and granted. -/
theorem inReadUpTo_full {n : Nat} {got : List Byte} {s : State} (hn : 0 < n) (he : s.eof = false)
    (hl : n ≤ s.inBytes.length) (hg : Granted s n) (hc : s.incnt.toNat + n < 2 ^ 64) :
    inReadUpTo n got s = .full (got.reverse ++ s.inBytes.take n) (s.taken (s.inBytes.take n)) := by
  induction n generalizing got s with
  | zero => omega
  | succ n ih =>
    obtain ⟨b, rest, hb⟩ : ∃ b rest, s.inBytes = b :: rest := by
      cases h : s.inBytes with
      | nil => simp [h] at hl
      | cons b rest => exact ⟨b, rest, rfl⟩
    have hrest : (s.taken [b]).inBytes = rest := by simp [taken_inBytes, hb]
    have hcount : (s.taken [b]).incnt.toNat = s.incnt.toNat + 1 := counter_toNat (n := 1) (by omega)
    rw [inReadUpTo, inRead_granted he (refusesNext_of_granted hg (by omega)) hb (by omega)]
    cases n with
    | zero => simp [inReadUpTo, hb]
    | succ n =>
      simp only []
      rw [ih (s := s.taken [b]) (by omega) he (by rw [hrest]; simp only [hb, List.length_cons] at hl; omega)
        (granted_drop (n := 1) rfl rfl (granted_of_le hg (by omega))) (by rw [hcount]; omega), taken_taken, hrest, hb]
      simp

/-- The input ends before the bytes asked for. -/
theorem inReadUpTo_short {n : Nat} {got : List Byte} {s : State} (he : s.eof = false) (hl : s.inBytes.length < n)
    (hg : Granted s (s.inBytes.length + 1)) (hc : s.incnt.toNat + s.inBytes.length < 2 ^ 64) :
    inReadUpTo n got s = .short (got.reverse ++ s.inBytes)
      (if s.inBytes = [] then s.endOfInput else (s.taken s.inBytes).endOfInput) := by
  induction n generalizing got s with
  | zero => omega
  | succ n ih =>
    cases hb : s.inBytes with
    | nil => rw [inReadUpTo, inRead_end he (refusesNext_of_granted hg (by omega)) hb]; simp
    | cons b rest =>
      have hrest : (s.taken [b]).inBytes = rest := by simp [taken_inBytes, hb]
      have hcount : (s.taken [b]).incnt.toNat = s.incnt.toNat + 1 :=
        counter_toNat (n := 1) (by rw [hb, List.length_cons] at hc; omega)
      rw [hb, List.length_cons] at hl hg hc
      rw [inReadUpTo, inRead_granted he (refusesNext_of_granted hg (by omega)) hb (by omega)]
      simp only []
      rw [ih (s := s.taken [b]) he (by rw [hrest]; omega)
        (by rw [hrest]; exact granted_drop (n := 1) rfl rfl (granted_of_le hg (by omega)))
        (by rw [hrest, hcount]; omega), hrest, taken_taken]
      cases rest <;> simp

/-- The host refuses the (k+1)-th read, whether it would have taken a byte or found the end of the input. -/
theorem inReadUpTo_refused {n k : Nat} {got : List Byte} {s : State} (hk : k < n) (he : s.eof = false) (hl : k ≤ s.inBytes.length)
    (hg : Granted s k) (hr : refusesAt s k = true) (hc : s.incnt.toNat + k < 2 ^ 64) :
    inReadUpTo n got s = .failed (if k = 0 then s else s.taken (s.inBytes.take k)).drewOne := by
  induction n generalizing got s k with
  | zero => omega
  | succ n ih =>
    cases k with
    | zero =>
      have hr' : refusesNext s = true := by rw [refusesNext_eq]; exact hr
      simp [inReadUpTo, inRead, he, hr']
    | succ k =>
      obtain ⟨b, rest, hb⟩ : ∃ b rest, s.inBytes = b :: rest := List.exists_cons_of_length_pos (by omega)
      have hrest : (s.taken [b]).inBytes = rest := by simp [taken_inBytes, hb]
      have hcount : (s.taken [b]).incnt.toNat = s.incnt.toNat + 1 := counter_toNat (n := 1) (by omega)
      rw [hb, List.length_cons] at hl
      rw [inReadUpTo, inRead_granted he (refusesNext_of_granted hg (by omega)) hb (by omega)]
      simp only []
      rw [ih (s := s.taken [b]) (k := k) (by omega) he (by rw [hrest]; omega)
        (granted_drop (n := 1) rfl rfl (granted_of_le hg (by omega)))
        (by rw [refusesAt_drop (n := 1) (s := s) rfl rfl, Nat.add_comm]; exact hr) (by rw [hcount]; omega), hrest, taken_taken, hb]
      cases k <;> simp

theorem inReadUpTo_eof {n : Nat} {got : List Byte} {s : State} (hn : 0 < n) (he : s.eof = true) :
    inReadUpTo n got s = .short got.reverse s := by
  obtain ⟨m, rfl⟩ : ∃ m, n = m + 1 := ⟨n - 1, by omega⟩
  simp [inReadUpTo, inRead, he]

/-! ### The loops of TXREST (R146) -/

/-- The state with these contents of everything that sending data blocks changes. -/
def State.blockPort (s : State) (hr : List Bool) (dr : Nat) (o : List Byte) (oc sb : U64) (sm p : Bool) (bk : Memory)
    (bc : U16) (ic : U64) (ip : Option (List Byte)) : State :=
  { s with hostRefuses := hr, drawn := dr, outRev := o, outcnt := oc, sbytes := sb, samples := sm, pol := p, blk := bk,
           blkcnt := bc, incnt := ic, inPort := ip }

/-- The state after one chunk has been read and sent as a data block. -/
def State.chunkSent (s : State) (chunk : List Byte) : State :=
  { (setBlock (dataBlock s.blkcnt chunk) (s.taken chunk)).modulated (framedBytes s.cfg (dataBlock s.blkcnt chunk)) with
    blkcnt := s.blkcnt + 1#16 }

@[simp] theorem chunkSent_cfg (s : State) (c : List Byte) : (s.chunkSent c).cfg = s.cfg := by
  simp only [State.chunkSent, modulated_cfg, setBlock_cfg, taken_cfg]

@[simp] theorem chunkSent_width (s : State) (c : List Byte) : (s.chunkSent c).width = s.width := by
  simp only [State.chunkSent, modulated_width, setBlock_width, taken_width]

@[simp] theorem chunkSent_container (s : State) (c : List Byte) : (s.chunkSent c).container = s.container := by
  simp only [State.chunkSent, modulated_container, setBlock_container, taken_container]

@[simp] theorem chunkSent_lowValue (s : State) (c : List Byte) : (s.chunkSent c).lowValue = s.lowValue := by
  simp only [State.chunkSent, modulated_lowValue, setBlock_lowValue, taken_lowValue]

@[simp] theorem chunkSent_highValue (s : State) (c : List Byte) : (s.chunkSent c).highValue = s.highValue := by
  simp only [State.chunkSent, modulated_highValue, setBlock_highValue, taken_highValue]

@[simp] theorem chunkSent_half (s : State) (c : List Byte) : (s.chunkSent c).half = s.half := by
  simp only [State.chunkSent, modulated_half, setBlock_half, taken_half]

@[simp] theorem chunkSent_actRate (s : State) (c : List Byte) : (s.chunkSent c).actRate = s.actRate := by
  simp only [State.chunkSent, modulated_actRate, setBlock_actRate, taken_actRate]

@[simp] theorem chunkSent_closed (s : State) (c : List Byte) : (s.chunkSent c).closed = s.closed := by
  simp only [State.chunkSent, modulated_closed, setBlock_closed, taken_closed]

@[simp] theorem chunkSent_eof (s : State) (c : List Byte) : (s.chunkSent c).eof = s.eof := by
  simp only [State.chunkSent, modulated_eof, setBlock_eof, taken_eof]

@[simp] theorem chunkSent_hiBuf (s : State) (c : List Byte) : (s.chunkSent c).hiBuf = s.hiBuf := by
  simp only [State.chunkSent, modulated_hiBuf, setBlock_hiBuf, taken_hiBuf]

@[simp] theorem chunkSent_loBuf (s : State) (c : List Byte) : (s.chunkSent c).loBuf = s.loBuf := by
  simp only [State.chunkSent, modulated_loBuf, setBlock_loBuf, taken_loBuf]

@[simp] theorem chunkSent_initDone (s : State) (c : List Byte) : (s.chunkSent c).initDone = s.initDone := by
  simp only [State.chunkSent, modulated_initDone, setBlock_initDone, taken_initDone]

@[simp] theorem chunkSent_hdrDone (s : State) (c : List Byte) : (s.chunkSent c).hdrDone = s.hdrDone := by
  simp only [State.chunkSent, modulated_hdrDone, setBlock_hdrDone, taken_hdrDone]

@[simp] theorem chunkSent_nameDone (s : State) (c : List Byte) : (s.chunkSent c).nameDone = s.nameDone := by
  simp only [State.chunkSent, modulated_nameDone, setBlock_nameDone, taken_nameDone]

@[simp] theorem chunkSent_declared (s : State) (c : List Byte) : (s.chunkSent c).declared = s.declared := by
  simp only [State.chunkSent, modulated_declared, setBlock_declared, taken_declared]

@[simp] theorem chunkSent_declBytes (s : State) (c : List Byte) : (s.chunkSent c).declBytes = s.declBytes := by
  simp only [State.chunkSent, modulated_declBytes, setBlock_declBytes, taken_declBytes]

@[simp] theorem chunkSent_fault (s : State) (c : List Byte) : (s.chunkSent c).fault = s.fault := by
  simp only [State.chunkSent, modulated_fault, setBlock_fault, taken_fault]

@[simp] theorem chunkSent_dataLen (s : State) (c : List Byte) : (s.chunkSent c).dataLen = s.dataLen := by
  simp only [State.chunkSent, modulated_dataLen, setBlock_dataLen, taken_dataLen]

@[simp] theorem chunkSent_inputMode (s : State) (c : List Byte) : (s.chunkSent c).inputMode = s.inputMode := by
  simp only [State.chunkSent, modulated_inputMode, setBlock_inputMode, taken_inputMode]

theorem chunkSent_pol (s : State) (c : List Byte) :
    (s.chunkSent c).pol = polarityAfter s.pol (bitStream (framedBytes s.cfg (dataBlock s.blkcnt c))) := by
  simp only [State.chunkSent, State.modulated, emitted_pol, setBlock_pol, taken_pol]

theorem chunkSent_blkcnt (s : State) (c : List Byte) : (s.chunkSent c).blkcnt = s.blkcnt + 1#16 := by
  simp only [State.chunkSent]

theorem chunkSent_incnt (s : State) (c : List Byte) : (s.chunkSent c).incnt = s.incnt + BitVec.ofNat 64 c.length := by
  simp only [State.chunkSent, modulated_incnt, setBlock_incnt, taken_incnt]

theorem chunkSent_inPort (s : State) (c : List Byte) : (s.chunkSent c).inPort = some (s.inBytes.drop c.length) := by
  simp only [State.chunkSent, modulated_inPort, setBlock_inPort, taken_inPort]

/-- The waveform does not depend on what reading a chunk and assembling its block change. -/
theorem bitsWave_setBlock_taken (s : State) (b c : List Byte) (p : Bool) (bs : List Bool) :
    bitsWave (setBlock b (s.taken c)) p bs = bitsWave s p bs :=
  bitsWave_congr (by simp only [setBlock_half, taken_half]) (by simp only [setBlock_highValue, taken_highValue])
    (by simp only [setBlock_lowValue, taken_lowValue]) (by simp only [setBlock_width, taken_width])
    (by simp only [setBlock_container, taken_container]) (by simp only [setBlock_cfg, taken_cfg]) p bs

theorem bitsWave_chunkSent (s : State) (c : List Byte) (p : Bool) (bs : List Bool) :
    bitsWave (s.chunkSent c) p bs = bitsWave s p bs :=
  bitsWave_congr (chunkSent_half s c) (chunkSent_highValue s c) (chunkSent_lowValue s c) (chunkSent_width s c)
    (chunkSent_container s c) (chunkSent_cfg s c) p bs

/-- The samples of one data block. -/
def State.chunkWave (s : State) (c : List Byte) : List Byte :=
  bitsWave s s.pol (bitStream (framedBytes s.cfg (dataBlock s.blkcnt c)))

theorem length_chunkWave {s : State} {chunk : List Byte} (hb : chunk.length ≤ 253) :
    (s.chunkWave chunk).length = blockByteCount s := by
  rw [State.chunkWave, length_byteWave, length_framedBytes (length_dataBlock hb)]; rfl

/-- What sending a chunk changes. -/
theorem chunkSent_eq (s : State) (c : List Byte) : s.chunkSent c = s.blockPort
    (s.hostRefuses.drop (c.length + (s.chunkWave c).length)) (s.drawn + (c.length + (s.chunkWave c).length))
    ((s.chunkWave c).reverse ++ s.outRev) (s.outcnt + BitVec.ofNat 64 (s.chunkWave c).length)
    (s.sbytes + BitVec.ofNat 64 (s.chunkWave c).length) (s.samples || !(s.chunkWave c).isEmpty)
    (polarityAfter s.pol (bitStream (framedBytes s.cfg (dataBlock s.blkcnt c))))
    (cellsFrom 0 (dataBlock s.blkcnt c)) (s.blkcnt + 1#16) (s.incnt + BitVec.ofNat 64 c.length)
    (some (s.inBytes.drop c.length)) := by
  unfold State.chunkSent State.chunkWave
  generalize dataBlock s.blkcnt c = d
  generalize framedBytes s.cfg d = f
  rw [State.modulated, bitsWave_setBlock_taken, setBlock_pol, taken_pol, ← List.drop_drop, ← Nat.add_assoc]
  generalize bitsWave s s.pol (bitStream f) = w
  generalize polarityAfter s.pol (bitStream f) = p
  rfl

theorem blocksSent_nil (s : State) : s.blocksSent [] = s := by
  show s.blockPort _ _ _ _ _ _ _ _ _ _ _ = s.blockPort s.hostRefuses s.drawn s.outRev s.outcnt s.sbytes s.samples s.pol
    s.blk s.blkcnt s.incnt s.inPort
  congr 1 <;> simp [framedChunks, bitStream, bitsWave, polarityAfter]

theorem blockCounter_add (c : U16) (n : Nat) : c + 1#16 + BitVec.ofNat 16 n = c + BitVec.ofNat 16 (n + 1) := by
  rw [BitVec.add_assoc, Nat.add_comm n 1, BitVec.ofNat_add]

/-- Sending a chunk and then others is sending them all: one phase-continuous stream. -/
theorem blocksSent_cons {s : State} {c : List Byte} {cs : List (List Byte)} (hc : c ≠ []) :
    (s.chunkSent c).blocksSent cs = s.blocksSent (c :: cs) := by
  have hbits : bitStream (framedChunks s.cfg s.blkcnt (c :: cs)) =
      bitStream (framedBytes s.cfg (dataBlock s.blkcnt c)) ++ bitStream (framedChunks s.cfg (s.blkcnt + 1#16) cs) := by
    rw [framedChunks, bitStream_append]
  have hne : (c ++ cs.flatten).isEmpty = false := by simp [hc]
  have hpol := chunkSent_pol s c
  have hin : (s.chunkSent c).inBytes = s.inBytes.drop c.length := by
    rw [State.inBytes, chunkSent_inPort, Option.getD_some]
  unfold State.blocksSent
  simp only [bitsWave_chunkSent, hpol, chunkSent_cfg, chunkSent_blkcnt, hbits, bitsWave_append, polarityAfter_append,
    List.flatten_cons, hne, hin, lastBlock]
  rw [chunkSent_eq]
  unfold State.chunkWave
  generalize dataBlock s.blkcnt c = d
  generalize framedBytes s.cfg d = f
  generalize bitsWave s (polarityAfter s.pol (bitStream f)) (bitStream (framedChunks s.cfg (s.blkcnt + 1#16) cs)) = w2
  generalize bitsWave s s.pol (bitStream f) = w1
  generalize polarityAfter s.pol (bitStream f) = p1
  generalize polarityAfter p1 (bitStream (framedChunks s.cfg (s.blkcnt + 1#16) cs)) = p2
  show s.blockPort _ _ _ _ _ _ _ _ _ _ _ = s.blockPort _ _ _ _ _ _ _ _ _ _ _
  congr 1
  · simp only [State.blockPort, List.drop_drop, List.length_append]; congr 1; omega
  · simp only [State.blockPort, List.length_append]; omega
  · simp [State.blockPort]
  · simp [State.blockPort, counter_add]
  · simp [State.blockPort, counter_add]
  · cases w1 <;> cases w2 <;> simp [State.blockPort]
  · simp only [List.length_cons, blockCounter_add]
  · simp only [State.blockPort, List.length_append, counter_add]
  · cases h : cs.flatten <;> simp [State.blockPort, List.drop_drop]

theorem chunksOf_cons {k : Nat} {bytes : List Byte} (h : bytes ≠ []) :
    chunksOf (k + 1) bytes = bytes.take 253 :: chunksOf k (bytes.drop 253) := by
  simp [chunksOf, h, dataChunk]

theorem chunksOf_nil (k : Nat) : chunksOf k [] = [] := by cases k <;> rfl

/-- Reading a chunk and sending it. -/
theorem sendDataBlock_taken {s : State} {chunk : List Byte} (hb : chunk.length ≤ 253)
    (hg : Granted s (chunk.length + blockByteCount s)) (h : Emittable s (blockByteCount s)) :
    sendDataBlock chunk (s.taken chunk) = .done (s.chunkSent chunk) := by
  rw [sendDataBlock_granted hb]
  · rfl
  · exact ⟨h.opened, granted_drop (n := chunk.length) rfl rfl hg, h.outcnt_fits, h.sbytes_fits, h.half_le, h.hi, h.lo⟩

theorem chunkSent_outcnt {s : State} {chunk : List Byte} (hb : chunk.length ≤ 253) :
    (s.chunkSent chunk).outcnt = s.outcnt + BitVec.ofNat 64 (blockByteCount s) := by
  rw [← length_chunkWave hb, chunkSent_eq, State.blockPort]

theorem chunkSent_sbytes {s : State} {chunk : List Byte} (hb : chunk.length ≤ 253) :
    (s.chunkSent chunk).sbytes = s.sbytes + BitVec.ofNat 64 (blockByteCount s) := by
  rw [← length_chunkWave hb, chunkSent_eq, State.blockPort]

theorem granted_chunkSent {s : State} {chunk : List Byte} {n : Nat} (hb : chunk.length ≤ 253)
    (h : Granted s (chunk.length + blockByteCount s + n)) : Granted (s.chunkSent chunk) n := by
  rw [← length_chunkWave hb] at h
  apply granted_drop _ _ h
  · rw [chunkSent_eq, State.blockPort]
  · rw [chunkSent_eq, State.blockPort]

/-- What is left to emit after a chunk. -/
theorem emittable_chunkSent {s : State} {chunk : List Byte} {n : Nat} (hb : chunk.length ≤ 253)
    (hg : Granted s (chunk.length + blockByteCount s + n)) (h : Emittable s (blockByteCount s + n)) :
    Emittable (s.chunkSent chunk) n where
  opened := by rw [chunkSent_closed]; exact h.opened
  granted := granted_chunkSent hb hg
  outcnt_fits := by
    have := h.outcnt_fits
    rw [chunkSent_outcnt hb, counter_toNat (by omega)]; omega
  sbytes_fits := by
    have := h.sbytes_fits
    rw [chunkSent_sbytes hb, counter_toNat (by omega)]; omega
  half_le := by rw [chunkSent_half]; exact h.half_le
  hi := by rw [chunkSent_hiBuf, chunkSent_highValue]; exact h.hi
  lo := by rw [chunkSent_loBuf, chunkSent_lowValue]; exact h.lo

/-- The BUFFERED loop where the input holds what remains and every access is granted. -/
theorem sendBuffered_granted {blocks rem : Nat} {s : State} (hbl : blocks = ceilDiv rem dataChunk)
    (hl : rem ≤ s.inBytes.length) (he : s.eof = false) (hc : s.incnt.toNat + rem < 2 ^ 64)
    (hg : Granted s (rem + blocks * blockByteCount s)) (h : Emittable s (blocks * blockByteCount s)) :
    sendBuffered blocks rem s = .done (s.blocksSent (chunksOf blocks (s.inBytes.take rem))) := by
  induction blocks generalizing rem s with
  | zero => rw [sendBuffered, chunksOf, blocksSent_nil]
  | succ k ih =>
    simp only [ceilDiv, dataChunk] at hbl
    have hr : 0 < rem := by omega
    have hmin : min dataChunk rem ≤ rem := Nat.min_le_right _ _
    have hmin' : min dataChunk rem ≤ 253 := Nat.min_le_left _ _
    have hpos : 0 < min dataChunk rem := by simp only [dataChunk]; omega
    have hlen : (s.inBytes.take (min dataChunk rem)).length = min dataChunk rem := by
      rw [List.length_take]; omega
    have hsplit : rem + (k + 1) * blockByteCount s =
        (min dataChunk rem) + blockByteCount s + (rem - min dataChunk rem + k * blockByteCount s) := by
      rw [Nat.add_mul, Nat.one_mul]; omega
    have hsplit' : (k + 1) * blockByteCount s = blockByteCount s + k * blockByteCount s := by
      rw [Nat.add_mul, Nat.one_mul]; omega
    have hchunk : chunksOf (k + 1) (s.inBytes.take rem) = s.inBytes.take (min dataChunk rem) ::
        chunksOf k ((s.inBytes.drop (min dataChunk rem)).take (rem - min dataChunk rem)) := by
      rw [chunksOf_cons]
      · by_cases h253 : 253 ≤ rem
        · have hm : min dataChunk rem = 253 := Nat.min_eq_left h253
          rw [hm, List.take_take, Nat.min_eq_left h253, List.drop_take]
        · have hm : min dataChunk rem = rem := Nat.min_eq_right (by simp only [dataChunk]; omega)
          have h1 : (List.take rem s.inBytes).take 253 = List.take rem s.inBytes :=
            List.take_of_length_le (by rw [List.length_take]; omega)
          have h2 : (List.take rem s.inBytes).drop 253 = [] :=
            List.drop_of_length_le (by rw [List.length_take]; omega)
          rw [hm, h1, h2, Nat.sub_self, List.take_zero]
      · intro h0
        have := congrArg List.length h0
        simp only [List.length_take, List.length_nil] at this
        omega
    have hcnt : (s.chunkSent (s.inBytes.take (min dataChunk rem))).incnt.toNat = s.incnt.toNat + min dataChunk rem := by
      rw [chunkSent_incnt, hlen, counter_toNat (by omega)]
    have hin : (s.chunkSent (s.inBytes.take (min dataChunk rem))).inBytes = s.inBytes.drop (min dataChunk rem) := by
      rw [State.inBytes, chunkSent_inPort, hlen, Option.getD_some]
    have hbc : blockByteCount (s.chunkSent (s.inBytes.take (min dataChunk rem))) = blockByteCount s := by
      simp only [blockByteCount, byteByteCount, bitByteCount, frameSize, chunkSent_half, chunkSent_width]
    rw [sendBuffered, inReadUpTo_full hpos he (by omega) (granted_of_le hg (by omega)) (by omega)]
    simp only [List.reverse_nil, List.nil_append]
    rw [sendDataBlock_taken (by rw [hlen]; exact hmin') (granted_of_le hg (by rw [hlen]; omega))
      (h.of_le (by omega)), done_andThen, ih (rem := rem - min dataChunk rem)]
    · rw [hin, blocksSent_cons, hchunk]
      intro h0
      rw [h0] at hlen
      simp only [List.length_nil] at hlen
      omega
    · simp only [ceilDiv, dataChunk]; omega
    · rw [hin, List.length_drop]; omega
    · rw [chunkSent_eof]; exact he
    · rw [hcnt]; omega
    · rw [hbc]
      exact granted_chunkSent (by rw [hlen]; exact hmin') (by rw [hlen, ← hsplit]; exact hg)
    · rw [hbc]
      refine emittable_chunkSent (by rw [hlen]; exact hmin') ?_ (by rw [← hsplit']; exact h)
      rw [hlen]
      exact granted_of_le hg (by rw [hsplit]; exact Nat.add_le_add_left (Nat.le_add_left _ _) _)

end Sys2Proof.Machine
end

