-- ==== Sys2Proof/Laws/Refusals.lean ====
section
/-! SUPPORT. What an emission leaves where the host refuses one of its bytes (20_memory.md R53, 60_exceptions.md R204). -/

namespace Sys2Proof.Machine

/-- Pseudocode that ends where the port refuses the (k+1)-th byte of `wave`: the k bytes before it stay, and P is as it was when the
refused byte, whose entry of `pols` it is, was tried (20_memory.md R53). -/
def StopsAt (s : State) (wave : List Byte) (pols : List Bool) (k : Nat) (r : Ran) : Prop :=
  ∃ p, pols[k]? = some p ∧ r = .raised .ioOutput (s.outcnt.toNat + k) (s.emitted (wave.take k) p).drewOne

/-- What it takes to stop there: the accesses before it granted, that one refused. -/
structure Stopping (s : State) (k : Nat) : Prop where
  emittable : Emittable s k
  refused : refusesAt s k = true

theorem Stopping.emitted {s : State} {bs : List Byte} {k : Nat} (p : Bool) (h : Stopping s k) (hk : bs.length ≤ k) :
    Stopping (s.emitted bs p) (k - bs.length) where
  emittable := Emittable.emitted bs p (by rw [Nat.add_sub_cancel' hk]; exact h.emittable)
  refused := by
    rw [refusesAt_drop (n := bs.length) (s := s) rfl rfl, Nat.add_sub_cancel' hk]
    exact h.refused

theorem StopsAt.left {s : State} {w1 w2 : List Byte} {p1 p2 : List Bool} {k : Nat} {r : Ran} {f : State → Ran} (hk : k < w1.length)
    (h : StopsAt s w1 p1 k r) : StopsAt s (w1 ++ w2) (p1 ++ p2) k (r.andThen f) := by
  obtain ⟨p, hp, rfl⟩ := h
  exact ⟨p, by rw [List.getElem?_append_left (List.getElem?_eq_some_iff.1 hp).1]; exact hp,
    by rw [raised_andThen, List.take_append_of_le_length (by omega)]⟩

theorem StopsAt.right {s : State} {w1 w2 : List Byte} {p1 p2 : List Bool} {k : Nat} {q : Bool} {r : Ran} (hs : Stopping s k)
    (hk : w1.length ≤ k) (hl : p1.length = w1.length) (h : StopsAt (s.emitted w1 q) w2 p2 (k - w1.length) r) :
    StopsAt s (w1 ++ w2) (p1 ++ p2) k r := by
  obtain ⟨p, hp, rfl⟩ := h
  refine ⟨p, by rw [List.getElem?_append_right (by omega), hl]; exact hp, ?_⟩
  have ho : (s.emitted w1 q).outcnt.toNat = s.outcnt.toNat + w1.length := by
    rw [emitted_outcnt, counter_toNat (by have := hs.emittable.outcnt_fits; omega)]
  rw [emitted_emitted, ho, List.take_append, List.take_of_length_le hk]
  congr 1
  omega

theorem emitSampleBytes_refused {bs : List Byte} {s : State} {k : Nat} (h : Stopping s k) (hk : k < bs.length) :
    StopsAt s bs (List.replicate bs.length s.pol) k (emitSampleBytes bs s) := by
  induction bs generalizing s k with
  | nil => simp at hk
  | cons b bs ih =>
    by_cases h0 : k = 0
    · subst h0
      refine ⟨s.pol, by rw [List.getElem?_replicate, if_pos hk], ?_⟩
      rw [emitSampleBytes, outWrite_refused h.emittable.opened (by rw [refusesNext_eq]; exact h.refused),
        List.take_zero, emitted_nil]
      rfl
    · have ho := h.emittable.outcnt_fits
      have hsb := h.emittable.sbytes_fits
      simp only [List.length_cons] at hk
      rw [emitSampleBytes, outWrite_done h.emittable.opened (refusesNext_of_granted h.emittable.granted (by omega)),
        done_andThen,
        counted_accepted (by omega) (by omega)]
      have h1 : Stopping (s.emitted [b] s.pol) (k - 1) := h.emitted (bs := [b]) s.pol (by simp; omega)
      exact StopsAt.right (w1 := [b]) (p1 := [s.pol]) h (by simp; omega) rfl (ih h1 (by simp only [List.length_singleton]; omega))

theorem halfBitFrom_refused {n i k : Nat} {s : State} (hin : i + n ≤ s.half.toNat) (h : Stopping s k)
    (hk : k < n * frameSize s) :
    StopsAt s (List.replicate n
      (sampleBytes (if s.pol then s.highValue else s.lowValue) s.width.toNat (convention s).order)).flatten
      (List.replicate (n * frameSize s) s.pol) k (halfBitFrom i n s) := by
  induction n generalizing i s k with
  | zero => simp at hk
  | succ n ih =>
    have hn : (n + 1) * frameSize s = frameSize s + n * frameSize s := by ring
    rw [halfBitFrom, h.emittable.levelAt_eq (by omega), sampleOut, List.replicate_succ, List.flatten_cons, hn, List.replicate_add]
    have hl : ∀ v o, (sampleBytes v s.width.toNat o).length = frameSize s := fun v o => length_sampleBytes _ _ _
    by_cases hlt : k < frameSize s
    · have h0 := emitSampleBytes_refused
        (bs := sampleBytes (if s.pol then s.highValue else s.lowValue) s.width.toNat (convention s).order) h (by rw [hl]; exact hlt)
      rw [hl] at h0
      exact h0.left (by rw [hl]; exact hlt)
    · rw [emitSampleBytes_granted (h.emittable.of_le (by rw [hl]; omega)), done_andThen]
      have h1 := h.emitted (bs := sampleBytes (if s.pol then s.highValue else s.lowValue) s.width.toNat (convention s).order)
        s.pol (by rw [hl]; omega)
      exact StopsAt.right h (by rw [hl]; omega) (by rw [hl, List.length_replicate]) (ih (by simp only [emitted_half]; omega) h1
        (by rw [hl]; show _ < n * frameSize s; omega))

theorem halfBit_refused {s : State} {k : Nat} (h : Stopping s k) (hk : k < s.half.toNat * frameSize s) :
    StopsAt s (levelRun s s.pol) (List.replicate (s.half.toNat * frameSize s) s.pol) k (halfBit s) :=
  halfBitFrom_refused (by omega) h hk

theorem StopsAt.toggled {s : State} {p : Bool} {w : List Byte} {pols : List Bool} {k : Nat} {r : Ran}
    (h : StopsAt (s.emitted [] p) w pols k r) : StopsAt s w pols k r := by
  obtain ⟨q, hq, rfl⟩ := h
  refine ⟨q, hq, ?_⟩
  rw [emitted_emitted, List.nil_append]
  simp

theorem emitBit_refused {s : State} {b : Bool} {k : Nat} (h : Stopping s k) (hk : k < bitByteCount s) :
    StopsAt s (bitWave s s.pol b) (polarities s s.pol [b]) k (emitBit b s) := by
  have hb : bitByteCount s = s.half.toNat * frameSize s + s.half.toNat * frameSize s := by unfold bitByteCount; ring
  rw [hb] at hk
  have h0 : Stopping (s.emitted [] (!s.pol)) k := h.emitted (bs := []) _ (Nat.zero_le _)
  rw [emitBit, togglePolarity_eq]
  rw [polarities, polarities, List.append_nil]
  unfold bitWave
  apply StopsAt.toggled (p := !s.pol)
  by_cases hlt : k < s.half.toNat * frameSize s
  · exact (halfBit_refused h0 hlt).left (by rw [length_levelRun]; exact hlt)
  · have hle : (levelRun s (!s.pol)).length ≤ k := by rw [length_levelRun]; omega
    rw [halfBit_granted (h0.emittable.of_le (by show s.half.toNat * frameSize s ≤ k; omega)), done_andThen]
    have hs : (if b = true then togglePolarity ((s.emitted [] !s.pol).emitted
          (levelRun (s.emitted [] !s.pol) (s.emitted [] !s.pol).pol) (s.emitted [] !s.pol).pol)
        else ((s.emitted [] !s.pol).emitted (levelRun (s.emitted [] !s.pol) (s.emitted [] !s.pol).pol)
          (s.emitted [] !s.pol).pol)) =
        (s.emitted [] (!s.pol)).emitted (levelRun s (!s.pol)) (polarityAfterBit s.pol b) := by
      cases b
      · rfl
      · rw [if_pos rfl, togglePolarity_eq, emitted_emitted, List.append_nil]
        simp only [emitted_pol, Bool.not_not]
        rfl
    rw [hs]
    have h1 := h0.emitted (bs := levelRun s (!s.pol)) (polarityAfterBit s.pol b) hle
    exact StopsAt.right h0 hle (by rw [length_levelRun, List.length_replicate]) (halfBit_refused h1 (by rw [length_levelRun]; show _ < s.half.toNat * frameSize s; omega))

theorem emitBits_refused {bs : List Bool} {s : State} {k : Nat} (h : Stopping s k) (hk : k < bs.length * bitByteCount s) :
    StopsAt s (bitsWave s s.pol bs) (polarities s s.pol bs) k (emitBits bs s) := by
  induction bs generalizing s k with
  | nil => simp at hk
  | cons b bs ih =>
    have hn : (b :: bs).length * bitByteCount s = bitByteCount s + bs.length * bitByteCount s := by
      rw [List.length_cons]; ring
    have hone : ∀ cs, polarities s s.pol (b :: cs) = polarities s s.pol [b] ++ polarities s (polarityAfterBit s.pol b) cs :=
      polarities_append s s.pol [b]
    rw [emitBits, bitsWave, hone]
    by_cases hlt : k < bitByteCount s
    · exact (emitBit_refused h hlt).left (by rw [length_bitWave]; exact hlt)
    · have hle : (bitWave s s.pol b).length ≤ k := by rw [length_bitWave]; omega
      rw [emitBit_granted (h.emittable.of_le (by omega)), done_andThen]
      have h1 := h.emitted (bs := bitWave s s.pol b) (polarityAfterBit s.pol b) hle
      have h2 := ih h1 (by rw [length_bitWave]; show _ < bs.length * bitByteCount s; omega)
      rw [emitted_pol, bitsWave_congr (s := s) (by rfl) (by rfl) (by rfl) (by rfl) (by rfl) (by rfl),
        polarities_congr (s := s) (by rfl) (by rfl)] at h2
      exact StopsAt.right h hle (by rw [length_bitWave, length_polarities, List.length_singleton, Nat.one_mul]) h2

theorem emitByte_refused {v : Byte} {s : State} {k : Nat} (h : Stopping s k) (hk : k < byteByteCount s) :
    StopsAt s (bitsWave s s.pol (bitsOf v)) (polarities s s.pol (bitsOf v)) k (emitByte v s) :=
  emitBits_refused h (by rw [length_bitsOf]; exact hk)

theorem emitBytes_refused {vs : List Byte} {s : State} {k : Nat} (h : Stopping s k) (hk : k < vs.length * byteByteCount s) :
    StopsAt s (bitsWave s s.pol (bitStream vs)) (polarities s s.pol (bitStream vs)) k (emitBytes vs s) := by
  induction vs generalizing s k with
  | nil => simp at hk
  | cons v vs ih =>
    have hn : (v :: vs).length * byteByteCount s = byteByteCount s + vs.length * byteByteCount s := by
      rw [List.length_cons]; ring
    rw [emitBytes, bitStream_cons, bitsWave_append, polarities_append]
    have hl : (bitsWave s s.pol (bitsOf v)).length = byteByteCount s := by rw [length_bitsWave, length_bitsOf]; rfl
    by_cases hlt : k < byteByteCount s
    · exact (emitByte_refused h hlt).left (by rw [hl]; exact hlt)
    · rw [emitByte_granted (h.emittable.of_le (by omega)), done_andThen]
      have hm : s.modulated [v] = s.emitted (bitsWave s s.pol (bitsOf v)) (polarityAfter s.pol (bitsOf v)) := by
        rw [State.modulated, bitStream_cons]; simp [bitStream]
      rw [hm]
      have h1 := h.emitted (bs := bitsWave s s.pol (bitsOf v)) (polarityAfter s.pol (bitsOf v)) (by rw [hl]; omega)
      have h2 := ih h1 (by rw [hl]; show _ < vs.length * byteByteCount s; omega)
      rw [emitted_pol] at h2
      rw [bitsWave_congr (t := s.emitted _ _) (s := s) (by rfl) (by rfl) (by rfl) (by rfl) (by rfl) (by rfl),
        polarities_congr (t := s.emitted _ _) (s := s) (by rfl) (by rfl)] at h2
      exact StopsAt.right h (by rw [hl]; omega) (by rw [length_polarities, length_bitsWave]) h2

/-- A framed block (42_framer.md R142). -/
theorem frameBlock_refused {s : State} {k : Nat} (h : Stopping s k) (hk : k < blockByteCount s) :
    StopsAt s (bitsWave s s.pol (bitStream (framedBytes s.cfg (blockBytes s.blk))))
      (polarities s s.pol (bitStream (framedBytes s.cfg (blockBytes s.blk)))) k (frameBlock s) := by
  have hl : blockByteCount s = (framedBytes s.cfg (blockBytes s.blk)).length * byteByteCount s := by
    rw [length_framedBytes (length_blockBytes _)]
    unfold blockByteCount blockByteTotal
    rfl
  rw [hl] at hk
  unfold frameBlock
  generalize framedBytes s.cfg (blockBytes s.blk) = bytes at *
  exact emitBytes_refused h hk

theorem Stopping.setBlock {s : State} {k : Nat} (payload : List Byte) (h : Stopping s k) : Stopping (setBlock payload s) k :=
  ⟨h.emittable.setBlock payload, (refusesAt_congr (s := s) rfl rfl k).trans h.refused⟩

/-- The refusal met after the host has supplied these bytes. -/
theorem Stopping.taken {s : State} {bytes : List Byte} {k : Nat} (he : Emittable s k) (hg : Granted s (bytes.length + k))
    (hr : refusesAt s (bytes.length + k) = true) : Stopping (s.taken bytes) k :=
  ⟨⟨he.opened, granted_drop (n := bytes.length) rfl rfl hg, he.outcnt_fits, he.sbytes_fits, he.half_le, he.hi, he.lo⟩,
    by rw [refusesAt_drop (n := bytes.length) (s := s) rfl rfl]; exact hr⟩

/-- The state with this payload in BLK, cut in its framing. -/
theorem frameBlock_setBlock_refused {s : State} {payload : List Byte} {k : Nat} (hp : payload.length = 256) (h : Stopping s k)
    (hk : k < blockByteCount s) :
    StopsAt (setBlock payload s) (bitsWave s s.pol (bitStream (framedBytes s.cfg payload)))
      (polarities s s.pol (bitStream (framedBytes s.cfg payload))) k (frameBlock (setBlock payload s)) := by
  have hf := frameBlock_refused (h.setBlock payload) hk
  rw [setBlock_blk, blockBytes_cellsFrom hp, bitsWave_congr (t := setBlock payload s) (s := s) rfl rfl rfl rfl rfl rfl,
    polarities_congr (t := setBlock payload s) (s := s) rfl rfl] at hf
  exact hf

/-- A data block cut in its framing: BLKCNT does not move (R145). -/
theorem sendDataBlock_refused {s : State} {bytes : List Byte} {k : Nat} (hb : bytes.length ≤ 253) (h : Stopping s k)
    (hk : k < blockByteCount s) :
    StopsAt (setBlock (dataBlock s.blkcnt bytes) s)
      (bitsWave s s.pol (bitStream (framedBytes s.cfg (dataBlock s.blkcnt bytes))))
      (polarities s s.pol (bitStream (framedBytes s.cfg (dataBlock s.blkcnt bytes)))) k (sendDataBlock bytes s) := by
  have hp := length_dataBlock (counter := s.blkcnt) hb
  have hl : k < (bitsWave s s.pol (bitStream (framedBytes s.cfg (dataBlock s.blkcnt bytes)))).length := by
    rw [length_byteWave, length_framedBytes hp]; exact hk
  have hf := frameBlock_setBlock_refused hp h hk
  rw [sendDataBlock]
  generalize bitsWave s s.pol (bitStream (framedBytes s.cfg (dataBlock s.blkcnt bytes))) = wave at *
  generalize polarities s s.pol (bitStream (framedBytes s.cfg (dataBlock s.blkcnt bytes))) = pols at *
  obtain ⟨p, hp, hf⟩ := hf
  exact ⟨p, hp, by rw [hf, raised_andThen]⟩

end Sys2Proof.Machine
end

