-- ==== Sys2Proof/Laws/Streaming.lean ====
section
/-! SUPPORT. The STREAMING loop of TXREST in closed form where the host grants every access (42_framer.md R146, R150). -/

namespace Sys2Proof.Machine

/-- The last, short chunk: the end of the input is reported before its block is sent. -/
theorem sendDataBlock_last {s : State} {chunk : List Byte} (hb : chunk.length ≤ 253)
    (hg : Granted s (chunk.length + 1 + blockByteCount s)) (h : Emittable s (blockByteCount s)) :
    sendDataBlock chunk (s.taken chunk).endOfInput = .done (s.chunkSent chunk).endOfInput := by
  have hem : Emittable (s.taken chunk).endOfInput (blockByteCount s) := by
    refine ⟨h.opened, granted_drop (s := s) (n := chunk.length + 1) ?_ ?_ hg, h.outcnt_fits, h.sbytes_fits, h.half_le, h.hi, h.lo⟩
    · simp [State.endOfInput]
    · simp [State.endOfInput, Nat.add_assoc]
  have hcnt : (s.taken chunk).endOfInput.blkcnt = s.blkcnt := by
    simp only [State.endOfInput, drewOne_blkcnt, taken_blkcnt]
  have hcfg : (s.taken chunk).endOfInput.cfg = s.cfg := by
    simp only [State.endOfInput, drewOne_cfg, taken_cfg]
  have hbc : blockByteCount (s.taken chunk).endOfInput = blockByteCount s := by
    simp only [blockByteCount, byteByteCount, bitByteCount, frameSize, State.endOfInput, drewOne_half, drewOne_width,
      taken_half, taken_width]
  refine (sendDataBlock_granted hb (by rw [hbc]; exact hem)).trans (congrArg Ran.done ?_)
  simp only [hcnt, hcfg]
  unfold State.chunkSent
  generalize dataBlock s.blkcnt chunk = d
  generalize framedBytes s.cfg d = f
  have hw : ∀ p bs, bitsWave (setBlock d (s.taken chunk).endOfInput) p bs = bitsWave (setBlock d (s.taken chunk)) p bs :=
    fun p bs => bitsWave_congr (by simp only [setBlock_half, State.endOfInput, drewOne_half])
      (by simp only [setBlock_highValue, State.endOfInput, drewOne_highValue])
      (by simp only [setBlock_lowValue, State.endOfInput, drewOne_lowValue])
      (by simp only [setBlock_width, State.endOfInput, drewOne_width])
      (by simp only [setBlock_container, State.endOfInput, drewOne_container])
      (by simp only [setBlock_cfg, State.endOfInput, drewOne_cfg]) p bs
  have hp : (setBlock d (s.taken chunk).endOfInput).pol = (setBlock d (s.taken chunk)).pol := by
    simp only [setBlock_pol, State.endOfInput, drewOne_pol]
  rw [State.modulated, State.modulated, hw, hp]
  generalize bitsWave (setBlock d (s.taken chunk)) (setBlock d (s.taken chunk)).pol (bitStream f) = w
  generalize polarityAfter (setBlock d (s.taken chunk)).pol (bitStream f) = p
  generalize hx : (s.taken chunk).hostRefuses = hr
  generalize hy : (s.taken chunk).drawn = dr
  have e1 : (hr.tail).drop w.length = (hr.drop w.length).tail := by simp [Nat.add_comm]
  have e2 : dr + 1 + w.length = dr + w.length + 1 := by omega
  unfold State.endOfInput State.emitted
  simp only [setBlock_hostRefuses, setBlock_drawn, drewOne_hostRefuses, drewOne_drawn, hx, hy, e1, e2]
  rfl

/-- The STREAMING loop where every access is granted: all the input as data blocks, then the end of the input. -/
theorem sendStreaming_granted {rounds : Nat} {s : State} (hr : rounds = s.inBytes.length / dataChunk + 1)
    (he : s.eof = false) (hc : s.incnt.toNat + s.inBytes.length < 2 ^ 64)
    (hg : Granted s (s.inBytes.length + ceilDiv s.inBytes.length dataChunk * blockByteCount s + 1))
    (h : Emittable s (ceilDiv s.inBytes.length dataChunk * blockByteCount s)) :
    sendStreaming rounds s =
      .done (s.blocksSent (chunksOf (ceilDiv s.inBytes.length dataChunk) s.inBytes)).endOfInput := by
  induction rounds generalizing s with
  | zero => exact absurd hr.symm (Nat.succ_ne_zero _)
  | succ k ih =>
    by_cases hl : s.inBytes.length < 253
    · rw [sendStreaming, inReadUpTo_short (n := dataChunk) he hl (granted_of_le hg (by omega)) hc]
      by_cases h0 : s.inBytes = []
      · simp [h0, chunksOf_nil, blocksSent_nil]
      · have hpos : 0 < s.inBytes.length := List.length_pos_iff.2 h0
        have hone : ceilDiv s.inBytes.length dataChunk = 1 := by simp only [ceilDiv, dataChunk]; omega
        rw [hone] at hg h ⊢
        have htake : s.inBytes.take 253 = s.inBytes := List.take_of_length_le (by omega)
        have hdrop : s.inBytes.drop 253 = [] := List.drop_of_length_le (by omega)
        rw [chunksOf_cons h0, htake, hdrop, chunksOf_nil, ← blocksSent_cons h0, blocksSent_nil]
        simp only [h0, if_false, List.reverse_nil, List.nil_append]
        exact sendDataBlock_last (by omega) (granted_of_le hg (by omega)) (h.of_le (by omega))
    · have hlen : (s.inBytes.take 253).length = 253 := by rw [List.length_take]; omega
      have hne : s.inBytes.take 253 ≠ [] := by intro h0; rw [h0] at hlen; simp at hlen
      have hceil : ceilDiv s.inBytes.length dataChunk = ceilDiv (s.inBytes.length - 253) dataChunk + 1 := by
        simp only [ceilDiv, dataChunk]; omega
      generalize hq : ceilDiv (s.inBytes.length - 253) dataChunk = q at hceil
      rw [hceil] at hg h ⊢
      have hqb : (q + 1) * blockByteCount s = blockByteCount s + q * blockByteCount s := by
        rw [Nat.add_mul, Nat.one_mul, Nat.add_comm]
      have hin : (s.chunkSent (s.inBytes.take 253)).inBytes = s.inBytes.drop 253 := by
        rw [State.inBytes, chunkSent_inPort, hlen, Option.getD_some]
      have hinl : (s.chunkSent (s.inBytes.take 253)).inBytes.length = s.inBytes.length - 253 := by
        rw [hin, List.length_drop]
      have hbc : blockByteCount (s.chunkSent (s.inBytes.take 253)) = blockByteCount s := by
        simp only [blockByteCount, byteByteCount, bitByteCount, frameSize, chunkSent_half, chunkSent_width]
      rw [sendStreaming, inReadUpTo_full (n := dataChunk) (by simp only [dataChunk]; omega) he
        (by simp only [dataChunk]; omega) (granted_of_le hg (by simp only [dataChunk]; omega))
        (by simp only [dataChunk]; omega)]
      simp only [List.reverse_nil, List.nil_append, dataChunk] at *
      rw [sendDataBlock_taken (by omega) (granted_of_le hg (by rw [hlen]; omega)) (h.of_le (by omega)), done_andThen, ih]
      · rw [hinl, hq, hin, blocksSent_cons hne, chunksOf_cons]
        intro h0
        rw [h0] at hl
        simp at hl
      · rw [hinl]; omega
      · rw [chunkSent_eof]; exact he
      · rw [hinl, chunkSent_incnt, hlen, counter_toNat (by omega)]; omega
      · rw [hinl, hq, hbc]
        exact granted_chunkSent (by omega) (granted_of_le hg (by rw [hlen]; omega))
      · rw [hinl, hq, hbc]
        exact emittable_chunkSent (by omega) (granted_of_le hg (by rw [hlen]; omega)) (by rw [← hqb]; exact h)

/-- With the end of the input already reported, STREAMING sends nothing. -/
theorem sendStreaming_eof {rounds : Nat} {s : State} (he : s.eof = true) : sendStreaming rounds s = .done s := by
  cases rounds with
  | zero => rfl
  | succ k => rw [sendStreaming, inReadUpTo_eof (by simp [dataChunk]) he]; simp

/-! ### The BUFFERED loop where the input ends early -/

theorem chunkSent_inBytes (s : State) (c : List Byte) : (s.chunkSent c).inBytes = s.inBytes.drop c.length := by
  rw [State.inBytes, chunkSent_inPort, Option.getD_some]

theorem chunkSent_blockByteCount (s : State) (c : List Byte) : blockByteCount (s.chunkSent c) = blockByteCount s := by
  simp only [blockByteCount, byteByteCount, bitByteCount, frameSize, chunkSent_half, chunkSent_width]

/-- The full blocks are sent, then the bytes left over are read and the end of the input is met: IO_INPUT with INCNT (R146). -/
theorem sendBuffered_short {blocks rem : Nat} {s : State} (hbl : blocks = ceilDiv rem dataChunk) (he : s.eof = false)
    (hl : s.inBytes.length < rem) (hc : s.incnt.toNat + s.inBytes.length < 2 ^ 64)
    (hg : Granted s (s.inBytes.length + s.inBytes.length / 253 * blockByteCount s + 1))
    (h : Emittable s (s.inBytes.length / 253 * blockByteCount s)) :
    sendBuffered blocks rem s = .raised .ioInput (s.incnt.toNat + s.inBytes.length)
      (let u := s.blocksSent (chunksOf (s.inBytes.length / 253) s.inBytes)
       let tail := s.inBytes.drop (253 * (s.inBytes.length / 253))
       (if tail = [] then u else u.taken tail).endOfInput) := by
  induction blocks generalizing rem s with
  | zero => simp only [ceilDiv, dataChunk] at hbl; omega
  | succ k ih =>
    simp only [ceilDiv, dataChunk] at hbl
    by_cases hlt : s.inBytes.length < 253
    · have hz : s.inBytes.length / 253 = 0 := Nat.div_eq_of_lt hlt
      rw [sendBuffered, inReadUpTo_short he (by simp only [dataChunk]; omega) (granted_of_le hg (by omega)) hc, hz]
      simp only [chunksOf, blocksSent_nil, Nat.mul_zero, List.drop_zero]
      split
      · rename_i h0; rw [h0]; rfl
      · rw [show (s.taken s.inBytes).endOfInput.incnt.toNat = _ from counter_toNat hc]
    · have hmin : min dataChunk rem = 253 := Nat.min_eq_left (by simp only [dataChunk]; omega)
      have hlen : (s.inBytes.take 253).length = 253 := by rw [List.length_take]; omega
      have hne : s.inBytes ≠ [] := by rintro h0; rw [h0] at hlt; simp at hlt
      have hdiv : s.inBytes.length / 253 = (s.inBytes.length - 253) / 253 + 1 := by omega
      generalize hq : (s.inBytes.length - 253) / 253 = q at hdiv
      have hqb : (q + 1) * blockByteCount s = blockByteCount s + q * blockByteCount s := by ring
      rw [hdiv] at hg h ⊢
      have hin : (s.chunkSent (s.inBytes.take 253)).inBytes = s.inBytes.drop 253 := by rw [chunkSent_inBytes, hlen]
      have hinl : (s.inBytes.drop 253).length = s.inBytes.length - 253 := List.length_drop
      have hcnt : (s.chunkSent (s.inBytes.take 253)).incnt.toNat = s.incnt.toNat + 253 := by
        rw [chunkSent_incnt, hlen, counter_toNat (by omega)]
      rw [sendBuffered, hmin, inReadUpTo_full (by omega) he (by omega) (granted_of_le hg (by omega)) (by omega)]
      simp only [List.reverse_nil, List.nil_append]
      rw [sendDataBlock_taken (by omega) (granted_of_le hg (by rw [hlen]; omega)) (h.of_le (by omega)), done_andThen,
        ih (by simp only [ceilDiv, dataChunk]; omega) (by rw [chunkSent_eof]; exact he) (by rw [hin, hinl]; omega)
          (by rw [hin, hinl, hcnt]; omega)
          (by rw [hin, hinl, hq, chunkSent_blockByteCount]; exact granted_chunkSent (by omega) (granted_of_le hg (by rw [hlen]; omega)))
          (by
            rw [hin, hinl, hq, chunkSent_blockByteCount]
            exact emittable_chunkSent (by omega) (granted_of_le hg (by rw [hlen]; omega)) (by rw [← hqb]; exact h))]
      rw [hin, hinl, hq, hcnt, chunksOf_cons hne, List.drop_drop, show 253 + 253 * q = 253 * (q + 1) by ring,
        blocksSent_cons (by intro h0; rw [h0] at hlen; simp at hlen),
        show s.incnt.toNat + 253 + (s.inBytes.length - 253) = s.incnt.toNat + s.inBytes.length by omega]

end Sys2Proof.Machine
end

