-- ==== Sys2Proof/Laws/Accesses.lean ====
section
/-! SUPPORT. Access traces: what a command leaves that the host cuts short at its (n+1)-th access (20_memory.md R51, R53, 60_exceptions.md R204). -/

namespace Sys2Proof.Machine

/-! ### What a list of accesses has done -/

/-- How many bytes these accesses have brought out. -/
def written (made : List Access) : Nat := made.count Access.headerByte + made.count Access.sampleByte

@[simp] theorem written_append (as bs : List Access) : written (as ++ bs) = written as + written bs := by
  simp only [written, List.count_append]; omega

theorem written_take_le (n : Nat) (as : List Access) : written (as.take n) ≤ written as :=
  Nat.add_le_add (List.Sublist.count_le _ (List.take_sublist n as)) (List.Sublist.count_le _ (List.take_sublist n as))

/-- `t` is `s` after these accesses, of whose output `wave` begins with; P is as it was when the last of `tried` sample bytes was tried,
`pols` holding P for each of them. -/
structure Tally (s t : State) (made : List Access) (tried : Nat) (wave : List Byte) (pols : List Bool) : Prop where
  out : t.outRev = (wave.take (written made)).reverse ++ s.outRev
  outcnt : t.outcnt.toNat = s.outcnt.toNat + written made
  sbytes : t.sbytes.toNat = s.sbytes.toNat + made.count Access.sampleByte
  incnt : t.incnt.toNat = s.incnt.toNat + made.count Access.byteIn
  samples : t.samples = (s.samples || decide (0 < made.count Access.sampleByte))
  eof : t.eof = (s.eof || made.contains Access.endOfInput)
  input : t.inBytes = s.inBytes.drop (made.count Access.byteIn)
  pol : (s.pol :: pols)[tried]? = some t.pol
  closed : t.closed = s.closed
  fault : t.fault = s.fault

theorem Tally.trans {s t u : State} {as bs : List Access} {v w : List Byte} {p q : List Bool} {k : Nat}
    (h : Tally s t as (as.count Access.sampleByte) v p) (hv : v.length = written as) (hp : p.length = as.count Access.sampleByte)
    (h' : Tally t u bs k w q) : Tally s u (as ++ bs) (as.count Access.sampleByte + k) (v ++ w) (p ++ q) where
  out := by
    rw [h'.out, h.out, written_append, ← hv, List.take_length, List.take_length_add_append, List.reverse_append, List.append_assoc]
  outcnt := by rw [h'.outcnt, h.outcnt, written_append]; omega
  sbytes := by rw [h'.sbytes, h.sbytes, List.count_append]; omega
  incnt := by rw [h'.incnt, h.incnt, List.count_append]; omega
  samples := by
    rw [h'.samples, h.samples, List.count_append, Bool.or_assoc, ← Bool.decide_or]
    congr 2
    exact propext (by omega)
  eof := by rw [h'.eof, h.eof, List.contains_append, Bool.or_assoc]
  input := by rw [h'.input, h.input, List.count_append, List.drop_drop]
  pol := by
    rw [← List.cons_append]
    cases k with
    | zero =>
      have hu := h'.pol
      rw [List.getElem?_cons_zero] at hu
      rw [Nat.add_zero, List.getElem?_append_left (by rw [List.length_cons]; omega), h.pol, hu]
    | succ k =>
      rw [List.getElem?_append_right (by rw [List.length_cons]; omega), List.length_cons,
        show as.count Access.sampleByte + (k + 1) - (p.length + 1) = k by omega, ← h'.pol, List.getElem?_cons_succ]
  closed := h'.closed.trans h.closed
  fault := h'.fault.trans h.fault

theorem not_isEmpty_eq {α : Type} (bs : List α) : (!bs.isEmpty) = decide (0 < bs.length) := by cases bs <;> simp

/-! ### Where the host refuses -/

/-- The fault a refused access raises. -/
def Access.fault : Access → FaultCode
  | .byteIn | .endOfInput => .ioInput
  | .headerByte | .sampleByte | .flush => .ioOutput

/-- The counter that fault records. -/
def Access.value (t : State) : Access → Nat
  | .byteIn | .endOfInput => t.incnt.toNat
  | .headerByte | .sampleByte | .flush => t.outcnt.toNat

/-- `t` is `s` after the first n of these accesses, and the next one refused (`d` = 0) or granted (`d` = 1): `blocks` data blocks are
counted, BLK holds `blk`. -/
structure Cut (s t : State) (acc : List Access) (wave : List Byte) (pols : List Bool) (n d blocks : Nat) (blk : Memory) : Prop where
  step_le : d ≤ 1
  tally : Tally s t (acc.take (n + d)) ((acc.take (n + 1)).count Access.sampleByte) wave pols
  blkcnt : t.blkcnt = s.blkcnt + BitVec.ofNat 16 blocks
  blk : t.blk = blk

/-- The command ended at its (n+1)-th access: what the n before it did stays. -/
def CutAt (s : State) (acc : List Access) (wave : List Byte) (pols : List Bool) (n d blocks : Nat) (blk : Memory) (r : Ran) : Prop :=
  ∃ a t, acc[n]? = some a ∧ r = .raised a.fault (a.value t) t ∧ Cut s t acc wave pols n d blocks blk

theorem CutAt.left {s : State} {as bs : List Access} {v w : List Byte} {p p' : List Bool} {n d q : Nat} {blk : Memory} {r : Ran}
    {f : State → Ran} (hn : n < as.length) (hv : v.length = written as) (h : CutAt s as v p n d q blk r) :
    CutAt s (as ++ bs) (v ++ w) (p ++ p') n d q blk (r.andThen f) := by
  obtain ⟨a, t, ha, rfl, hc⟩ := h
  refine ⟨a, t, by rw [List.getElem?_append_left hn]; exact ha, rfl, hc.step_le, ?_, hc.blkcnt, hc.blk⟩
  have hd := hc.step_le
  rw [List.take_append_of_le_length (by omega), List.take_append_of_le_length (by omega)]
  exact { hc.tally with
    out := by rw [hc.tally.out, List.take_append_of_le_length (by rw [hv]; exact written_take_le (n + d) as)]
    pol := by
      rw [← List.cons_append, List.getElem?_append_left (List.getElem?_eq_some_iff.1 hc.tally.pol).1]
      exact hc.tally.pol }

/-- A refused access, whatever was to follow. -/
theorem CutAt.extend {s : State} {as bs : List Access} {v w : List Byte} {p p' : List Bool} {n d q : Nat} {blk : Memory} {r : Ran}
    (hn : n < as.length) (hv : v.length = written as) (h : CutAt s as v p n d q blk r) :
    CutAt s (as ++ bs) (v ++ w) (p ++ p') n d q blk r := by
  have := h.left (bs := bs) (w := w) (p' := p') (f := Ran.done) hn hv
  rwa [show r.andThen Ran.done = r by cases r <;> rfl] at this

/-- What was to follow the command does not run. -/
theorem CutAt.andThen {s : State} {acc : List Access} {wave : List Byte} {pols : List Bool} {n d q : Nat} {blk : Memory} {r : Ran}
    {f : State → Ran} (h : CutAt s acc wave pols n d q blk r) : CutAt s acc wave pols n d q blk (r.andThen f) := by
  obtain ⟨a, t, ha, rfl, hc⟩ := h
  exact ⟨a, t, ha, rfl, hc⟩

/-- A refused read, whatever was to follow. -/
theorem CutAt.ofReads {s : State} {as bs : List Access} {n d q : Nat} {blk : Memory} {r : Ran} (h : CutAt s as [] [] n d q blk r)
    (hn : n < as.length) (hv : written as = 0) (w : List Byte) (p : List Bool) : CutAt s (as ++ bs) w p n d q blk r :=
  h.extend (v := []) (p := []) hn hv.symm

theorem CutAt.right {s t : State} {as bs : List Access} {v w : List Byte} {p p' : List Bool} {n d k q : Nat} {blk : Memory} {r : Ran}
    (hc : Tally s t as (as.count Access.sampleByte) v p) (hv : v.length = written as) (hp : p.length = as.count Access.sampleByte)
    (hb : t.blkcnt = s.blkcnt + BitVec.ofNat 16 k) (hn : as.length ≤ n) (h : CutAt t bs w p' (n - as.length) d q blk r) :
    CutAt s (as ++ bs) (v ++ w) (p ++ p') n d (k + q) blk r := by
  obtain ⟨a, u, ha, rfl, hc'⟩ := h
  refine ⟨a, u, by rw [List.getElem?_append_right hn]; exact ha, rfl, hc'.step_le, ?_, ?_, hc'.blk⟩
  · have ht : ∀ m, (as ++ bs).take (n + m) = as ++ bs.take (n - as.length + m) := fun m => by
      rw [List.take_append, List.take_of_length_le (by omega), Nat.sub_add_comm hn]
    rw [ht, ht, List.count_append]
    exact hc.trans hv hp hc'.tally
  · rw [hc'.blkcnt, hb, BitVec.add_assoc, ← BitVec.ofNat_add]

/-! ### Accesses of one kind -/

@[simp] theorem written_byteIn (n : Nat) : written (List.replicate n Access.byteIn) = 0 := by
  simp [written, List.count_replicate]

theorem count_byteIn (n : Nat) : (List.replicate n Access.byteIn).count Access.sampleByte = 0 := by
  rw [List.count_replicate, if_neg (by decide)]

@[simp] theorem written_sampleByte (n : Nat) : written (List.replicate n Access.sampleByte) = n := by
  simp [written, List.count_replicate]

@[simp] theorem written_headerByte (n : Nat) : written (List.replicate n Access.headerByte) = n := by
  simp [written, List.count_replicate]

theorem tally_taken {s : State} {bytes : List Byte} (hc : s.incnt.toNat + bytes.length < 2 ^ 64) :
    Tally s (s.taken bytes) (List.replicate bytes.length Access.byteIn) 0 [] [] where
  out := by simp
  outcnt := by simp
  sbytes := by simp [List.count_replicate]
  incnt := by rw [taken_incnt, counter_toNat hc]; simp
  samples := by simp [List.count_replicate]
  eof := by simp
  input := by rw [State.inBytes, taken_inPort, Option.getD_some, List.count_replicate_self]
  pol := rfl
  closed := rfl
  fault := rfl

theorem tally_endOfInput (s : State) : Tally s s.endOfInput [Access.endOfInput] 0 [] [] :=
  ⟨rfl, rfl, rfl, rfl, (Bool.or_false _).symm, (Bool.or_true _).symm, rfl, rfl, rfl, rfl⟩

theorem tally_drewOne (s : State) : Tally s s.drewOne [] 0 [] [] :=
  ⟨rfl, rfl, rfl, rfl, (Bool.or_false _).symm, (Bool.or_false _).symm, rfl, rfl, rfl, rfl⟩

/-- The read that the host refuses is the (n+1)-th, of a byte or of the end of the input (`tail`). -/
theorem cutAt_read {s : State} {c m n : Nat} {tail : List Access} (hn : n < c ∨ n = c ∧ tail = [Access.endOfInput]) (hm : n < m)
    (he : s.eof = false) (hl : n ≤ s.inBytes.length) (hg : Granted s n) (hr : refusesAt s n = true)
    (hc : s.incnt.toNat + n < 2 ^ 64) :
    ∃ t, inReadUpTo m [] s = .failed t ∧
      CutAt s (List.replicate c Access.byteIn ++ tail) [] [] n 0 0 s.blk (.raised .ioInput t.incnt.toNat t) := by
  refine ⟨_, inReadUpTo_refused hm he hl hg hr hc, ?_⟩
  have htake : (List.replicate c Access.byteIn ++ tail).take n = List.replicate n Access.byteIn := by
    rw [List.take_append_of_le_length (by rw [List.length_replicate]; omega), List.take_replicate, Nat.min_eq_left (by omega)]
  have htried : ((List.replicate c Access.byteIn ++ tail).take (n + 1)).count Access.sampleByte = 0 := by
    refine List.count_eq_zero.2 fun h => ?_
    rcases List.mem_append.1 (List.mem_of_mem_take h) with h | h
    · cases (List.mem_replicate.1 h).2
    · rcases hn with hn | ⟨-, rfl⟩
      · rw [List.take_append_of_le_length (by rw [List.length_replicate]; omega)] at *
        cases (List.mem_replicate.1 (List.mem_of_mem_take ‹_›)).2
      · cases List.mem_singleton.1 h
  have htally : Tally s (if n = 0 then s else s.taken (s.inBytes.take n)).drewOne (List.replicate n Access.byteIn) 0 [] [] := by
    by_cases h0 : n = 0
    · subst h0; exact tally_drewOne s
    · have hlen : (s.inBytes.take n).length = n := by rw [List.length_take]; omega
      have h := tally_taken (s := s) (bytes := s.inBytes.take n) (by rw [hlen]; exact hc)
      rw [hlen] at h
      rw [if_neg h0]
      exact ⟨h.out, h.outcnt, h.sbytes, h.incnt, h.samples, h.eof, h.input, h.pol, h.closed, h.fault⟩
  have hblk : (if n = 0 then s else s.taken (s.inBytes.take n)).drewOne.blkcnt = s.blkcnt + BitVec.ofNat 16 0 := by
    split <;> exact (BitVec.add_zero _).symm
  have hcut : Cut s (if n = 0 then s else s.taken (s.inBytes.take n)).drewOne (List.replicate c Access.byteIn ++ tail) [] [] n 0 0 s.blk :=
    ⟨Nat.zero_le _, by rw [Nat.add_zero, htake, htried]; exact htally, hblk, by split <;> rfl⟩
  rcases hn with hn | ⟨rfl, rfl⟩
  · refine ⟨Access.byteIn, _, ?_, rfl, hcut⟩
    rw [List.getElem?_append_left (by rw [List.length_replicate]; exact hn), List.getElem?_replicate, if_pos hn]
  · exact ⟨Access.endOfInput, _, by simp, rfl, hcut⟩

/-- The end of the input, met where more bytes are wanted: they are all read first. -/
theorem cutAt_end {s : State} {m : Nat} (hm : s.inBytes.length < m) (he : s.eof = false) (hg : Granted s (s.inBytes.length + 1))
    (hc : s.incnt.toNat + s.inBytes.length < 2 ^ 64) :
    ∃ bytes t, inReadUpTo m [] s = .short bytes t ∧
      CutAt s (List.replicate s.inBytes.length Access.byteIn ++ [Access.endOfInput]) [] [] s.inBytes.length 1 0 s.blk
        (.raised .ioInput t.incnt.toNat t) := by
  refine ⟨_, _, inReadUpTo_short he hm hg hc, Access.endOfInput, _, by simp, rfl, Nat.le_refl _, ?_, ?_, by split <;> rfl⟩
  · have hall : (List.replicate s.inBytes.length Access.byteIn ++ [Access.endOfInput]).take (s.inBytes.length + 1)
        = List.replicate s.inBytes.length Access.byteIn ++ [Access.endOfInput] :=
      List.take_of_length_le (by rw [List.length_append, List.length_replicate]; exact Nat.le_refl _)
    have hnone : (List.replicate s.inBytes.length Access.byteIn ++ [Access.endOfInput]).count Access.sampleByte = 0 := by
      rw [List.count_append, List.count_replicate, if_neg (by decide)]; rfl
    rw [hall, hnone]
    by_cases h0 : s.inBytes = []
    · rw [if_pos h0, h0]; exact tally_endOfInput s
    · rw [if_neg h0]
      have hcnt := count_byteIn s.inBytes.length
      have h := Tally.trans (k := 0) (v := []) (p := []) (by rw [hcnt]; exact tally_taken hc) (written_byteIn _).symm hcnt.symm
        (tally_endOfInput (s.taken s.inBytes))
      rw [hcnt] at h
      exact h
  · split <;> exact (BitVec.add_zero _).symm

/-- A refused sample byte of a block just assembled. -/
theorem StopsAt.cutAt {s : State} {payload wave : List Byte} {pols : List Bool} {k : Nat} {r : Ran}
    (h : StopsAt (setBlock payload s) wave pols k r) (hk : k < wave.length) (ho : s.outcnt.toNat + k < 2 ^ 64)
    (hs : s.sbytes.toNat + k < 2 ^ 64) :
    CutAt s (List.replicate wave.length Access.sampleByte) wave pols k 0 0 (cellsFrom 0 payload) r := by
  obtain ⟨p, hp, rfl⟩ := h
  have hl : (wave.take k).length = k := by rw [List.length_take]; omega
  have htake : ∀ m, m ≤ wave.length → (List.replicate wave.length Access.sampleByte).take m = List.replicate m Access.sampleByte :=
    fun m hm => by rw [List.take_replicate, Nat.min_eq_left hm]
  have hout : ((setBlock payload s).emitted (wave.take k) p).drewOne.outcnt.toNat = s.outcnt.toNat + k := by
    show (s.outcnt + BitVec.ofNat 64 (wave.take k).length).toNat = _
    rw [hl, counter_toNat ho]
  refine ⟨Access.sampleByte, ((setBlock payload s).emitted (wave.take k) p).drewOne, by rw [List.getElem?_replicate, if_pos hk], ?_, Nat.zero_le _, ?_,
    (BitVec.add_zero _).symm, rfl⟩
  · show Ran.raised .ioOutput _ _ = Ran.raised .ioOutput ((setBlock payload s).emitted (wave.take k) p).drewOne.outcnt.toNat _
    rw [hout]; rfl
  · rw [Nat.add_zero, htake k (by omega), htake (k + 1) hk]
    refine ⟨?_, ?_, ?_, ?_, ?_, ?_, ?_, ?_, rfl, rfl⟩
    · show (wave.take k).reverse ++ s.outRev = _
      rw [written_sampleByte]
    · rw [hout, written_sampleByte]
    · show (s.sbytes + BitVec.ofNat 64 (wave.take k).length).toNat = _
      rw [hl, counter_toNat hs, List.count_replicate_self]
    · show s.incnt.toNat = _
      rw [List.count_replicate, if_neg (by decide), Nat.add_zero]
    · show (s.samples || !(wave.take k).isEmpty) = _
      rw [List.count_replicate_self, not_isEmpty_eq, hl]
    · show s.eof = _
      simp
    · show s.inBytes = _
      rw [List.count_replicate, if_neg (by decide), List.drop_zero]
    · rw [List.count_replicate_self, List.getElem?_cons_succ]; exact hp

/-! ### Data blocks -/

/-- What sending samples needs of the state, apart from the host's answers. -/
structure Sendable (s : State) (n : Nat) : Prop where
  opened : s.closed = false
  outcnt_fits : s.outcnt.toNat + n < 2 ^ 64
  sbytes_fits : s.sbytes.toNat + n < 2 ^ 64
  half_le : s.half.toNat ≤ 128
  hi : s.hiBuf = Vector.replicate 128 s.highValue
  lo : s.loBuf = Vector.replicate 128 s.lowValue

theorem Sendable.emittable {s : State} {n m : Nat} (h : Sendable s n) (hm : m ≤ n) (hg : Granted s m) : Emittable s m :=
  ⟨h.opened, hg, by have := h.outcnt_fits; omega, by have := h.sbytes_fits; omega, h.half_le, h.hi, h.lo⟩

theorem Sendable.chunkSent {s : State} {chunk : List Byte} {n : Nat} (hb : chunk.length ≤ 253)
    (h : Sendable s (blockByteCount s + n)) : Sendable (s.chunkSent chunk) n where
  opened := by rw [chunkSent_closed]; exact h.opened
  outcnt_fits := by
    have := h.outcnt_fits
    rw [chunkSent_outcnt hb, counter_toNat (by omega)]; omega
  sbytes_fits := by
    have := h.sbytes_fits
    rw [chunkSent_sbytes hb, counter_toNat (by omega)]; omega
  half_le := by rw [chunkSent_half]; exact h.half_le
  hi := by rw [chunkSent_hiBuf, chunkSent_highValue]; exact h.hi
  lo := by rw [chunkSent_loBuf, chunkSent_lowValue]; exact h.lo

theorem chunkSent_blk (s : State) (c : List Byte) : (s.chunkSent c).blk = cellsFrom 0 (dataBlock s.blkcnt c) := by
  rw [chunkSent_eq, State.blockPort]

/-- P for each sample byte of one data block. -/
def State.chunkPols (s : State) (c : List Byte) : List Bool :=
  polarities s s.pol (bitStream (framedBytes s.cfg (dataBlock s.blkcnt c)))

theorem length_chunkPols {s : State} {chunk : List Byte} (hb : chunk.length ≤ 253) :
    (s.chunkPols chunk).length = blockByteCount s := by
  rw [State.chunkPols, length_polarities, ← length_bitsWave s s.pol, ← State.chunkWave, length_chunkWave hb]

theorem bit_pos {s : State} (h : 0 < blockByteCount s) : 0 < bitByteCount s := by
  rw [blockByteCount, byteByteCount] at h
  exact Nat.pos_of_mul_pos_left (Nat.pos_of_mul_pos_left h)

/-- The accesses of a block, counted. -/
theorem count_blockAccesses (s : State) (c : Nat) :
    (s.blockAccesses c).count Access.sampleByte = blockByteCount s ∧ (s.blockAccesses c).count Access.byteIn = c ∧
    (s.blockAccesses c).contains Access.endOfInput = false ∧ written (s.blockAccesses c) = blockByteCount s := by
  refine ⟨?_, ?_, ?_, ?_⟩
  · rw [State.blockAccesses, List.count_append, List.count_replicate_self, List.count_replicate, if_neg (by decide), Nat.zero_add]
  · rw [State.blockAccesses, List.count_append, List.count_replicate_self, List.count_replicate, if_neg (by decide), Nat.add_zero]
  · simp [State.blockAccesses]
  · rw [State.blockAccesses, written_append, written_byteIn, written_sampleByte, Nat.zero_add]

theorem tally_chunkSent {s : State} {chunk : List Byte} (hb : chunk.length ≤ 253) (hB : 0 < blockByteCount s)
    (h : Sendable s (blockByteCount s)) (hc : s.incnt.toNat + chunk.length < 2 ^ 64) :
    Tally s (s.chunkSent chunk) (s.blockAccesses chunk.length) ((s.blockAccesses chunk.length).count Access.sampleByte) (s.chunkWave chunk)
      (s.chunkPols chunk) := by
  have hl := length_chunkWave (s := s) hb
  have ho := h.outcnt_fits
  have hs := h.sbytes_fits
  obtain ⟨h1, h2, h3, h4⟩ := count_blockAccesses s chunk.length
  refine ⟨?_, ?_, ?_, ?_, ?_, ?_, ?_, ?_, chunkSent_closed s chunk, chunkSent_fault s chunk⟩
  · rw [h4, ← hl, List.take_length, chunkSent_eq]
    rfl
  · rw [chunkSent_outcnt hb, counter_toNat ho, h4]
  · rw [chunkSent_sbytes hb, counter_toNat hs, h1]
  · rw [chunkSent_incnt, counter_toNat hc, h2]
  · rw [chunkSent_eq, State.blockPort, h1, not_isEmpty_eq, hl]
  · rw [chunkSent_eof, h3, Bool.or_false]
  · rw [State.inBytes, chunkSent_inPort, Option.getD_some, h2]
  · rw [h1, chunkSent_pol, ← polarities_end (bit_pos hB), ← length_bitsWave s s.pol, ← State.chunkWave, hl]
    rfl

theorem chunkWave_congr {s t : State} (h1 : t.half = s.half) (h2 : t.highValue = s.highValue) (h3 : t.lowValue = s.lowValue)
    (h4 : t.width = s.width) (h5 : t.container = s.container) (h6 : t.cfg = s.cfg) (h7 : t.pol = s.pol) (h8 : t.blkcnt = s.blkcnt)
    (c : List Byte) : t.chunkWave c = s.chunkWave c := by
  rw [State.chunkWave, State.chunkWave, bitsWave_congr h1 h2 h3 h4 h5 h6, h6, h7, h8]

theorem blockByteCount_congr {s t : State} (h1 : t.half = s.half) (h2 : t.width = s.width) : blockByteCount t = blockByteCount s := by
  simp only [blockByteCount, byteByteCount, bitByteCount, frameSize, h1, h2]

theorem blockByteCount_taken (s : State) (bytes : List Byte) : blockByteCount (s.taken bytes) = blockByteCount s :=
  blockByteCount_congr rfl rfl

theorem blockByteCount_endOfInput (s : State) : blockByteCount s.endOfInput = blockByteCount s := blockByteCount_congr rfl rfl

theorem chunkPols_congr {s t : State} (h1 : t.half = s.half) (h2 : t.width = s.width) (h3 : t.cfg = s.cfg) (h4 : t.pol = s.pol)
    (h5 : t.blkcnt = s.blkcnt) (c : List Byte) : t.chunkPols c = s.chunkPols c := by
  rw [State.chunkPols, State.chunkPols, polarities_congr h1 h2, h3, h4, h5]

theorem chunkPols_taken (s : State) (bytes c : List Byte) : (s.taken bytes).chunkPols c = s.chunkPols c :=
  chunkPols_congr (s := s) (t := s.taken bytes) rfl rfl rfl rfl rfl c

theorem chunkPols_endOfInput (s : State) (c : List Byte) : s.endOfInput.chunkPols c = s.chunkPols c :=
  chunkPols_congr (s := s) (t := s.endOfInput) rfl rfl rfl rfl rfl c

theorem chunkWave_taken (s : State) (bytes c : List Byte) : (s.taken bytes).chunkWave c = s.chunkWave c :=
  chunkWave_congr (s := s) (t := s.taken bytes) rfl rfl rfl rfl rfl rfl rfl rfl c

theorem chunkWave_endOfInput (s : State) (c : List Byte) : s.endOfInput.chunkWave c = s.chunkWave c :=
  chunkWave_congr (s := s) (t := s.endOfInput) rfl rfl rfl rfl rfl rfl rfl rfl c

/-- A data block cut in its samples. -/
theorem cutAt_samples {u : State} {chunk : List Byte} {k : Nat} (hb : chunk.length ≤ 253) (h : Stopping u k)
    (hk : k < blockByteCount u) :
    CutAt u (List.replicate (blockByteCount u) Access.sampleByte) (u.chunkWave chunk) (u.chunkPols chunk) k 0 0
      (cellsFrom 0 (dataBlock u.blkcnt chunk)) (sendDataBlock chunk u) := by
  have hl := length_chunkWave (s := u) hb
  have hcut := sendDataBlock_refused hb h hk
  rw [← State.chunkWave, ← State.chunkPols] at hcut
  rw [← hl] at hk ⊢
  generalize u.chunkWave chunk = wave at *
  exact hcut.cutAt hk h.emittable.outcnt_fits h.emittable.sbytes_fits

/-- Reads before a piece that is cut: they bring out nothing. -/
theorem CutAt.afterReads {s u : State} {reads acc : List Access} {wave : List Byte} {pols : List Bool} {n k : Nat} {blk : Memory}
    {r : Ran} (hc : Tally s u reads 0 [] []) (hz : written reads = 0) (hs : reads.count Access.sampleByte = 0) (hb : u.blkcnt = s.blkcnt)
    (hn : n = reads.length + k) (h : CutAt u acc wave pols k 0 0 blk r) : CutAt s (reads ++ acc) wave pols n 0 0 blk r := by
  subst hn
  have := CutAt.right (s := s) (t := u) (as := reads) (v := []) (p := []) (n := reads.length + k) (k := 0) (q := 0) (bs := acc)
    (w := wave) (r := r) (by rw [hs]; exact hc) hz.symm hs.symm (by rw [hb]; exact (BitVec.add_zero _).symm) (Nat.le_add_right _ _)
    (by rw [Nat.add_sub_cancel_left]; exact h)
  exact this

/-- A data block, its bytes read, cut in its samples. -/
theorem cutAt_block {s : State} {chunk : List Byte} {k : Nat} (hb : chunk.length ≤ 253) (h : Sendable s (blockByteCount s))
    (hc : s.incnt.toNat + chunk.length < 2 ^ 64) (hk : k < blockByteCount s) (hg : Granted s (chunk.length + k))
    (hr : refusesAt s (chunk.length + k) = true) :
    CutAt s (s.blockAccesses chunk.length) (s.chunkWave chunk) (s.chunkPols chunk) (chunk.length + k) 0 0
      (cellsFrom 0 (dataBlock s.blkcnt chunk)) (sendDataBlock chunk (s.taken chunk)) := by
  have hem : Emittable s k := h.emittable (by omega) (granted_of_le hg (by omega))
  have hcut := cutAt_samples hb (Stopping.taken hem hg hr) (by rw [blockByteCount_taken]; exact hk)
  rw [chunkWave_taken, chunkPols_taken, blockByteCount_taken, taken_blkcnt] at hcut
  exact hcut.afterReads (tally_taken hc) (written_byteIn _) (count_byteIn _) rfl (by rw [List.length_replicate])

theorem Stopping.endOfInput {s : State} {k : Nat} (he : Emittable s k) (hg : Granted s (1 + k)) (hr : refusesAt s (1 + k) = true) :
    Stopping s.endOfInput k :=
  ⟨⟨he.opened, granted_drop (n := 1) (by rw [List.drop_one]; rfl) rfl hg, he.outcnt_fits, he.sbytes_fits, he.half_le, he.hi, he.lo⟩,
    by rw [refusesAt_drop (n := 1) (s := s) (by rw [List.drop_one]; rfl) rfl]; exact hr⟩

/-- The last block of STREAMING mode, its bytes read and the end of the input met, cut in its samples. -/
theorem cutAt_lastBlock {s : State} {chunk : List Byte} {k : Nat} (hb : chunk.length ≤ 253) (h : Sendable s (blockByteCount s))
    (hc : s.incnt.toNat + chunk.length < 2 ^ 64) (hk : k < blockByteCount s) (hg : Granted s (chunk.length + (1 + k)))
    (hr : refusesAt s (chunk.length + (1 + k)) = true) :
    CutAt s (List.replicate chunk.length Access.byteIn ++ ([Access.endOfInput] ++ List.replicate (blockByteCount s) Access.sampleByte))
      (s.chunkWave chunk) (s.chunkPols chunk) (chunk.length + (1 + k)) 0 0 (cellsFrom 0 (dataBlock s.blkcnt chunk))
      (sendDataBlock chunk (s.taken chunk).endOfInput) := by
  have hem : Emittable s k := h.emittable (by omega) (granted_of_le hg (by omega))
  have hgt : Granted (s.taken chunk) (1 + k) := granted_drop (n := chunk.length) rfl rfl hg
  have hrt : refusesAt (s.taken chunk) (1 + k) = true := by
    rw [refusesAt_drop (n := chunk.length) (s := s) rfl rfl]; exact hr
  have het : Emittable (s.taken chunk) k :=
    ⟨hem.opened, granted_of_le hgt (by omega), hem.outcnt_fits, hem.sbytes_fits, hem.half_le, hem.hi, hem.lo⟩
  have hsize : blockByteCount (s.taken chunk).endOfInput = blockByteCount s := by
    rw [blockByteCount_endOfInput, blockByteCount_taken]
  have hcut := cutAt_samples hb (Stopping.endOfInput het hgt hrt) (by rw [hsize]; exact hk)
  rw [chunkWave_endOfInput, chunkWave_taken, chunkPols_endOfInput, chunkPols_taken, hsize,
    show (s.taken chunk).endOfInput.blkcnt = s.blkcnt from rfl] at hcut
  have hcut2 := hcut.afterReads (n := 1 + k) (tally_endOfInput (s.taken chunk)) rfl rfl rfl rfl
  exact hcut2.afterReads (tally_taken hc) (written_byteIn _) (count_byteIn _) rfl (by rw [List.length_replicate])

/-! ### The loops of TXREST (R146) -/

theorem restAccesses_full {s : State} {left : Nat} (h : 253 ≤ left) :
    s.restAccesses left = s.blockAccesses 253 ++ s.restAccesses (left - 253) := by
  have h1 : left / 253 = (left - 253) / 253 + 1 := by omega
  have h2 : left % 253 = (left - 253) % 253 := by omega
  simp only [State.restAccesses, h1, h2, List.replicate_succ, List.flatten_cons, List.append_assoc]

theorem restAccesses_short {s : State} {left : Nat} (h : left < 253) :
    s.restAccesses left = List.replicate left Access.byteIn ++ (if isBuffered s then [] else [Access.endOfInput])
      ++ if left = 0 then [] else List.replicate (blockByteCount s) Access.sampleByte := by
  rw [State.restAccesses, Nat.div_eq_of_lt h, Nat.mod_eq_of_lt h]; rfl

theorem restAccesses_buffered {s : State} {left : Nat} (hm : isBuffered s = true) (h : 0 < left) :
    s.restAccesses left = s.blockAccesses (min 253 left) ++ s.restAccesses (left - min 253 left) := by
  by_cases hl : 253 ≤ left
  · rw [Nat.min_eq_left hl, restAccesses_full hl]
  · rw [Nat.min_eq_right (by omega), Nat.sub_self, restAccesses_short (by omega), restAccesses_short (by omega), if_pos hm,
      if_neg (by omega), if_pos rfl, State.blockAccesses]
    simp

theorem restAccesses_congr {s t : State} (h1 : t.half = s.half) (h2 : t.width = s.width) (h3 : t.inputMode = s.inputMode)
    (left : Nat) : t.restAccesses left = s.restAccesses left := by
  have hm : isBuffered t = isBuffered s := by rw [isBuffered, isBuffered, h3]
  simp only [State.restAccesses, State.blockAccesses, blockByteCount_congr h1 h2, hm]

theorem restAccesses_chunkSent (s : State) (c : List Byte) (left : Nat) :
    (s.chunkSent c).restAccesses left = s.restAccesses left :=
  restAccesses_congr (chunkSent_half s c) (chunkSent_width s c) (chunkSent_inputMode s c) left

/-- The samples of the data blocks that carry these chunks. -/
def State.chunksWave (s : State) (cs : List (List Byte)) : List Byte :=
  bitsWave s s.pol (bitStream (framedChunks s.cfg s.blkcnt cs))

theorem chunksWave_nil (s : State) : s.chunksWave [] = [] := rfl

theorem chunksWave_cons (s : State) (c : List Byte) (cs : List (List Byte)) :
    s.chunksWave (c :: cs) = s.chunkWave c ++ (s.chunkSent c).chunksWave cs := by
  rw [State.chunksWave, framedChunks, bitStream_append, bitsWave_append, State.chunkWave, State.chunksWave, bitsWave_chunkSent,
    chunkSent_pol, chunkSent_cfg, chunkSent_blkcnt]

/-- P for each sample byte of the data blocks that carry these chunks. -/
def State.chunksPols (s : State) (cs : List (List Byte)) : List Bool :=
  polarities s s.pol (bitStream (framedChunks s.cfg s.blkcnt cs))

theorem chunksPols_cons (s : State) (c : List Byte) (cs : List (List Byte)) :
    s.chunksPols (c :: cs) = s.chunkPols c ++ (s.chunkSent c).chunksPols cs := by
  rw [State.chunksPols, framedChunks, bitStream_append, polarities_append, State.chunkPols, State.chunksPols,
    polarities_congr (t := s.chunkSent c) (s := s) (chunkSent_half s c) (chunkSent_width s c), chunkSent_pol, chunkSent_cfg,
    chunkSent_blkcnt]

/-- How many data blocks these accesses have begun to send: BLK holds the last one's payload. -/
def blocksBegun (s : State) (tried : List Access) : Nat := ceilDiv (tried.count Access.sampleByte) (blockByteCount s)

theorem blocksBegun_none {s : State} {tried : List Access} (h : tried.count Access.sampleByte = 0) : blocksBegun s tried = 0 := by
  simp only [blocksBegun, ceilDiv, h]
  rcases Nat.eq_zero_or_pos (blockByteCount s) with h0 | h0
  · rw [h0]
  · exact Nat.div_eq_of_lt (by omega)

theorem blocksBegun_chunkSent (s : State) (c : List Byte) (tried : List Access) :
    blocksBegun (s.chunkSent c) tried = blocksBegun s tried := by
  rw [blocksBegun, blocksBegun, blockByteCount_congr (chunkSent_half s c) (chunkSent_width s c)]

theorem blocksBegun_take (s : State) (c k : Nat) (as : List Access) (hk : k < blockByteCount s) :
    blocksBegun s ((s.blockAccesses c ++ as).take (c + k + 1)) = 1 := by
  have hl : (List.replicate c Access.byteIn).length = c := List.length_replicate
  have hcount : ((s.blockAccesses c ++ as).take (c + k + 1)).count Access.sampleByte = k + 1 := by
    rw [State.blockAccesses, List.append_assoc, Nat.add_assoc, List.take_append, hl, Nat.add_sub_cancel_left,
      List.take_of_length_le (by rw [hl]; exact Nat.le_add_right c _),
      List.take_append_of_le_length (by rw [List.length_replicate]; exact hk), List.take_replicate, Nat.min_eq_left hk,
      List.count_append, count_byteIn, List.count_replicate_self, Nat.zero_add]
  simp only [blocksBegun, ceilDiv, hcount]
  rw [show k + 1 + blockByteCount s - 1 = k + blockByteCount s by omega, Nat.add_div_right _ (by omega), Nat.div_eq_of_lt hk]

theorem blocksBegun_block (s : State) (c n : Nat) (as : List Access) (hB : 0 < blockByteCount s) (hn : c + blockByteCount s ≤ n) :
    blocksBegun s ((s.blockAccesses c ++ as).take (n + 1)) = blocksBegun s (as.take (n - (c + blockByteCount s) + 1)) + 1 := by
  have hl : (s.blockAccesses c).length = c + blockByteCount s := by simp [State.blockAccesses]
  rw [blocksBegun, List.take_append, List.take_of_length_le (by rw [hl]; omega), hl, List.count_append, (count_blockAccesses s c).1,
    Nat.sub_add_comm hn, blocksBegun]
  generalize (as.take (n - (c + blockByteCount s) + 1)).count Access.sampleByte = m
  simp only [ceilDiv]
  rw [show blockByteCount s + m + blockByteCount s - 1 = m + blockByteCount s - 1 + blockByteCount s by omega, Nat.add_div_right _ hB]

/-- How many data blocks these accesses have sent whole. -/
def blocksIn (s : State) (made : List Access) : Nat := made.count Access.sampleByte / blockByteCount s

theorem blocksIn_chunkSent (s : State) (c : List Byte) (made : List Access) : blocksIn (s.chunkSent c) made = blocksIn s made := by
  rw [blocksIn, blocksIn, blockByteCount_congr (chunkSent_half s c) (chunkSent_width s c)]

theorem count_block_take (s : State) (c k : Nat) (as : List Access) (hk : k < blockByteCount s) :
    blocksIn s ((s.blockAccesses c ++ as).take (c + k)) = 0 := by
  have hl : (List.replicate c Access.byteIn).length = c := List.length_replicate
  rw [blocksIn, State.blockAccesses, List.append_assoc, List.take_append, hl, Nat.add_sub_cancel_left,
    List.take_of_length_le (by rw [hl]; exact Nat.le_add_right c k), List.take_append_of_le_length (by rw [List.length_replicate]; omega),
    List.take_replicate, Nat.min_eq_left (by omega), List.count_append, List.count_replicate, List.count_replicate_self,
    if_neg (by decide), Nat.zero_add, Nat.div_eq_of_lt hk]

theorem length_blockAccesses (s : State) (c : Nat) : (s.blockAccesses c).length = c + blockByteCount s := by
  simp [State.blockAccesses]

theorem blocksIn_block (s : State) (c n : Nat) (as : List Access) (hB : 0 < blockByteCount s) (hn : c + blockByteCount s ≤ n) :
    blocksIn s ((s.blockAccesses c ++ as).take n) = 1 + blocksIn s (as.take (n - (c + blockByteCount s))) := by
  have hl := length_blockAccesses s c
  rw [blocksIn, List.take_append, List.take_of_length_le (by rw [hl]; exact hn), hl, List.count_append]
  have hcount : (s.blockAccesses c).count Access.sampleByte = blockByteCount s := by
    rw [State.blockAccesses, List.count_append, List.count_replicate, List.count_replicate_self, if_neg (by decide), Nat.zero_add]
  rw [hcount, Nat.add_div_left _ hB, blocksIn, Nat.add_comm]

/-- A command that sends `cs` by the accesses `acc`, ended at the (n+1)-th of them. -/
def CutIn (s : State) (acc : List Access) (cs : List (List Byte)) (n d : Nat) (r : Ran) : Prop :=
  CutAt s acc (s.chunksWave cs) (s.chunksPols cs) n d (blocksIn s (acc.take n))
    (lastBlock s.blk s.blkcnt (cs.take (blocksBegun s (acc.take (n + 1))))) r

/-- Cut among the reads before the first block. -/
theorem CutAt.inReads {s : State} {as bs : List Access} {cs : List (List Byte)} {n d : Nat} {r : Ran}
    (h : CutAt s as [] [] n d 0 s.blk r) (hn : n < as.length) (hw : written as = 0) (hs : as.count Access.sampleByte = 0) :
    CutIn s (as ++ bs) cs n d r := by
  have hnone : ∀ m, m ≤ as.length → ((as ++ bs).take m).count Access.sampleByte = 0 := fun m hm => by
    rw [List.take_append_of_le_length hm]
    exact Nat.le_zero.1 (hs ▸ List.Sublist.count_le _ (List.take_sublist m as))
  rw [CutIn, blocksIn, hnone n (by omega), Nat.zero_div, blocksBegun_none (hnone (n + 1) hn), List.take_zero, lastBlock]
  exact h.ofReads hn hw _ _

/-- A data block is read, sent, and followed by more; the refusal falls among its samples or after them. -/
theorem cutAt_block_then {s : State} {chunk : List Byte} {cs : List (List Byte)} {rest : Nat} {acc : List Access} {n d : Nat}
    {f : State → Ran} (hb : chunk.length ≤ 253) (hB : 0 < blockByteCount s) (h : Sendable s (blockByteCount s + rest))
    (hc : s.incnt.toNat + chunk.length < 2 ^ 64) (hg : Granted s n) (hn : chunk.length ≤ n)
    (hr : n < chunk.length + blockByteCount s → d = 0 ∧ refusesAt s n = true)
    (hf : chunk.length + blockByteCount s ≤ n →
      CutIn (s.chunkSent chunk) acc cs (n - (chunk.length + blockByteCount s)) d (f (s.chunkSent chunk))) :
    CutIn s (s.blockAccesses chunk.length ++ acc) (chunk :: cs) n d ((sendDataBlock chunk (s.taken chunk)).andThen f) := by
  have hS : Sendable s (blockByteCount s) :=
    ⟨h.opened, by have := h.outcnt_fits; omega, by have := h.sbytes_fits; omega, h.half_le, h.hi, h.lo⟩
  obtain ⟨hw1, -, -, hw4⟩ := count_blockAccesses s chunk.length
  have hw : (s.chunkWave chunk).length = written (s.blockAccesses chunk.length) := (length_chunkWave hb).trans hw4.symm
  have hp : (s.chunkPols chunk).length = (s.blockAccesses chunk.length).count Access.sampleByte := (length_chunkPols hb).trans hw1.symm
  have hacc := length_blockAccesses s chunk.length
  rw [CutIn, chunksWave_cons, chunksPols_cons]
  by_cases hlt : n < chunk.length + blockByteCount s
  · obtain ⟨k, rfl⟩ : ∃ k, n = chunk.length + k := ⟨n - chunk.length, by omega⟩
    have hk : k < blockByteCount s := by omega
    obtain ⟨rfl, href⟩ := hr hlt
    rw [count_block_take s chunk.length k acc hk, blocksBegun_take s chunk.length k acc hk]
    exact (cutAt_block hb hS hc hk hg href).left (by rw [hacc]; omega) hw
  · have hle : chunk.length + blockByteCount s ≤ n := by omega
    rw [sendDataBlock_taken hb (granted_of_le hg hle) (hS.emittable (Nat.le_refl _) (granted_of_le hg (by omega))), done_andThen,
      blocksIn_block s chunk.length n acc hB hle, blocksBegun_block s chunk.length n acc hB hle, List.take_succ_cons, lastBlock]
    have hf' := hf hle
    rw [CutIn, blocksIn_chunkSent, blocksBegun_chunkSent, chunkSent_blkcnt, chunkSent_blk] at hf'
    exact CutAt.right (tally_chunkSent hb hB hS hc) hw hp (chunkSent_blkcnt s chunk) (by rw [hacc]; exact hle) (by rw [hacc]; exact hf')

/-- What a round of TXREST leaves to the rest of it: `c` bytes and a block further, `n` accesses before the one that ends it. -/
structure RoundSent (s t : State) (c rest n d : Nat) : Prop where
  sent : t = s.chunkSent (s.inBytes.take c)
  input : t.inBytes = s.inBytes.drop c
  eof : t.eof = false
  buffered : isBuffered t = isBuffered s
  incnt : t.incnt.toNat = s.incnt.toNat + c
  size : blockByteCount t = blockByteCount s
  sendable : Sendable t rest
  granted : Granted t (n - (c + blockByteCount s) + d)
  refuses : refusesAt t (n - (c + blockByteCount s)) = refusesAt s n

/-- A round of TXREST: its reads and its block, then the rest; `r` is what the round answers. -/
theorem cutIn_round {s : State} {c rest n d : Nat} {acc : List Access} {cs : List (List Byte)} {r : Ran} {f : State → Ran}
    (hpos : 0 < c) (h253 : c ≤ 253) (hl : c ≤ s.inBytes.length) (he : s.eof = false) (hc : s.incnt.toNat + c < 2 ^ 64)
    (hB : 0 < blockByteCount s) (h : Sendable s (blockByteCount s + rest)) (hg : Granted s (n + d))
    (hr : n < c + blockByteCount s → d = 0 ∧ refusesAt s n = true)
    (hfail : ∀ t, inReadUpTo c [] s = .failed t → r = .raised .ioInput t.incnt.toNat t)
    (hfull : ∀ bytes t, inReadUpTo c [] s = .full bytes t → r = (sendDataBlock bytes t).andThen f)
    (hnext : ∀ t, c + blockByteCount s ≤ n → RoundSent s t c rest n d → CutIn t acc cs (n - (c + blockByteCount s)) d (f t)) :
    CutIn s (s.blockAccesses c ++ acc) (s.inBytes.take c :: cs) n d r := by
  have hlen : (s.inBytes.take c).length = c := by rw [List.length_take]; omega
  by_cases hlt : n < c
  · obtain ⟨rfl, href⟩ := hr (by omega)
    obtain ⟨t, ht, hcut⟩ := cutAt_read (s := s) (c := c) (m := c) (tail := []) (.inl hlt) hlt he (by omega) (granted_of_le hg (by omega))
      href (by omega)
    rw [List.append_nil] at hcut
    rw [hfail t ht, State.blockAccesses, List.append_assoc]
    exact hcut.inReads (by rw [List.length_replicate]; exact hlt) (written_byteIn _) (count_byteIn _)
  · rw [hfull _ _ (inReadUpTo_full hpos he hl (granted_of_le hg (by omega)) hc), List.reverse_nil, List.nil_append]
    have hstep := cutAt_block_then (d := d) (f := f) (acc := acc) (cs := cs) (chunk := s.inBytes.take c) (by rw [hlen]; exact h253) hB h
      (by rw [hlen]; exact hc) (granted_of_le hg (Nat.le_add_right _ _)) (by rw [hlen]; omega) (by rw [hlen]; exact hr)
      fun hle => by
        rw [hlen] at hle ⊢
        have hport : (s.chunkSent (s.inBytes.take c)).hostRefuses = s.hostRefuses.drop (c + blockByteCount s) ∧
            (s.chunkSent (s.inBytes.take c)).drawn = s.drawn + (c + blockByteCount s) := by
          rw [chunkSent_eq, length_chunkWave (by rw [hlen]; exact h253), hlen]; exact ⟨rfl, rfl⟩
        exact hnext _ hle
          { sent := rfl
            input := by rw [chunkSent_inBytes, hlen]
            eof := (chunkSent_eof ..).trans he
            buffered := by rw [isBuffered, chunkSent_inputMode, isBuffered]
            incnt := by rw [chunkSent_incnt, hlen, counter_toNat hc]
            size := chunkSent_blockByteCount s _
            sendable := Sendable.chunkSent (by rw [hlen]; exact h253) h
            granted := granted_drop hport.1 hport.2 (by rw [← Nat.add_assoc, Nat.add_sub_cancel' hle]; exact hg)
            refuses := by rw [refusesAt_drop hport.1 hport.2, Nat.add_sub_cancel' hle] }
    rw [hlen] at hstep
    exact hstep

/-- The chunks of an input of more than 253 bytes. -/
theorem chunksOf_full {bytes : List Byte} (h : 253 ≤ bytes.length) :
    chunksOf (ceilDiv bytes.length dataChunk) bytes =
      bytes.take 253 :: chunksOf (ceilDiv (bytes.drop 253).length dataChunk) (bytes.drop 253) := by
  have hne : bytes ≠ [] := by rintro rfl; simp at h
  rw [List.length_drop, show ceilDiv bytes.length dataChunk = ceilDiv (bytes.length - 253) dataChunk + 1 by
    simp only [ceilDiv, dataChunk]; omega, chunksOf_cons hne]

/-- The BUFFERED loop that the host cuts short. -/
theorem sendBuffered_refused {blocks rem n : Nat} {s : State} (hbl : blocks = ceilDiv rem dataChunk) (hm : isBuffered s = true)
    (he : s.eof = false) (hl : rem ≤ s.inBytes.length) (hc : s.incnt.toNat + rem < 2 ^ 64) (hB : 0 < blockByteCount s)
    (h : Sendable s (blocks * blockByteCount s)) (hn : n < (s.restAccesses rem).length) (hg : Granted s n)
    (hr : refusesAt s n = true) :
    CutIn s (s.restAccesses rem) (chunksOf blocks (s.inBytes.take rem)) n 0 (sendBuffered blocks rem s) := by
  induction blocks generalizing rem n s with
  | zero =>
    simp only [ceilDiv, dataChunk] at hbl
    have h0 : rem = 0 := by omega
    subst h0
    rw [restAccesses_short (by omega), if_pos hm] at hn
    simp at hn
  | succ k ih =>
    simp only [ceilDiv, dataChunk] at hbl
    have hrem : 0 < rem := by omega
    have hchunk : chunksOf (k + 1) (s.inBytes.take rem) = s.inBytes.take (min 253 rem) ::
        chunksOf k ((s.inBytes.drop (min 253 rem)).take (rem - min 253 rem)) := by
      rw [chunksOf_cons (by intro h0; have := congrArg List.length h0; rw [List.length_take, List.length_nil] at this; omega)]
      by_cases h253 : 253 ≤ rem
      · rw [Nat.min_eq_left h253, List.take_take, Nat.min_eq_left h253, List.drop_take]
      · have hmr : min 253 rem = rem := Nat.min_eq_right (by omega)
        rw [hmr, List.take_of_length_le (by rw [List.length_take]; omega), List.drop_of_length_le (by rw [List.length_take]; omega),
          Nat.sub_self, List.take_zero]
    rw [restAccesses_buffered hm hrem, List.length_append, length_blockAccesses] at hn
    rw [show (k + 1) * blockByteCount s = blockByteCount s + k * blockByteCount s by ring] at h
    rw [hchunk, restAccesses_buffered hm hrem, sendBuffered, show min dataChunk rem = min 253 rem from rfl]
    refine cutIn_round (by omega) (Nat.min_le_left _ _) (by omega) he (by omega) hB h hg (fun _ => ⟨rfl, hr⟩) (fun t ht => by rw [ht])
      (fun bytes t ht => by rw [ht]) fun t hle ht => ?_
    have hra : t.restAccesses (rem - min 253 rem) = s.restAccesses (rem - min 253 rem) := by rw [ht.sent, restAccesses_chunkSent]
    rw [← ht.input, ← hra]
    exact ih (by simp only [ceilDiv, dataChunk]; omega) (ht.buffered.trans hm) ht.eof (by rw [ht.input, List.length_drop]; omega)
      (by rw [ht.incnt]; omega) (by rw [ht.size]; exact hB) (by rw [ht.size]; exact ht.sendable) (by rw [hra]; omega) ht.granted
      (ht.refuses.trans hr)

theorem shortAccesses_full {s : State} {there : Nat} (h : 253 ≤ there) :
    s.shortAccesses there = s.blockAccesses 253 ++ s.shortAccesses (there - 253) := by
  have h1 : there / 253 = (there - 253) / 253 + 1 := by omega
  have h2 : there % 253 = (there - 253) % 253 := by omega
  simp only [State.shortAccesses, h1, h2, List.replicate_succ, List.flatten_cons, List.append_assoc]

theorem shortAccesses_less {s : State} {there : Nat} (h : there < 253) :
    s.shortAccesses there = List.replicate there Access.byteIn ++ [Access.endOfInput] := by
  rw [State.shortAccesses, Nat.div_eq_of_lt h, Nat.mod_eq_of_lt h]; rfl

theorem shortAccesses_chunkSent (s : State) (c : List Byte) (there : Nat) :
    (s.chunkSent c).shortAccesses there = s.shortAccesses there := by
  simp only [State.shortAccesses, State.blockAccesses, blockByteCount_congr (chunkSent_half s c) (chunkSent_width s c)]

/-- The BUFFERED loop over an input that ends too early: cut short by the host, or by the end of the input (R146). -/
theorem sendBuffered_ended {blocks rem n d : Nat} {s : State} (hbl : blocks = ceilDiv rem dataChunk) (he : s.eof = false)
    (hl : s.inBytes.length < rem) (hc : s.incnt.toNat + s.inBytes.length < 2 ^ 64) (hB : 0 < blockByteCount s)
    (h : Sendable s (s.inBytes.length / 253 * blockByteCount s)) (hn : n < (s.shortAccesses s.inBytes.length).length)
    (hg : Granted s (n + d))
    (hr : d = 0 ∧ refusesAt s n = true ∨ d = 1 ∧ n + 1 = (s.shortAccesses s.inBytes.length).length) :
    CutIn s (s.shortAccesses s.inBytes.length) (chunksOf (ceilDiv s.inBytes.length dataChunk) s.inBytes) n d
      (sendBuffered blocks rem s) := by
  induction blocks generalizing rem n s with
  | zero => simp only [ceilDiv, dataChunk] at hbl; omega
  | succ k ih =>
    simp only [ceilDiv, dataChunk] at hbl
    by_cases hlt : s.inBytes.length < 253
    · rw [shortAccesses_less hlt] at hn hr ⊢
      have hcut : CutAt s (List.replicate s.inBytes.length Access.byteIn ++ [Access.endOfInput]) [] [] n d 0 s.blk
          (sendBuffered (k + 1) rem s) := by
        rw [List.length_append, List.length_replicate, List.length_singleton] at hn hr
        rw [sendBuffered]
        rcases hr with ⟨rfl, hr⟩ | ⟨rfl, hr⟩
        · obtain ⟨t, ht, hcut⟩ := cutAt_read (s := s) (c := s.inBytes.length) (n := n) (m := min dataChunk rem) (tail := [Access.endOfInput])
            ((Nat.lt_or_eq_of_le (by omega)).imp id fun h => ⟨h, rfl⟩) (by simp only [dataChunk]; omega) he (by omega)
            (granted_of_le hg (by omega)) hr (by omega)
          rw [ht]; exact hcut
        · obtain rfl : n = s.inBytes.length := by omega
          obtain ⟨bytes, t, ht, hcut⟩ := cutAt_end (s := s) (m := min dataChunk rem) (by simp only [dataChunk]; omega) he hg hc
          rw [ht]; exact hcut
      have := hcut.inReads (bs := []) (cs := chunksOf (ceilDiv s.inBytes.length dataChunk) s.inBytes) hn
        (by rw [written_append, written_byteIn]; rfl) (by rw [List.count_append, count_byteIn]; rfl)
      rwa [List.append_nil] at this
    · have hacc := shortAccesses_full (s := s) (there := s.inBytes.length) (by omega)
      have hshort : 0 < (s.shortAccesses (s.inBytes.length - 253)).length := by
        simp only [State.shortAccesses, List.length_append, List.length_singleton]; omega
      rw [hacc, List.length_append, length_blockAccesses] at hn hr
      rw [show s.inBytes.length / 253 = (s.inBytes.length - 253) / 253 + 1 by omega,
        show ((s.inBytes.length - 253) / 253 + 1) * blockByteCount s =
          blockByteCount s + (s.inBytes.length - 253) / 253 * blockByteCount s by ring] at h
      rw [hacc, chunksOf_full (by omega), sendBuffered, show min dataChunk rem = 253 from Nat.min_eq_left (by simp only [dataChunk]; omega)]
      refine cutIn_round (by omega) (Nat.le_refl _) (by omega) he (by omega) hB h hg (fun hlt => hr.resolve_right (by omega))
        (fun t ht => by rw [ht]) (fun bytes t ht => by rw [ht]) fun t hle ht => ?_
      have hin : t.inBytes.length = s.inBytes.length - 253 := by rw [ht.input, List.length_drop]
      have hsa : t.shortAccesses t.inBytes.length = s.shortAccesses (s.inBytes.length - 253) := by
        rw [hin, ht.sent, shortAccesses_chunkSent]
      rw [← ht.input, ← hsa]
      exact ih (by simp only [ceilDiv, dataChunk]; omega) ht.eof (by omega) (by rw [ht.incnt]; omega) (by rw [ht.size]; exact hB)
        (by rw [ht.size, hin]; exact ht.sendable) (by rw [hsa]; omega) ht.granted
        (by rw [hsa]; exact hr.imp (fun hr => ⟨hr.1, ht.refuses.trans hr.2⟩) (fun hr => ⟨hr.1, by omega⟩))

/-- The last round of STREAMING mode, with fewer than 253 bytes left, that the host cuts short. -/
theorem sendStreaming_last_refused {rounds n : Nat} {s : State} (hm : isBuffered s = false) (he : s.eof = false)
    (hl : s.inBytes.length < 253) (hc : s.incnt.toNat + s.inBytes.length < 2 ^ 64)
    (h : Sendable s (ceilDiv s.inBytes.length dataChunk * blockByteCount s)) (hn : n < (s.restAccesses s.inBytes.length).length)
    (hg : Granted s n) (hr : refusesAt s n = true) :
    CutIn s (s.restAccesses s.inBytes.length) (chunksOf (ceilDiv s.inBytes.length dataChunk) s.inBytes) n 0
      (sendStreaming (rounds + 1) s) := by
  rw [restAccesses_short hl, if_neg (by rw [hm]; exact Bool.false_ne_true)] at hn ⊢
  by_cases hle : n ≤ s.inBytes.length
  · obtain ⟨t, ht, hcut⟩ := cutAt_read (s := s) (c := s.inBytes.length) (n := n) (m := 253) (tail := [Access.endOfInput])
      ((Nat.lt_or_eq_of_le hle).imp id fun h => ⟨h, rfl⟩)
      (by omega) he hle hg hr (by omega)
    rw [sendStreaming, dataChunk, ht]
    exact hcut.inReads (by rw [List.length_append, List.length_replicate, List.length_singleton]; omega)
      (by rw [written_append, written_byteIn]; rfl) (by rw [List.count_append, count_byteIn]; rfl)
  · by_cases h0 : s.inBytes.length = 0
    · rw [if_pos h0, h0] at hn
      simp only [List.replicate_zero, List.nil_append, List.append_nil, List.length_singleton] at hn
      omega
    · rw [if_neg h0] at hn ⊢
      obtain ⟨k, rfl⟩ : ∃ k, n = s.inBytes.length + (1 + k) := ⟨n - s.inBytes.length - 1, by omega⟩
      simp only [List.length_append, List.length_replicate, List.length_singleton] at hn
      have hk : k < blockByteCount s := by omega
      have hne : s.inBytes ≠ [] := by intro hnil; rw [hnil] at h0; exact h0 rfl
      have hone : ceilDiv s.inBytes.length dataChunk = 1 := by simp only [ceilDiv, dataChunk]; omega
      rw [hone, Nat.one_mul] at h
      have hz : blocksIn s ((List.replicate s.inBytes.length Access.byteIn ++ [Access.endOfInput] ++
          List.replicate (blockByteCount s) Access.sampleByte).take (s.inBytes.length + (1 + k))) = 0 := by
        have hlen : (List.replicate s.inBytes.length Access.byteIn ++ [Access.endOfInput]).length = s.inBytes.length + 1 := by simp
        rw [blocksIn, ← Nat.add_assoc, List.take_append, hlen, Nat.add_sub_cancel_left,
          List.take_of_length_le (by rw [hlen]; exact Nat.le_add_right _ _), List.take_replicate, Nat.min_eq_left (by omega),
          List.count_append, List.count_append, List.count_replicate, List.count_replicate_self, if_neg (by decide)]
        exact Nat.div_eq_of_lt (by rw [show [Access.endOfInput].count Access.sampleByte = 0 from rfl]; omega)
      have hb : blocksBegun s ((List.replicate s.inBytes.length Access.byteIn ++ [Access.endOfInput] ++
          List.replicate (blockByteCount s) Access.sampleByte).take (s.inBytes.length + (1 + k) + 1)) = 1 := by
        have hlen : (List.replicate s.inBytes.length Access.byteIn ++ [Access.endOfInput]).length = s.inBytes.length + 1 := by simp
        have hcount : ((List.replicate s.inBytes.length Access.byteIn ++ [Access.endOfInput] ++
            List.replicate (blockByteCount s) Access.sampleByte).take (s.inBytes.length + 1 + (k + 1))).count Access.sampleByte = k + 1 := by
          rw [List.take_append, hlen, Nat.add_sub_cancel_left, List.take_of_length_le (by rw [hlen]; exact Nat.le_add_right _ _),
            List.take_replicate, Nat.min_eq_left hk, List.count_append, List.count_append, count_byteIn, List.count_replicate_self]
          simp
        rw [show s.inBytes.length + (1 + k) + 1 = s.inBytes.length + 1 + (k + 1) by omega, blocksBegun, hcount, ceilDiv,
          show k + 1 + blockByteCount s - 1 = k + blockByteCount s by omega, Nat.add_div_right _ (by omega), Nat.div_eq_of_lt hk]
      have hpols : s.chunksPols [s.inBytes] = s.chunkPols s.inBytes := by
        rw [chunksPols_cons]; exact List.append_nil _
      rw [CutIn, hz, hb, hone, chunksOf_cons hne, List.take_of_length_le (l := s.inBytes) (by omega), List.drop_of_length_le (by omega),
        chunksOf_nil, hpols, chunksWave_cons, chunksWave_nil, List.append_nil, List.append_assoc, sendStreaming,
        inReadUpTo_short (n := dataChunk) he (by simp only [dataChunk]; omega) (granted_of_le hg (by omega)) hc]
      simp only [if_neg hne, List.reverse_nil, List.nil_append]
      exact cutAt_lastBlock (by omega) h hc hk hg hr

/-- The STREAMING loop that the host cuts short. -/
theorem sendStreaming_refused {rounds n : Nat} {s : State} (hrd : rounds = s.inBytes.length / dataChunk + 1)
    (hm : isBuffered s = false) (he : s.eof = false) (hc : s.incnt.toNat + s.inBytes.length < 2 ^ 64) (hB : 0 < blockByteCount s)
    (h : Sendable s (ceilDiv s.inBytes.length dataChunk * blockByteCount s)) (hn : n < (s.restAccesses s.inBytes.length).length)
    (hg : Granted s n) (hr : refusesAt s n = true) :
    CutIn s (s.restAccesses s.inBytes.length) (chunksOf (ceilDiv s.inBytes.length dataChunk) s.inBytes) n 0
      (sendStreaming rounds s) := by
  induction rounds generalizing n s with
  | zero => exact absurd hrd.symm (Nat.succ_ne_zero _)
  | succ r ih =>
    by_cases hlt : s.inBytes.length < 253
    · exact sendStreaming_last_refused hm he hlt hc h hn hg hr
    · simp only [dataChunk] at hrd
      have hacc := restAccesses_full (s := s) (left := s.inBytes.length) (by omega)
      rw [hacc, List.length_append, length_blockAccesses] at hn
      rw [show ceilDiv s.inBytes.length dataChunk = ceilDiv (s.inBytes.length - 253) dataChunk + 1 by
          simp only [ceilDiv, dataChunk]; omega,
        show (ceilDiv (s.inBytes.length - 253) dataChunk + 1) * blockByteCount s =
          blockByteCount s + ceilDiv (s.inBytes.length - 253) dataChunk * blockByteCount s by ring] at h
      rw [hacc, chunksOf_full (by omega), sendStreaming, dataChunk]
      refine cutIn_round (by omega) (Nat.le_refl _) (by omega) he (by omega) hB h hg (fun _ => ⟨rfl, hr⟩) (fun t ht => by rw [ht])
        (fun bytes t ht => by rw [ht]) fun t hle ht => ?_
      have hin : t.inBytes.length = s.inBytes.length - 253 := by rw [ht.input, List.length_drop]
      have hra : t.restAccesses t.inBytes.length = s.restAccesses (s.inBytes.length - 253) := by
        rw [hin, ht.sent, restAccesses_chunkSent]
      rw [← ht.input, ← hra]
      exact ih (by rw [hin]; simp only [dataChunk]; omega) (ht.buffered.trans hm) ht.eof (by rw [ht.incnt]; omega)
        (by rw [ht.size]; exact hB) (by rw [ht.size, hin]; exact ht.sendable) (by rw [hra]; omega) ht.granted (ht.refuses.trans hr)

/-! ### How many accesses of each kind TXREST makes -/

theorem headerByte_restAccesses (s : State) (left n : Nat) : ((s.restAccesses left).take n).count Access.headerByte = 0 := by
  apply List.count_eq_zero.2
  intro h
  have hm := List.mem_of_mem_take h
  simp only [State.restAccesses, State.blockAccesses, List.mem_append, List.mem_flatten, List.mem_replicate] at hm
  rcases hm with ⟨_, ⟨-, rfl⟩, h⟩ | (⟨-, h⟩ | h) | h
  · rcases List.mem_append.1 h with h | h <;> cases (List.mem_replicate.1 h).2
  · cases h
  · split at h
    · cases h
    · cases List.mem_singleton.1 h
  · split at h
    · cases h
    · cases (List.mem_replicate.1 h).2

theorem count_restAccesses (s : State) (left : Nat) :
    (s.restAccesses left).count Access.sampleByte = ceilDiv left dataChunk * blockByteCount s ∧
    (s.restAccesses left).count Access.byteIn = left ∧
    (s.restAccesses left).length = left + ceilDiv left dataChunk * blockByteCount s + (if isBuffered s then 0 else 1) := by
  simp only [ceilDiv, dataChunk]
  induction left using Nat.strongRecOn with
  | ind left ih =>
    by_cases h : 253 ≤ left
    · obtain ⟨h1, h2, h3⟩ := ih (left - 253) (by omega)
      have e : (left + 253 - 1) / 253 = (left - 253 + 253 - 1) / 253 + 1 := by omega
      have em : ∀ k b : Nat, (k + 1) * b = b + k * b := fun k b => by ring
      rw [restAccesses_full h]
      simp only [List.count_append, List.length_append, h1, h2, h3, State.blockAccesses, List.count_replicate, List.length_replicate, e, em]
      exact ⟨by simp, by simp; omega, by omega⟩
    · rw [restAccesses_short (by omega)]
      by_cases h0 : left = 0
      · subst h0
        rw [if_pos rfl]
        cases isBuffered s <;> simp
      · have e : (left + 253 - 1) / 253 = 1 := by omega
        rw [if_neg h0, e, Nat.one_mul]
        cases isBuffered s <;> simp [List.count_replicate]; omega

/-- The end of the input is met in STREAMING mode alone. -/
theorem contains_restAccesses (s : State) (left : Nat) : (s.restAccesses left).contains Access.endOfInput = !isBuffered s := by
  have hfull : ((List.replicate (left / 253) (s.blockAccesses 253)).flatten).contains Access.endOfInput = false := by
    rw [Bool.eq_false_iff]
    intro h
    obtain ⟨l, hl, h⟩ := List.mem_flatten.1 (List.contains_iff_mem.1 h)
    have := (count_blockAccesses s 253).2.2.1
    rw [(List.mem_replicate.1 hl).2] at h
    rw [List.contains_iff_mem.2 h] at this
    cases this
  rw [State.restAccesses, List.contains_append, List.contains_append, List.contains_append, hfull]
  cases isBuffered s <;> by_cases h0 : left % 253 = 0 <;> simp [h0]

theorem headerByte_not_mem_shortAccesses (s : State) (there : Nat) : Access.headerByte ∉ s.shortAccesses there := by
  intro h
  simp only [State.shortAccesses, State.blockAccesses, List.mem_append, List.mem_flatten, List.mem_replicate] at h
  rcases h with ⟨_, ⟨-, rfl⟩, h⟩ | ⟨-, h⟩ | h
  · rcases List.mem_append.1 h with h | h <;> cases (List.mem_replicate.1 h).2
  · cases h
  · cases List.mem_singleton.1 h

theorem shortAccesses_last (s : State) (there : Nat) :
    (s.shortAccesses there)[(s.shortAccesses there).length - 1]? = some Access.endOfInput := by
  rw [State.shortAccesses, ← List.append_assoc]
  simp

/-- The end of the input counts as no other access. -/
theorem take_ended {acc : List Access} {n d : Nat} {a : Access} (ha : acc[n]? = some a) (hd : d = 0 ∨ d = 1 ∧ a = Access.endOfInput) :
    (∀ b, b ≠ Access.endOfInput → (acc.take (n + d)).count b = (acc.take n).count b) ∧
    (acc.take (n + d)).contains Access.endOfInput = ((acc.take n).contains Access.endOfInput || decide (d = 1)) := by
  rcases hd with rfl | ⟨rfl, rfl⟩
  · exact ⟨fun _ _ => rfl, by simp⟩
  · rw [List.take_add_one, ha]
    refine ⟨fun b hb => ?_, by rw [List.contains_append]; rfl⟩
    have hnone : (some Access.endOfInput).toList.count b = 0 := List.count_eq_zero.2 (by simpa using hb)
    rw [List.count_append, hnone, Nat.add_zero]

/-! ### The accesses of RUN around its data blocks (44_driver.md R185) -/

/-- A refused header byte. -/
theorem cutAt_header {s : State} {bytes : List Byte} {n : Nat} (ho : s.closed = false) (hn : n < bytes.length) (hg : Granted s n)
    (hr : refusesAt s n = true) (hc : s.outcnt.toNat + n < 2 ^ 64) :
    CutAt s (List.replicate bytes.length Access.headerByte) bytes [] n 0 0 s.blk (outWriteAll bytes s) := by
  have hl : (bytes.take n).length = n := by rw [List.length_take]; omega
  have htake : ∀ m, m ≤ bytes.length → (List.replicate bytes.length Access.headerByte).take m = List.replicate m Access.headerByte :=
    fun m hm => by rw [List.take_replicate, Nat.min_eq_left hm]
  have hnone : ∀ m b, b ≠ Access.headerByte → (List.replicate m Access.headerByte).count b = 0 := fun m b hb => by
    rw [List.count_replicate, if_neg (by simpa using hb.symm)]
  have hout : (s.written (bytes.take n)).drewOne.outcnt.toNat = s.outcnt.toNat + n := by
    show (s.outcnt + BitVec.ofNat 64 (bytes.take n).length).toNat = _
    rw [hl, counter_toNat hc]
  rw [outWriteAll_refused ho hn hg hr hc]
  refine ⟨Access.headerByte, (s.written (bytes.take n)).drewOne, by rw [List.getElem?_replicate, if_pos hn], ?_, Nat.zero_le _, ?_,
    (BitVec.add_zero _).symm, rfl⟩
  · rw [Access.value, hout]; rfl
  · rw [Nat.add_zero, htake n (by omega), htake (n + 1) hn, hnone _ _ (by decide)]
    refine ⟨?_, ?_, ?_, ?_, ?_, ?_, ?_, rfl, rfl, rfl⟩
    · show (bytes.take n).reverse ++ s.outRev = _
      rw [written_headerByte]
    · rw [hout, written_headerByte]
    · rw [hnone _ _ (by decide)]; rfl
    · rw [hnone _ _ (by decide)]; rfl
    · rw [hnone _ _ (by decide)]; exact (Bool.or_false _).symm
    · show s.eof = _; simp
    · rw [hnone _ _ (by decide)]; rfl

/-- A refused flush, the length checked. -/
theorem cutAt_flush {s : State} (hc : s.closed = false) (hd : s.declared = true → s.sbytes.toNat = s.declBytes.toNat)
    (hr : refusesAt s 0 = true) : CutAt s [Access.flush] [] [] 0 0 0 s.blk (closeBody s) := by
  refine ⟨Access.flush, s.drewOne, rfl, ?_, Nat.zero_le _, tally_drewOne s, (BitVec.add_zero _).symm, rfl⟩
  rw [closeBody, if_neg (by rw [hc]; exact Bool.false_ne_true),
    if_neg (by rintro ⟨h1, h2⟩; exact h2 (hd h1)), refusesNext_eq, hr]
  rfl

end Sys2Proof.Machine
end

