-- ==== Sys2Proof/Laws/Bytes.lean ====
section
/-! SUPPORT. The bytes of a value, the fields of a command word, and the way a fault is recorded, in the forms the claims use. -/

namespace Sys2Proof.Machine

/-! ### Bytes of a value (40_codec.md R116) -/

theorem byteAt_toNat {w : Nat} (v : BitVec w) (i : Nat) : byteAt v.toNat i = v.extractLsb' (8 * i) 8 := by
  apply BitVec.eq_of_toNat_eq
  simp [byteAt, BitVec.extractLsb'_toNat]

theorem put16Bytes_little (v : U16) : put16Bytes v.toNat .little = le16 v := by
  simp [put16Bytes, bytesOf, le16, byteAt_toNat, List.range_succ]

theorem put16Bytes_big (v : U16) : put16Bytes v.toNat .big = be16 v := by
  simp [put16Bytes, bytesOf, be16, byteAt_toNat, List.range_succ]

theorem put32Bytes_little (v : U32) : put32Bytes v.toNat .little = le32 v := by
  simp [put32Bytes, bytesOf, le32, byteAt_toNat, List.range_succ]

theorem put32Bytes_big (v : U32) : put32Bytes v.toNat .big = be32 v := by
  simp [put32Bytes, bytesOf, be32, byteAt_toNat, List.range_succ]

theorem putTagBytes_eq (t : U32) : putTagBytes t.toNat = be32 t := put32Bytes_big t

/-- Only the low bits of a number reach its bytes. -/
theorem byteAt_mod {n i k : Nat} (h : 8 * (i + 1) ≤ k) : byteAt (n % 2 ^ k) i = byteAt n i := by
  apply BitVec.eq_of_getLsbD_eq
  intro j hj
  simp only [byteAt, BitVec.getLsbD_ofNat, Nat.testBit_shiftRight, Nat.testBit_mod_two_pow, hj, decide_true, Bool.true_and]
  rw [decide_eq_true (by omega), Bool.true_and]

theorem bytesOf_mod {n k v : Nat} (o : Endian) (h : 8 * n ≤ k) : bytesOf n o (v % 2 ^ k) = bytesOf n o v := by
  have hmap : (List.range n).map (byteAt (v % 2 ^ k)) = (List.range n).map (byteAt v) := by
    refine List.map_congr_left (fun i hi => byteAt_mod ?_)
    have := List.mem_range.1 hi
    omega
  cases o <;> simp only [bytesOf, hmap]

/-- A number in a 32-bit field. -/
theorem put32Bytes_ofNat_little (n : Nat) : put32Bytes n .little = le32 (BitVec.ofNat 32 n) := by
  rw [← put32Bytes_little, BitVec.toNat_ofNat, put32Bytes, put32Bytes, bytesOf_mod _ (by omega)]

theorem put32Bytes_ofNat_big (n : Nat) : put32Bytes n .big = be32 (BitVec.ofNat 32 n) := by
  rw [← put32Bytes_big, BitVec.toNat_ofNat, put32Bytes, put32Bytes, bytesOf_mod _ (by omega)]

theorem put16Bytes_ofNat_little (n : Nat) : put16Bytes n .little = le16 (BitVec.ofNat 16 n) := by
  rw [← put16Bytes_little, BitVec.toNat_ofNat, put16Bytes, put16Bytes, bytesOf_mod _ (by omega)]

/-! ### Fields of a command word (30_encoding.md R70) -/

theorem fieldOpc_commandWord (o l : Byte) (r : U16) (m : U32) : fieldOpc (commandWord o l r m) = o := by
  apply BitVec.eq_of_getLsbD_eq
  intro i hi
  have h1 : ¬ (56 + i < 32) := by omega
  have h2 : ¬ (56 + i - 32 < 16) := by omega
  have h3 : ¬ (56 + i - 32 - 16 < 8) := by omega
  simp only [fieldOpc, commandWord, BitVec.getLsbD_extractLsb', BitVec.getLsbD_append, hi, decide_true, Bool.true_and, h1, h2, h3,
    if_false]
  congr 1
  omega

theorem fieldSel_commandWord (o l : Byte) (r : U16) (m : U32) : fieldSel (commandWord o l r m) = l := by
  apply BitVec.eq_of_getLsbD_eq
  intro i hi
  have h1 : ¬ (48 + i < 32) := by omega
  have h2 : ¬ (48 + i - 32 < 16) := by omega
  have h3 : 48 + i - 32 - 16 < 8 := by omega
  simp only [fieldSel, commandWord, BitVec.getLsbD_extractLsb', BitVec.getLsbD_append, hi, decide_true, Bool.true_and, h1, h2, h3,
    if_false, if_true]
  congr 1
  omega

theorem fieldRsv_commandWord (o l : Byte) (r : U16) (m : U32) : fieldRsv (commandWord o l r m) = r := by
  apply BitVec.eq_of_getLsbD_eq
  intro i hi
  have h1 : ¬ (32 + i < 32) := by omega
  have h2 : 32 + i - 32 < 16 := by omega
  simp only [fieldRsv, commandWord, BitVec.getLsbD_extractLsb', BitVec.getLsbD_append, hi, decide_true, Bool.true_and, h1, h2,
    if_false, if_true]
  congr 1
  omega

theorem fieldImm_commandWord (o l : Byte) (r : U16) (m : U32) : fieldImm (commandWord o l r m) = m := by
  apply BitVec.eq_of_getLsbD_eq
  intro i hi
  have h1 : 0 + i < 32 := by omega
  simp only [fieldImm, commandWord, BitVec.getLsbD_extractLsb', BitVec.getLsbD_append, hi, decide_true, Bool.true_and, h1, if_true]
  congr 1
  omega

/-- A word is its four fields. -/
theorem commandWord_fields (w : U64) : commandWord (fieldOpc w) (fieldSel w) (fieldRsv w) (fieldImm w) = w := by
  apply BitVec.eq_of_getLsbD_eq
  intro i hi
  simp only [fieldOpc, fieldSel, fieldRsv, fieldImm, commandWord, BitVec.getLsbD_extractLsb', BitVec.getLsbD_append]
  split
  · rename_i h; simp [h]
  · split
    · rename_i h1 h2; simp only [h2, decide_true, Bool.true_and]; congr 1; omega
    · split
      · rename_i h1 h2 h3; simp only [h3, decide_true, Bool.true_and]; congr 1; omega
      · rename_i h1 h2 h3
        rw [decide_eq_true (by omega), Bool.true_and]; congr 1; omega

/-! ### Fault entry (60_exceptions.md R204) -/

theorem faultInfoWord_eq (opc sel : Byte) : faultInfoWord opc sel = BitVec.ofNat 32 (256 * sel.toNat + opc.toNat) := by
  apply BitVec.eq_of_toNat_eq
  have h1 := opc.isLt
  have h2 := sel.isLt
  simp only [faultInfoWord, BitVec.toNat_setWidth, BitVec.toNat_append, BitVec.toNat_ofNat]
  rw [← Nat.shiftLeft_add_eq_or_of_lt h1, Nat.shiftLeft_eq]
  congr 1
  omega

theorem codeWord_eq {c : FaultCode} {n : Nat} (h : (c, n) ∈ codeNumbers) : codeWord c = BitVec.ofNat 32 n := by
  have all : codeNumbers.all (fun p => codeWord p.1 == BitVec.ofNat 32 p.2) = true := by decide
  exact eq_of_beq (List.all_eq_true.1 all (c, n) h)

theorem takeFault_eq {c : FaultCode} {n : Nat} {opc sel : Byte} {v : Nat} {s : State} (h : (c, n) ∈ codeNumbers)
    (hs : s.fault = false) : takeFault c opc sel v s = s.faulted n opc sel v := by
  unfold takeFault State.faulted
  rw [if_neg (by simp [hs]), codeWord_eq h, faultInfoWord_eq]

/-! ### A command outside the fault state -/

theorem runCommand_done {opc sel : Byte} {body : State → Ran} {s t : State} (hs : s.fault = false) (h : body s = .done t) :
    runCommand opc sel body s = .next t := by
  unfold runCommand
  rw [h, if_neg (by simp [hs])]; rfl

theorem runCommand_raised {opc sel : Byte} {body : State → Ran} {s t : State} {c : FaultCode} {n v : Nat}
    (hs : s.fault = false) (h : body s = .raised c v t) (ht : t.fault = false) (hn : (c, n) ∈ codeNumbers) :
    runCommand opc sel body s = .next (t.faulted n opc sel v) := by
  unfold runCommand
  rw [h, if_neg (by simp [hs]), settle, takeFault_eq hn ht]

theorem runCommand_faulted {opc sel : Byte} {body : State → Ran} {s : State} (hs : s.fault = true) :
    runCommand opc sel body s = .next s := by
  unfold runCommand
  rw [if_pos hs]

/-- What a command can leave outside the fault state: the end of its pseudocode, or the fault that ended it. -/
theorem runCommand_cases {opc sel : Byte} {body : State → Ran} {s t : State} (h : runCommand opc sel body s = .next t)
    (hs : s.fault = false) : body s = .done t ∨ ∃ c v u, body s = .raised c v u ∧ t = takeFault c opc sel v u := by
  unfold runCommand at h
  rw [if_neg (by simp [hs])] at h
  have h' : settle opc sel (body s) = t := by simpa using h
  cases hb : body s with
  | done u => rw [hb] at h'; exact .inl (congrArg Ran.done h')
  | raised c v u => rw [hb] at h'; exact .inr ⟨c, v, u, rfl, h'.symm⟩

end Sys2Proof.Machine
end

