-- ==== Sys2Proof/Laws/Relations.lean ====
section
/-! SUPPORT. What the shared operations can do whatever the host answers: which fields they change, how far the counters move, and which faults they raise. -/

namespace Sys2Proof.Machine

/-! ### Both ends of a piece of pseudocode -/

/-- `P` holds where the pseudocode goes on, `Q` (of the code and the state) where a `raise` ends it. -/
def Ran.Sat (P : State → Prop) (Q : FaultCode → State → Prop) : Ran → Prop
  | .done s => P s
  | .raised c _ s => Q c s

theorem sat_done {P : State → Prop} {Q : FaultCode → State → Prop} {s : State} : (Ran.done s).Sat P Q ↔ P s := Iff.rfl

theorem sat_raised {P : State → Prop} {Q : FaultCode → State → Prop} {c : FaultCode} {v : Nat} {s : State} :
    (Ran.raised c v s).Sat P Q ↔ Q c s := Iff.rfl

theorem Ran.Sat.andThen {P P' : State → Prop} {Q Q' : FaultCode → State → Prop} {r : Ran} {f : State → Ran}
    (h : r.Sat P Q) (hf : ∀ s, P s → (f s).Sat P' Q') (hq : ∀ c s, Q c s → Q' c s) : (r.andThen f).Sat P' Q' := by
  cases r with
  | done s => exact hf s h
  | raised c v s => exact hq c s h

theorem Ran.Sat.mono {P P' : State → Prop} {Q Q' : FaultCode → State → Prop} {r : Ran} (h : r.Sat P Q)
    (hp : ∀ s, P s → P' s) (hq : ∀ c s, Q c s → Q' c s) : r.Sat P' Q' := by
  cases r with
  | done s => exact hp s h
  | raised c v s => exact hq c s h

theorem Ran.Sat.and {P P' : State → Prop} {Q Q' : FaultCode → State → Prop} {r : Ran} (h : r.Sat P Q) (h' : r.Sat P' Q') :
    r.Sat (fun s => P s ∧ P' s) (fun c s => Q c s ∧ Q' c s) := by
  cases r with
  | done s => exact ⟨h, h'⟩
  | raised c v s => exact ⟨h, h'⟩

/-! ### Output (20_memory.md R53) -/

/-- A 64-bit counter that was `c` is `c'` after `n` more bytes, unless it wrapped (10_state.md R28). -/
def Counts (c c' : U64) (n : Nat) : Prop := c.toNat + n < 2 ^ 64 → c'.toNat = c.toNat + n

theorem Counts.zero (c : U64) : Counts c c 0 := fun _ => rfl

theorem Counts.trans {c c' c'' : U64} {n m : Nat} (h : Counts c c' n) (h' : Counts c' c'' m) : Counts c c'' (n + m) := by
  intro hf
  have h1 := h (by omega)
  have h2 := h' (by omega)
  omega

/-- `t` is `s` after some bytes have gone to the output port, none of them a sample. -/
structure Writes (s t : State) : Prop where
  frame : t = { s with hostRefuses := t.hostRefuses, drawn := t.drawn, outRev := t.outRev, outcnt := t.outcnt }
  appended : ∃ bs, t.outRev = bs ++ s.outRev ∧ Counts s.outcnt t.outcnt bs.length

theorem Writes.refl (s : State) : Writes s s := ⟨rfl, [], rfl, .zero _⟩

theorem Writes.trans {s t u : State} (h : Writes s t) (h' : Writes t u) : Writes s u := by
  obtain ⟨bs, hb, hn⟩ := h.appended
  obtain ⟨cs, hc, hm⟩ := h'.appended
  refine ⟨?_, cs ++ bs, by rw [hc, hb, List.append_assoc], ?_⟩
  · have := h'.frame
    rw [h.frame] at this
    exact this
  · rw [List.length_append, Nat.add_comm]; exact hn.trans hm

theorem writes_drewOne (s : State) : Writes s s.drewOne := ⟨rfl, [], rfl, .zero _⟩

theorem writes_accepted (s : State) (b : Byte) : Writes s (s.accepted b) := ⟨rfl, [b], rfl, fun h => countUp_toNat h⟩

/-- The faults of the output port: IO_OUTPUT, or SEQUENCE once the session is closed. -/
def OutputFault (s : State) (c : FaultCode) : Prop := c = .ioOutput ∨ (c = .sequence ∧ s.closed = true)

theorem outWrite_sat (b : Byte) (s : State) :
    (outWrite b s).Sat (fun t => t = s.accepted b) (fun c t => Writes s t ∧ OutputFault s c) := by
  rcases outWrite_cases b s with ⟨hc, h⟩ | ⟨_, _, h⟩ | ⟨_, _, h⟩ <;> rw [h]
  · exact ⟨Writes.refl s, .inr ⟨rfl, hc⟩⟩
  · exact ⟨writes_drewOne s, .inl rfl⟩
  · exact rfl

theorem outWriteAll_sat (bs : List Byte) (s : State) :
    (outWriteAll bs s).Sat (fun t => Writes s t ∧ t.outRev = bs.reverse ++ s.outRev)
      (fun c t => Writes s t ∧ OutputFault s c) := by
  induction bs generalizing s with
  | nil => exact ⟨Writes.refl s, rfl⟩
  | cons b bs ih =>
    refine (outWrite_sat b s).andThen (fun t ht => ?_) (fun c t h => h)
    subst ht
    refine (ih (s.accepted b)).mono (fun u hu => ⟨(writes_accepted s b).trans hu.1, ?_⟩)
      (fun c u hu => ⟨(writes_accepted s b).trans hu.1, hu.2⟩)
    rw [hu.2, accepted_outRev, List.reverse_cons, List.append_assoc]; rfl

/-! ### Samples (41_modulation.md R128 to R131) -/

/-- `t` is `s` after some emission of samples: only the output port, SBYTES, SAMPLES and P may differ. -/
structure Emits (s t : State) : Prop where
  frame : t = s.port t.hostRefuses t.drawn t.outRev t.outcnt t.sbytes t.samples t.pol
  appended : ∃ bs, t.outRev = bs ++ s.outRev ∧ Counts s.outcnt t.outcnt bs.length ∧ Counts s.sbytes t.sbytes bs.length
  sampled : t.samples = false → s.samples = false ∧ t.sbytes = s.sbytes

theorem Emits.refl (s : State) : Emits s s := ⟨rfl, ⟨[], rfl, .zero _, .zero _⟩, fun h => ⟨h, rfl⟩⟩

theorem Emits.trans {s t u : State} (h : Emits s t) (h' : Emits t u) : Emits s u := by
  obtain ⟨bs, hb, hn, hn'⟩ := h.appended
  obtain ⟨cs, hc, hm, hm'⟩ := h'.appended
  refine ⟨?_, ⟨cs ++ bs, by rw [hc, hb, List.append_assoc], ?_, ?_⟩, fun hu => ?_⟩
  · have := h'.frame
    rw [h.frame] at this
    exact this
  · rw [List.length_append, Nat.add_comm]; exact hn.trans hm
  · rw [List.length_append, Nat.add_comm]; exact hn'.trans hm'
  · obtain ⟨h1, h2⟩ := h'.sampled hu
    obtain ⟨h3, h4⟩ := h.sampled h1
    exact ⟨h3, h2.trans h4⟩

theorem emits_drewOne (s : State) : Emits s s.drewOne := ⟨rfl, ⟨[], rfl, .zero _, .zero _⟩, fun h => ⟨h, rfl⟩⟩

theorem emits_counted {s : State} (b : Byte) : Emits s (State.counted s.drawn (s.accepted b)) :=
  ⟨rfl, ⟨[b], rfl, fun h => countUp_toNat h, fun h => countUp_toNat h⟩, fun h => by simp at h⟩

theorem emits_toggle (s : State) : Emits s (togglePolarity s) := ⟨rfl, ⟨[], rfl, .zero _, .zero _⟩, fun h => ⟨h, rfl⟩⟩

/-- The fields an emission does not change. -/
theorem Emits.keeps {s t : State} (h : Emits s t) :
    t.half = s.half ∧ t.width = s.width ∧ t.container = s.container ∧ t.cfg = s.cfg ∧ t.closed = s.closed ∧ t.blk = s.blk ∧
    t.blkcnt = s.blkcnt ∧ t.nameDone = s.nameDone ∧ t.declared = s.declared ∧ t.declBytes = s.declBytes := by
  rw [h.frame]
  exact ⟨rfl, rfl, rfl, rfl, rfl, rfl, rfl, rfl, rfl, rfl⟩

/-- An emission of `n` sample bytes went through. -/
def Emitted (s : State) (n : Nat) (t : State) : Prop := Emits s t ∧ t.outRev.length = s.outRev.length + n

/-- An emission of `n` sample bytes was stopped by the output port. -/
def StoppedEmitting (s : State) (n : Nat) (c : FaultCode) (t : State) : Prop :=
  Emits s t ∧ t.outRev.length ≤ s.outRev.length + n ∧ OutputFault s c

theorem Emitted.refl (s : State) : Emitted s 0 s := ⟨Emits.refl s, rfl⟩

theorem Emitted.trans {s t u : State} {n m : Nat} (h : Emitted s n t) (h' : Emitted t m u) : Emitted s (n + m) u :=
  ⟨h.1.trans h'.1, by rw [h'.2, h.2, Nat.add_assoc]⟩

theorem Emitted.stopped {s t u : State} {n m : Nat} {c : FaultCode} (h : Emitted s n t) (h' : StoppedEmitting t m c u) :
    StoppedEmitting s (n + m) c u := by
  refine ⟨h.1.trans h'.1, by have := h'.2.1; have := h.2; omega, ?_⟩
  have := h'.2.2
  rwa [OutputFault, h.1.keeps.2.2.2.2.1] at this

theorem StoppedEmitting.more {s t : State} {n m : Nat} {c : FaultCode} (h : StoppedEmitting s n c t) (hm : n ≤ m) :
    StoppedEmitting s m c t :=
  ⟨h.1, by have := h.2.1; omega, h.2.2⟩

/-- Two emissions one after the other. -/
theorem emission_andThen {s : State} {n m : Nat} {r : Ran} {f : State → Ran} (h : r.Sat (Emitted s n) (StoppedEmitting s n))
    (hf : ∀ t, Emitted s n t → (f t).Sat (Emitted t m) (StoppedEmitting t m)) :
    (r.andThen f).Sat (Emitted s (n + m)) (StoppedEmitting s (n + m)) :=
  h.andThen (fun t ht => (hf t ht).mono (fun _ hu => ht.trans hu) (fun _ _ hu => ht.stopped hu))
    (fun _ _ hu => hu.more (by omega))

theorem emitSampleBytes_sat (bs : List Byte) (s : State) :
    (emitSampleBytes bs s).Sat (Emitted s bs.length) (StoppedEmitting s bs.length) := by
  induction bs generalizing s with
  | nil => exact Emitted.refl s
  | cons b bs ih =>
    rw [emitSampleBytes]
    rcases outWrite_cases b s with ⟨hc, h⟩ | ⟨_, _, h⟩ | ⟨_, _, h⟩ <;> rw [h]
    · exact ⟨Emits.refl s, Nat.le_add_right _ _, .inr ⟨rfl, hc⟩⟩
    · exact ⟨emits_drewOne s, Nat.le_add_right _ _, .inl rfl⟩
    · have h1 : Emitted s 1 (State.counted s.drawn (s.accepted b)) := ⟨emits_counted b, rfl⟩
      rw [List.length_cons, Nat.add_comm]
      exact (ih _).mono (fun u hu => h1.trans hu) (fun c u hu => h1.stopped hu)

theorem Emits.frameSize {s t : State} (h : Emits s t) : frameSize t = frameSize s := by
  unfold Sys2Proof.Machine.frameSize; rw [h.keeps.2.1]

theorem Emits.bitByteCount {s t : State} (h : Emits s t) : bitByteCount t = bitByteCount s := by
  unfold Sys2Proof.Machine.bitByteCount; rw [h.keeps.1, h.frameSize]

theorem Emits.byteByteCount {s t : State} (h : Emits s t) : byteByteCount t = byteByteCount s := by
  unfold Sys2Proof.Machine.byteByteCount; rw [h.bitByteCount]

theorem Emits.blockByteCount {s t : State} (h : Emits s t) : blockByteCount t = blockByteCount s := by
  unfold Sys2Proof.Machine.blockByteCount; rw [h.byteByteCount]

theorem halfBitFrom_sat (i n : Nat) (s : State) :
    (halfBitFrom i n s).Sat (Emitted s (n * frameSize s)) (StoppedEmitting s (n * frameSize s)) := by
  induction n generalizing i s with
  | zero => simpa [halfBitFrom, sat_done] using Emitted.refl s
  | succ n ih =>
    rw [Nat.succ_mul, Nat.add_comm]
    refine emission_andThen ?_ (fun t ht => ?_)
    · have := emitSampleBytes_sat (sampleBytes (levelAt i s) s.width.toNat (convention s).order) s
      rwa [length_sampleBytes] at this
    · rw [← ht.1.frameSize]; exact ih (i + 1) t

/-- A half-bit run (R129). -/
theorem halfBit_sat (s : State) :
    (halfBit s).Sat (Emitted s (s.half.toNat * frameSize s)) (StoppedEmitting s (s.half.toNat * frameSize s)) :=
  halfBitFrom_sat 0 s.half.toNat s

theorem emitted_toggle (s : State) : Emitted s 0 (togglePolarity s) := ⟨emits_toggle s, rfl⟩

/-- One bit (R130). -/
theorem emitBit_sat (b : Bool) (s : State) :
    (emitBit b s).Sat (Emitted s (bitByteCount s)) (StoppedEmitting s (bitByteCount s)) := by
  have hb : bitByteCount s = 0 + s.half.toNat * frameSize s + s.half.toNat * frameSize s := by
    unfold bitByteCount; ring
  rw [hb]
  refine emission_andThen ((halfBit_sat (togglePolarity s)).mono (fun t ht => (emitted_toggle s).trans ht)
    (fun c t ht => (emitted_toggle s).stopped ht)) (fun t ht => ?_)
  rw [← ht.1.frameSize, show s.half = t.half from ht.1.keeps.1.symm]
  cases b
  · exact halfBit_sat t
  · rw [if_pos rfl, ← Nat.zero_add (t.half.toNat * frameSize t)]
    exact (halfBit_sat (togglePolarity t)).mono (fun u hu => (emitted_toggle t).trans hu)
      (fun c u hu => (emitted_toggle t).stopped hu)

theorem emitBits_sat (bs : List Bool) (s : State) :
    (emitBits bs s).Sat (Emitted s (bs.length * bitByteCount s)) (StoppedEmitting s (bs.length * bitByteCount s)) := by
  induction bs generalizing s with
  | nil => simpa [emitBits, sat_done] using Emitted.refl s
  | cons b bs ih =>
    rw [List.length_cons, Nat.succ_mul, Nat.add_comm]
    refine emission_andThen (emitBit_sat b s) (fun t ht => ?_)
    rw [← ht.1.bitByteCount]; exact ih t

/-- One byte (R131). -/
theorem emitByte_sat (v : Byte) (s : State) :
    (emitByte v s).Sat (Emitted s (byteByteCount s)) (StoppedEmitting s (byteByteCount s)) := by
  have := emitBits_sat (bitsOf v) s
  rwa [length_bitsOf] at this

theorem emitBytes_sat (vs : List Byte) (s : State) :
    (emitBytes vs s).Sat (Emitted s (vs.length * byteByteCount s)) (StoppedEmitting s (vs.length * byteByteCount s)) := by
  induction vs generalizing s with
  | nil => simpa [emitBytes, sat_done] using Emitted.refl s
  | cons v vs ih =>
    rw [List.length_cons, Nat.succ_mul, Nat.add_comm]
    refine emission_andThen (emitByte_sat v s) (fun t ht => ?_)
    rw [← ht.1.byteByteCount]; exact ih t

/-- A framed block (42_framer.md R142). -/
theorem frameBlock_sat (s : State) :
    (frameBlock s).Sat (Emitted s (blockByteCount s)) (StoppedEmitting s (blockByteCount s)) := by
  have := emitBytes_sat (framedBytes s.cfg (blockBytes s.blk)) s
  rwa [length_framedBytes (length_blockBytes _)] at this

/-! ### Input (20_memory.md R51) -/

/-- `t` is `s` after some reads of the input. -/
structure Reads (s t : State) : Prop where
  frame : t = s.inputPort t.hostRefuses t.drawn t.inPort t.incnt t.eof
  eof_kept : s.eof = true → t.eof = true

theorem Reads.refl (s : State) : Reads s s := ⟨rfl, id⟩

theorem Reads.trans {s t u : State} (h : Reads s t) (h' : Reads t u) : Reads s u := by
  refine ⟨?_, fun hs => h'.eof_kept (h.eof_kept hs)⟩
  have := h'.frame
  rw [h.frame] at this
  exact this

/-- What reading up to `n` bytes can do: `P` of the bytes where all are there, `Q` where EOF came first, `R` where the host refused. -/
def ReadAll.Sat (P Q : List Byte → State → Prop) (R : State → Prop) : ReadAll → Prop
  | .full bs s => P bs s
  | .short bs s => Q bs s
  | .failed s => R s

theorem inReadUpTo_sat (n : Nat) (got : List Byte) (s : State) :
    (inReadUpTo n got s).Sat (fun bs t => Reads s t ∧ bs.length = got.length + n)
      (fun bs t => Reads s t ∧ bs.length < got.length + n ∧ t.eof = true) (Reads s) := by
  induction n generalizing got s with
  | zero => exact ⟨Reads.refl s, by simp⟩
  | succ n ih =>
    rw [inReadUpTo]
    rcases inRead_cases s with ⟨he, h⟩ | ⟨-, -, h⟩ | ⟨-, -, -, h⟩ | ⟨b, rest, he, -, -, h⟩ <;> rw [h]
    · exact ⟨Reads.refl s, by simp, he⟩
    · exact ⟨rfl, id⟩
    · exact ⟨⟨rfl, fun _ => rfl⟩, by simp, rfl⟩
    · generalize hu : ({ s.drewOne with inPort := some rest, incnt := countUp s.incnt (Config.wrappedIncnt s.drawn) } : State) = u
      have h1 : Reads s u := by subst hu; exact ⟨rfl, id⟩
      have h2 := ih (b :: got) u
      show (inReadUpTo n (b :: got) u).Sat _ _ _
      generalize inReadUpTo n (b :: got) u = r at h2
      cases r with
      | full bs t => exact ⟨h1.trans h2.1, by rw [h2.2, List.length_cons]; omega⟩
      | short bs t => exact ⟨h1.trans h2.1, by have := h2.2.1; rw [List.length_cons] at this; omega, h2.2.2⟩
      | failed t => exact h1.trans h2

/-! ### Data blocks (42_framer.md R145, R146) -/

/-- `t` is `s` after some data blocks: only the ports, P, SAMPLES, BLK and the counters may differ. -/
structure Sends (s t : State) : Prop where
  frame : t = { s with
    hostRefuses := t.hostRefuses, drawn := t.drawn, outRev := t.outRev, outcnt := t.outcnt, sbytes := t.sbytes,
    samples := t.samples, pol := t.pol, blk := t.blk, blkcnt := t.blkcnt, incnt := t.incnt, inPort := t.inPort, eof := t.eof }
  appended : ∃ bs, t.outRev = bs ++ s.outRev ∧ Counts s.outcnt t.outcnt bs.length ∧ Counts s.sbytes t.sbytes bs.length
  sampled : t.samples = false → s.samples = false ∧ t.sbytes = s.sbytes
  blk_wf : Memory.wf s.blk = true → Memory.wf t.blk = true
  eof_kept : s.eof = true → t.eof = true

theorem Sends.refl (s : State) : Sends s s := ⟨rfl, ⟨[], rfl, .zero _, .zero _⟩, fun h => ⟨h, rfl⟩, id, id⟩

theorem Sends.trans {s t u : State} (h : Sends s t) (h' : Sends t u) : Sends s u := by
  obtain ⟨bs, hb, hn, hn'⟩ := h.appended
  obtain ⟨cs, hc, hm, hm'⟩ := h'.appended
  refine ⟨?_, ⟨cs ++ bs, by rw [hc, hb, List.append_assoc], ?_, ?_⟩, fun hu => ?_, fun hw => h'.blk_wf (h.blk_wf hw),
    fun he => h'.eof_kept (h.eof_kept he)⟩
  · have := h'.frame
    rw [h.frame] at this
    exact this
  · rw [List.length_append, Nat.add_comm]; exact hn.trans hm
  · rw [List.length_append, Nat.add_comm]; exact hn'.trans hm'
  · obtain ⟨h1, h2⟩ := h'.sampled hu
    obtain ⟨h3, h4⟩ := h.sampled h1
    exact ⟨h3, h2.trans h4⟩

theorem Emits.sends {s t : State} (h : Emits s t) : Sends s t := by
  refine ⟨?_, h.appended, h.sampled, fun hw => by rw [h.keeps.2.2.2.2.2.1]; exact hw, fun he => by rw [h.frame]; exact he⟩
  rw [h.frame]; rfl

theorem Reads.sends {s t : State} (h : Reads s t) : Sends s t := by
  have hf := h.frame
  have h1 : t.outRev = s.outRev := by rw [hf]; rfl
  have h2 : t.samples = s.samples := by rw [hf]; rfl
  have h3 : t.sbytes = s.sbytes := by rw [hf]; rfl
  have h4 : t.blk = s.blk := by rw [hf]; rfl
  have h5 : t.outcnt = s.outcnt := by rw [hf]; rfl
  refine ⟨?_, ⟨[], h1, ?_, ?_⟩, fun hu => ⟨h2 ▸ hu, h3⟩, fun hw => h4 ▸ hw, h.eof_kept⟩
  · rw [h.frame]; rfl
  · rw [h5]; exact .zero _
  · rw [h3]; exact .zero _

theorem sends_setBlock {bytes : List Byte} (hb : bytes.length ≤ 256) (s : State) : Sends s (setBlock bytes s) :=
  ⟨rfl, ⟨[], rfl, .zero _, .zero _⟩, fun h => ⟨h, rfl⟩, fun _ => wf_cellsFrom hb, id⟩

theorem sends_blkcnt (s : State) (c : U16) : Sends s { s with blkcnt := c } :=
  ⟨rfl, ⟨[], rfl, .zero _, .zero _⟩, fun h => ⟨h, rfl⟩, id, id⟩

/-- The fields that data blocks do not change. -/
theorem Sends.keeps {s t : State} (h : Sends s t) :
    t.half = s.half ∧ t.width = s.width ∧ t.container = s.container ∧ t.cfg = s.cfg ∧ t.closed = s.closed ∧
    t.nameDone = s.nameDone ∧ t.declared = s.declared ∧ t.declBytes = s.declBytes ∧ t.dataLen = s.dataLen ∧
    t.inputMode = s.inputMode := by
  rw [h.frame]
  exact ⟨rfl, rfl, rfl, rfl, rfl, rfl, rfl, rfl, rfl, rfl⟩

theorem Sends.blockByteCount {s t : State} (h : Sends s t) : blockByteCount t = blockByteCount s := by
  unfold Sys2Proof.Machine.blockByteCount byteByteCount bitByteCount frameSize; rw [h.keeps.1, h.keeps.2.1]

/-- Data blocks of `n` sample bytes in all went through. -/
def Sent (s : State) (n : Nat) (t : State) : Prop := Sends s t ∧ t.outRev.length = s.outRev.length + n

/-- Data blocks of at most `n` sample bytes in all were stopped by a port. -/
def StoppedSending (s : State) (n : Nat) (c : FaultCode) (t : State) : Prop :=
  Sends s t ∧ t.outRev.length ≤ s.outRev.length + n ∧ (OutputFault s c ∨ c = .ioInput)

theorem Sent.refl (s : State) : Sent s 0 s := ⟨Sends.refl s, rfl⟩

theorem Sent.trans {s t u : State} {n m : Nat} (h : Sent s n t) (h' : Sent t m u) : Sent s (n + m) u :=
  ⟨h.1.trans h'.1, by rw [h'.2, h.2, Nat.add_assoc]⟩

theorem Sent.stopped {s t u : State} {n m : Nat} {c : FaultCode} (h : Sent s n t) (h' : StoppedSending t m c u) :
    StoppedSending s (n + m) c u := by
  refine ⟨h.1.trans h'.1, by have := h'.2.1; have := h.2; omega, ?_⟩
  have := h'.2.2
  rwa [OutputFault, h.1.keeps.2.2.2.2.1] at this

theorem StoppedSending.more {s t : State} {n m : Nat} {c : FaultCode} (h : StoppedSending s n c t) (hm : n ≤ m) :
    StoppedSending s m c t :=
  ⟨h.1, by have := h.2.1; omega, h.2.2⟩

theorem Emitted.sent {s t : State} {n : Nat} (h : Emitted s n t) : Sent s n t := ⟨h.1.sends, h.2⟩

theorem StoppedEmitting.sending {s t : State} {n : Nat} {c : FaultCode} (h : StoppedEmitting s n c t) : StoppedSending s n c t :=
  ⟨h.1.sends, h.2.1, .inl h.2.2⟩

theorem Reads.sent {s t : State} (h : Reads s t) : Sent s 0 t := ⟨h.sends, by rw [h.frame]; rfl⟩

/-- How many bytes went out is what SBYTES counts (10_state.md R28). -/
theorem Sends.counts {s t : State} (h : Sends s t) :
    Counts s.sbytes t.sbytes (t.outRev.length - s.outRev.length) ∧
    Counts s.outcnt t.outcnt (t.outRev.length - s.outRev.length) := by
  obtain ⟨bs, hb, h1, h2⟩ := h.appended
  rw [hb, List.length_append, Nat.add_sub_cancel]
  exact ⟨h2, h1⟩

/-- One data block (R145). -/
theorem sendDataBlock_sat {bytes : List Byte} (hb : bytes.length ≤ 253) (s : State) :
    (sendDataBlock bytes s).Sat (Sent s (blockByteCount s)) (StoppedSending s (blockByteCount s)) := by
  have h0 : Sent s 0 (setBlock (dataBlock s.blkcnt bytes) s) :=
    ⟨sends_setBlock (by rw [length_dataBlock hb]) s, rfl⟩
  have hbc : blockByteCount (setBlock (dataBlock s.blkcnt bytes) s) = blockByteCount s := h0.1.blockByteCount
  have h1 := frameBlock_sat (setBlock (dataBlock s.blkcnt bytes) s)
  rw [hbc] at h1
  refine h1.andThen (fun t ht => ?_) (fun c t ht => ?_)
  · have h2 := h0.trans ht.sent
    have h3 := h2.trans (m := 0) ⟨sends_blkcnt t (t.blkcnt + 1#16), rfl⟩
    rw [Nat.zero_add, Nat.add_zero] at h3
    exact h3
  · have h2 := h0.stopped ht.sending
    rwa [Nat.zero_add] at h2

/-- The BUFFERED loop (R146). -/
theorem sendBuffered_sat (blocks rem : Nat) (s : State) :
    (sendBuffered blocks rem s).Sat (Sent s (blocks * blockByteCount s)) (StoppedSending s (blocks * blockByteCount s)) := by
  induction blocks generalizing rem s with
  | zero => simpa [sendBuffered, sat_done] using Sent.refl s
  | succ k ih =>
    rw [sendBuffered]
    have hread := inReadUpTo_sat (min dataChunk rem) [] s
    generalize inReadUpTo (min dataChunk rem) [] s = r at hread
    cases r with
    | short bs t => exact ⟨hread.1.sends, by rw [hread.1.frame]; exact Nat.le_add_right _ _, .inr rfl⟩
    | failed t => exact ⟨Reads.sends hread, by rw [Reads.frame hread]; exact Nat.le_add_right _ _, .inr rfl⟩
    | full bs t =>
      have h0 : Sent s 0 t := hread.1.sent
      have hlen : bs.length ≤ 253 := by
        rw [hread.2, List.length_nil, Nat.zero_add]; exact Nat.min_le_left _ _
      have hbc : blockByteCount t = blockByteCount s := h0.1.blockByteCount
      have h1 := sendDataBlock_sat hlen t
      rw [hbc] at h1
      rw [Nat.succ_mul, Nat.add_comm]
      refine h1.andThen (fun u hu => ?_) (fun c u hu => ?_)
      · have h2 := h0.trans hu
        rw [Nat.zero_add] at h2
        rw [← h2.1.blockByteCount] at h2 ⊢
        exact (ih (rem - min dataChunk rem) u).mono (fun _ hv => h2.trans hv) (fun _ _ hv => h2.stopped hv)
      · have h2 := h0.stopped hu
        rw [Nat.zero_add] at h2
        exact h2.more (Nat.le_add_right _ _)

/-- A data block after some reads: only its frame. -/
theorem sendDataBlock_after {bs : List Byte} {s t : State} (h : Reads s t) (hlen : bs.length ≤ 253) :
    (sendDataBlock bs t).Sat (Sends s) (fun c t => Sends s t ∧ (OutputFault s c ∨ c = .ioInput)) := by
  refine (sendDataBlock_sat hlen t).mono (fun u hu => h.sends.trans hu.1) (fun c u hu => ⟨h.sends.trans hu.1, ?_⟩)
  have := hu.2.2
  rwa [OutputFault, h.sends.keeps.2.2.2.2.1] at this

/-- The STREAMING loop (R146): only its frame, since the input decides how many blocks there are. -/
theorem sendStreaming_sat (rounds : Nat) (s : State) :
    (sendStreaming rounds s).Sat (Sends s) (fun c t => Sends s t ∧ (OutputFault s c ∨ c = .ioInput)) := by
  induction rounds generalizing s with
  | zero => exact Sends.refl s
  | succ k ih =>
    rw [sendStreaming]
    have hread := inReadUpTo_sat dataChunk [] s
    generalize inReadUpTo dataChunk [] s = r at hread
    cases r with
    | failed t => exact ⟨Reads.sends hread, .inr rfl⟩
    | short bs t =>
      have hlen : bs.length ≤ 253 := by have := hread.2.1; simp only [List.length_nil, dataChunk] at this; omega
      show (if bs = [] then Ran.done t else sendDataBlock bs t).Sat _ _
      split
      · exact hread.1.sends
      · exact sendDataBlock_after hread.1 hlen
    | full bs t =>
      have hlen : bs.length ≤ 253 := by have := hread.2; simp only [List.length_nil, dataChunk] at this; omega
      show ((sendDataBlock bs t).andThen (sendStreaming k)).Sat _ _
      refine (sendDataBlock_after hread.1 hlen).andThen (fun u hu => ?_) (fun c u hu => hu)
      refine (ih u).mono (fun v hv => hu.trans hv) (fun c v hv => ⟨hu.trans hv.1, ?_⟩)
      have := hv.2
      rwa [OutputFault, hu.keeps.2.2.2.2.1] at this

end Sys2Proof.Machine
end

