-- ==== Sys2Proof/Laws/Bodies.lean ====
section
/-! SUPPORT. What the pseudocode of each command can do: where it goes on, and which faults end it in which state. -/

namespace Sys2Proof.Machine

/-! ### From the pseudocode to the command -/

/-- What a command leaves: the state itself in the fault state; outside it, the end of its pseudocode or the fault that ended it. -/
theorem runCommand_sat {opc sel : Byte} {body : State → Ran} {s t : State} {P : State → Prop} {Q : FaultCode → State → Prop}
    (h : runCommand opc sel body s = .next t) (hb : (body s).Sat P Q) :
    (s.fault = true ∧ t = s) ∨ (s.fault = false ∧ (P t ∨ ∃ c v u, Q c u ∧ t = takeFault c opc sel v u)) := by
  cases hf : s.fault with
  | true => rw [runCommand_faulted hf] at h; cases h; exact .inl ⟨rfl, rfl⟩
  | false =>
    right
    refine ⟨rfl, ?_⟩
    rcases runCommand_cases h hf with hd | ⟨c, v, u, hr, rfl⟩
    · rw [hd] at hb; exact .inl hb
    · rw [hr] at hb; exact .inr ⟨c, v, u, hb, rfl⟩

/-- Fault entry changes the fault registers alone (60_exceptions.md R204). -/
theorem takeFault_frame (c : FaultCode) (opc sel : Byte) (v : Nat) (u : State) :
    takeFault c opc sel v u = { u with
      fault := (takeFault c opc sel v u).fault
      faultCode := (takeFault c opc sel v u).faultCode
      faultInfo := (takeFault c opc sel v u).faultInfo
      faultValue := (takeFault c opc sel v u).faultValue } := by
  unfold takeFault; split <;> rfl

/-! ### Checks -/

/-- `EmitCheck(n)` (41_modulation.md R127). -/
theorem emitCheck_sat (n : Nat) (s : State) :
    (emitCheck n s).Sat
      (fun t => t = s ∧ mayEmit s = true ∧ (s.declared = true → s.sbytes.toNat + n ≤ s.declBytes.toNat))
      (fun c t => t = s ∧ ((c = .sequence ∧ mayEmit s = false) ∨
        (c = .lengthMismatch ∧ s.declared = true ∧ s.declBytes.toNat < s.sbytes.toNat + n))) := by
  unfold emitCheck
  split
  · rename_i h
    exact ⟨rfl, .inl ⟨rfl, by simpa using h⟩⟩
  · rename_i h
    split
    · rename_i h'
      exact ⟨rfl, .inr ⟨rfl, h'⟩⟩
    · rename_i h'
      exact ⟨rfl, by simpa using h, fun hd => by simp only [hd, true_and] at h'; omega⟩

theorem emitCheck_done {n : Nat} {s : State} (hm : mayEmit s = true)
    (hr : s.declared = true → s.sbytes.toNat + n ≤ s.declBytes.toNat) : emitCheck n s = .done s := by
  unfold emitCheck
  rw [if_neg (by simp [hm]), if_neg (by rintro ⟨h1, h2⟩; have := hr h1; omega)]

/-- `CheckGeometry()` (41_modulation.md R125). -/
theorem checkGeometry_sat (s : State) :
    (checkGeometry s).Sat (fun t => t = s ∧ widthLegal s.width = true ∧ containerLegal s.container = true)
      (fun c t => t = s ∧ ((c = .cfgWidth ∧ widthLegal s.width = false) ∨
        (c = .cfgContainer ∧ containerLegal s.container = false))) := by
  unfold checkGeometry
  cases hw : widthLegal s.width <;> cases hc : containerLegal s.container <;>
    simp [Ran.Sat]

theorem checkGeometry_done {s : State} (hw : widthLegal s.width = true) (hc : containerLegal s.container = true) :
    checkGeometry s = .done s := by simp [checkGeometry, hw, hc]

theorem widthLegal_iff {w : U32} : widthLegal w = true ↔ w = 8#32 ∨ w = 16#32 ∨ w = 24#32 ∨ w = 32#32 := by
  simp only [widthLegal, List.contains_eq_mem, List.mem_cons, List.not_mem_nil, or_false, decide_eq_true_eq,
    ← BitVec.toNat_inj]
  rfl

theorem containerLegal_iff {c : U32} : containerLegal c = true ↔ c = 1#32 ∨ c = 2#32 ∨ c = 3#32 := by
  simp only [containerLegal, List.contains_eq_mem, List.mem_cons, List.not_mem_nil, or_false, decide_eq_true_eq,
    ← BitVec.toNat_inj]
  rfl

theorem modeLegal_iff {m : U32} : modeLegal m = true ↔ m = 1#32 ∨ m = 2#32 := by
  simp only [modeLegal, List.contains_eq_mem, List.mem_cons, List.not_mem_nil, or_false, decide_eq_true_eq,
    ← BitVec.toNat_inj]
  rfl

theorem isBuffered_iff {s : State} : isBuffered s = true ↔ s.inputMode = 1#32 := by simp [isBuffered]

/-- The level check of INIT (41_modulation.md R126). -/
theorem checkLevels_sat (s : State) :
    (checkLevels s).Sat
      (fun t => t = s ∧ s.lowValue.toNat < 2 ^ s.width.toNat ∧ s.highValue.toNat < 2 ^ s.width.toNat)
      (fun c t => t = s ∧ c = .cfgLevel ∧
        ¬(s.lowValue.toNat < 2 ^ s.width.toNat ∧ s.highValue.toNat < 2 ^ s.width.toNat)) := by
  unfold checkLevels
  split
  · exact ⟨rfl, rfl, by omega⟩
  · split
    · exact ⟨rfl, rfl, by omega⟩
    · exact ⟨rfl, by omega, by omega⟩

theorem checkLevels_done {s : State} (hl : s.lowValue.toNat < 2 ^ s.width.toNat)
    (hh : s.highValue.toNat < 2 ^ s.width.toNat) : checkLevels s = .done s := by
  unfold checkLevels
  rw [if_neg (by omega), if_neg (by omega)]

/-- A level word that fits the width is stored whole. -/
theorem levelBits_eq {v : U32} {w : Nat} (h : v.toNat < 2 ^ w) : levelBits v w = v := by
  unfold levelBits
  rw [Nat.mod_eq_of_lt h, BitVec.ofNat_toNat, BitVec.setWidth_eq]

/-! ### TIMING, LEVELS, INIT -/

/-- TIMING (41_modulation.md R121): what it writes, or the check that ends it. -/
theorem timingBody_sat (s : State) :
    (timingBody s).Sat
      (fun t => s.initDone = false ∧ baudLegal s.cfg s.baud.toNat = true ∧
        ∃ h, h = deriveHalf s.cfg.rounding s.reqRate.toNat s.baud.toNat ∧ 1 ≤ h ∧ h ≤ 128 ∧
          t = { s with half := BitVec.ofNat 32 h, actRate := BitVec.ofNat 32 (actualRate h s.baud.toNat), timingOk := true })
      (fun c t => t = s ∧ (c = .sequence ∨ c = .cfgBaud ∨ c = .cfgRate ∨ c = .cfgHalfbit)) := by
  unfold timingBody
  split
  · exact ⟨rfl, .inl rfl⟩
  · rename_i h1
    split
    · exact ⟨rfl, .inr (.inl rfl)⟩
    · rename_i h2
      split
      · exact ⟨rfl, .inr (.inr (.inl rfl))⟩
      · dsimp only
        split
        · exact ⟨rfl, .inr (.inr (.inr rfl))⟩
        · rename_i h4
          simp only [halfMax] at h4
          exact ⟨by simpa using h1, by simpa using h2, _, rfl, by omega, by omega, rfl⟩

theorem baudLegal_lt {cfg : Config} {b : Nat} (h : baudLegal cfg b = true) : 1 ≤ b ∧ b < 16777216 := by
  have h1 := cfg.baudAlt_legal
  simp only [baudLegal, baudFixed, Bool.or_eq_true, beq_iff_eq] at h
  omega

/-- H and ACT_RATE fit their registers (00_scope.md R11, 41_modulation.md R121). -/
theorem actualRate_toNat {cfg : Config} {h b : Nat} (hb : baudLegal cfg b = true) (hh : h ≤ 128) :
    (BitVec.ofNat 32 (actualRate h b)).toNat = 2 * h * b ∧ (BitVec.ofNat 32 h).toNat = h := by
  have h1 := baudLegal_lt hb
  have h2 : 2 * h * b ≤ 256 * b := Nat.mul_le_mul_right b (by omega)
  simp only [actualRate, BitVec.toNat_ofNat]
  omega

/-- LEVELS (41_modulation.md R124). -/
theorem levelsBody_sat (s : State) :
    (levelsBody s).Sat
      (fun t => s.initDone = false ∧ widthLegal s.width = true ∧ containerLegal s.container = true ∧ t = setLevels s)
      (fun c t => t = s ∧ (c = .sequence ∨ c = .cfgWidth ∨ c = .cfgContainer)) := by
  unfold levelsBody
  split
  · exact ⟨rfl, .inl rfl⟩
  · rename_i h1
    refine (checkGeometry_sat s).andThen (fun t ht => ?_) (fun c t ht => ⟨ht.1, .inr (ht.2.imp (·.1) (·.1))⟩)
    obtain ⟨rfl, hw, hc⟩ := ht
    exact ⟨by simpa using h1, hw, hc, rfl⟩

/-- INIT (41_modulation.md R126). -/
theorem initBody_sat (s : State) :
    (initBody s).Sat
      (fun t => s.initDone = false ∧ s.timingOk = true ∧ widthLegal s.width = true ∧ containerLegal s.container = true ∧
        s.lowValue.toNat < 2 ^ s.width.toNat ∧ s.highValue.toNat < 2 ^ s.width.toNat ∧
        t = { s with
          hiBuf := Vector.replicate 128 s.highValue
          loBuf := Vector.replicate 128 s.lowValue
          pol := s.cfg.initPolarity
          initDone := true })
      (fun c t => t = s ∧ (c = .sequence ∨ c = .cfgWidth ∨ c = .cfgContainer ∨ (c = .cfgLevel ∧
        ¬(s.lowValue.toNat < 2 ^ s.width.toNat ∧ s.highValue.toNat < 2 ^ s.width.toNat)))) := by
  unfold initBody
  split
  · exact ⟨rfl, .inl rfl⟩
  · rename_i h1
    split
    · exact ⟨rfl, .inl rfl⟩
    · rename_i h2
      refine (checkGeometry_sat s).andThen (fun t ht => ?_)
        (fun c t ht => ⟨ht.1, .inr (ht.2.elim (fun h => .inl h.1) (fun h => .inr (.inl h.1)))⟩)
      obtain ⟨rfl, hw, hc⟩ := ht
      refine (checkLevels_sat t).andThen (fun u hu => ?_) (fun c u hu => ⟨hu.1, .inr (.inr (.inr hu.2))⟩)
      obtain ⟨rfl, hl, hh⟩ := hu
      refine ⟨by simpa using h1, by simpa using h2, hw, hc, hl, hh, ?_⟩
      unfold fillBuffers
      rw [levelBits_eq hl, levelBits_eq hh]

/-- What LEVELS computes fits the width, so CFG_LEVEL cannot follow it (44_driver.md R185). -/
theorem setLevels_fit {s : State} (hw : widthLegal s.width = true) :
    (setLevels s).lowValue.toNat < 2 ^ (setLevels s).width.toNat ∧
    (setLevels s).highValue.toNat < 2 ^ (setLevels s).width.toNat := by
  unfold setLevels
  rcases widthLegal_iff.1 hw with h | h | h | h <;> simp only [h] <;> cases (convention s).offset8 <;> decide

/-! ### When a command may emit -/

theorem EmitReady.emitCheck {s : State} {n : Nat} (h : EmitReady s n) : Sys2Proof.Machine.emitCheck n s = .done s :=
  emitCheck_done (by simp [mayEmit, h.initDone, h.hdrDone, h.open_]) h.room

theorem EmitReady.mayEmit {s : State} {n : Nat} (h : EmitReady s n) : Sys2Proof.Machine.mayEmit s = true := by
  simp [Sys2Proof.Machine.mayEmit, h.initDone, h.hdrDone, h.open_]

theorem EmitReady.of_le {s : State} {n m : Nat} (h : EmitReady s n) (hm : m ≤ n) : EmitReady s m :=
  ⟨h.running, h.initDone, h.hdrDone, h.open_, fun hd => by have := h.room hd; omega, by have := h.outcnt_fits; omega,
    by have := h.sbytes_fits; omega⟩

/-- TXNAME past its checks (42_framer.md R144). -/
theorem txnameBody_ready {s : State} (h : EmitReady s (blockByteCount s)) (hn : s.nameDone = false) :
    txnameBody s = (frameBlock (setBlock (nameBlock s) s)).andThen fun s => .done { s with nameDone := true } := by
  unfold txnameBody
  rw [if_neg (by simp [mayName, h.mayEmit, hn]), h.emitCheck, done_andThen]

/-- TXDATA past its checks (42_framer.md R145). -/
theorem txdataBody_ready {s : State} {c : U32} (h : EmitReady s (blockByteCount s)) (hn : s.nameDone = true)
    (h1 : 1 ≤ c.toNat) (h2 : c.toNat ≤ 253) : txdataBody c s = readAndSend c.toNat s := by
  unfold txdataBody
  rw [if_neg (by simp only [dataChunk]; omega), if_neg (by simp [maySendData, h.mayEmit, hn]), h.emitCheck, done_andThen]

/-- TXREST past its checks, BUFFERED (42_framer.md R146). -/
theorem txrestBody_buffered {s : State} (h : EmitReady s (ceilDiv (remaining s) dataChunk * blockByteCount s))
    (hn : s.nameDone = true) (hb : isBuffered s = true) :
    txrestBody s = sendBuffered (ceilDiv (remaining s) dataChunk) (remaining s) s := by
  unfold txrestBody
  rw [if_neg (by simp [maySendData, h.mayEmit, hn]), (h.of_le (Nat.zero_le _)).emitCheck, done_andThen, if_pos hb, h.emitCheck,
    done_andThen]

/-- TXREST past its checks, STREAMING (42_framer.md R146). -/
theorem txrestBody_streaming {s : State} (h : EmitReady s 0) (hn : s.nameDone = true) (hb : isBuffered s = false) :
    txrestBody s = sendStreaming (streamingRounds s) s := by
  unfold txrestBody
  rw [if_neg (by simp [maySendData, h.mayEmit, hn]), h.emitCheck, done_andThen, if_neg (by simp [hb])]

/-- In a state of a session, a command that may emit `n` bytes has all that the emission needs, where the host grants them. -/
theorem Inv.emittable {s : State} {n : Nat} (hi : Inv s) (hr : EmitReady s n) (hg : Granted s n) : Emittable s n where
  opened := hr.open_
  granted := hg
  outcnt_fits := hr.outcnt_fits
  sbytes_fits := hr.sbytes_fits
  half_le := (hi.half_range (hi.init_timed hr.initDone)).2
  hi := (hi.init_buffers hr.initDone).1
  lo := (hi.init_buffers hr.initDone).2

/-! ### EMITBIT, EMITBYTE -/

/-- EMITBIT (41_modulation.md R130). -/
theorem emitbitBody_sat (b : Bool) (s : State) :
    (emitbitBody b s).Sat
      (fun t => mayEmit s = true ∧ (s.declared = true → s.sbytes.toNat + bitByteCount s ≤ s.declBytes.toNat) ∧
        Emitted s (bitByteCount s) t)
      (fun c t => (t = s ∧ (c = .sequence ∨ c = .lengthMismatch)) ∨
        (mayEmit s = true ∧ (s.declared = true → s.sbytes.toNat + bitByteCount s ≤ s.declBytes.toNat) ∧
          StoppedEmitting s (bitByteCount s) c t)) := by
  refine (emitCheck_sat _ s).andThen (fun t ht => ?_)
    (fun c t ht => .inl ⟨ht.1, ht.2.imp (·.1) (·.1)⟩)
  obtain ⟨rfl, hm, hr⟩ := ht
  exact (emitBit_sat b t).mono (fun u hu => ⟨hm, hr, hu⟩) (fun c u hu => .inr ⟨hm, hr, hu⟩)

/-- EMITBYTE (41_modulation.md R131). -/
theorem emitbyteBody_sat (v : Byte) (s : State) :
    (emitbyteBody v s).Sat
      (fun t => mayEmit s = true ∧ (s.declared = true → s.sbytes.toNat + byteByteCount s ≤ s.declBytes.toNat) ∧
        Emitted s (byteByteCount s) t)
      (fun c t => (t = s ∧ (c = .sequence ∨ c = .lengthMismatch)) ∨
        (mayEmit s = true ∧ (s.declared = true → s.sbytes.toNat + byteByteCount s ≤ s.declBytes.toNat) ∧
          StoppedEmitting s (byteByteCount s) c t)) := by
  refine (emitCheck_sat _ s).andThen (fun t ht => ?_)
    (fun c t ht => .inl ⟨ht.1, ht.2.imp (·.1) (·.1)⟩)
  obtain ⟨rfl, hm, hr⟩ := ht
  exact (emitByte_sat v t).mono (fun u hu => ⟨hm, hr, hu⟩) (fun c u hu => .inr ⟨hm, hr, hu⟩)

/-! ### TXBLOCK, TXNAME, TXDATA, TXREST -/

/-- TXBLOCK (42_framer.md R142). -/
theorem txblockBody_sat (s : State) :
    (txblockBody s).Sat
      (fun t => mayEmit s = true ∧ (s.declared = true → s.sbytes.toNat + blockByteCount s ≤ s.declBytes.toNat) ∧
        Emitted s (blockByteCount s) t)
      (fun c t => (t = s ∧ (c = .sequence ∨ c = .lengthMismatch)) ∨
        (mayEmit s = true ∧ (s.declared = true → s.sbytes.toNat + blockByteCount s ≤ s.declBytes.toNat) ∧
          StoppedEmitting s (blockByteCount s) c t)) := by
  refine (emitCheck_sat _ s).andThen (fun t ht => ?_)
    (fun c t ht => .inl ⟨ht.1, ht.2.imp (·.1) (·.1)⟩)
  obtain ⟨rfl, hm, hr⟩ := ht
  exact (frameBlock_sat t).mono (fun u hu => ⟨hm, hr, hu⟩) (fun c u hu => .inr ⟨hm, hr, hu⟩)

/-- TXNAME (42_framer.md R144). -/
theorem txnameBody_sat (s : State) :
    (txnameBody s).Sat
      (fun t => mayEmit s = true ∧ (s.declared = true → s.sbytes.toNat + blockByteCount s ≤ s.declBytes.toNat) ∧
        s.nameDone = false ∧
        ∃ u, Emitted (setBlock (nameBlock s) s) (blockByteCount s) u ∧ t = { u with nameDone := true })
      (fun c t => (t = s ∧ (c = .sequence ∨ (c = .lengthMismatch ∧ s.declared = true ∧
          s.declBytes.toNat < s.sbytes.toNat + blockByteCount s))) ∨
        (mayEmit s = true ∧ (s.declared = true → s.sbytes.toNat + blockByteCount s ≤ s.declBytes.toNat) ∧
          s.nameDone = false ∧ StoppedEmitting (setBlock (nameBlock s) s) (blockByteCount s) c t)) := by
  unfold txnameBody
  split
  · exact .inl ⟨rfl, .inl rfl⟩
  · rename_i hn
    have hn' : s.nameDone = false := by simp only [mayName] at hn; simp at hn; exact hn.2
    refine (emitCheck_sat _ s).andThen (fun t ht => ?_)
      (fun c t ht => .inl ⟨ht.1, ht.2.imp (·.1) id⟩)
    obtain ⟨rfl, hm, hr⟩ := ht
    have hbc : blockByteCount (setBlock (nameBlock t) t) = blockByteCount t :=
      (sends_setBlock (by rw [length_nameBlock]) t).blockByteCount
    have h1 := frameBlock_sat (setBlock (nameBlock t) t)
    rw [hbc] at h1
    exact h1.andThen (fun u hu => ⟨hm, hr, hn', u, hu, rfl⟩) (fun c u hu => .inr ⟨hm, hr, hn', hu⟩)

/-- The name block is in BLK before it is sent. -/
theorem sends_nameBlock (s : State) : Sends s (setBlock (nameBlock s) s) := sends_setBlock (by rw [length_nameBlock]) s

/-- Reading, then one data block. -/
theorem readAndSend_sat {n : Nat} (hn : n ≤ 253) (s : State) :
    (readAndSend n s).Sat (Sent s (blockByteCount s)) (StoppedSending s (blockByteCount s)) := by
  unfold readAndSend
  have hread := inReadUpTo_sat n [] s
  generalize inReadUpTo n [] s = r at hread
  cases r with
  | short bs t => exact ⟨hread.1.sends, by rw [hread.1.frame]; exact Nat.le_add_right _ _, .inr rfl⟩
  | failed t => exact ⟨Reads.sends hread, by rw [Reads.frame hread]; exact Nat.le_add_right _ _, .inr rfl⟩
  | full bs t =>
    have h0 : Sent s 0 t := hread.1.sent
    have hlen : bs.length ≤ 253 := by have := hread.2; simp only [List.length_nil] at this; omega
    have h1 := sendDataBlock_sat hlen t
    rw [h0.1.blockByteCount] at h1
    refine h1.mono (fun u hu => ?_) (fun c u hu => ?_)
    · have := h0.trans hu; rwa [Nat.zero_add] at this
    · have := h0.stopped hu; rwa [Nat.zero_add] at this

/-- TXDATA (42_framer.md R145). -/
theorem txdataBody_sat (count : U32) (s : State) :
    (txdataBody count s).Sat
      (fun t => mayEmit s = true ∧ (s.declared = true → s.sbytes.toNat + blockByteCount s ≤ s.declBytes.toNat) ∧
        s.nameDone = true ∧ Sent s (blockByteCount s) t)
      (fun c t => (t = s ∧ (c = .illegalOperand ∨ c = .sequence ∨ c = .lengthMismatch)) ∨
        (mayEmit s = true ∧ (s.declared = true → s.sbytes.toNat + blockByteCount s ≤ s.declBytes.toNat) ∧
          s.nameDone = true ∧ StoppedSending s (blockByteCount s) c t)) := by
  unfold txdataBody
  split
  · exact .inl ⟨rfl, .inl rfl⟩
  · rename_i hc
    simp only [dataChunk, not_or, Nat.not_lt] at hc
    split
    · exact .inl ⟨rfl, .inr (.inl rfl)⟩
    · rename_i hn
      have hn' : s.nameDone = true := by simp only [maySendData] at hn; simp at hn; exact hn.2
      refine (emitCheck_sat _ s).andThen (fun t ht => ?_)
        (fun c t ht => .inl ⟨ht.1, .inr (ht.2.imp (·.1) (·.1))⟩)
      obtain ⟨rfl, hm, hr⟩ := ht
      exact (readAndSend_sat hc.2 t).mono (fun u hu => ⟨hm, hr, hn', hu⟩) (fun c u hu => .inr ⟨hm, hr, hn', hu⟩)

/-- TXREST (42_framer.md R146): in BUFFERED mode it sends exactly the blocks it checked for; in STREAMING mode only the frame is
known, since the input decides. -/
theorem txrestBody_sat (s : State) :
    (txrestBody s).Sat
      (fun t => mayEmit s = true ∧ s.nameDone = true ∧ Sends s t ∧
        (isBuffered s = true → Sent s (ceilDiv (remaining s) dataChunk * blockByteCount s) t ∧
          (s.declared = true → s.sbytes.toNat + ceilDiv (remaining s) dataChunk * blockByteCount s ≤ s.declBytes.toNat)))
      (fun c t => (t = s ∧ (c = .sequence ∨ (c = .lengthMismatch ∧ s.declared = true ∧
          (s.declBytes.toNat < s.sbytes.toNat ∨ (isBuffered s = true ∧
            s.declBytes.toNat < s.sbytes.toNat + ceilDiv (remaining s) dataChunk * blockByteCount s))))) ∨
        (mayEmit s = true ∧ s.nameDone = true ∧ Sends s t ∧ (OutputFault s c ∨ c = .ioInput) ∧
          (isBuffered s = true → StoppedSending s (ceilDiv (remaining s) dataChunk * blockByteCount s) c t ∧
            (s.declared = true →
              s.sbytes.toNat + ceilDiv (remaining s) dataChunk * blockByteCount s ≤ s.declBytes.toNat)))) := by
  unfold txrestBody
  split
  · exact .inl ⟨rfl, .inl rfl⟩
  · rename_i hn
    have hn' : s.nameDone = true := by simp only [maySendData] at hn; simp at hn; exact hn.2
    refine (emitCheck_sat _ s).andThen (fun t ht => ?_)
      (fun c t ht => .inl ⟨ht.1, ht.2.imp (·.1) (fun h => ⟨h.1, h.2.1, .inl (by simpa using h.2.2)⟩)⟩)
    obtain ⟨rfl, hm, hr⟩ := ht
    split
    · rename_i hb
      refine (emitCheck_sat _ t).andThen (fun u hu => ?_) (fun c u hu => .inl ⟨hu.1, ?_⟩)
      · obtain ⟨rfl, -, hr'⟩ := hu
        exact (sendBuffered_sat _ _ u).mono (fun v hv => ⟨hm, hn', hv.1, fun _ => ⟨hv, hr'⟩⟩)
          (fun c v hv => .inr ⟨hm, hn', hv.1, hv.2.2, fun _ => ⟨hv, hr'⟩⟩)
      · exact hu.2.imp (·.1) (fun h => ⟨h.1, h.2.1, .inr ⟨hb, h.2.2⟩⟩)
    · rename_i hb
      exact (sendStreaming_sat _ t).mono (fun u hu => ⟨hm, hn', hu, fun h => absurd h hb⟩)
        (fun c u hu => .inr ⟨hm, hn', hu.1, hu.2, fun h => absurd h hb⟩)

/-! ### HDR, CLOSE -/

theorem checkMode_sat (s : State) :
    (checkMode s).Sat (fun t => t = s ∧ modeLegal s.inputMode = true)
      (fun c t => t = s ∧ c = .cfgMode ∧ modeLegal s.inputMode = false) := by
  unfold checkMode
  cases h : modeLegal s.inputMode <;> simp [Ran.Sat]

theorem checkLength_sat (s : State) :
    (checkLength s).Sat (fun t => t = s ∧ (lengthKnown s = true → riffLen s ≤ 0xFFFFFFFE))
      (fun c t => t = s ∧ c = .lengthOverflow ∧ lengthKnown s = true ∧ 0xFFFFFFFE < riffLen s) := by
  unfold checkLength
  split
  · rename_i h; exact ⟨rfl, rfl, h⟩
  · rename_i h
    exact ⟨rfl, fun hk => by simp only [hk, true_and, Nat.not_lt] at h; exact h⟩

/-- What the checks of HDR establish (43_container.md R160). -/
structure HdrReady (s : State) : Prop where
  ordered : mayWriteHeader s = true
  width_legal : widthLegal s.width = true
  container_legal : containerLegal s.container = true
  mode_legal : modeLegal s.inputMode = true
  length_fits : lengthKnown s = true → riffLen s ≤ 0xFFFFFFFE

theorem hdrBody_ready {s : State} (h : HdrReady s) :
    hdrBody s = (outWriteAll (headerBytes s) s).andThen fun t => .done (recordHeader t) := by
  unfold hdrBody
  rw [if_neg (by simp [h.ordered]), checkGeometry_done h.width_legal h.container_legal, done_andThen, checkMode,
    if_neg (by simp [h.mode_legal]), done_andThen, checkLength,
    if_neg (by rintro ⟨h1, h2⟩; have := h.length_fits h1; omega), done_andThen]

/-- HDR (43_container.md R160): every check comes before the first byte. -/
theorem hdrBody_sat (s : State) :
    (hdrBody s).Sat
      (fun t => HdrReady s ∧ ∃ u, Writes s u ∧ u.outRev = (headerBytes s).reverse ++ s.outRev ∧ t = recordHeader u)
      (fun c t => (t = s ∧ (c = .sequence ∨ c = .cfgWidth ∨ c = .cfgContainer ∨ c = .cfgMode ∨ c = .lengthOverflow)) ∨
        (HdrReady s ∧ Writes s t ∧ OutputFault s c)) := by
  unfold hdrBody
  split
  · exact .inl ⟨rfl, .inl rfl⟩
  · rename_i h1
    refine (checkGeometry_sat s).andThen (fun t ht => ?_)
      (fun c t ht => .inl ⟨ht.1, .inr (ht.2.elim (fun h => .inl h.1) (fun h => .inr (.inl h.1)))⟩)
    obtain ⟨rfl, hw, hc⟩ := ht
    refine (checkMode_sat t).andThen (fun u hu => ?_) (fun c u hu => .inl ⟨hu.1, .inr (.inr (.inr (.inl hu.2.1)))⟩)
    obtain ⟨rfl, hm⟩ := hu
    refine (checkLength_sat u).andThen (fun v hv => ?_) (fun c v hv => .inl ⟨hv.1, .inr (.inr (.inr (.inr hv.2.1)))⟩)
    obtain ⟨rfl, hl⟩ := hv
    have hready : HdrReady v := ⟨by simpa using h1, hw, hc, hm, hl⟩
    exact (outWriteAll_sat (headerBytes v) v).andThen (fun u hu => ⟨hready, u, hu.1, hu.2, rfl⟩)
      (fun c u hu => .inr ⟨hready, hu.1, hu.2⟩)

/-- CLOSE (44_driver.md R186). -/
theorem closeBody_sat (s : State) :
    (closeBody s).Sat
      (fun t => s.closed = false ∧ (s.declared = true → s.sbytes.toNat = s.declBytes.toNat) ∧
        t = { s.drewOne with closed := true })
      (fun c t => (t = s ∧ (c = .sequence ∨ (c = .lengthMismatch ∧ s.declared = true ∧ s.sbytes.toNat ≠ s.declBytes.toNat))) ∨
        (t = s.drewOne ∧ c = .ioOutput)) := by
  unfold closeBody
  split
  · exact .inl ⟨rfl, .inl rfl⟩
  · rename_i h1
    split
    · rename_i h2
      exact .inl ⟨rfl, .inr ⟨rfl, h2⟩⟩
    · rename_i h2
      split
      · exact .inr ⟨rfl, rfl⟩
      · exact ⟨by simpa using h1, fun hd => by simpa [hd] using h2, rfl⟩

/-- PUT8 to PUTTAG (40_codec.md R110 to R115). -/
theorem putBody_sat (bytes : List Byte) (s : State) :
    (putBody bytes s).Sat (fun t => s.closed = false ∧ Writes s t ∧ t.outRev = bytes.reverse ++ s.outRev)
      (fun c t => Writes s t ∧ OutputFault s c) := by
  unfold putBody
  split
  · rename_i h; exact ⟨Writes.refl s, .inr ⟨rfl, h⟩⟩
  · rename_i h
    exact (outWriteAll_sat bytes s).mono (fun t ht => ⟨by simpa using h, ht.1, ht.2⟩) (fun c t ht => ht)

end Sys2Proof.Machine
end

