-- ==== Sys2Proof/Laws/Encoding.lean ====
section
/-! SUPPORT. What the decoder reads off a word (30_encoding.md R70 to R74), and the checks of WRCFG on numbers. -/

namespace Sys2Proof.Machine

/-- The byte of an OPC is read back as that OPC (R73). -/
theorem opcodeOfByte_opcodeByte (o : Opcode) : opcodeOfByte (opcodeByte o) = some o := by cases o <;> rfl

/-- A byte that is an OPC is that OPC's byte. -/
theorem opcodeByte_of {b : Byte} {o : Opcode} (h : opcodeOfByte b = some o) : opcodeByte o = b := by
  revert b o; decide

/-- The bytes that are no OPC (R74). -/
theorem opcodeOfByte_none_iff : ∀ b : Byte, opcodeOfByte b = none ↔ b.toNat ∉ listedOpcodes := by decide

theorem setWidth_setWidth_of_lt {n : Nat} {m : U32} (h : m.toNat < 2 ^ n) : (m.setWidth n).setWidth 32 = m := by
  apply BitVec.eq_of_toNat_eq
  simp only [BitVec.toNat_setWidth]
  rw [Nat.mod_eq_of_lt h, Nat.mod_eq_of_lt m.isLt]

/-- The operands that the decoder accepts are those the encoder writes (R71, R72). -/
theorem operandsOf_some {o : Opcode} {sel : Byte} {imm : U32} {i : Instr} (h : operandsOf o sel imm = some i) :
    opcodeOf i = o ∧ selOf i = sel ∧ immOf i = imm ∧ i.wellFormed = true := by
  cases o
  case put =>
    simp only [operandsOf, putOperands] at h
    have hs := sel.isLt
    split at h
    · rename_i hz
      split at h
      · rename_i hl
        cases h
        exact ⟨rfl, BitVec.eq_of_toNat_eq hz.symm, setWidth_setWidth_of_lt (by simpa using hl), rfl⟩
      · cases h
    · rename_i hz
      split at h
      · rename_i hl
        cases h
        exact ⟨rfl, BitVec.eq_of_toNat_eq hz.symm, setWidth_setWidth_of_lt (by simpa using hl), rfl⟩
      · cases h
    · rename_i hz
      split at h
      · rename_i hl
        cases h
        exact ⟨rfl, BitVec.eq_of_toNat_eq hz.symm, setWidth_setWidth_of_lt (by simpa using hl), rfl⟩
      · cases h
    · rename_i hz; cases h; exact ⟨rfl, BitVec.eq_of_toNat_eq hz.symm, rfl, rfl⟩
    · rename_i hz; cases h; exact ⟨rfl, BitVec.eq_of_toNat_eq hz.symm, rfl, rfl⟩
    · rename_i hz; cases h; exact ⟨rfl, BitVec.eq_of_toNat_eq hz.symm, rfl, rfl⟩
    · cases h
  case wrcfg => cases h; exact ⟨rfl, rfl, rfl, rfl⟩
  case rdreg =>
    simp only [operandsOf] at h
    split at h
    · rename_i hz; cases h; exact ⟨rfl, rfl, hz.symm, rfl⟩
    · cases h
  case blkwr =>
    simp only [operandsOf] at h
    split at h
    · rename_i hl; cases h; exact ⟨rfl, rfl, setWidth_setWidth_of_lt (by simpa using hl), rfl⟩
    · cases h
  case emitbit =>
    simp only [operandsOf] at h
    split at h
    · rename_i hl; cases h
      refine ⟨rfl, hl.1.symm, ?_, rfl⟩
      have : imm = 0#32 ∨ imm = 1#32 := by
        have := hl.2
        rcases Nat.lt_or_ge imm.toNat 1 with h0 | h0
        · left; apply BitVec.eq_of_toNat_eq; simp; omega
        · right; apply BitVec.eq_of_toNat_eq; simp; omega
      rcases this with rfl | rfl <;> rfl
    · cases h
  case emitbyte =>
    simp only [operandsOf] at h
    split at h
    · rename_i hl; cases h; exact ⟨rfl, hl.1.symm, setWidth_setWidth_of_lt (by simpa using hl.2), rfl⟩
    · cases h
  case txdata =>
    simp only [operandsOf] at h
    split at h
    · rename_i hl; cases h; exact ⟨rfl, hl.1.symm, rfl, by simpa [Instr.wellFormed] using hl.2⟩
    · cases h
  all_goals
    simp only [operandsOf, bareOperands] at h
    split at h
    · rename_i hl; cases h; exact ⟨rfl, hl.1.symm, hl.2.symm, rfl⟩
    · cases h

/-- A word that decodes to a command holds that command's fields, and the command is well formed. -/
theorem decode_instr {w : U64} {i : Instr} (h : decode w = .instr i) :
    fieldOpc w = opcodeByte (opcodeOf i) ∧ fieldRsv w = 0#16 ∧ fieldSel w = selOf i ∧ fieldImm w = immOf i ∧ i.wellFormed = true := by
  unfold decode at h
  split at h
  · cases h
  · rename_i o ho
    split at h
    · rename_i hr
      split at h
      · rename_i j hj
        cases h
        obtain ⟨h1, h2, h3, h4⟩ := operandsOf_some hj
        exact ⟨by rw [h1, opcodeByte_of ho], hr, h2.symm, h3.symm, h4⟩
      · cases h
    · cases h

/-- The high byte of EXT on numbers. -/
theorem extHigh_iff (imm : U32) : imm.extractLsb' 24 8 ≠ 0#8 ↔ 2^24 ≤ imm.toNat := by
  have hlt := imm.isLt
  rw [Ne, ← BitVec.toNat_inj]
  simp only [BitVec.extractLsb'_toNat, Nat.shiftRight_eq_div_pow, BitVec.toNat_ofNat]
  omega

theorem lockedSelector_iff (sel : Byte) : lockedSelector sel = true ↔ sel.toNat ∈ [0, 1, 2, 3, 4, 5, 9, 10] := by
  simp [lockedSelector]

/-- `WrcfgCheck` (44_driver.md R184) on numbers. -/
theorem wrcfgCheck_eq (sel : Byte) (imm : U32) (s : State) : wrcfgCheck sel imm s =
    if 10 < sel.toNat then .raised .illegalOperand sel.toNat s
    else if sel.toNat = 8 ∧ 2 ^ 24 ≤ imm.toNat then .raised .illegalOperand imm.toNat s
    else if s.initDone = true ∧ sel.toNat ∈ [0, 1, 2, 3, 4, 5, 9, 10] then .raised .sequence sel.toNat s
    else .done s := by
  have h8 : sel = 8#8 ↔ sel.toNat = 8 := by rw [← BitVec.toNat_inj]; rfl
  unfold wrcfgCheck lastWritable
  simp only [extHigh_iff, h8, lockedSelector_iff]

/-- The six PUT commands are one body over their bytes (40_codec.md R110 to R115). -/
theorem exec_put {i : Instr} {sel : Byte} {bytes : List Byte} (h : putImage i = some (sel, bytes)) (s : State) :
    exec i s = runCommand 0x50#8 sel (putBody bytes) s := by
  cases i <;> simp only [putImage, Option.some.injEq, Prod.mk.injEq, reduceCtorEq] at h
  all_goals
    obtain ⟨rfl, rfl⟩ := h
    unfold exec
    simp only [execPut8, execPut16le, execPut16be, execPut32le, execPut32be, execPuttag, put16Bytes_little, put16Bytes_big,
      put32Bytes_little, put32Bytes_big, putTagBytes_eq]

end Sys2Proof.Machine
end

