-- ==== Sys2Proof/Laws/Header.lean ====
section
/-! SUPPORT. The container headers and the name block as lists of bytes, and the data byte count as a number of blocks. -/

namespace Sys2Proof.Machine

/-- A tag is its four letters in order (40_codec.md R115). -/
theorem putTagBytes_ofNat (n : Nat) : putTagBytes n = be32 (BitVec.ofNat 32 n) := put32Bytes_ofNat_big n

/-- The chunk-style header (43_container.md R161). -/
theorem chunkHeader_eq (s : State) :
    chunkHeader s = [0x52#8, 0x49#8, 0x46#8, 0x46#8] ++ le32 (BitVec.ofNat 32 (declaredRiffLen s))
        ++ [0x57#8, 0x41#8, 0x56#8, 0x45#8] ++ [0x66#8, 0x6D#8, 0x74#8, 0x20#8] ++ le32 16#32 ++ le16 1#16 ++ le16 1#16
        ++ le32 s.actRate ++ le32 (BitVec.ofNat 32 (s.actRate.toNat * frameSize s)) ++ le16 (BitVec.ofNat 16 (frameSize s))
        ++ le16 (BitVec.ofNat 16 s.width.toNat) ++ [0x64#8, 0x61#8, 0x74#8, 0x61#8]
        ++ le32 (BitVec.ofNat 32 (declaredDataBytes s)) := by
  unfold chunkHeader
  simp only [putTagBytes_ofNat, put32Bytes_ofNat_little, put16Bytes_ofNat_little, channels]
  rw [BitVec.ofNat_toNat, BitVec.setWidth_eq]
  rfl

/-- The simple-style header (43_container.md R163). -/
theorem simpleHeader_eq (s : State) :
    simpleHeader s = [0x2E#8, 0x73#8, 0x6E#8, 0x64#8] ++ be32 28#32 ++ be32 0xFFFFFFFF#32
        ++ be32 (BitVec.ofNat 32 (encodingCode s.width.toNat))
        ++ be32 s.actRate ++ be32 1#32
        ++ [s.cfg.annotation.1, s.cfg.annotation.2.1, s.cfg.annotation.2.2.1, s.cfg.annotation.2.2.2] := by
  unfold simpleHeader annotationBytes
  simp only [put32Bytes_ofNat_big, channels, unknownLength]
  rw [BitVec.ofNat_toNat, BitVec.setWidth_eq]
  rfl

/-- 44, 28 or no bytes (43_container.md R161, R163, R165). -/
theorem length_headerBytes {s : State} :
    (headerBytes s).length = if s.container = 1#32 then 44 else if s.container = 2#32 then 28 else 0 := by
  have h1 : s.container = 1#32 ↔ s.container.toNat = 1 := by rw [← BitVec.toNat_inj]; rfl
  have h2 : s.container = 2#32 ↔ s.container.toNat = 2 := by rw [← BitVec.toNat_inj]; rfl
  unfold headerBytes
  simp only [h1, h2]
  generalize s.container.toNat = n
  split
  · rw [if_pos rfl, chunkHeader_eq]; rfl
  · rw [if_neg (by omega), if_pos rfl, simpleHeader_eq]; rfl
  · rw [if_neg (by assumption), if_neg (by assumption)]; rfl

/-- The name block (42_framer.md R147). -/
theorem nameBlock_eq (s : State) :
    [0xFF#8, 0xFF#8, 0xFF#8] ++ le32 s.nameA ++ le32 s.nameB ++ (le32 s.ext).take 3 ++ List.replicate 242 0x00#8 =
      nameBlock s := by
  have h1 := put32Bytes_little s.nameA
  have h2 := put32Bytes_little s.nameB
  rw [put32Bytes] at h1 h2
  have h3 : bytesOf 3 .little s.ext.toNat = (le32 s.ext).take 3 := by simp [bytesOf, le32, byteAt_toNat, List.range_succ]
  rw [nameBlock, h1, h2, h3]

/-- `DataBytes` (43_container.md R162) is the name block and the data blocks. -/
theorem dataBytes_eq (s : State) : dataBytes s = (ceilDiv s.dataLen.toNat dataChunk + 1) * blockByteCount s := by
  unfold dataBytes totalSamples totalBlocks blockByteCount byteByteCount bitByteCount
  ring

end Sys2Proof.Machine
end

