-- ==== Sys2Proof/Laws/Order.lean ====
section
/-! SUPPORT. A command whose sequence precondition holds never raises SEQUENCE (70_reset_and_hazards.md R233). -/

namespace Sys2Proof.Machine

/-- What a command that may emit finds (41_modulation.md R127). -/
theorem mayEmit_flags {s : State} (h : mayEmit s = true) : s.initDone = true ∧ s.hdrDone = true ∧ s.closed = false := by
  simp only [mayEmit, Bool.and_eq_true, Bool.not_eq_true'] at h
  exact ⟨h.1.1, h.1.2, h.2⟩

/-- Wherever it ends, it is not for its place in the session. -/
abbrev Ordered (r : Ran) : Prop := r.Sat (fun _ => True) (fun c _ => c ≠ .sequence)

theorem checkGeometry_ordered (s : State) : (checkGeometry s).Sat (fun t => t = s) (fun c _ => c ≠ .sequence) :=
  (checkGeometry_sat s).mono (fun _ h => h.1) (fun c t h => by rcases h.2 with ⟨rfl, -⟩ | ⟨rfl, -⟩ <;> decide)

theorem timingBody_ordered {s : State} (h : s.initDone = false) : Ordered (timingBody s) := by
  unfold timingBody
  rw [if_neg (by simp [h])]
  split
  · exact fun h => by cases h
  · split
    · exact fun h => by cases h
    · dsimp only
      split
      · exact fun h => by cases h
      · trivial

theorem levelsBody_ordered {s : State} (h : s.initDone = false) : Ordered (levelsBody s) := by
  unfold levelsBody
  rw [if_neg (by simp [h])]
  exact (checkGeometry_ordered s).andThen (fun t _ => trivial) (fun _ _ h => h)

theorem initBody_ordered {s : State} (h : s.initDone = false) (ht : s.timingOk = true) : Ordered (initBody s) := by
  unfold initBody
  rw [if_neg (by simp [h]), if_neg (by simp [ht])]
  refine (checkGeometry_ordered s).andThen (fun t _ => ?_) (fun _ _ h => h)
  exact (checkLevels_sat t).andThen (fun t _ => trivial) (fun c t h => by rw [h.2.1]; decide)

theorem hdrBody_ordered {s : State} (ho : s.closed = false) (h : mayWriteHeader s = true) : Ordered (hdrBody s) := by
  unfold hdrBody
  rw [if_neg (by simp [h])]
  refine (checkGeometry_ordered s).andThen (fun t ht => ?_) (fun _ _ h => h)
  refine (checkMode_sat t).andThen (fun u hu => ?_) (fun c t h => by rw [h.2.1]; decide)
  refine (checkLength_sat u).andThen (fun v hv => ?_) (fun c t h => by rw [h.2.1]; decide)
  refine (outWriteAll_sat (headerBytes v) v).andThen (fun _ _ => trivial) (fun c t h => ?_)
  rcases h.2 with rfl | ⟨-, h⟩
  · decide
  · rw [hv.1, hu.1, ht, ho] at h; cases h

theorem txnameBody_ordered {s : State} (h : mayEmit s = true) (hn : s.nameDone = false) : Ordered (txnameBody s) := by
  unfold txnameBody
  rw [if_neg (by simp [mayName, h, hn])]
  refine (emitCheck_sat _ s).andThen (fun t ht => ?_) (fun c t hc => ?_)
  · obtain ⟨rfl, -, -⟩ := ht
    refine (frameBlock_sat _).andThen (fun _ _ => trivial) (fun c u hu => ?_)
    rcases hu.2.2 with rfl | ⟨-, hc⟩
    · decide
    · have : t.closed = true := hc
      rw [(mayEmit_flags h).2.2] at this; cases this
  · rcases hc.2 with ⟨-, h'⟩ | ⟨rfl, -⟩
    · rw [h] at h'; cases h'
    · decide

theorem txrestBody_ordered {s : State} (h : mayEmit s = true) (hn : s.nameDone = true) : Ordered (txrestBody s) := by
  unfold txrestBody
  rw [if_neg (by simp [maySendData, h, hn])]
  refine (emitCheck_sat _ s).andThen (fun t ht => ?_) (fun c t hc => ?_)
  · obtain ⟨rfl, -, -⟩ := ht
    have hof : ∀ {c}, (OutputFault t c ∨ c = .ioInput) → c ≠ .sequence := fun h' => by
      rcases h' with (rfl | ⟨-, hc⟩) | rfl
      · decide
      · rw [(mayEmit_flags h).2.2] at hc; cases hc
      · decide
    split
    · refine (emitCheck_sat _ t).andThen (fun u hu => ?_) (fun c t hc => ?_)
      · rw [hu.1]
        exact (sendBuffered_sat _ _ t).mono (fun _ _ => trivial) (fun c v hv => hof hv.2.2)
      · rcases hc.2 with ⟨-, h'⟩ | ⟨rfl, -⟩
        · rw [h] at h'; cases h'
        · decide
    · exact (sendStreaming_sat _ t).mono (fun _ _ => trivial) (fun c v hv => hof hv.2)
  · rcases hc.2 with ⟨-, h'⟩ | ⟨rfl, -⟩
    · rw [h] at h'; cases h'
    · decide

end Sys2Proof.Machine
end

