-- ==== Sys2Proof/Laws/Invariant.lean ====
section
/-! SUPPORT. What keeps the invariant of a session: each update, and each body wherever it ends. -/

namespace Sys2Proof.Machine

/-- Taking a fault keeps it (60_exceptions.md R204). -/
theorem inv_takeFault {u : State} (h : Inv u) (c : FaultCode) (opc sel : Byte) (v : Nat) :
    Inv (takeFault c opc sel v u) := by
  unfold takeFault
  split
  · exact h
  · refine { h with no_fault := fun hf => (by cases hf), fault_code := fun _ => ?_ }
    refine ⟨?_, ?_, ?_⟩
    · show 1 ≤ (codeWord c).toNat
      cases c <;> decide
    · show (codeWord c).toNat ≤ 14
      cases c <;> decide
    · show (faultInfoWord opc sel).toNat < _
      rw [faultInfoWord_eq, BitVec.toNat_ofNat]
      have := opc.isLt
      have := sel.isLt
      omega

/-- Data blocks keep it, where the name block is out (or the input untouched) and the declared length has room. -/
theorem inv_sends {s t : State} (hi : Inv s) (h : Sends s t) (hm : s.hdrDone = true)
    (hn : s.nameDone = true ∨ (t.incnt = s.incnt ∧ t.eof = s.eof ∧ t.blkcnt = s.blkcnt))
    (hb : s.declared = true → ∃ n, t.outRev.length ≤ s.outRev.length + n ∧ s.sbytes.toNat + n ≤ s.declBytes.toNat) :
    Inv t := by
  obtain ⟨bs, happ, hoc, hsc⟩ := h.appended
  have hsamp := h.sampled
  have hblk := h.blk_wf
  have hf := h.frame
  have hlen : t.outRev.length = bs.length + s.outRev.length := by rw [happ, List.length_append]
  rw [hf]
  refine { hi with
    blk_wf := hblk hi.blk_wf, samples_hdr := fun _ => hm, sbytes_zero := ?_, declared_room := ?_, unread := ?_
    outcnt_eq := ?_, sbytes_le := ?_ }
  · intro hu
    obtain ⟨h1, h2⟩ := hsamp hu
    show t.sbytes = 0#64
    rw [h2]; exact hi.sbytes_zero h1
  · intro hd
    show t.sbytes.toNat ≤ s.declBytes.toNat
    obtain ⟨n, h1, h2⟩ := hb hd
    have := s.declBytes.isLt
    rw [hsc (by omega)]; omega
  · intro hname
    have hname' : s.nameDone = false := hname
    rcases hn with hn | ⟨a, b, c⟩
    · rw [hn] at hname'; cases hname'
    · show t.incnt = _ ∧ t.eof = _ ∧ t.blkcnt = _
      rw [a, b, c]; exact hi.unread hname'
  · intro hl
    have hl' : t.outRev.length < 2^64 := hl
    show t.outcnt.toNat = t.outRev.length
    have := hi.outcnt_eq (by omega)
    rw [hoc (by omega)]; omega
  · intro hl
    have hl' : t.outRev.length < 2^64 := hl
    show t.sbytes.toNat ≤ t.outRev.length
    have := hi.sbytes_le (by omega)
    rw [hsc (by omega)]; omega

/-- Bytes that are no samples keep it. -/
theorem inv_writes {s t : State} (hi : Inv s) (h : Writes s t) : Inv t := by
  obtain ⟨bs, happ, hoc⟩ := h.appended
  have hf := h.frame
  have hlen : t.outRev.length = bs.length + s.outRev.length := by rw [happ, List.length_append]
  rw [hf]
  refine { hi with outcnt_eq := ?_, sbytes_le := ?_ }
  · intro hl
    have hl' : t.outRev.length < 2^64 := hl
    show t.outcnt.toNat = t.outRev.length
    have := hi.outcnt_eq (by omega)
    rw [hoc (by omega)]; omega
  · intro hl
    have hl' : t.outRev.length < 2^64 := hl
    show s.sbytes.toNat ≤ t.outRev.length
    have := hi.sbytes_le (by omega)
    omega

/-- An emission that its command has checked for keeps it. -/
theorem inv_emits {s t : State} {n : Nat} (hi : Inv s) (hm : mayEmit s = true)
    (hr : s.declared = true → s.sbytes.toNat + n ≤ s.declBytes.toNat) (h : Emits s t)
    (hl : t.outRev.length ≤ s.outRev.length + n) : Inv t := by
  refine inv_sends hi h.sends (mayEmit_flags hm).2.1 (.inr ?_) (fun hd => ⟨n, hl, hr hd⟩)
  rw [h.frame]; exact ⟨rfl, rfl, rfl⟩

/-- Pseudocode that keeps the invariant, wherever it ends. -/
abbrev Keeps (s : State) (r : Ran) : Prop := Inv s → r.Sat Inv (fun _ => Inv)

theorem keeps_of_sat {s : State} {P : State → Prop} {Q : FaultCode → State → Prop} {r : Ran}
    (h : r.Sat P Q) (hp : Inv s → ∀ t, P t → Inv t) (hq : Inv s → ∀ c t, Q c t → Inv t) : Keeps s r :=
  fun hi => h.mono (hp hi) (hq hi)

theorem putBody_keeps (bytes : List Byte) (s : State) : Keeps s (putBody bytes s) :=
  keeps_of_sat (putBody_sat bytes s) (fun hi _ ht => inv_writes hi ht.2.1) (fun hi _ _ ht => inv_writes hi ht.1)

theorem emitbitBody_keeps (b : Bool) (s : State) : Keeps s (emitbitBody b s) :=
  keeps_of_sat (emitbitBody_sat b s) (fun hi t ht => inv_emits hi ht.1 ht.2.1 ht.2.2.1 (le_of_eq ht.2.2.2))
    (fun hi c t ht => by rcases ht with ⟨rfl, -⟩ | ⟨h1, h2, h3⟩; exacts [hi, inv_emits hi h1 h2 h3.1 h3.2.1])

theorem emitbyteBody_keeps (b : Byte) (s : State) : Keeps s (emitbyteBody b s) :=
  keeps_of_sat (emitbyteBody_sat b s) (fun hi t ht => inv_emits hi ht.1 ht.2.1 ht.2.2.1 (le_of_eq ht.2.2.2))
    (fun hi c t ht => by rcases ht with ⟨rfl, -⟩ | ⟨h1, h2, h3⟩; exacts [hi, inv_emits hi h1 h2 h3.1 h3.2.1])

theorem txblockBody_keeps (s : State) : Keeps s (txblockBody s) :=
  keeps_of_sat (txblockBody_sat s) (fun hi t ht => inv_emits hi ht.1 ht.2.1 ht.2.2.1 (le_of_eq ht.2.2.2))
    (fun hi c t ht => by rcases ht with ⟨rfl, -⟩ | ⟨h1, h2, h3⟩; exacts [hi, inv_emits hi h1 h2 h3.1 h3.2.1])

theorem inv_setNameBlock {s : State} (hi : Inv s) : Inv (setBlock (nameBlock s) s) :=
  { hi with blk_wf := wf_cellsFrom (by rw [length_nameBlock]) }

theorem inv_withBlk {s : State} {m : Memory} (hi : Inv s) (hm : Memory.wf m = true) : Inv { s with blk := m } :=
  { hi with blk_wf := hm }

theorem txnameBody_keeps (s : State) : Keeps s (txnameBody s) :=
  keeps_of_sat (txnameBody_sat s) (fun hi t ht => by
      obtain ⟨h1, h2, h3, u, h4, rfl⟩ := ht
      have hu : Inv u := inv_emits (s := setBlock (nameBlock s) s) (inv_setNameBlock hi) h1 h2 h4.1 (le_of_eq h4.2)
      have hh : u.hdrDone = true := by rw [h4.1.frame]; exact (mayEmit_flags h1).2.1
      exact { hu with name_hdr := fun _ => hh, unread := fun h => (by cases h) })
    (fun hi c t ht => by
      rcases ht with ⟨rfl, -⟩ | ⟨h1, h2, h3, h4⟩
      exacts [hi, inv_emits (s := setBlock (nameBlock s) s) (inv_setNameBlock hi) h1 h2 h4.1 h4.2.1])

theorem txdataBody_keeps (c : U32) (s : State) : Keeps s (txdataBody c s) :=
  keeps_of_sat (txdataBody_sat c s)
    (fun hi t ht => inv_sends hi ht.2.2.2.1 (mayEmit_flags ht.1).2.1 (.inl ht.2.2.1) (fun hd => ⟨_, le_of_eq ht.2.2.2.2, ht.2.1 hd⟩))
    (fun hi c t ht => by
      rcases ht with ⟨rfl, -⟩ | ⟨h1, h2, h3, h4⟩
      exacts [hi, inv_sends hi h4.1 (mayEmit_flags h1).2.1 (.inl h3) (fun hd => ⟨_, h4.2.1, h2 hd⟩)])

theorem Inv.buffered_of_declared {s : State} (hi : Inv s) (hd : s.declared = true) : isBuffered s = true := by
  have := hi.declared_known (hi.declared_hdr hd)
  rw [hd] at this
  simp only [lengthKnown, Bool.true_eq, Bool.and_eq_true] at this
  exact this.2

theorem txrestBody_keeps (s : State) : Keeps s (txrestBody s) :=
  keeps_of_sat (txrestBody_sat s) (fun hi t ht => inv_sends hi ht.2.2.1 (mayEmit_flags ht.1).2.1 (.inl ht.2.1) (fun hd =>
      have hb := ht.2.2.2 (hi.buffered_of_declared hd)
      ⟨_, le_of_eq hb.1.2, hb.2 hd⟩))
    (fun hi c t ht => by
      rcases ht with ⟨rfl, -⟩ | ⟨h1, h2, h3, -, h4⟩
      · exact hi
      · exact inv_sends hi h3 (mayEmit_flags h1).2.1 (.inl h2) (fun hd =>
          have hb := h4 (hi.buffered_of_declared hd)
          ⟨_, hb.1.2.1, hb.2 hd⟩))

theorem closeBody_keeps (s : State) : Keeps s (closeBody s) :=
  keeps_of_sat (closeBody_sat s) (fun hi t ht => by obtain ⟨-, -, rfl⟩ := ht; exact { hi with })
    (fun hi c t ht => by rcases ht with ⟨rfl, -⟩ | ⟨rfl, -⟩; exacts [hi, { hi with }])

theorem timingBody_keeps (s : State) : Keeps s (timingBody s) :=
  keeps_of_sat (timingBody_sat s) (fun hi t ht => by
      obtain ⟨h1, h2, n, -, h3, h4, rfl⟩ := ht
      obtain ⟨e1, e2⟩ := actualRate_toNat h2 h4
      have hhd : s.hdrDone = false := by
        cases h : s.hdrDone
        · rfl
        · have := hi.hdr_init h; rw [h1] at this; cases this
      have hdd : s.declared = false := by
        cases h : s.declared
        · rfl
        · have := hi.declared_hdr h; rw [hhd] at this; cases this
      refine { hi with half_range := fun _ => ?_, actRate_eq := fun _ => ?_, untimed := fun h => (by cases h)
                       init_timed := fun _ => rfl, declared_eq := fun h => ?_ }
      · show 1 ≤ (BitVec.ofNat 32 n).toNat ∧ (BitVec.ofNat 32 n).toNat ≤ 128
        rw [e2]; exact ⟨h3, h4⟩
      · refine ⟨s.baud.toNat, h2, ?_⟩
        show (BitVec.ofNat 32 _).toNat = 2 * (BitVec.ofNat 32 _).toNat * _
        rw [e1, e2]
      · have h' : s.declared = true := h
        rw [hdd] at h'; cases h')
    (fun hi c t ht => by rw [ht.1]; exact hi)

/-- Before INIT nothing of the output has begun. -/
theorem Inv.early {s : State} (hi : Inv s) (h1 : s.initDone = false) :
    s.hdrDone = false ∧ s.declared = false ∧ s.samples = false ∧ s.nameDone = false := by
  have hhd : s.hdrDone = false := by
    cases h : s.hdrDone
    · rfl
    · have := hi.hdr_init h; rw [h1] at this; cases this
  refine ⟨hhd, ?_, ?_, ?_⟩
  · cases h : s.declared
    · rfl
    · have := hi.declared_hdr h; rw [hhd] at this; cases this
  · cases h : s.samples
    · rfl
    · have := hi.samples_hdr h; rw [hhd] at this; cases this
  · cases h : s.nameDone
    · rfl
    · have := hi.name_hdr h; rw [hhd] at this; cases this

theorem levelsBody_keeps (s : State) : Keeps s (levelsBody s) :=
  keeps_of_sat (levelsBody_sat s) (fun hi t ht => by
      obtain ⟨h1, h2, h3, rfl⟩ := ht
      have hno : ∀ {p : Prop}, s.initDone = true → p := fun h => by rw [h1] at h; cases h
      exact { hi with init_levels := fun h => hno h, init_buffers := fun h => hno h })
    (fun hi c t ht => by rw [ht.1]; exact hi)

theorem initBody_keeps (s : State) : Keeps s (initBody s) :=
  keeps_of_sat (initBody_sat s) (fun hi t ht => by
      obtain ⟨h1, h2, h3, h4, h5, h6, rfl⟩ := ht
      exact { hi with init_timed := fun _ => h2, init_geometry := fun _ => ⟨h3, h4⟩, init_levels := fun _ => ⟨h5, h6⟩
                      init_buffers := fun _ => ⟨rfl, rfl⟩,
                      hdr_init := fun _ => rfl })
    (fun hi c t ht => by rw [ht.1]; exact hi)

theorem dataBytes_fit {s : State} (h : HdrReady s) (hk : lengthKnown s = true) :
    (BitVec.ofNat 32 (dataBytes s)).toNat = dataBytes s := by
  have := h.length_fits hk
  unfold riffLen at this
  rw [BitVec.toNat_ofNat]; omega

theorem inv_recordHeader {s : State} (hi : Inv s) (h : HdrReady s) : Inv (recordHeader s) := by
  have ho := h.ordered
  simp only [mayWriteHeader, Bool.and_eq_true, Bool.not_eq_true'] at ho
  obtain ⟨⟨⟨o1, o2⟩, o3⟩, o4⟩ := ho
  have hd : s.declared = false := by
    cases h : s.declared
    · rfl
    · have := hi.declared_hdr h; rw [o2] at this; cases this
  have hs0 := hi.sbytes_zero o3
  unfold recordHeader
  split
  · rename_i hk
    have hk' : lengthKnown { s with declBytes := BitVec.ofNat 32 (dataBytes s), declared := true, hdrDone := true } = true := hk
    exact { hi with hdr_init := fun _ => o1, hdr_mode := fun _ => h.mode_legal, samples_hdr := fun _ => rfl
                    name_hdr := fun _ => rfl
                    declared_known := fun _ => hk'.symm, declared_hdr := fun _ => rfl, declared_eq := fun _ => dataBytes_fit h hk,
                    declared_room := fun _ => (by show s.sbytes.toNat ≤ _; rw [hs0]; exact Nat.zero_le _),
                    undeclared := fun h => (by cases h) }
  · rename_i hk
    have hk' : lengthKnown { s with hdrDone := true } = false := (Bool.eq_false_iff.mpr hk : lengthKnown s = false)
    exact { hi with hdr_init := fun _ => o1, hdr_mode := fun _ => h.mode_legal, samples_hdr := fun _ => rfl
                    name_hdr := fun _ => rfl
                    declared_known := fun _ => hd.trans hk'.symm, declared_hdr := fun _ => rfl }

theorem HdrReady.of_writes {s u : State} (h : HdrReady s) (hw : Writes s u) : HdrReady u := by
  rw [hw.frame]; exact ⟨h.ordered, h.width_legal, h.container_legal, h.mode_legal, h.length_fits⟩

theorem hdrBody_keeps (s : State) : Keeps s (hdrBody s) :=
  keeps_of_sat (hdrBody_sat s) (fun hi t ht => by
      obtain ⟨h1, u, hw, -, rfl⟩ := ht
      exact inv_recordHeader (inv_writes hi hw) (HdrReady.of_writes h1 hw))
    (fun hi c t ht => by rcases ht with ⟨rfl, -⟩ | ⟨-, hw, -⟩; exacts [hi, inv_writes hi hw])

theorem runBody_keeps (s : State) : Keeps s (runBody s) := by
  intro hi
  unfold runBody
  split
  · exact hi
  · refine (timingBody_keeps s hi).andThen (fun t ht => ?_) (fun _ _ h => h)
    refine (levelsBody_keeps t ht).andThen (fun t ht => ?_) (fun _ _ h => h)
    refine (initBody_keeps t ht).andThen (fun t ht => ?_) (fun _ _ h => h)
    refine (hdrBody_keeps t ht).andThen (fun t ht => ?_) (fun _ _ h => h)
    refine (txnameBody_keeps t ht).andThen (fun t ht => ?_) (fun _ _ h => h)
    refine (txrestBody_keeps t ht).andThen (fun t ht => ?_) (fun _ _ h => h)
    exact closeBody_keeps t ht

theorem inv_runCommand {opc sel : Byte} {body : State → Ran} {s t : State} (hk : Keeps s (body s))
    (hi : Inv s) (h : runCommand opc sel body s = .next t) : Inv t := by
  rcases runCommand_sat h (hk hi) with ⟨-, rfl⟩ | ⟨-, h | ⟨c, v, u, h', rfl⟩⟩
  · exact hi
  · exact h
  · exact inv_takeFault h' c _ _ v

end Sys2Proof.Machine
end

