-- ==== Sys2Proof/Laws/PerInstr.lean ====
section
/-! SUPPORT. Statements about every instruction, one lemma per constructor of Instr. -/

namespace Sys2Proof.Laws.WordFields

open Sys2Proof Sys2Proof.Machine

/-- The word of an instruction: a listed OPC (30_encoding.md R73), SEL and IMM as its row of R71 has them, RSV zero (R70). -/
def Statement (i : Instr) : Prop :=
  (fieldOpc (encode i)).toNat ∈ listedOpcodes ∧ fieldSel (encode i) = selOf i ∧ fieldImm (encode i) = immOf i ∧
    fieldRsv (encode i) = 0#16

theorem opcodeByte_listed (o : Opcode) : (opcodeByte o).toNat ∈ listedOpcodes := by cases o <;> decide

/-- The word is put together and taken apart the same way. -/
theorem fields (i : Instr) : Statement i := by
  unfold Statement encode
  rw [fieldOpc_commandWord, fieldSel_commandWord, fieldImm_commandWord, fieldRsv_commandWord]
  exact ⟨opcodeByte_listed _, rfl, rfl, rfl⟩

theorem nop : Statement (.nop) := fields _

theorem wrcfg (sel : Byte) (imm : U32) : Statement (.wrcfg sel imm) := fields _

theorem rdreg (sel : Byte) : Statement (.rdreg sel) := fields _

theorem blkwr (index v : Byte) : Statement (.blkwr index v) := fields _

theorem blkclr : Statement (.blkclr) := fields _

theorem timing : Statement (.timing) := fields _

theorem levels : Statement (.levels) := fields _

theorem init : Statement (.init) := fields _

theorem emitbit (b : Bool) : Statement (.emitbit b) := fields _

theorem emitbyte (v : Byte) : Statement (.emitbyte v) := fields _

theorem txblock : Statement (.txblock) := fields _

theorem txname : Statement (.txname) := fields _

theorem txdata (count : U32) : Statement (.txdata count) := fields _

theorem txrest : Statement (.txrest) := fields _

theorem hdr : Statement (.hdr) := fields _

theorem put8 (v : Byte) : Statement (.put8 v) := fields _

theorem put16le (v : U16) : Statement (.put16le v) := fields _

theorem put16be (v : U16) : Statement (.put16be v) := fields _

theorem put32le (v : U32) : Statement (.put32le v) := fields _

theorem put32be (v : U32) : Statement (.put32be v) := fields _

theorem puttag (t : U32) : Statement (.puttag t) := fields _

theorem run : Statement (.run) := fields _

theorem close : Statement (.close) := fields _

theorem reset : Statement (.reset) := fields _

end Sys2Proof.Laws.WordFields
end

