-- ==== Sys2Proof/Laws/Run.lean ====
section
/-! SUPPORT. What the bodies that RUN executes in place can change, one after the other; no command but RESET clears a flag (10_state.md R23). -/

namespace Sys2Proof.Machine

/-! ### The flags of STATUS -/

/-- No flag of STATUS but P has been cleared (10_state.md R23). -/
def FlagsKept (s t : State) : Prop :=
  ∀ flag ∈ [State.timingOk, State.initDone, State.hdrDone, State.nameDone, State.samples, State.declared, State.closed,
    State.fault, State.eof], flag s = true → flag t = true

theorem FlagsKept.refl (s : State) : FlagsKept s s := fun _ _ h => h

theorem FlagsKept.trans {s t u : State} (h : FlagsKept s t) (h' : FlagsKept t u) : FlagsKept s u :=
  fun flag hm hs => h' flag hm (h flag hm hs)

/-- One implication for each flag. -/
theorem flagsKept_iff {s t : State} : FlagsKept s t ↔
    (s.timingOk = true → t.timingOk = true) ∧ (s.initDone = true → t.initDone = true) ∧ (s.hdrDone = true → t.hdrDone = true) ∧
    (s.nameDone = true → t.nameDone = true) ∧ (s.samples = true → t.samples = true) ∧ (s.declared = true → t.declared = true) ∧
    (s.closed = true → t.closed = true) ∧ (s.fault = true → t.fault = true) ∧ (s.eof = true → t.eof = true) := by
  simp only [FlagsKept, List.forall_mem_cons, List.not_mem_nil, false_implies, implies_true, and_true]

theorem Sends.flagsKept {s t : State} (h : Sends s t) : FlagsKept s t := by
  have hs : s.samples = true → t.samples = true := fun hs => by
    cases ht : t.samples
    · rw [(h.sampled ht).1] at hs; exact hs
    · rfl
  exact flagsKept_iff.2 ⟨by rw [h.frame]; exact id, by rw [h.frame]; exact id, by rw [h.frame]; exact id, by rw [h.frame]; exact id, hs,
    by rw [h.frame]; exact id, by rw [h.frame]; exact id, by rw [h.frame]; exact id, h.eof_kept⟩

theorem Emits.flagsKept {s t : State} (h : Emits s t) : FlagsKept s t := h.sends.flagsKept

theorem Writes.flagsKept {s t : State} (h : Writes s t) : FlagsKept s t :=
  flagsKept_iff.2 (by rw [h.frame]; exact ⟨id, id, id, id, id, id, id, id, id⟩)

theorem flagsKept_takeFault (c : FaultCode) (opc sel : Byte) (v : Nat) (u : State) : FlagsKept u (takeFault c opc sel v u) := by
  unfold takeFault
  split
  · exact FlagsKept.refl u
  · exact flagsKept_iff.2 ⟨id, id, id, id, id, id, id, fun _ => rfl, id⟩

/-- A command clears no flag if its pseudocode does not, wherever it ends. -/
theorem runCommand_flagsKept {opc sel : Byte} {body : State → Ran} {s t : State} (h : runCommand opc sel body s = .next t)
    (hb : (body s).Sat (FlagsKept s) (fun _ => FlagsKept s)) : FlagsKept s t := by
  rcases runCommand_sat h hb with ⟨-, rfl⟩ | ⟨-, h | ⟨c, v, u, hu, rfl⟩⟩
  · exact .refl _
  · exact h
  · exact hu.trans (flagsKept_takeFault _ _ _ _ _)

theorem flagsKept_recordHeader (s : State) : FlagsKept s (recordHeader s) := by
  unfold recordHeader
  split
  · exact flagsKept_iff.2 ⟨id, id, fun _ => rfl, id, id, fun _ => rfl, id, id, id⟩
  · exact flagsKept_iff.2 ⟨id, id, fun _ => rfl, id, id, id, id, id, id⟩

/-- `t` is `s` after some of the bodies of RUN (44_driver.md R185): what the host wrote stays, but for the two level words. -/
structure Runs (s t : State) : Prop where
  frame : t = { s with
    half := t.half, actRate := t.actRate, timingOk := t.timingOk, lowValue := t.lowValue, highValue := t.highValue
    hiBuf := t.hiBuf, loBuf := t.loBuf, pol := t.pol, initDone := t.initDone
    hostRefuses := t.hostRefuses, drawn := t.drawn, outRev := t.outRev, outcnt := t.outcnt, sbytes := t.sbytes
    samples := t.samples, blk := t.blk, blkcnt := t.blkcnt, incnt := t.incnt, inPort := t.inPort, eof := t.eof
    declBytes := t.declBytes, declared := t.declared, hdrDone := t.hdrDone, nameDone := t.nameDone, closed := t.closed }
  appended : ∃ bs, t.outRev = bs ++ s.outRev
  flags : FlagsKept s t

theorem Runs.refl (s : State) : Runs s s := ⟨rfl, ⟨[], rfl⟩, .refl s⟩

theorem Runs.trans {s t u : State} (h : Runs s t) (h' : Runs t u) : Runs s u := by
  obtain ⟨bs, hb⟩ := h.appended
  obtain ⟨cs, hc⟩ := h'.appended
  refine ⟨?_, ⟨cs ++ bs, by rw [hc, hb, List.append_assoc]⟩, h.flags.trans h'.flags⟩
  have := h'.frame
  rw [h.frame] at this
  exact this

theorem Writes.runs {s t : State} (h : Writes s t) : Runs s t := by
  refine ⟨?_, h.appended.imp fun _ h => h.1, h.flagsKept⟩
  rw [h.frame]

theorem Sends.runs {s t : State} (h : Sends s t) : Runs s t := by
  refine ⟨?_, h.appended.imp fun _ h => h.1, h.flagsKept⟩
  rw [h.frame]

theorem Emits.runs {s t : State} (h : Emits s t) : Runs s t := h.sends.runs

theorem timingBody_runs (s : State) : (timingBody s).Sat (Runs s) (fun _ => Runs s) :=
  (timingBody_sat s).mono (fun t ht => by
      obtain ⟨-, -, n, -, -, -, rfl⟩ := ht
      exact ⟨rfl, ⟨[], rfl⟩, flagsKept_iff.2 ⟨fun _ => rfl, id, id, id, id, id, id, id, id⟩⟩)
    (fun c t ht => by rw [ht.1]; exact Runs.refl s)

theorem levelsBody_runs (s : State) : (levelsBody s).Sat (Runs s) (fun _ => Runs s) :=
  (levelsBody_sat s).mono (fun t ht => by
      obtain ⟨-, -, -, rfl⟩ := ht
      exact ⟨rfl, ⟨[], rfl⟩, flagsKept_iff.2 ⟨id, id, id, id, id, id, id, id, id⟩⟩)
    (fun c t ht => by rw [ht.1]; exact Runs.refl s)

theorem initBody_runs (s : State) : (initBody s).Sat (Runs s) (fun _ => Runs s) :=
  (initBody_sat s).mono (fun t ht => by
      obtain ⟨-, -, -, -, -, -, rfl⟩ := ht
      exact ⟨rfl, ⟨[], rfl⟩, flagsKept_iff.2 ⟨id, fun _ => rfl, id, id, id, id, id, id, id⟩⟩)
    (fun c t ht => by rw [ht.1]; exact Runs.refl s)

theorem runs_recordHeader (s : State) : Runs s (recordHeader s) := by
  refine ⟨?_, ⟨[], ?_⟩, flagsKept_recordHeader s⟩ <;> (unfold recordHeader; split <;> rfl)

theorem hdrBody_runs (s : State) : (hdrBody s).Sat (Runs s) (fun _ => Runs s) :=
  (hdrBody_sat s).mono (fun t ht => by obtain ⟨-, u, hw, -, rfl⟩ := ht; exact hw.runs.trans (runs_recordHeader u))
    (fun c t ht => by rcases ht with ⟨rfl, -⟩ | ⟨-, hw, -⟩; exacts [Runs.refl _, hw.runs])

theorem runs_nameBlock (s : State) : Runs s (setBlock (nameBlock s) s) := (sends_nameBlock s).runs

theorem txnameBody_runs (s : State) : (txnameBody s).Sat (Runs s) (fun _ => Runs s) :=
  (txnameBody_sat s).mono (fun t ht => by
      obtain ⟨-, -, -, u, hw, rfl⟩ := ht
      exact ((runs_nameBlock s).trans hw.1.runs).trans
        ⟨rfl, ⟨[], rfl⟩, flagsKept_iff.2 ⟨id, id, id, fun _ => rfl, id, id, id, id, id⟩⟩)
    (fun c t ht => by
      rcases ht with ⟨rfl, -⟩ | ⟨-, -, -, hw⟩
      exacts [Runs.refl _, (runs_nameBlock s).trans hw.1.runs])

theorem txrestBody_runs (s : State) : (txrestBody s).Sat (Runs s) (fun _ => Runs s) :=
  (txrestBody_sat s).mono (fun t ht => ht.2.2.1.runs)
    (fun c t ht => by rcases ht with ⟨rfl, -⟩ | ⟨-, -, hw, -⟩; exacts [Runs.refl _, hw.runs])

theorem runs_drewOne (s : State) : Runs s s.drewOne :=
  ⟨rfl, ⟨[], rfl⟩, flagsKept_iff.2 ⟨id, id, id, id, id, id, id, id, id⟩⟩

theorem closeBody_runs (s : State) : (closeBody s).Sat (Runs s) (fun _ => Runs s) :=
  (closeBody_sat s).mono (fun t ht => by
      obtain ⟨-, -, rfl⟩ := ht
      exact ⟨rfl, ⟨[], rfl⟩, flagsKept_iff.2 ⟨id, id, id, id, id, id, fun _ => rfl, id, id⟩⟩)
    (fun c t ht => by rcases ht with ⟨rfl, -⟩ | ⟨rfl, -⟩; exacts [Runs.refl _, runs_drewOne s])

theorem Runs.next {s t : State} {r : Ran} (h : Runs s t) (hr : r.Sat (Runs t) (fun _ => Runs t)) : r.Sat (Runs s) (fun _ => Runs s) :=
  hr.mono (fun _ => h.trans) (fun _ _ => h.trans)

/-- RUN, wherever it ends. -/
theorem runBody_runs (s : State) : (runBody s).Sat (Runs s) (fun _ => Runs s) := by
  unfold runBody
  split
  · exact Runs.refl s
  · refine (timingBody_runs s).andThen (fun t ht => ?_) (fun _ _ h => h)
    refine (ht.next (levelsBody_runs t)).andThen (fun t ht => ?_) (fun _ _ h => h)
    refine (ht.next (initBody_runs t)).andThen (fun t ht => ?_) (fun _ _ h => h)
    refine (ht.next (hdrBody_runs t)).andThen (fun t ht => ?_) (fun _ _ h => h)
    refine (ht.next (txnameBody_runs t)).andThen (fun t ht => ?_) (fun _ _ h => h)
    refine (ht.next (txrestBody_runs t)).andThen (fun t ht => ?_) (fun _ _ h => h)
    exact ht.next (closeBody_runs t)

end Sys2Proof.Machine
end

