-- ==== Sys2Proof/Tests/Slice0.lean ====
section
/-! SUPPORT. Tests: words written out from 30_encoding.md, the vectors of 95_test_vectors.md on small states, and a witness for the hypotheses of each statement. -/

namespace Sys2Proof.Tests

open Sys2Proof Sys2Proof.Machine

/-! ### The engine and the states of 95_test_vectors.md -/

/-- The parameters of the vectors: MIN_SAMPLE_RATE = 1, BAUD_ALT = 1234 (V2.24). -/
def engine : Config where
  baudAlt := 1234
  minSampleRate := 1
  rounding := .ceil
  syncByte := 0x16#8
  stxByte := 0x02#8
  etxByte := 0x03#8
  initPolarity := false
  rawConvention := .chunk
  annotation := (0x00#8, 0x00#8, 0x00#8, 0x00#8)
  baudAlt_legal := by decide
  minSampleRate_legal := by decide

/-- S0: reset, nothing else; the host grants `n` accesses and refuses the next one. -/
def s0 (n : Nat) : State := { State.powerOn engine with hostRefuses := List.replicate n false ++ [true], inPort := some [1#8, 2#8] }

/-- CONFIG 700, 1400, 8, container, mode: H = 1. -/
def configured (n : Nat) (container mode : U32) : State :=
  { s0 n with baud := 700#32, reqRate := 1400#32, width := 8#32, container := container, inputMode := mode }

/-- CONFIG, then SETUP (TIMING, LEVELS, INIT): 8 bits, LOW 0x40, HIGH 0xD6 (V3.1, V3.3). -/
def setUp (n : Nat) (container mode : U32) : State :=
  { configured n container mode with
    half := 1#32
    actRate := 1400#32
    timingOk := true
    lowValue := 0x40#32
    highValue := 0xD6#32
    hiBuf := Vector.replicate 128 0xD6#32
    loBuf := Vector.replicate 128 0x40#32
    initDone := true }

/-- R8H1: RAW, STREAMING, HDR done. -/
def r8h1 (n : Nat) : State := { setUp n 3#32 2#32 with hdrDone := true }

/-- R8H1N: as R8H1, the name block out. -/
def r8h1n (n : Nat) : State := { r8h1 n with nameDone := true }

/-- The state a command leaves. -/
def after (i : Instr) (s : State) : Option State :=
  match exec i s with
  | .next t => some t
  | _ => none

/-- The fault a command leaves: code, info, value. -/
def faultAfter (i : Instr) (s : State) : Option (U32 × U32 × U32) :=
  (after i s).map fun t => (t.faultCode, t.faultInfo, t.faultValue)

/-! ### WellFormed: the one check beyond the operand types refuses -/

theorem test_wellFormed_txdata_0 : (Instr.txdata 0#32).wellFormed = false := by decide
theorem test_wellFormed_txdata_254 : (Instr.txdata 254#32).wellFormed = false := by decide
theorem test_wellFormed_txdata_bounds :
    (Instr.txdata 1#32).wellFormed = true ∧ (Instr.txdata 253#32).wellFormed = true := by decide

/-! ### Decoding: OPC, SEL, RSV, IMM written out from 30_encoding.md R70, R71, R73 -/

theorem test_decode_nop : decode 0x0100000000000000#64 = .instr .nop := by decide
/-- 44_driver.md R181 -/
theorem test_decode_wrcfg : decode 0x02000000000002BC#64 = .instr (.wrcfg 0#8 700#32) := by decide
theorem test_decode_rdreg : decode 0x0318000000000000#64 = .instr (.rdreg 24#8) := by decide
theorem test_decode_blkwr : decode 0x04FF000000000041#64 = .instr (.blkwr 255#8 0x41#8) := by decide
theorem test_decode_blkclr : decode 0x0500000000000000#64 = .instr .blkclr := by decide
theorem test_decode_timing : decode 0x1000000000000000#64 = .instr .timing := by decide
theorem test_decode_levels : decode 0x1100000000000000#64 = .instr .levels := by decide
theorem test_decode_init : decode 0x1200000000000000#64 = .instr .init := by decide
theorem test_decode_emitbit : decode 0x2000000000000001#64 = .instr (.emitbit true) := by decide
theorem test_decode_emitbyte : decode 0x21000000000000A5#64 = .instr (.emitbyte 0xA5#8) := by decide
theorem test_decode_txblock : decode 0x3000000000000000#64 = .instr .txblock := by decide
theorem test_decode_txname : decode 0x3100000000000000#64 = .instr .txname := by decide
theorem test_decode_txdata : decode 0x32000000000000FD#64 = .instr (.txdata 253#32) := by decide
theorem test_decode_txrest : decode 0x3300000000000000#64 = .instr .txrest := by decide
theorem test_decode_hdr : decode 0x4000000000000000#64 = .instr .hdr := by decide
theorem test_decode_put8 : decode 0x5000000000000041#64 = .instr (.put8 0x41#8) := by decide
theorem test_decode_put16le : decode 0x5001000000001234#64 = .instr (.put16le 0x1234#16) := by decide
theorem test_decode_put16be : decode 0x5002000000001234#64 = .instr (.put16be 0x1234#16) := by decide
theorem test_decode_put32le : decode 0x5003000000002BC0#64 = .instr (.put32le 0x2BC0#32) := by decide
theorem test_decode_put32be : decode 0x5004000000002BC0#64 = .instr (.put32be 0x2BC0#32) := by decide
theorem test_decode_puttag : decode 0x5005000052494646#64 = .instr (.puttag 0x52494646#32) := by decide
theorem test_decode_run : decode 0x6000000000000000#64 = .instr .run := by decide
theorem test_decode_close : decode 0x6100000000000000#64 = .instr .close := by decide
theorem test_decode_reset : decode 0x7F00000000000000#64 = .instr .reset := by decide
/-- V8.12, V8.13, V8.15, V8.16, V1.11, V4.20: reserved OPC, RSV not zero, SEL or IMM outside the row. -/
theorem test_decode_refuses :
    decode 0x0000000000000000#64 = .illegalCommand 0x00#8 ∧ decode 0x8000000000000000#64 = .illegalCommand 0x80#8 ∧
    decode 0x0100010000000000#64 = .illegalOperand 0x100#32 ∧ decode 0x3200000200000001#64 = .illegalOperand 0x2#32 ∧
    decode 0x5006000000000000#64 = .illegalOperand 0#32 ∧ decode 0x2001000000000000#64 = .illegalOperand 0#32 := by decide
/-- The least significant bit of the table's first word is IMM[0] (spec/opcode_table.json). -/
theorem test_decodeTableWord : decodeTableWord 64 0x0403000000000041 = some (.blkwr 3#8 0x41#8) := by decide

/-! ### Vectors of 95_test_vectors.md, one step each -/

/-- V7.1 -/
theorem test_nop : (after .nop (s0 0)).map State.out = some [] := by decide
/-- V7.4 -/
theorem test_wrcfg_width : (after (.wrcfg 2#8 12#32) (s0 0)).map State.width = some 12#32 := by decide
/-- V7.5 -/
theorem test_wrcfg_readOnly : faultAfter (.wrcfg 11#8 1#32) (s0 0) = some (0x0D#32, 0x0B02#32, 0x0B#32) := by decide
/-- V7.14 -/
theorem test_rdreg_status : (after (.rdreg 13#8) (r8h1 0)).map State.responses = some [0x0E#32] := by decide
/-- V7.11 -/
theorem test_rdreg_25 : faultAfter (.rdreg 25#8) (s0 0) = some (0x0D#32, 0x1903#32, 0x19#32) := by decide
/-- V5.1 -/
theorem test_blkwr : (after (.blkwr 3#8 0x41#8) (r8h1 0)).map (fun t => readCell t.blk 3) = some 0x41#8 := by decide
/-- V5.24 -/
theorem test_blkclr : (after .blkclr (setBlockByte 3#8 0x41#8 (r8h1 0))).map (fun t => readCell t.blk 3) = some 0#8 := by
  decide +kernel
/-- V2.6 -/
theorem test_timing : (after .timing { s0 0 with baud := 700#32, reqRate := 11025#32 }).map
    (fun t => (t.half, t.actRate)) = some (8#32, 11200#32) := by decide
/-- V8.1 -/
theorem test_timing_baud : faultAfter .timing { s0 0 with reqRate := 11200#32 } = some (0x01#32, 0x0010#32, 0#32) := by
  decide
/-- V3.2 -/
theorem test_levels_simple : (after .levels { s0 0 with width := 8#32, container := 2#32 }).map
    (fun t => (t.lowValue, t.highValue)) = some (0xC0#32, 0x56#32) := by decide
/-- V3.7 -/
theorem test_levels_chunk24 : (after .levels { s0 0 with width := 24#32, container := 1#32 }).map
    (fun t => (t.lowValue, t.highValue)) = some (0xBF7CEE#32, 0x56C8B4#32) := by decide
/-- V3.21 -/
theorem test_init_untimed : faultAfter .init { s0 0 with width := 8#32, container := 1#32 } =
    some (0x0E#32, 0x0012#32, 0#32) := by decide
/-- V3.19 -/
theorem test_init_level : faultAfter .init { s0 0 with width := 8#32, container := 1#32, lowValue := 256#32, timingOk := true } =
    some (0x07#32, 0x0012#32, 0x100#32) := by decide
/-- V4.1 -/
theorem test_emitbit_0 : (after (.emitbit false) (r8h1 2)).map (fun t => (t.out, t.pol)) =
    some ([0xD6#8, 0xD6#8], true) := by decide
/-- V4.2 -/
theorem test_emitbit_1 : (after (.emitbit true) (r8h1 2)).map (fun t => (t.out, t.pol)) =
    some ([0xD6#8, 0x40#8], false) := by decide
/-- V4.14 -/
theorem test_emitbyte_16 : (after (.emitbyte 0x16#8) (r8h1 16)).map State.out =
    some [0xD6#8, 0xD6#8, 0x40#8, 0xD6#8, 0x40#8, 0xD6#8, 0x40#8, 0x40#8,
      0xD6#8, 0x40#8, 0xD6#8, 0xD6#8, 0x40#8, 0x40#8, 0xD6#8, 0xD6#8] := by decide
/-- V4.22: R8H8, the 21st byte refused. -/
theorem test_emitbyte_refused : (after (.emitbyte 0xA5#8) { r8h1 20 with half := 8#32, reqRate := 11200#32, actRate := 11200#32 }).map
    (fun t => (t.out.drop 14, t.pol, t.sbytes, t.faultCode, t.faultInfo, t.faultValue)) =
    some ([0x40#8, 0x40#8, 0xD6#8, 0xD6#8, 0xD6#8, 0xD6#8], true, 20#64, 0x0A#32, 0x0021#32, 0x14#32) := by decide
/-- 42_framer.md R142, 20_memory.md R53: the host refuses the third sample byte of the block. -/
theorem test_txblock_refused : (after .txblock (r8h1 2)).map (fun t => (t.out, t.faultCode, t.faultValue)) =
    some ([0xD6#8, 0xD6#8], 0x0A#32, 2#32) := by decide
/-- V5.9 -/
theorem test_txname_twice : faultAfter .txname (r8h1n 0) = some (0x0E#32, 0x0031#32, 0#32) := by decide
/-- V5.11: the input holds 2 of the 3 bytes. -/
theorem test_txdata_short : (after (.txdata 3#32) (r8h1n 3)).map (fun t => (t.faultCode, t.faultValue, t.incnt)) =
    some (0x0B#32, 2#32, 2#64) := by decide
/-- V5.13 -/
theorem test_txdata_254 : faultAfter (.txdata 254#32) (r8h1n 0) = some (0x0D#32, 0x0032#32, 0xFE#32) := by decide
/-- V5.14 -/
theorem test_txrest_empty : (after .txrest { r8h1n 1 with inPort := some [] }).map (fun t => (t.out, t.blkcnt, t.eof)) =
    some ([], 0#16, true) := by decide
/-- V5.22: the read of the second byte is refused. -/
theorem test_txrest_refused : (after .txrest (r8h1n 1)).map (fun t => (t.out, t.faultCode, t.incnt)) =
    some ([], 0x0B#32, 1#64) := by decide
/-- V6.4, at H = 1: encoding code 2, rate 1400. -/
theorem test_hdr_simple : (after .hdr (setUp 28 2#32 2#32)).map State.out =
    some [0x2E#8, 0x73#8, 0x6E#8, 0x64#8, 0x00#8, 0x00#8, 0x00#8, 0x1C#8, 0xFF#8, 0xFF#8, 0xFF#8, 0xFF#8,
      0x00#8, 0x00#8, 0x00#8, 0x02#8, 0x00#8, 0x00#8, 0x05#8, 0x78#8, 0x00#8, 0x00#8, 0x00#8, 0x01#8,
      0x00#8, 0x00#8, 0x00#8, 0x00#8] := by decide
/-- V6.13 -/
theorem test_hdr_mode : faultAfter .hdr (setUp 44 1#32 5#32) = some (0x06#32, 0x0040#32, 5#32) := by decide
/-- V1.1 -/
theorem test_put8 : (after (.put8 0x41#8) (s0 1)).map State.out = some [0x41#8] := by decide
/-- V1.2 -/
theorem test_put16le : (after (.put16le 0x1234#16) (s0 2)).map State.out = some [0x34#8, 0x12#8] := by decide
/-- V1.3 -/
theorem test_put16be : (after (.put16be 0x1234#16) (s0 2)).map State.out = some [0x12#8, 0x34#8] := by decide
/-- V1.4 -/
theorem test_put32le : (after (.put32le 0x2BC0#32) (s0 4)).map State.out = some [0xC0#8, 0x2B#8, 0x00#8, 0x00#8] := by
  decide
/-- V1.5 -/
theorem test_put32be : (after (.put32be 0x2BC0#32) (s0 4)).map State.out = some [0x00#8, 0x00#8, 0x2B#8, 0xC0#8] := by
  decide
/-- V1.6 -/
theorem test_puttag : (after (.puttag 0x52494646#32) (s0 4)).map State.out = some [0x52#8, 0x49#8, 0x46#8, 0x46#8] := by
  decide
/-- V7.16: TIMING's check comes first. -/
theorem test_run_baud : faultAfter .run { s0 0 with reqRate := 11200#32, width := 12#32, container := 3#32, inputMode := 2#32 } =
    some (0x01#32, 0x0060#32, 0#32) := by decide
/-- V7.15 -/
theorem test_run_late : faultAfter .run (setUp 0 3#32 2#32) = some (0x0E#32, 0x0060#32, 0#32) := by decide
/-- V7.18 -/
theorem test_close : (after .close (s0 1)).map State.closed = some true := by decide
/-- V7.21 -/
theorem test_close_refused : faultAfter .close (r8h1 0) = some (0x0A#32, 0x0061#32, 0#32) := by decide
/-- V7.25 -/
theorem test_reset : (after .reset (State.powerOn { engine with initPolarity := true })).map
    (fun t => (statusWord t).toNat) = some 1 := by decide

/-! ### Witnesses: each statement's hypotheses are met together -/

theorem granted_first {s : State} {n m : Nat} {rest : List Bool} (h : s.hostRefuses = List.replicate n false ++ rest)
    (hm : m ≤ n) : Granted s m := by
  intro k hk
  have hn : k < n := by omega
  rw [refusesAt, h, List.getElem?_append_left (by rw [List.length_replicate]; exact hn), List.getElem?_replicate, if_pos hn]
  rfl

theorem refused_next {s : State} {n : Nat} (h : s.hostRefuses = List.replicate n false ++ [true]) : refusesAt s n = true := by
  simp [refusesAt, h]

/-- The states after SETUP are states of a session, in RAW and STREAMING, before HDR and after it. -/
theorem inv_setUp (n : Nat) (hdr name : Bool) (h : name = true → hdr = true) :
    Inv { setUp n 3#32 2#32 with hdrDone := hdr, nameDone := name } := by
  constructor
  case blk_wf => rfl
  case half_range => exact fun _ => by show 1 ≤ (1#32).toNat ∧ (1#32).toNat ≤ 128; decide
  case actRate_eq => exact fun _ => ⟨700, by show baudLegal engine 700 = true; decide,
                        by show (1400#32).toNat = 2 * (1#32).toNat * 700; decide⟩
  case untimed => exact fun h => by cases h
  case init_timed => exact fun _ => rfl
  case init_geometry => exact fun _ => ⟨rfl, rfl⟩
  case init_levels => exact fun _ => by
                        show (0x40#32).toNat < 2 ^ (8#32).toNat ∧ (0xD6#32).toNat < 2 ^ (8#32).toNat; decide
  case init_buffers => exact fun _ => ⟨rfl, rfl⟩
  case hdr_init => exact fun _ => rfl
  case hdr_mode => exact fun _ => rfl
  case samples_hdr => exact fun h => by cases h
  case name_hdr => exact h
  case sbytes_zero => exact fun _ => rfl
  case declared_known => exact fun _ => rfl
  case declared_hdr => exact fun h => by cases h
  case declared_eq => exact fun h => by cases h
  case declared_room => exact fun h => by cases h
  case undeclared => exact fun _ => rfl
  case unread => exact fun _ => ⟨rfl, rfl, rfl⟩
  case outcnt_eq => exact fun _ => rfl
  case sbytes_le => exact fun _ => Nat.zero_le _
  case ext_high => show (0#32).toNat < _; decide
  case no_fault => exact fun _ => ⟨rfl, rfl, rfl⟩
  case fault_code => exact fun h => by cases h

theorem inv_r8h1 (n : Nat) : Inv (r8h1 n) := inv_setUp n true false (fun h => by cases h)
theorem inv_r8h1n (n : Nat) : Inv (r8h1n n) := inv_setUp n true true (fun _ => rfl)

/-- One block is 4720 bytes at H = 1 and 8 bits (95_test_vectors.md E5). -/
theorem ready_r8h1 {n m : Nat} (hm : m ≤ 4720) : EmitReady (r8h1 n) m :=
  ⟨rfl, rfl, rfl, rfl, fun h => (by cases h), by show 0 + m < _; omega, by show 0 + m < _; omega⟩

theorem ready_r8h1n {n m : Nat} (hm : m ≤ 9440) : EmitReady (r8h1n n) m :=
  ⟨rfl, rfl, rfl, rfl, fun h => (by cases h), by show 0 + m < _; omega, by show 0 + m < _; omega⟩

theorem granted_r8h1 {n m : Nat} (hm : m ≤ n) : Granted (r8h1 n) m := granted_first rfl hm
theorem granted_r8h1n {n m : Nat} (hm : m ≤ n) : Granted (r8h1n n) m := granted_first rfl hm

/-- An outcome that is a next state. -/
theorem next_of {o : Host.Outcome State Fault Refusal} (h : (match o with | .next _ => true | _ => false) = true) :
    ∃ t, o = .next t := by
  cases o with
  | next t => exact ⟨t, rfl⟩
  | _ => cases h

/-- The next word is `w`, the engine not faulted. -/
def sending (w : U64) : State := { s0 0 with commands := [w] }

/-- The same engine in the fault state. -/
def faulty (w : U64) : State := { sending w with fault := true, faultCode := 0x0C#32 }

theorem witness_DecodeOfEncode : (Instr.txdata 1#32).wellFormed = true ∧ (Instr.txdata 253#32).wellFormed = true := by decide

theorem witness_EncodeOfDecode : decode 0x02000000000002BC#64 = .instr (.wrcfg 0#8 700#32) := by decide

/-- One word for each clause: a discarded word, a reserved OPC, RSV, the row, the two selector ranges, EXT, a command. -/
theorem witness_DecodingIsTotal :
    ((faulty 0x4000000000000000#64).fault = true ∧ (fieldOpc 0x4000000000000000#64).toNat ∉ [0x01, 0x03, 0x7F]) ∧
    (sending 0#64).fault = false ∧ (sending 0#64).commands = 0#64 :: [] ∧
    (fieldOpc 0x8000000000000000#64).toNat ∉ listedOpcodes ∧
    ((fieldOpc 0x0100000100000000#64).toNat ∈ listedOpcodes ∧ (fieldRsv 0x0100000100000000#64).toNat ≠ 0) ∧
    ((fieldOpc 0x32000000000000FE#64).toNat ∈ listedOpcodes ∧ (fieldRsv 0x32000000000000FE#64).toNat = 0 ∧
      rowAdmits (fieldOpc 0x32000000000000FE#64).toNat (fieldSel 0x32000000000000FE#64).toNat
        (fieldImm 0x32000000000000FE#64).toNat = false) ∧
    ((fieldOpc 0x020B000000000000#64).toNat = 0x02 ∧ (fieldRsv 0x020B000000000000#64).toNat = 0 ∧
      10 < (fieldSel 0x020B000000000000#64).toNat) ∧
    ((fieldOpc 0x0208000001000000#64).toNat = 0x02 ∧ (fieldSel 0x0208000001000000#64).toNat = 8 ∧
      2 ^ 24 ≤ (fieldImm 0x0208000001000000#64).toNat) ∧
    ((fieldOpc 0x0319000000000000#64).toNat = 0x03 ∧ (fieldImm 0x0319000000000000#64).toNat = 0 ∧
      24 < (fieldSel 0x0319000000000000#64).toNat) ∧
    rowAdmits (fieldOpc 0x32000000000000FD#64).toNat (fieldSel 0x32000000000000FD#64).toNat
        (fieldImm 0x32000000000000FD#64).toNat = true := by decide

theorem witness_StepRunsDecodedInstruction :
    (sending 0x0100000000000000#64).commands = 0x0100000000000000#64 :: [] ∧
    decodeIn (sending 0#64).fault 0x0100000000000000#64 = .instr .nop ∧
    decodeIn (faulty 0#64).fault 0x03FF0001FFFFFFFF#64 = .instr (.rdreg 0xFF#8) ∧
    (sending 0#64).fault = false ∧ Instr.wellFormed .hdr = true := by decide

theorem witness_IdleWithoutCommand : (s0 0).commands = [] := rfl

theorem witness_FaultStateDiscards : (faulty 0#64).fault = true ∧ (faulty 0#64).commands = 0#64 :: [] ∧
    fieldOpc 0x0100000000000001#64 = 0x01#8 ∧ fieldOpc 0x03FF000000000000#64 = 0x03#8 ∧
    fieldOpc 0x7F00000000000001#64 = 0x7F#8 ∧
    (fieldOpc 0#64 ≠ 0x01#8 ∧ fieldOpc 0#64 ≠ 0x03#8 ∧ fieldOpc 0#64 ≠ 0x7F#8) ∧ ∃ t, step (faulty 0#64) = .next t :=
  ⟨rfl, rfl, by decide, by decide, by decide, by decide, next_of (by decide)⟩

theorem witness_FaultEntryRecords :
    (FaultCode.cfgBaud, 0x01) ∈ codeNumbers ∧ (FaultCode.sequence, 0x0E) ∈ codeNumbers ∧ (s0 0).fault = false ∧
    (faulty 0#64).fault = true ∧ timingBody (s0 0) = .raised .cfgBaud 0 (s0 0) ∧
    ∃ t, exec .run (s0 0) = .next t ∧ t.fault = true :=
  ⟨by decide, by decide, rfl, rfl, rfl, _, rfl, rfl⟩

theorem witness_OnlyResetLeavesTheFaultState :
    (faulty 0#64).fault = true ∧ (∃ t, exec .hdr (faulty 0#64) = .next t) ∧ (∃ t, exec .reset (faulty 0#64) = .next t) ∧
    ∃ t, step (faulty 0#64) = .next t :=
  ⟨rfl, ⟨_, rfl⟩, ⟨_, rfl⟩, _, rfl⟩

/-- The last selector, EXT at its largest value, and the unlocked selectors 6 and 8 after INIT. -/
theorem witness_WrcfgWritesOneRegister :
    (s0 0).fault = false ∧ (10#8).toNat ≤ 10 ∧ ((8#8).toNat = 8 ∧ (0xFFFFFF#32).toNat < 2 ^ 24) ∧
    (setUp 0 3#32 2#32).initDone = true ∧ (6 ≤ (6#8).toNat ∧ (6#8).toNat ≤ 8) ∧ (6 ≤ (8#8).toNat ∧ (8#8).toNat ≤ 8) := by
  decide

theorem witness_WrcfgChecksInOrder : (s0 0).fault = false ∧ (setUp 0 3#32 2#32).fault = false := ⟨rfl, rfl⟩

theorem witness_RdregRespondsTheRegister :
    (registerFile (s0 0))[(24#8).toNat]? = some 0#32 ∧ 24 < (25#8).toNat ∧ (s0 0).fault = false ∧
    (faulty 0#64).fault = true ∧ (24#8).toNat ≤ 24 := by decide

theorem witness_ResetValues : ∃ t, exec .reset (r8h1 0) = .next t := ⟨_, rfl⟩

theorem witness_BlkwrStoresOneByte : (s0 0).fault = false ∧ Memory.wf (s0 0).blk = true := by decide

theorem witness_BlkclrClearsTheBuffer : (s0 0).fault = false := rfl

theorem witness_PutAppendsItsBytes :
    putImage (.put8 0x41#8) = some (0#8, [0x41#8]) ∧ (putImage (.puttag 0x52494646#32)).map (·.2.length) = some 4 ∧
    (s0 4).fault = false ∧ (s0 4).closed = false ∧ Granted (s0 4) 4 ∧ (s0 4).outcnt.toNat + 4 < 2 ^ 64 :=
  ⟨rfl, rfl, rfl, rfl, granted_first rfl (by decide), by decide⟩

/-- The first byte refused, and the last one. -/
theorem witness_PutRefusedKeepsItsPrefix :
    (putImage (.put32le 0#32)).map (·.2.length) = some 4 ∧
    (Granted (s0 0) 0 ∧ refusesAt (s0 0) 0 = true) ∧ (Granted (s0 3) 3 ∧ refusesAt (s0 3) 3 = true) ∧
    (s0 3).fault = false ∧ (s0 3).closed = false ∧ (s0 3).outcnt.toNat + 3 < 2 ^ 64 :=
  ⟨rfl, ⟨granted_first rfl (by decide), refused_next rfl⟩, ⟨granted_first rfl (by decide), refused_next rfl⟩, rfl, rfl, by decide⟩

theorem witness_CodecIsSymmetric : ∃ t, outWriteAll [0x41#8, 0x42#8] (s0 2) = .done t := ⟨_, rfl⟩

theorem witness_HalfBitDerivation : 0 < 700 ∧ ∃ k, 2 * k * 700 < 48000 ∧ 48000 < (2 * k + 1) * 700 := ⟨by decide, 34, by decide⟩

/-- The smallest and the largest H (V2.1, V2.14). -/
theorem witness_TimingCompletes :
    (configured 0 3#32 2#32).fault = false ∧ (configured 0 3#32 2#32).initDone = false ∧
    (configured 0 3#32 2#32).baud.toNat = 700 ∧ engine.minSampleRate ≤ (1#32).toNat ∧
    deriveHalf engine.rounding (1#32).toNat 700 = 1 ∧ deriveHalf engine.rounding (179200#32).toNat 700 = 128 := by decide

theorem witness_TimingLaws : 0 < 700 ∧ (configured 0 3#32 2#32).fault = false ∧
    ∃ t, exec .timing (configured 0 3#32 2#32) = .next t ∧ t.fault = false := ⟨by decide, rfl, _, rfl, by decide⟩

/-- Each check: a wrong baud, a rate below the minimum, H = 129 (V2.15) and, under FLOOR_EVEN, H = 0 (V2.21). -/
theorem witness_TimingChecksInOrder :
    (s0 0).fault = false ∧ (s0 0).initDone = false ∧ ((s0 0).baud.toNat ≠ 700 ∧ (s0 0).baud.toNat ≠ engine.baudAlt) ∧
    (configured 0 3#32 2#32).baud.toNat = 700 ∧ (0#32).toNat < engine.minSampleRate ∧
    128 < deriveHalf .ceil (179201#32).toNat 700 ∧ deriveHalf .floorEven (699#32).toNat 700 < 1 := by decide

theorem witness_LevelsWritesTheTable :
    (configured 0 3#32 2#32).fault = false ∧ (configured 0 3#32 2#32).initDone = false ∧
    (configured 0 3#32 2#32).width.toNat = 8 ∧
    ((configured 0 1#32 2#32).container = 1#32 ∧ (configured 0 2#32 2#32).container = 2#32 ∧
      (configured 0 3#32 2#32).container = 3#32 ∧ (engine.rawConvention == .chunk) = true) := by decide

theorem witness_SampleWordsFollowTheContainer :
    (configured 0 1#32 2#32).container = 1#32 ∧ (configured 0 2#32 2#32).container = 2#32 ∧
    (configured 0 3#32 2#32).container = 3#32 := ⟨rfl, rfl, rfl⟩

/-- TIMING and LEVELS done, INIT next. -/
def timed (container mode : U32) : State := { setUp 0 container mode with initDone := false }

/-- The level words at the largest value that fits. -/
theorem witness_InitFillsTheBuffers :
    (timed 1#32 1#32).fault = false ∧ (timed 1#32 1#32).initDone = false ∧ (timed 1#32 1#32).timingOk = true ∧
    (timed 1#32 1#32).width.toNat ∈ [8, 16, 24, 32] ∧ (timed 1#32 1#32).container.toNat ∈ [1, 2, 3] ∧
    (0xFF#32).toNat < 2 ^ (timed 1#32 1#32).width.toNat := by decide

/-- Each clause: width 12, container 0 and 4, level 256, mode 0 and 3, and V6.12's length. -/
theorem witness_ConfigurationChecks :
    (timed 1#32 1#32).fault = false ∧ (timed 1#32 1#32).initDone = false ∧ (timed 1#32 1#32).timingOk = true ∧
    (12#32).toNat ∉ [8, 16, 24, 32] ∧ ((0#32).toNat ∉ [1, 2, 3] ∧ (4#32).toNat ∉ [1, 2, 3]) ∧
    2 ^ (timed 1#32 1#32).width.toNat ≤ (256#32).toNat ∧
    ((setUp 0 1#32 1#32).initDone = true ∧ (setUp 0 1#32 1#32).hdrDone = false ∧ (setUp 0 1#32 1#32).samples = false ∧
      (setUp 0 1#32 1#32).closed = false) ∧
    ((0#32).toNat ∉ [1, 2] ∧ (3#32).toNat ∉ [1, 2]) ∧
    (setUp 0 1#32 1#32).container = 1#32 ∧ (setUp 0 1#32 1#32).inputMode = 1#32 ∧
    0xFFFFFFFE < 36 + dataBytes { setUp 0 1#32 1#32 with width := 32#32, half := 128#32, dataLen := 449329#32 } := by decide

theorem witness_ConfigurationStaysLocked : (r8h1 0).initDone = true ∧ ∃ t, exec (.emitbit true) (r8h1 0) = .next t :=
  ⟨rfl, _, rfl⟩

/-- CHUNK, BUFFERED, an empty input: one block of 4720 bytes is declared. -/
def declaring (sent : U64) : State :=
  { setUp 4720 1#32 1#32 with hdrDone := true, nameDone := true, declared := true, declBytes := 4720#32, sbytes := sent }

/-- A second TXNAME past the declared length is out of sequence (60_exceptions.md R203; log entry 11). -/
theorem test_txname_past : faultAfter .txname (declaring 1#64) = some (0x0E#32, 0x0031#32, 0#32) := by decide

/-- SEQUENCE: before INIT, after INIT without HDR, after HDR, after TXNAME, after CLOSE; past the declared length too. -/
theorem witness_SequencePreconditions :
    (r8h1 0).fault = false ∧ (r8h1 0).initDone = true ∧ (0#8).toNat ∈ [0, 1, 2, 3, 4, 5, 9, 10] ∧
    (10#8).toNat ∈ [0, 1, 2, 3, 4, 5, 9, 10] ∧ (s0 0).timingOk = false ∧ (r8h1 0).hdrDone = true ∧
    (setUp 0 3#32 2#32).hdrDone = false ∧ (1 ≤ (1#32).toNat ∧ (253#32).toNat ≤ 253) ∧
    (r8h1n 0).nameDone = true ∧ (r8h1n 0).declared = false ∧ (r8h1 0).nameDone = false ∧
    (({ s0 0 with closed := true } : State).closed = true) ∧
    ((declaring 1#64).nameDone = true ∧ (declaring 1#64).declared = true ∧
      (declaring 1#64).declBytes.toNat < (declaring 1#64).sbytes.toNat + blockByteCount (declaring 1#64)) := by decide

/-- Each emission one byte too long, and CLOSE one byte short. -/
theorem witness_DeclaredLengthChecks :
    (declaring 0#64).fault = false ∧ (declaring 0#64).closed = false ∧ (declaring 0#64).declared = true ∧
    (declaring 0#64).initDone = true ∧ (declaring 0#64).hdrDone = true ∧
    (declaring 0#64).declBytes.toNat < (declaring 4719#64).sbytes.toNat + 2 * (declaring 0#64).half.toNat * (8 / 8) ∧
    (declaring 0#64).declBytes.toNat < (declaring 4705#64).sbytes.toNat + 8 * (2 * (declaring 0#64).half.toNat * (8 / 8)) ∧
    (declaring 0#64).declBytes.toNat < (declaring 1#64).sbytes.toNat + 4720 ∧
    ({ declaring 1#64 with nameDone := false } : State).nameDone = false ∧
    ((declaring 0#64).nameDone = true ∧ (declaring 0#64).inputMode = 1#32 ∧
      ¬ (declaring 0#64).declBytes.toNat < (declaring 4720#64).sbytes.toNat + 0) ∧
    (declaring 4719#64).sbytes.toNat ≠ (declaring 4719#64).declBytes.toNat := by decide

theorem witness_EmitbitWritesTwoRuns :
    Inv (r8h1 2) ∧ EmitReady (r8h1 2) (2 * (r8h1 2).half.toNat * ((r8h1 2).width.toNat / 8)) ∧
    Granted (r8h1 2) (2 * (r8h1 2).half.toNat * ((r8h1 2).width.toNat / 8)) :=
  ⟨inv_r8h1 2, ready_r8h1 (by decide), granted_r8h1 (by decide)⟩

theorem witness_EmitbyteWritesEightBits :
    Inv (r8h1 16) ∧ EmitReady (r8h1 16) (8 * (2 * (r8h1 16).half.toNat * ((r8h1 16).width.toNat / 8))) ∧
    Granted (r8h1 16) (8 * (2 * (r8h1 16).half.toNat * ((r8h1 16).width.toNat / 8))) :=
  ⟨inv_r8h1 16, ready_r8h1 (by decide), granted_r8h1 (by decide)⟩

theorem witness_FramesPerBit :
    (∃ t, emitBit true (r8h1 2) = .done t) ∧ (∃ t, emitByte 0xA5#8 (r8h1 16) = .done t) ∧
    ∃ t, frameBlock (r8h1 4720) = .done t :=
  ⟨⟨_, emitBit_granted ((inv_r8h1 2).emittable (n := bitByteCount (r8h1 2)) (ready_r8h1 (by decide)) (granted_r8h1 (by decide)))⟩,
    ⟨_, emitByte_granted ((inv_r8h1 16).emittable (n := byteByteCount (r8h1 16)) (ready_r8h1 (by decide)) (granted_r8h1 (by decide)))⟩,
    _, frameBlock_granted ((inv_r8h1 4720).emittable (n := blockByteCount (r8h1 4720)) (ready_r8h1 (by decide))
      (granted_r8h1 (by decide)))⟩

theorem witness_PolarityLaw :
    (∃ t, emitBits [false, true] (r8h1 4) = .done t) ∧ (∃ t, emitByte 0x16#8 (r8h1 16) = .done t) ∧
    ∃ t, emitBytes [0x01#8, 0x01#8] (r8h1 32) = .done t :=
  ⟨⟨_, rfl⟩, ⟨_, rfl⟩, _, emitBytes_granted ((inv_r8h1 32).emittable (ready_r8h1 (by decide)) (granted_r8h1 (by decide)))⟩

/-- One period of each run, and the bytes of eight. -/
theorem witness_WaveformLaw :
    (Inv (r8h1 16) ∧ (r8h1 16).initDone = true ∧ (r8h1 16).closed = false) ∧
    (Granted (r8h1 16) (1 * 4) ∧ (r8h1 16).outcnt.toNat + 1 * 4 < 2 ^ 64 ∧ (r8h1 16).sbytes.toNat + 1 * 4 < 2 ^ 64) ∧
    EmitReady (r8h1 16) (8 * 2) ∧ Granted (r8h1 16) (8 * 2) :=
  ⟨⟨inv_r8h1 16, rfl, rfl⟩, ⟨granted_r8h1 (by decide), by decide, by decide⟩, ready_r8h1 (by decide), granted_r8h1 (by decide)⟩

theorem witness_PolarityChangesOnlyByEmission :
    (∃ t, exec .reset (r8h1 0) = .next t) ∧ (∃ t, exec .init (timed 3#32 2#32) = .next t ∧ t.initDone = true) ∧
    (timed 3#32 2#32).initDone = false ∧ ∃ t, exec (.emitbit false) (r8h1 2) = .next t ∧ t.pol ≠ (r8h1 2).pol :=
  ⟨⟨_, rfl⟩, ⟨_, rfl, by decide⟩, rfl, _, rfl, by decide⟩

/-- CHUNK, BUFFERED after SETUP is a state of a session. -/
theorem inv_setUpChunk (n : Nat) : Inv (setUp n 1#32 1#32) := by
  have h : Inv (setUp 0 1#32 1#32) := by
    constructor
    case blk_wf => rfl
    case half_range => exact fun _ => by decide
    case actRate_eq => exact fun _ => ⟨700, by decide, by decide⟩
    case init_timed => exact fun _ => rfl
    case init_geometry => exact fun _ => ⟨rfl, rfl⟩
    case init_levels => exact fun _ => by decide
    case init_buffers => exact fun _ => ⟨rfl, rfl⟩
    case sbytes_zero => exact fun _ => rfl
    case undeclared => exact fun _ => rfl
    case unread => exact fun _ => ⟨rfl, rfl, rfl⟩
    case outcnt_eq => exact fun _ => rfl
    case sbytes_le => exact fun _ => Nat.zero_le _
    case ext_high => decide
    case no_fault => exact fun _ => ⟨rfl, rfl, rfl⟩
    all_goals exact fun h => by cases h
  exact { h with }

/-- As R8H1N with this input. -/
def reading (n : Nat) (input : List Byte) : State := { r8h1n n with inPort := some input }

theorem inv_reading (n : Nat) (input : List Byte) : Inv (reading n input) := { inv_r8h1n n with }

theorem ready_reading {n m : Nat} {input : List Byte} (hm : m ≤ 9440) : EmitReady (reading n input) m :=
  ⟨rfl, rfl, rfl, rfl, fun h => (by cases h), by show 0 + m < _; omega, by show 0 + m < _; omega⟩

/-- The first byte refused, and the last one of a bit, of a byte, of a header and of a data block. -/
theorem witness_EmissionRefusedKeepsItsPrefix :
    (Inv (r8h1 0) ∧ Granted (r8h1 0) 0 ∧ refusesAt (r8h1 0) 0 = true) ∧
    (Granted (r8h1 1) 1 ∧ refusesAt (r8h1 1) 1 = true ∧ 1 < bitByteCount (r8h1 1)) ∧
    (Granted (r8h1 15) 15 ∧ refusesAt (r8h1 15) 15 = true ∧ 15 < byteByteCount (r8h1 15)) ∧
    (EmitReady (r8h1 0) (bitByteCount (r8h1 0)) ∧ EmitReady (r8h1 0) (byteByteCount (r8h1 0)) ∧
      EmitReady (r8h1 0) (blockByteCount (r8h1 0)) ∧ 0 < blockByteCount (r8h1 0) ∧ (r8h1 0).nameDone = false) ∧
    (Inv (setUp 43 1#32 1#32) ∧ (setUp 43 1#32 1#32).fault = false ∧ (setUp 43 1#32 1#32).initDone = true ∧
      (setUp 43 1#32 1#32).hdrDone = false ∧ (setUp 43 1#32 1#32).samples = false ∧ (setUp 43 1#32 1#32).closed = false ∧
      (setUp 43 1#32 1#32).inputMode.toNat ∈ [1, 2] ∧ riffLen (setUp 43 1#32 1#32) ≤ 0xFFFFFFFE ∧
      43 < (headerBytes (setUp 43 1#32 1#32)).length ∧ Granted (setUp 43 1#32 1#32) 43 ∧
      refusesAt (setUp 43 1#32 1#32) 43 = true) ∧
    (Inv (reading 4720 [1#8]) ∧ EmitReady (reading 4720 [1#8]) (blockByteCount (reading 4720 [1#8])) ∧
      (reading 4720 [1#8]).nameDone = true ∧ (reading 4720 [1#8]).eof = false ∧
      (1#32).toNat ≤ (reading 4720 [1#8]).inBytes.length ∧ 4719 < blockByteCount (reading 4720 [1#8]) ∧
      Granted (reading 4720 [1#8]) ((1#32).toNat + 4719) ∧ refusesAt (reading 4720 [1#8]) ((1#32).toNat + 4719) = true) :=
  ⟨⟨inv_r8h1 0, granted_r8h1 (by decide), refused_next rfl⟩, ⟨granted_r8h1 (by decide), refused_next rfl, by decide⟩,
    ⟨granted_r8h1 (by decide), refused_next rfl, by decide⟩,
    ⟨ready_r8h1 (by decide), ready_r8h1 (by decide), ready_r8h1 (by decide), by decide, rfl⟩,
    ⟨inv_setUpChunk 43, rfl, rfl, rfl, rfl, rfl, by decide, by decide, by decide, granted_first rfl (by decide), refused_next rfl⟩,
    inv_reading _ _, ready_reading (by decide), rfl, rfl, by decide, by decide, granted_first rfl (by decide), refused_next rfl⟩

theorem witness_TxblockFramesTheBuffer :
    Inv (r8h1 4720) ∧ EmitReady (r8h1 4720) (blockByteCount (r8h1 4720)) ∧
    Granted (r8h1 4720) (blockByteCount (r8h1 4720)) :=
  ⟨inv_r8h1 _, ready_r8h1 (by decide), granted_r8h1 (by decide)⟩

theorem witness_ChecksumNeverWraps : (List.replicate 256 0xFF#8).length = 256 := List.length_replicate

theorem witness_TxnameSendsTheNameBlock :
    Inv (r8h1 4720) ∧ EmitReady (r8h1 4720) (blockByteCount (r8h1 4720)) ∧ (r8h1 4720).nameDone = false ∧
    Granted (r8h1 4720) (blockByteCount (r8h1 4720)) :=
  ⟨inv_r8h1 _, ready_r8h1 (by decide), rfl, granted_r8h1 (by decide)⟩

/-- Counts 1 and 253. -/
theorem witness_TxdataSendsOneBlock :
    Inv (reading 4973 (List.replicate 253 1#8)) ∧
    EmitReady (reading 4973 (List.replicate 253 1#8)) (blockByteCount (reading 4973 (List.replicate 253 1#8))) ∧
    (reading 4973 (List.replicate 253 1#8)).nameDone = true ∧ (reading 4973 (List.replicate 253 1#8)).eof = false ∧
    (1 ≤ (1#32).toNat ∧ (253#32).toNat ≤ 253) ∧ (253#32).toNat ≤ (reading 4973 (List.replicate 253 1#8)).inBytes.length ∧
    (reading 4973 (List.replicate 253 1#8)).incnt.toNat + (253#32).toNat < 2 ^ 64 ∧
    Granted (reading 4973 (List.replicate 253 1#8)) ((253#32).toNat + blockByteCount (reading 4973 (List.replicate 253 1#8))) :=
  ⟨inv_reading _ _, ⟨rfl, rfl, rfl, rfl, fun h => (by cases h), by decide, by decide⟩, rfl, rfl, by decide,
    by show _ ≤ (List.replicate 253 1#8).length; rw [List.length_replicate]; decide, by decide, granted_first rfl (by decide)⟩

/-- BUFFERED mode, 254 bytes wanted, the 253 of one block there. -/
def wanting (n : Nat) : State := { reading n (List.replicate 253 1#8) with inputMode := 1#32, dataLen := 254#32 }

theorem inv_wanting (n : Nat) : Inv (wanting n) :=
  { inv_reading n (List.replicate 253 1#8) with
    hdr_mode := fun _ => rfl, declared_known := fun _ => rfl, declared_eq := fun h => (by cases h) }

theorem ready_wanting (n : Nat) : EmitReady (wanting n) ((254 + 253 - 1) / 253 * blockByteCount (wanting n)) := by
  have hb : blockByteCount (wanting n) = 4720 := by
    show 295 * (8 * (2 * (1#32).toNat * ((8#32).toNat / 8))) = 4720; decide
  rw [hb]
  exact ⟨rfl, rfl, rfl, rfl, fun h => (by cases h), by show 0 + _ < _; decide, by show 0 + _ < _; decide⟩

/-- TXDATA: the end of the input reported before; no input at all, and one byte short of 253; the first read refused, and the read that
would have met the end. TXREST: the end reported before, and one byte short of two blocks. -/
theorem witness_TxdataNeedsItsInput :
    (({ reading 1 [] with eof := true } : State).eof = true ∧ 1 ≤ (1#32).toNat) ∧
    ((reading 1 []).inBytes.length < (1#32).toNat ∧ Granted (reading 1 []) ((reading 1 []).inBytes.length + 1) ∧
      (reading 253 (List.replicate 252 1#8)).inBytes.length < (253#32).toNat ∧
      Granted (reading 253 (List.replicate 252 1#8)) ((reading 253 (List.replicate 252 1#8)).inBytes.length + 1)) ∧
    ((refusesAt (reading 0 []) 0 = true ∧ Granted (reading 0 []) 0) ∧ 2 < (3#32).toNat ∧ 2 ≤ (reading 2 [1#8, 2#8]).inBytes.length ∧
      Granted (reading 2 [1#8, 2#8]) 2 ∧ refusesAt (reading 2 [1#8, 2#8]) 2 = true) ∧
    ((reading 1 []).fault = false ∧ (reading 1 []).initDone = true ∧ (reading 1 []).hdrDone = true ∧
      (reading 1 []).closed = false ∧ (reading 1 []).declared = false ∧ (reading 1 []).nameDone = true ∧
      (reading 1 []).eof = false ∧ (253#32).toNat ≤ 253 ∧ (reading 1 []).incnt.toNat + 252 < 2 ^ 64) ∧
    (Inv (wanting 4974) ∧ (wanting 4974).inputMode = 1#32 ∧ (wanting 4974).nameDone = true ∧
      (wanting 4974).dataLen.toNat - (wanting 4974).incnt.toNat = 254 ∧
      EmitReady (wanting 4974) ((254 + 253 - 1) / 253 * blockByteCount (wanting 4974)) ∧
      ({ wanting 4974 with eof := true } : State).eof = true ∧ (wanting 4974).eof = false ∧
      (wanting 4974).inBytes.length = 253 ∧ Granted (wanting 4974) (253 + 253 / 253 * blockByteCount (wanting 4974) + 1)) := by
  have h : (reading 253 (List.replicate 252 1#8)).inBytes.length = 252 := List.length_replicate
  refine ⟨⟨rfl, by decide⟩, ⟨by decide, granted_first rfl (by decide), ?_, ?_⟩,
    ⟨⟨refused_next rfl, granted_first rfl (by decide)⟩, by decide, by decide, granted_first rfl (by decide), refused_next rfl⟩,
    ⟨rfl, rfl, rfl, rfl, rfl, rfl, rfl, by decide, by decide⟩,
    inv_wanting _, rfl, rfl, by decide, ready_wanting _, rfl, rfl, List.length_replicate, granted_first rfl (by decide)⟩
  · rw [h]; decide
  · rw [h]; exact granted_first rfl (by decide)

/-- 254 bytes in BUFFERED mode: two blocks. -/
def buffered : State := { reading 9694 (List.replicate 254 1#8) with inputMode := 1#32, dataLen := 254#32 }

theorem witness_TxrestBufferedSendsTheRest :
    Inv buffered ∧ buffered.inputMode = 1#32 ∧ buffered.nameDone = true ∧
    buffered.dataLen.toNat - buffered.incnt.toNat = 254 ∧ EmitReady buffered ((254 + 253 - 1) / 253 * blockByteCount buffered) ∧
    buffered.eof = false ∧ 254 ≤ buffered.inBytes.length ∧ buffered.incnt.toNat + 254 < 2 ^ 64 ∧
    Granted buffered (254 + (254 + 253 - 1) / 253 * blockByteCount buffered) :=
  ⟨{ inv_reading 9694 (List.replicate 254 1#8) with
      hdr_mode := fun _ => rfl, declared_known := fun _ => rfl, declared_eq := fun h => (by cases h) }, rfl, rfl, by decide,
    ⟨rfl, rfl, rfl, rfl, fun h => (by cases h), by decide, by decide⟩, rfl,
    by show _ ≤ (List.replicate 254 1#8).length; rw [List.length_replicate], by decide, granted_first rfl (by decide)⟩

/-- The end of the input reported before, and 254 bytes left. -/
theorem witness_TxrestStreamingSendsTheRest :
    Inv (reading 9695 (List.replicate 254 1#8)) ∧ (reading 9695 (List.replicate 254 1#8)).inputMode = 2#32 ∧
    (reading 9695 (List.replicate 254 1#8)).nameDone = true ∧
    (({ reading 0 [] with eof := true } : State).eof = true ∧ EmitReady { reading 0 [] with eof := true } 0) ∧
    (reading 9695 (List.replicate 254 1#8)).eof = false ∧ (reading 9695 (List.replicate 254 1#8)).inBytes.length = 254 ∧
    EmitReady (reading 9695 (List.replicate 254 1#8)) ((254 + 253 - 1) / 253 * blockByteCount (reading 9695 (List.replicate 254 1#8))) ∧
    (reading 9695 (List.replicate 254 1#8)).incnt.toNat + 254 < 2 ^ 64 ∧
    Granted (reading 9695 (List.replicate 254 1#8))
      (254 + (254 + 253 - 1) / 253 * blockByteCount (reading 9695 (List.replicate 254 1#8)) + 1) :=
  ⟨inv_reading _ _, rfl, rfl, ⟨rfl, ⟨rfl, rfl, rfl, rfl, fun h => (by cases h), by decide, by decide⟩⟩, rfl, List.length_replicate,
    ⟨rfl, rfl, rfl, rfl, fun h => (by cases h), by decide, by decide⟩, by decide, granted_first rfl (by decide)⟩

/-- Two blocks at the edge, 254 bytes, in both modes, and no block at all. -/
theorem witness_BlockCountLaw :
    (Inv (reading 9695 (List.replicate 254 1#8)) ∧ (reading 9695 (List.replicate 254 1#8)).inputMode.toNat ∈ [1, 2]) ∧
    (Inv buffered ∧ buffered.inputMode.toNat ∈ [1, 2] ∧ buffered.nameDone = true ∧ buffered.eof = false ∧ buffered.incnt = 0#64 ∧
      buffered.blkcnt = 0#16 ∧ buffered.dataLen.toNat = 254 ∧ 254 ≤ buffered.inBytes.length) ∧
    (EmitReady (reading 9695 (List.replicate 254 1#8)) ((254 + 253 - 1) / 253 * 4720) ∧
      Granted (reading 9695 (List.replicate 254 1#8)) (254 + (254 + 253 - 1) / 253 * 4720 + 1)) ∧
    (EmitReady { buffered with hostRefuses := List.replicate 9695 false } ((254 + 253 - 1) / 253 * 4720) ∧
      Granted { buffered with hostRefuses := List.replicate 9695 false } (254 + (254 + 253 - 1) / 253 * 4720 + 1)) ∧
    (EmitReady (reading 1 []) ((0 + 253 - 1) / 253 * 4720) ∧ Granted (reading 1 []) (0 + (0 + 253 - 1) / 253 * 4720 + 1)) :=
  ⟨⟨inv_reading _ _, by decide⟩,
    ⟨{ inv_reading 9694 (List.replicate 254 1#8) with
      hdr_mode := fun _ => rfl, declared_known := fun _ => rfl, declared_eq := fun h => (by cases h) }, by decide, rfl, rfl, rfl, rfl, by decide,
      by show _ ≤ (List.replicate 254 1#8).length; rw [List.length_replicate]⟩,
    ⟨ready_reading (by decide), granted_first rfl (by decide)⟩,
    ⟨⟨rfl, rfl, rfl, rfl, fun h => (by cases h), by decide, by decide⟩,
      granted_first (n := 9695) (rest := []) (List.append_nil _).symm (by decide)⟩,
    ready_reading (by decide), granted_first rfl (by decide)⟩

/-- The three containers; 44 bytes are granted. -/
theorem witness_HdrWritesTheHeader :
    (setUp 44 1#32 1#32).fault = false ∧ (setUp 44 1#32 1#32).initDone = true ∧ (setUp 44 1#32 1#32).hdrDone = false ∧
    (setUp 44 1#32 1#32).samples = false ∧ (setUp 44 1#32 1#32).closed = false ∧
    (setUp 44 1#32 1#32).width.toNat ∈ [8, 16, 24, 32] ∧ (setUp 44 1#32 1#32).inputMode.toNat ∈ [1, 2] ∧
    ((setUp 44 1#32 1#32).container = 1#32 ∧ (setUp 44 2#32 1#32).container = 2#32 ∧ (setUp 44 3#32 1#32).container = 3#32) ∧
    36 + dataBytes (setUp 44 1#32 1#32) ≤ 0xFFFFFFFE ∧ Granted (setUp 44 1#32 1#32) 44 ∧
    (setUp 44 1#32 1#32).outcnt.toNat + 44 < 2 ^ 64 :=
  ⟨rfl, rfl, rfl, rfl, rfl, by decide, by decide, by decide, by decide, granted_first rfl (by decide), by decide⟩

/-- The flush granted, and refused. -/
theorem witness_CloseFlushesTheOutput :
    (declaring 4720#64).fault = false ∧ (declaring 4720#64).closed = false ∧ (declaring 4720#64).declared = true ∧
    (declaring 4720#64).sbytes.toNat = (declaring 4720#64).declBytes.toNat ∧ refusesAt (declaring 4720#64) 0 = false ∧
    refusesAt (r8h1 0) 0 = true :=
  ⟨rfl, rfl, rfl, by decide, granted_first (n := 4720) (m := 1) (rest := [true]) rfl (by decide) 0 (by decide), refused_next rfl⟩

/-- CHUNK, BUFFERED, two bytes of input, every access granted: two blocks. -/
def running : State := { configured 9488 1#32 1#32 with dataLen := 2#32 }

/-- A configured state is a state of a session. -/
theorem inv_configured (n : Nat) (container mode len : U32) : Inv { configured n container mode with dataLen := len } := by
  constructor
  case blk_wf => rfl
  case untimed => exact fun _ => ⟨rfl, rfl⟩
  case sbytes_zero => exact fun _ => rfl
  case undeclared => exact fun _ => rfl
  case unread => exact fun _ => ⟨rfl, rfl, rfl⟩
  case outcnt_eq => exact fun _ => rfl
  case sbytes_le => exact fun _ => Nat.zero_le _
  case ext_high => show (0#32).toNat < _; decide
  case no_fault => exact fun _ => ⟨rfl, rfl, rfl⟩
  all_goals exact fun h => by cases h

theorem witness_RunWritesTheTransmission :
    Inv running ∧ running.fault = false ∧ running.initDone = false ∧ running.closed = false ∧ running.baud.toNat = 700 ∧
    running.cfg.minSampleRate ≤ running.reqRate.toNat ∧
    deriveHalf running.cfg.rounding running.reqRate.toNat running.baud.toNat = 1 ∧
    running.width.toNat ∈ [8, 16, 24, 32] ∧ running.container.toNat ∈ [1, 2, 3] ∧ running.inputMode.toNat ∈ [1, 2] ∧
    (lengthKnown running = true ∧ riffLen running.prepared ≤ 0xFFFFFFFE) ∧ running.dataLen.toNat ≤ running.inBytes.length ∧
    (headerBytes running.prepared).length = 44 ∧ running.outcnt.toNat + (44 + 9440) + 2 < 2 ^ 64 ∧
    Granted running ((44 + 9440) + 2 + 2) :=
  ⟨inv_configured _ _ _ _, rfl, rfl, rfl, by decide, by decide, by decide, by decide, by decide, by decide,
    ⟨by decide, by decide⟩, by decide, by decide, by decide, granted_first rfl (by decide)⟩

/-- Whatever else is wrong, BAUD is reported (R203): BAUD = 0 with WIDTH = 12. -/
theorem test_run_baud_first :
    faultAfter .run { configured 0 3#32 2#32 with baud := 0#32, width := 12#32 } = some (0x01#32, 0x0060#32, 0#32) := by decide

/-- V6.12's length, which no CHUNK header can declare. -/
def tooLong : State := { configured 0 1#32 1#32 with width := 32#32, reqRate := 179200#32, dataLen := 449329#32 }

/-- The first code of a configuration fault within RUN (CFG_BAUD), and the last one (LENGTH_OVERFLOW). Each check: BAUD 0, 701 and 1233; the
rate below the minimum with either baud; H = 129 and H = 0; with H = 1 and H = 128, width 12; container 0 and 4; mode 0 and 3; V6.12's
length. -/
theorem witness_ConfigurationFaultsBeforeOutput :
    ((s0 0).fault = false ∧ (∃ t, exec .run (s0 0) = .next t ∧ t.fault = true ∧ t.faultCode.toNat = 1) ∧
      ∃ t, exec .run { running with dataLen := 0xFFFFFFFF#32, width := 32#32 } = .next t ∧ t.fault = true ∧ t.faultCode.toNat = 8) ∧
    ((configured 0 1#32 1#32).fault = false ∧ (configured 0 1#32 1#32).initDone = false ∧ (configured 0 1#32 1#32).hdrDone = false ∧
      (configured 0 1#32 1#32).closed = false ∧ (configured 0 1#32 1#32).samples = false) ∧
    (∀ baud ∈ [0, 701, 1233], baud ≠ 700 ∧ baud ≠ engine.baudAlt) ∧ engine.baudAlt = 1234 ∧ (0#32).toNat < engine.minSampleRate ∧
      (engine.minSampleRate ≤ (179201#32).toNat ∧ deriveHalf .ceil (179201#32).toNat 700 = 129) ∧
      deriveHalf .floorEven (699#32).toNat 700 < 1 ∧
      (deriveHalf .ceil (1400#32).toNat 700 = 1 ∧ deriveHalf .ceil (179200#32).toNat 700 = 128 ∧ (12#32).toNat ∉ [8, 16, 24, 32]) ∧
      ((8#32).toNat ∈ [8, 16, 24, 32] ∧ (32#32).toNat ∈ [8, 16, 24, 32] ∧ (0#32).toNat ∉ [1, 2, 3] ∧ (4#32).toNat ∉ [1, 2, 3]) ∧
      ((1#32).toNat ∈ [1, 2, 3] ∧ (3#32).toNat ∈ [1, 2, 3] ∧ (0#32).toNat ∉ [1, 2] ∧ (3#32).toNat ∉ [1, 2]) ∧
      0xFFFFFFFE < 36 + dataBytes tooLong.prepared :=
  ⟨⟨rfl, ⟨_, rfl, by decide, by decide⟩, _, rfl, by decide, by decide⟩, ⟨rfl, rfl, rfl, rfl, rfl⟩, by decide⟩

theorem witness_RunNeverMismatches :
    (Inv (configured 0 3#32 2#32) ∧ (configured 0 3#32 2#32).fault = false ∧
      ∃ t, exec .run (configured 0 3#32 2#32) = .next t ∧ t.fault = true) ∧
    Inv (r8h1 0) ∧ ∃ t, exec .run (r8h1 0) = .next t ∧ t.fault = true ∧ t.faultCode = 0x0E#32 :=
  ⟨⟨inv_configured 0 3#32 2#32 0#32, rfl, _, rfl, by decide⟩, inv_r8h1 0, _, rfl, by decide, by decide⟩

/-- CHUNK, BUFFERED, an empty input, SETUP done: the header, the name block and the flush are granted. -/
def declared : State := setUp 4765 1#32 1#32

theorem inv_declared : Inv declared := inv_setUpChunk 4765

/-- After the header. -/
def headed : State := recordHeader (declared.written (headerBytes declared))

theorem emittable_headed : Emittable headed 4720 where
  opened := rfl
  granted := granted_drop (s := declared) (n := 44) rfl rfl (granted_first (n := 4765) rfl (by decide))
  outcnt_fits := by decide
  sbytes_fits := by decide
  half_le := by decide
  hi := rfl
  lo := rfl

/-- After the name block: nothing is left to send, and CLOSE finds the declared length. -/
theorem named (s : State) (wave : List Byte) (p : Bool) (hw : wave.length = 4720) (hs : s.sbytes = 0#64)
    (hd : s.declBytes = 4720#32) (hl : s.dataLen = 0#32) (hm : s.inputMode = 1#32) (hf : s.fault = false)
    (hi : s.initDone = true) (hh : s.hdrDone = true) (hc : s.closed = false) (hr : refusesAt s 4720 = false) :
    let t : State := { s.emitted wave p with nameDone := true }
    exec .txrest t = .next t ∧ ∃ u, exec .close t = .next u ∧ u.fault = false := by
  have hb : (s.emitted wave p).sbytes = 4720#64 := by rw [emitted_sbytes, hs, hw]; rfl
  have hd' : (s.emitted wave p).declBytes = 4720#32 := hd
  have hr' : refusesAt (s.emitted wave p) 0 = false := by
    rw [refusesAt_drop (s := s) (n := wave.length) rfl rfl, hw]; exact hr
  have f := hf
  have e := hm
  have l := hl
  have i := hi
  have h := hh
  have c := hc
  change (s.emitted wave p).fault = false at f
  change (s.emitted wave p).inputMode = 1#32 at e
  change (s.emitted wave p).dataLen = 0#32 at l
  change (s.emitted wave p).initDone = true at i
  change (s.emitted wave p).hdrDone = true at h
  change (s.emitted wave p).closed = false at c
  generalize s.emitted wave p = v at *
  dsimp only
  have hck : emitCheck 0 { v with nameDone := true } = .done { v with nameDone := true } :=
    emitCheck_done (by simp [mayEmit, i, h, c]) (fun _ => by show v.sbytes.toNat + 0 ≤ v.declBytes.toNat; rw [hb, hd']; decide)
  have hrem : remaining { v with nameDone := true } = 0 := by
    show v.dataLen.toNat - _ = 0
    rw [l]; exact Nat.zero_sub _
  refine ⟨runCommand_done f ?_, { ({ v with nameDone := true } : State).drewOne with closed := true }, runCommand_done f ?_, f⟩
  · unfold txrestBody
    rw [if_neg (by simp [maySendData, mayEmit, i, h, c]), hck, done_andThen, if_pos (by simp [isBuffered, e]), hrem]
    show (emitCheck (0 * _) _).andThen _ = _
    rw [Nat.zero_mul, hck]
    rfl
  · unfold closeBody
    rw [if_neg (by simp [c]), if_neg (by
      rintro ⟨-, h⟩
      apply h
      show v.sbytes.toNat = v.declBytes.toNat
      rw [hb, hd']; rfl), refusesNext_eq]
    show (if refusesAt v 0 = true then _ else _) = _
    rw [hr']
    rfl

theorem witness_LengthLaw : ∃ s1 s2 s3 s4, Inv declared ∧ lengthKnown declared = true ∧
    declared.outRev.length + 44 + dataBytes declared < 2 ^ 64 ∧ exec .hdr declared = .next s1 ∧ exec .txname s1 = .next s2 ∧
    exec .txrest s2 = .next s3 ∧ exec .close s3 = .next s4 ∧ s4.fault = false := by
  have h1 : exec .hdr declared = .next headed := runCommand_done rfl (by
    rw [hdrBody_ready ⟨by decide, by decide, by decide, by decide, by decide⟩,
      outWriteAll_granted rfl (granted_first (n := 4765) rfl (by decide)) (by decide)]
    rfl)
  have hn := length_nameBlock headed
  have hwl : (bitsWave (setBlock (nameBlock headed) headed) (setBlock (nameBlock headed) headed).pol
      (bitStream (framedBytes headed.cfg (nameBlock headed)))).length = 4720 := by
    rw [length_byteWave, length_framedBytes hn]; decide
  have h2 : exec .txname headed =
      .next { (setBlock (nameBlock headed) headed).modulated (framedBytes headed.cfg (nameBlock headed)) with nameDone := true } :=
    runCommand_done rfl (by
      rw [txnameBody_ready ⟨by decide, by decide, by decide, by decide, fun _ => by decide, by decide, by decide⟩ rfl,
        frameBlock_setBlock hn (emittable_headed.of_le (by decide))]
      rfl)
  have hr : refusesAt (setBlock (nameBlock headed) headed) 4720 = false := by
    rw [refusesAt_drop (s := declared) (n := 44) (t := setBlock (nameBlock headed) headed) rfl rfl]
    exact granted_first (n := 4765) (m := 4765) rfl (le_refl _) _ (by decide)
  obtain ⟨h3, u, h4, h5⟩ := named (setBlock (nameBlock headed) headed) _ _ hwl rfl (by decide) rfl rfl rfl rfl rfl rfl hr
  exact ⟨_, _, _, _, inv_declared, by decide, by decide, h1, h2, h3, h4, h5⟩

theorem witness_FrameOfPut : putImage (.put8 1#8) = some (0#8, [1#8]) ∧ ∃ t, exec (.put8 1#8) (s0 1) = .next t := ⟨rfl, _, rfl⟩

theorem witness_FrameOfConfiguration :
    (∃ t, exec .nop (s0 0) = .next t) ∧ (∃ t, exec (.wrcfg 0#8 700#32) (s0 0) = .next t) ∧
    (∃ t, exec (.rdreg 0#8) (s0 0) = .next t) ∧ (∃ t, exec (.blkwr 255#8 1#8) (s0 0) = .next t) ∧
    (∃ t, exec .blkclr (s0 0) = .next t) ∧ (∃ t, exec .timing (configured 0 3#32 2#32) = .next t) ∧
    (∃ t, exec .levels (configured 0 3#32 2#32) = .next t) ∧ (∃ t, exec .init (timed 3#32 2#32) = .next t) ∧
    Memory.wf (s0 0).blk = true :=
  ⟨⟨_, rfl⟩, ⟨_, rfl⟩, ⟨_, rfl⟩, ⟨_, rfl⟩, ⟨_, rfl⟩, ⟨_, rfl⟩, ⟨_, rfl⟩, ⟨_, rfl⟩, rfl⟩

theorem witness_FrameOfEmission :
    (∃ t, exec (.emitbit true) (r8h1 2) = .next t) ∧ (∃ t, exec (.emitbyte 1#8) (r8h1 16) = .next t) ∧
    (∃ t, exec .txblock (r8h1 4720) = .next t) ∧ (∃ t, exec .txname (r8h1 4720) = .next t) ∧
    (∃ t, exec (.txdata 2#32) (r8h1n 4722) = .next t) ∧ ∃ t, exec .txrest (r8h1n 4723) = .next t :=
  ⟨⟨_, rfl⟩, ⟨_, rfl⟩, ⟨_, rfl⟩, ⟨_, rfl⟩, ⟨_, rfl⟩, _, rfl⟩

theorem witness_FrameOfHeaderCloseAndRun :
    (∃ t, exec .hdr (setUp 44 1#32 1#32) = .next t) ∧ (∃ t, exec .close (r8h1 1) = .next t) ∧
    ∃ t, exec .run running = .next t := ⟨⟨_, rfl⟩, ⟨_, rfl⟩, _, rfl⟩

theorem witness_OutIsAppendOnly : (∃ t, exec .hdr (setUp 44 1#32 1#32) = .next t) ∧ ∃ t, exec .reset (s0 0) = .next t :=
  ⟨⟨_, rfl⟩, _, rfl⟩

theorem witness_StepKeepsInv :
    Inv { r8h1 16 with commands := [0x21000000000000A5#64] } ∧
    ∃ t, step { r8h1 16 with commands := [0x21000000000000A5#64] } = .next t ∧ t.outcnt = 16#64 :=
  ⟨{ inv_r8h1 16 with }, _, rfl, by decide⟩

/-- RUN on two bytes of CHUNK, BUFFERED input, its (n+1)-th access refused. -/
def cut (n : Nat) : State := { configured n 1#32 1#32 with dataLen := 2#32 }

theorem nth_replicate {a : Access} {n k : Nat} {rest : List Access} (h : k < n) : (List.replicate n a ++ rest)[k]? = some a := by
  rw [List.getElem?_append_left (by rw [List.length_replicate]; exact h), List.getElem?_replicate, if_pos h]

theorem nth_after {a : Access} {n k : Nat} {rest : List Access} (h : n ≤ k) : (List.replicate n a ++ rest)[k]? = rest[k - n]? := by
  rw [List.getElem?_append_right (by rw [List.length_replicate]; exact h), List.length_replicate]

/-- What TXREST meets of two bytes in STREAMING mode. -/
theorem accesses_streaming {s : State} (hm : isBuffered s = false) (hb : blockByteCount s = 4720) :
    (s.restAccesses 2)[0]? = some Access.byteIn ∧ (s.restAccesses 2)[2]? = some Access.endOfInput ∧ (s.restAccesses 2)[3]? = some Access.sampleByte ∧
    (s.restAccesses 2)[4722]? = some Access.sampleByte := by
  rw [restAccesses_short (by decide), hm, if_neg (by decide), if_neg (by decide), hb, List.append_assoc]
  generalize hn : 4720 = n
  refine ⟨nth_replicate (by decide), by rw [nth_after (by decide)]; rfl, ?_, ?_⟩ <;>
    rw [nth_after (by decide), List.getElem?_append_right (by decide), List.getElem?_replicate, if_pos (by rw [List.length_singleton]; omega)]

/-- What RUN meets with a chunk-style header and two bytes of BUFFERED input. -/
theorem accesses_run {s : State} (hm : isBuffered s = true) (hb : blockByteCount s = 4720) (hh : (headerBytes s).length = 44) :
    let accesses := s.runAccesses (s.restAccesses 2 ++ [Access.flush])
    accesses[0]? = some Access.headerByte ∧ accesses[43]? = some Access.headerByte ∧ accesses[44]? = some Access.sampleByte ∧
    accesses[4764]? = some Access.byteIn ∧ accesses[4765]? = some Access.byteIn ∧ accesses[9486]? = some Access.flush := by
  dsimp only
  rw [State.runAccesses, restAccesses_short (by decide), hm, if_pos rfl, if_neg (by decide), hb, hh, List.append_nil, List.append_assoc]
  generalize hn : 4720 = n
  refine ⟨nth_replicate (by decide), nth_replicate (by decide), by rw [nth_after (by decide)]; exact nth_replicate (by omega), ?_, ?_, ?_⟩
  · rw [nth_after (by decide), nth_after (by omega)]; exact nth_replicate (by omega)
  · rw [nth_after (by decide), nth_after (by omega)]; exact nth_replicate (by omega)
  rw [nth_after (by decide), nth_after (by omega), nth_after (by omega), nth_after (by omega), show 9486 - 44 - n - 2 - n = 0 by omega]
  rfl

/-- TXREST of two bytes, STREAMING: the first read refused, the end of the input, the first sample and the last one. Only the host's
answers depend on `n`. -/
theorem witness_TransmissionStopsAtARefusal :
    (Inv (reading 0 [1#8, 2#8]) ∧ (reading 0 [1#8, 2#8]).nameDone = true ∧ (reading 0 [1#8, 2#8]).eof = false ∧
      (reading 0 [1#8, 2#8]).inputMode.toNat ∈ [1, 2] ∧ (reading 0 [1#8, 2#8]).inBytes.length = 2 ∧
      EmitReady (reading 0 [1#8, 2#8]) 4720 ∧ (2 + 253 - 1) / 253 * blockByteCount (reading 0 [1#8, 2#8]) = 4720) ∧
    ∀ n, Granted (reading n [1#8, 2#8]) n ∧ refusesAt (reading n [1#8, 2#8]) n = true ∧
      ((reading n [1#8, 2#8]).restAccesses 2)[0]? = some Access.byteIn ∧ ((reading n [1#8, 2#8]).restAccesses 2)[2]? = some Access.endOfInput ∧
      ((reading n [1#8, 2#8]).restAccesses 2)[3]? = some Access.sampleByte ∧
      ((reading n [1#8, 2#8]).restAccesses 2)[4722]? = some Access.sampleByte := by
  have hb : ∀ n, blockByteCount (reading n [1#8, 2#8]) = 4720 := fun n => by
    show 295 * (8 * (2 * (1#32).toNat * ((8#32).toNat / 8))) = 4720; decide
  refine ⟨⟨inv_reading 0 _, rfl, rfl, by decide, rfl, ready_reading (by decide), by rw [hb]⟩, fun n => ⟨?_, ?_, accesses_streaming rfl (hb n)⟩⟩
  · exact granted_first rfl (Nat.le_refl n)
  · exact refused_next rfl

/-- RUN: the first header byte refused, the last one, the first sample, either read and the flush. -/
theorem witness_TransmissionStopsAtARefusal_run :
    (Inv (cut 0) ∧ (cut 0).fault = false ∧ (cut 0).initDone = false ∧ (cut 0).closed = false ∧
      (cut 0).baud.toNat = 700 ∧ (cut 0).cfg.minSampleRate ≤ (cut 0).reqRate.toNat ∧
      deriveHalf (cut 0).cfg.rounding (cut 0).reqRate.toNat (cut 0).baud.toNat = 1 ∧
      (cut 0).width.toNat ∈ [8, 16, 24, 32] ∧ (cut 0).container.toNat ∈ [1, 2, 3] ∧ (cut 0).inputMode.toNat ∈ [1, 2] ∧
      riffLen (cut 0).prepared ≤ 0xFFFFFFFE ∧ (cut 0).dataLen.toNat ≤ (cut 0).inBytes.length ∧
      (cut 0).outcnt.toNat + 44 + 2 * 4720 + 2 < 2 ^ 64) ∧
    ∀ n, Granted (cut n) n ∧ refusesAt (cut n) n = true ∧ (headerBytes (cut n).prepared).length = 44 ∧
      blockByteCount (cut n).prepared = 4720 ∧
      let accesses := (cut n).prepared.runAccesses ((cut n).prepared.restAccesses 2 ++ [Access.flush])
      accesses[0]? = some Access.headerByte ∧ accesses[43]? = some Access.headerByte ∧ accesses[44]? = some Access.sampleByte ∧
      accesses[4764]? = some Access.byteIn ∧ accesses[4765]? = some Access.byteIn ∧ accesses[9486]? = some Access.flush := by
  have hc : ∀ n, blockByteCount (cut n).prepared = 4720 := fun n => by
    show 295 * (8 * (2 * (BitVec.ofNat 32 (deriveHalf .ceil (1400#32).toNat (700#32).toNat)).toNat * ((8#32).toNat / 8))) = 4720; decide
  have hh : ∀ n, (headerBytes (cut n).prepared).length = 44 := fun n =>
    length_headerBytes.trans (if_pos rfl)
  refine ⟨⟨inv_configured 0 _ _ _, rfl, rfl, rfl, by decide, by decide, by decide, by decide, by decide, by decide, by decide, by decide, by decide⟩,
    fun n => ⟨?_, ?_, hh n, hc n, accesses_run rfl (hc n) (hh n)⟩⟩
  · exact granted_first rfl (Nat.le_refl n)
  · exact refused_next rfl

/-- RUN on two bytes of STREAMING input in a RAW container, its (n+1)-th access refused. -/
def cutStreaming (n : Nat) : State := { configured n 3#32 2#32 with dataLen := 0#32 }

/-- RUN in STREAMING mode: the last sample of the name block refused, the first read, the end of the input, a sample of the data. -/
theorem witness_TransmissionStopsAtARefusal_streaming :
    (Inv (cutStreaming 0) ∧ (cutStreaming 0).fault = false ∧ (cutStreaming 0).initDone = false ∧ (cutStreaming 0).closed = false ∧
      (cutStreaming 0).container.toNat ∈ [1, 2, 3] ∧ (cutStreaming 0).inputMode = 2#32 ∧ lengthKnown (cutStreaming 0) = false ∧
      (cutStreaming 0).inBytes.length = 2) ∧
    ∀ n, Granted (cutStreaming n) n ∧ refusesAt (cutStreaming n) n = true ∧
      let accesses := (cutStreaming n).prepared.runAccesses ((cutStreaming n).prepared.restAccesses 2 ++ [Access.flush])
      accesses[4719]? = some Access.sampleByte ∧ accesses[4720]? = some Access.byteIn ∧ accesses[4722]? = some Access.endOfInput ∧
      accesses[4723]? = some Access.sampleByte := by
  refine ⟨⟨inv_configured 0 _ _ _, rfl, rfl, rfl, by decide, rfl, rfl, rfl⟩,
    fun n => ⟨granted_first rfl (Nat.le_refl n), refused_next rfl, ?_⟩⟩
  have hb : blockByteCount (cutStreaming n).prepared = 4720 := by
    show 295 * (8 * (2 * (BitVec.ofNat 32 (deriveHalf .ceil (1400#32).toNat (700#32).toNat)).toNat * ((8#32).toNat / 8))) = 4720; decide
  have hh : (headerBytes (cutStreaming n).prepared).length = 0 := length_headerBytes.trans rfl
  obtain ⟨h0, h2, h3, -⟩ := accesses_streaming (s := (cutStreaming n).prepared) rfl hb
  have beyond : ∀ k, ((cutStreaming n).prepared.runAccesses ((cutStreaming n).prepared.restAccesses 2 ++ [Access.flush]))[4720 + k]? =
      ((cutStreaming n).prepared.restAccesses 2 ++ [Access.flush])[k]? := fun k => by
    rw [State.runAccesses, hh, List.replicate_zero, List.nil_append, hb, nth_after (Nat.le_add_right _ _), Nat.add_sub_cancel_left]
  have inner : ∀ {k a}, ((cutStreaming n).prepared.restAccesses 2)[k]? = some a →
      ((cutStreaming n).prepared.restAccesses 2 ++ [Access.flush])[k]? = some a := fun {k a} h => by
    rw [List.getElem?_append_left (List.getElem?_eq_some_iff.1 h).1]; exact h
  refine ⟨?_, (beyond 0).trans (inner h0), (beyond 2).trans (inner h2), (beyond 3).trans (inner h3)⟩
  rw [State.runAccesses, hh, List.replicate_zero, List.nil_append, hb]
  exact nth_replicate (by decide)

/-- RUN on two bytes of CHUNK, BUFFERED input where DATA_LEN wants three, `n` accesses granted and the next one refused. -/
def cutShort (n : Nat) : State := { configured n 1#32 1#32 with dataLen := 3#32 }

/-- A BUFFERED input that falls short. RUN: a read refused (the 4766th access), the end of the input refused, and granted. TXREST with one
byte short of two blocks: the last sample of the block refused, the end of the input refused, and granted. -/
theorem witness_TransmissionStopsAtARefusal_short :
    (Inv (cutShort 0) ∧ (cutShort 0).fault = false ∧ (cutShort 0).initDone = false ∧ (cutShort 0).closed = false ∧
      (cutShort 0).baud.toNat = 700 ∧ (cutShort 0).cfg.minSampleRate ≤ (cutShort 0).reqRate.toNat ∧
      deriveHalf (cutShort 0).cfg.rounding (cutShort 0).reqRate.toNat (cutShort 0).baud.toNat = 1 ∧
      (cutShort 0).width.toNat ∈ [8, 16, 24, 32] ∧ (cutShort 0).container.toNat ∈ [1, 2, 3] ∧ (cutShort 0).inputMode = 1#32 ∧
      ((cutShort 0).inBytes.take (cutShort 0).dataLen.toNat).length < (cutShort 0).dataLen.toNat ∧
      riffLen (cutShort 0).prepared ≤ 0xFFFFFFFE ∧ (cutShort 0).outcnt.toNat + 44 + 2 * 4720 + 2 < 2 ^ 64) ∧
    (∀ n, (Granted (cutShort n) n ∧ refusesAt (cutShort n) n = true ∧ Granted (cutShort (n + 1)) n ∧ refusesAt (cutShort (n + 1)) n = false) ∧
      let accesses := (cutShort n).prepared.runAccesses ((cutShort n).prepared.shortAccesses 2)
      accesses[4765]? = some Access.byteIn ∧ accesses[4766]? = some Access.endOfInput ∧ accesses.length = 4766 + 1) ∧
    ∀ n, (Inv (wanting n) ∧ EmitReady (wanting n) ((254 + 253 - 1) / 253 * blockByteCount (wanting n)) ∧ (wanting n).nameDone = true ∧ (wanting n).eof = false ∧ (wanting n).inputMode = 1#32 ∧
        (wanting n).dataLen.toNat - (wanting n).incnt.toNat = 254 ∧ (wanting n).inBytes.length = 253 ∧
        (wanting n).incnt.toNat + 253 < 2 ^ 64) ∧
      (Granted (wanting n) n ∧ refusesAt (wanting n) n = true ∧ Granted (wanting (n + 1)) n ∧ refusesAt (wanting (n + 1)) n = false) ∧
      ((wanting n).shortAccesses 253)[4972]? = some Access.sampleByte ∧ ((wanting n).shortAccesses 253)[4973]? = some Access.endOfInput ∧
      ((wanting n).shortAccesses 253).length = 4973 + 1 := by
  have later : ∀ {s : State} {n : Nat}, s.hostRefuses = List.replicate (n + 1) false ++ [true] → Granted s n ∧ refusesAt s n = false :=
    fun h => ⟨granted_first h (by omega), granted_first h (Nat.le_refl _) _ (by omega)⟩
  refine ⟨⟨inv_configured 0 _ _ _, rfl, rfl, rfl, rfl, by decide, by decide, by decide, by decide, rfl, by decide, by decide, by decide⟩,
    fun n => ⟨⟨granted_first rfl (Nat.le_refl n), refused_next rfl, later rfl⟩, ?_⟩,
    fun n => ⟨⟨inv_wanting n, ready_wanting n, rfl, rfl, rfl, rfl, List.length_replicate, by show 0 + 253 < 2 ^ 64; decide⟩, ⟨granted_first rfl (Nat.le_refl n), refused_next rfl, later rfl⟩, ?_⟩⟩
  · have hb : blockByteCount (cutShort n).prepared = 4720 := by
      show 295 * (8 * (2 * (BitVec.ofNat 32 (deriveHalf .ceil (1400#32).toNat (700#32).toNat)).toNat * ((8#32).toNat / 8))) = 4720; decide
    have hh : (headerBytes (cutShort n).prepared).length = 44 := length_headerBytes.trans (if_pos rfl)
    rw [State.runAccesses, shortAccesses_less (by decide), hb, hh]
    generalize hm : 4720 = m
    dsimp only
    refine ⟨?_, ?_, ?_⟩
    · rw [nth_after (by decide), nth_after (by omega)]; exact nth_replicate (by omega)
    · rw [nth_after (by decide), nth_after (by omega), nth_after (by omega), show 4766 - 44 - m - 2 = 0 by omega]; rfl
    · simp only [List.length_append, List.length_replicate, List.length_singleton]; omega
  · have hb : blockByteCount (wanting n) = 4720 := by
      show 295 * (8 * (2 * (1#32).toNat * ((8#32).toNat / 8))) = 4720; decide
    rw [shortAccesses_full (Nat.le_refl _), shortAccesses_less (by decide), State.blockAccesses, hb, List.append_assoc]
    generalize hm : 4720 = m
    refine ⟨?_, ?_, ?_⟩
    · rw [nth_after (by decide)]; exact nth_replicate (by omega)
    · rw [nth_after (by decide), nth_after (by omega), show 4973 - 253 - m = 0 by omega]; rfl
    · simp only [List.length_append, List.length_replicate, List.length_singleton]; omega

end Sys2Proof.Tests
end

/-! PROOFS. The encoding family: what a step does with any command word (30_encoding.md R72, R74), and the bytes of a sample word (R83). -/

namespace Sys2Proof.Machine

/-! ### The decoder, class by class of words (R72, R74) -/

theorem exists_opcode_of_listed {b : Byte} (h : b.toNat ∈ listedOpcodes) : ∃ o, b = opcodeByte o := by
  obtain ⟨o, ho⟩ := Option.ne_none_iff_exists'.1 fun hn => (opcodeOfByte_none_iff b).1 hn h
  exact ⟨o, (opcodeByte_of ho).symm⟩

theorem bareOperands_isSome (i : Instr) (sel : Byte) (imm : U32) :
    (bareOperands i sel imm).isSome = decide (sel.toNat = 0 ∧ imm.toNat = 0) := by
  rw [Bool.eq_iff_iff]
  simp [bareOperands, ← BitVec.toNat_inj]

/-- The PUT rows: a variant for each selector up to 5, of 8, 16 or 32 bits. -/
theorem putOperands_isSome (sel : Byte) (imm : U32) : (putOperands sel imm).isSome =
    decide ((sel.toNat = 0 ∧ imm.toNat < 256) ∨ ((sel.toNat = 1 ∨ sel.toNat = 2) ∧ imm.toNat < 65536) ∨
      (3 ≤ sel.toNat ∧ sel.toNat ≤ 5)) := by
  rw [Bool.eq_iff_iff, decide_eq_true_iff]
  unfold putOperands
  split
  case h_7 => simp only [Option.isSome_none, Bool.false_eq_true, false_iff, imp_false] at *; omega
  all_goals rename_i hsel; simp [hsel]

/-- The decoder accepts exactly the operands that the row of R71 admits. -/
theorem operandsOf_isSome (o : Opcode) (sel : Byte) (imm : U32) :
    (operandsOf o sel imm).isSome = rowAdmits (opcodeByte o).toNat sel.toNat imm.toNat := by
  cases o
  case put => exact putOperands_isSome sel imm
  case wrcfg => rfl
  case rdreg | blkwr | emitbit | emitbyte | txdata =>
    rw [Bool.eq_iff_iff]
    simp [operandsOf, rowAdmits, opcodeByte, ← BitVec.toNat_inj]
  all_goals exact bareOperands_isSome _ sel imm

/-- R74: a reserved OPC. -/
theorem decode_of_reserved {w : U64} (h : (fieldOpc w).toNat ∉ listedOpcodes) : decode w = .illegalCommand (fieldOpc w) := by
  unfold decode
  rw [(opcodeOfByte_none_iff _).2 h]

/-- R72: with a listed OPC, RSV is looked at before the operands. -/
theorem decode_of_rsv {w : U64} (h : (fieldOpc w).toNat ∈ listedOpcodes) (hr : (fieldRsv w).toNat ≠ 0) :
    decode w = .illegalOperand ((fieldRsv w).setWidth 32) := by
  obtain ⟨o, ho⟩ := exists_opcode_of_listed h
  have hr' : fieldRsv w ≠ 0#16 := fun h0 => hr (congrArg BitVec.toNat h0)
  unfold decode
  rw [ho, opcodeOfByte_opcodeByte]
  exact if_neg hr'

/-- With a listed OPC and RSV = 0 the row of the OPC decides. -/
theorem decode_of_opcode {w : U64} {o : Opcode} (ho : fieldOpc w = opcodeByte o) (hr : (fieldRsv w).toNat = 0) :
    decode w = ((operandsOf o (fieldSel w) (fieldImm w)).map Decoded.instr).getD (.illegalOperand (fieldImm w)) := by
  have hr' : fieldRsv w = 0#16 := BitVec.eq_of_toNat_eq hr
  unfold decode
  rw [ho, opcodeOfByte_opcodeByte]
  dsimp only
  rw [if_pos hr']
  cases operandsOf o (fieldSel w) (fieldImm w) <;> rfl

theorem decode_of_row_refuses {w : U64} (h : (fieldOpc w).toNat ∈ listedOpcodes) (hr : (fieldRsv w).toNat = 0)
    (hrow : rowAdmits (fieldOpc w).toNat (fieldSel w).toNat (fieldImm w).toNat = false) :
    decode w = .illegalOperand (fieldImm w) := by
  obtain ⟨o, ho⟩ := exists_opcode_of_listed h
  rw [ho, ← operandsOf_isSome, Option.isSome_eq_false_iff, Option.isNone_iff_eq_none] at hrow
  rw [decode_of_opcode ho hr, hrow]
  rfl

theorem decode_of_row_admits {w : U64} (h : (fieldOpc w).toNat ∈ listedOpcodes) (hr : (fieldRsv w).toNat = 0)
    (hrow : rowAdmits (fieldOpc w).toNat (fieldSel w).toNat (fieldImm w).toNat = true) : ∃ i, decode w = .instr i := by
  obtain ⟨o, ho⟩ := exists_opcode_of_listed h
  rw [ho, ← operandsOf_isSome, Option.isSome_iff_exists] at hrow
  obtain ⟨i, hi⟩ := hrow
  exact ⟨i, by rw [decode_of_opcode ho hr, hi]; rfl⟩

theorem encode_of_decode {w : U64} {i : Instr} (h : decode w = .instr i) : encode i = w := by
  obtain ⟨hopc, hrsv, hsel, himm, -⟩ := decode_instr h
  rw [encode, ← hopc, ← hsel, ← himm, ← hrsv, commandWord_fields]

theorem decodeFaulted_discards {w : U64} (h : (fieldOpc w).toNat ∉ [0x01, 0x03, 0x7F]) : decodeFaulted w = .discarded := by
  unfold decodeFaulted
  split
  case h_4 => rfl
  all_goals
    rename_i ho
    rw [← opcodeByte_of ho] at h
    exact absurd (by decide) h

/-! ### A step that takes a word from the command port

`u` is the state without the word. -/

theorem fetch_cons {s : State} {w : U64} {rest : List U64} (h : s.commands = w :: rest) :
    fetch s = some (w, { s with commands := rest }) := by
  unfold fetch
  rw [h]

section
variable {s u : State} {w : U64}

theorem step_of_fetch (h : fetch s = some (w, u)) : step s = perform w (decodeIn u.fault w) u := by
  unfold step
  rw [h]
  rfl

theorem step_of_fetch_running (h : fetch s = some (w, u)) (hf : u.fault = false) : step s = perform w (decode w) u := by
  rw [step_of_fetch h, hf]
  rfl

theorem step_discards (h : fetch s = some (w, u)) (hf : u.fault = true) (hopc : (fieldOpc w).toNat ∉ [0x01, 0x03, 0x7F]) :
    step s = .next u := by
  have hd : decodeIn true w = .discarded := decodeFaulted_discards hopc
  rw [step_of_fetch h, hf, hd]
  rfl

theorem step_of_illegalCommand (h : fetch s = some (w, u)) (hf : u.fault = false) {opc : Byte}
    (hd : decode w = .illegalCommand opc) : step s = .next (u.faulted 0x0C (fieldOpc w) (fieldSel w) opc.toNat) := by
  rw [step_of_fetch_running h hf, hd]
  exact congrArg Host.Outcome.next (takeFault_eq (by decide) hf)

theorem step_of_illegalOperand (h : fetch s = some (w, u)) (hf : u.fault = false) {value : U32}
    (hd : decode w = .illegalOperand value) : step s = .next (u.faulted 0x0D (fieldOpc w) (fieldSel w) value.toNat) := by
  rw [step_of_fetch_running h hf, hd]
  exact congrArg Host.Outcome.next (takeFault_eq (by decide) hf)

theorem step_of_instr (h : fetch s = some (w, u)) (hf : u.fault = false) {i : Instr} (hd : decode w = .instr i) :
    step s = exec i u := by
  rw [step_of_fetch_running h hf, hd]
  rfl

/-! ### The selector and EXT checks of WRCFG and RDREG (44_driver.md R182, R184) -/

theorem exec_wrcfg_raises {sel : Byte} {imm : U32} {v : Nat} (hf : u.fault = false)
    (hc : wrcfgCheck sel imm u = .raised .illegalOperand v u) :
    exec (.wrcfg sel imm) u = .next (u.faulted 0x0D 0x02#8 sel v) := by
  unfold exec execWrcfg
  refine runCommand_raised (c := .illegalOperand) hf ?_ hf (by decide)
  rw [hc]
  rfl

theorem exec_rdreg_reserved {sel : Byte} (hf : u.fault = false) (hsel : 24 < sel.toNat) :
    exec (.rdreg sel) u = .next (u.faulted 0x0D 0x03#8 sel sel.toNat) := by
  have hraise : lastReadable < sel.toNat ∧ u.fault = false := ⟨hsel, hf⟩
  rw [← takeFault_eq (c := .illegalOperand) (by decide) hf]
  exact congrArg Host.Outcome.next (if_pos hraise)

/-- A WRCFG word whose check fails: its row admits every operand, so the word is executed and the command raises. -/
theorem step_wrcfg_raises (h : fetch s = some (w, u)) (hf : u.fault = false) (hopc : (fieldOpc w).toNat = 0x02)
    (hr : (fieldRsv w).toNat = 0) {v : Nat}
    (hc : wrcfgCheck (fieldSel w) (fieldImm w) u = .raised .illegalOperand v u) :
    step s = .next (u.faulted 0x0D (fieldOpc w) (fieldSel w) v) := by
  have hb : fieldOpc w = opcodeByte .wrcfg := BitVec.eq_of_toNat_eq hopc
  have hd : decode w = .instr (.wrcfg (fieldSel w) (fieldImm w)) := decode_of_opcode hb hr
  rw [step_of_instr h hf hd, exec_wrcfg_raises hf hc, hb]
  rfl

theorem step_rdreg_reserved (h : fetch s = some (w, u)) (hf : u.fault = false) (hopc : (fieldOpc w).toNat = 0x03)
    (hr : (fieldRsv w).toNat = 0) (himm : (fieldImm w).toNat = 0) (hsel : 24 < (fieldSel w).toNat) :
    step s = .next (u.faulted 0x0D (fieldOpc w) (fieldSel w) (fieldSel w).toNat) := by
  have hb : fieldOpc w = opcodeByte .rdreg := BitVec.eq_of_toNat_eq hopc
  have hrow : operandsOf .rdreg (fieldSel w) (fieldImm w) = some (.rdreg (fieldSel w)) := if_pos (BitVec.eq_of_toNat_eq himm)
  have hd : decode w = .instr (.rdreg (fieldSel w)) := by rw [decode_of_opcode hb hr, hrow]; rfl
  rw [step_of_instr h hf hd, exec_rdreg_reserved hf hsel, hb]
  rfl

end

/-- Settles O4: `decode` is known on each class of words, and a step performs what the word decodes to. -/
theorem decodingIsTotal : Obligations.DecodingIsTotal := by
  intro s w rest hcommands
  have h := fetch_cons hcommands
  refine ⟨step_discards h, fun hf => ⟨?reserved, ?rsv, ?row, ?selector, ?ext, ?rdreg, ?executed⟩⟩
  case reserved => exact fun hopc => step_of_illegalCommand h hf (decode_of_reserved hopc)
  case rsv =>
    intro hopc hr
    have hwide : ((fieldRsv w).setWidth 32).toNat = (fieldRsv w).toNat := BitVec.toNat_setWidth_of_le (by decide)
    rw [step_of_illegalOperand h hf (decode_of_rsv hopc hr), hwide]
  case row => exact fun hopc hr hrow => step_of_illegalOperand h hf (decode_of_row_refuses hopc hr hrow)
  case selector => exact fun hopc hr hsel => step_wrcfg_raises h hf hopc hr (by rw [wrcfgCheck_eq, if_pos hsel])
  case ext =>
    intro hopc hr hsel himm
    exact step_wrcfg_raises h hf hopc hr (by rw [wrcfgCheck_eq, if_neg (by omega), if_pos ⟨hsel, himm⟩])
  case rdreg => exact step_rdreg_reserved h hf
  case executed =>
    intro hopc hr hrow
    obtain ⟨i, hd⟩ := decode_of_row_admits hopc hr hrow
    exact ⟨i, hd, encode_of_decode hd, step_of_instr h hf hd⟩

/-! ### Sample words (R80, R83) -/

/-- The low bytes of a value, low byte first, are the first bytes of any longer little-endian form of it. -/
theorem bytesOf_little_take {n k : Nat} (h : n ≤ k) (v : Nat) : bytesOf n .little v = (bytesOf k .little v).take n := by
  simp only [bytesOf, ← List.map_take, List.take_range, Nat.min_eq_left h]

theorem sampleBytes_little {w : Nat} (h : w / 8 ≤ 4) (v : U32) : sampleBytes v w .little = (le32 v).take (w / 8) := by
  rw [← put32Bytes_little]
  exact bytesOf_little_take h v.toNat

theorem sampleBytes_big (v : U32) (w : Nat) : sampleBytes v w .big = (sampleBytes v w .little).reverse := rfl

theorem convention_chunk {s : State} (h : s.container = 1#32) : convention s = chunkConvention := by
  unfold convention
  rw [h]
  rfl

theorem convention_simple {s : State} (h : s.container = 2#32) : convention s = simpleConvention := by
  unfold convention
  rw [h]
  rfl

theorem convention_raw {s : State} (h : s.container = 3#32) :
    convention s = if s.cfg.rawConvention = .chunk then chunkConvention else simpleConvention := by
  unfold convention
  rw [h]
  cases s.cfg.rawConvention <;> rfl

/-- Settles O26: the bytes of a sample word are the first ones of its 32-bit form, or those reversed, in the order of its container. -/
theorem sampleWordsFollowTheContainer : Obligations.SampleWordsFollowTheContainer := by
  refine ⟨fun v => ?widths, sampleBytes_big, fun s => ⟨fun h => ?chunk, fun h => ?simple, fun h => ?raw⟩⟩
  case widths =>
    exact ⟨sampleBytes_little (by decide) v, sampleBytes_little (by decide) v, sampleBytes_little (by decide) v,
      sampleBytes_little (by decide) v⟩
  case chunk => rw [convention_chunk h]; rfl
  case simple => rw [convention_simple h]; rfl
  case raw => rw [convention_raw h, apply_ite Convention.order]; rfl

end Sys2Proof.Machine

/-! PROOFS. The modulation family: the half-bit derivation under both roundings (41_modulation.md R122). -/

namespace Sys2Proof.Machine

/-! ### The half-bit derivation (R122)

Each rounding is the least H whose bound reaches R: 2·H·B under CEIL, (2·H + 1)·B, not included, under FLOOR_EVEN. Where the two
derivations differ is where these two bounds part. -/

theorem deriveHalf_ceil_le_iff {b : Nat} (hb : 0 < b) (r h : Nat) : deriveHalf .ceil r b ≤ h ↔ r ≤ 2 * b * h := by
  have hceil : deriveHalf .ceil r b = r ⌈/⌉ (2 * b) := (Nat.ceilDiv_eq_add_pred_div r (2 * b)).symm
  rw [hceil, ceilDiv_le_iff_le_mul (by omega)]

theorem two_mul_deriveHalf_floorEven (r b : Nat) : 2 * deriveHalf .floorEven r b = r / b + r / b % 2 := by
  rw [deriveHalf]
  split <;> omega

theorem deriveHalf_floorEven_le_iff {b : Nat} (hb : 0 < b) (r h : Nat) :
    deriveHalf .floorEven r b ≤ h ↔ r < (2 * h + 1) * b := by
  have heven := two_mul_deriveHalf_floorEven r b
  rw [← Nat.div_lt_iff_lt_mul hb]
  omega

theorem deriveHalf_floorEven_le_ceil {b : Nat} (hb : 0 < b) (r : Nat) : deriveHalf .floorEven r b ≤ deriveHalf .ceil r b := by
  rw [deriveHalf_floorEven_le_iff hb]
  calc r ≤ 2 * b * deriveHalf .ceil r b := (deriveHalf_ceil_le_iff hb r _).mp le_rfl
    _ < (2 * deriveHalf .ceil r b + 1) * b := by linarith

theorem deriveHalf_ceil_ne_floorEven_iff {b : Nat} (hb : 0 < b) (r : Nat) :
    deriveHalf .ceil r b ≠ deriveHalf .floorEven r b ↔ ∃ k, 2 * k * b < r ∧ r < (2 * k + 1) * b := by
  have hle := deriveHalf_floorEven_le_ceil hb r
  have hbetween (k : Nat) :
      (2 * k * b < r ∧ r < (2 * k + 1) * b) ↔ k < deriveHalf .ceil r b ∧ deriveHalf .floorEven r b ≤ k := by
    rw [deriveHalf_floorEven_le_iff hb, ← not_le (b := k), deriveHalf_ceil_le_iff hb, not_le, Nat.mul_right_comm 2 k b]
  simp only [hbetween]
  constructor
  · exact fun hne => ⟨deriveHalf .floorEven r b, by omega, le_rfl⟩
  · rintro ⟨k, hceil, hfloor⟩
    omega

/-- Settles O21: the bounds that define the two derivations, and where they part. -/
theorem halfBitDerivation : Obligations.HalfBitDerivation := by
  refine ⟨fun r b hb => ⟨?reaches, fun h => ?least⟩, two_mul_deriveHalf_floorEven,
    fun r b hb => deriveHalf_ceil_ne_floorEven_iff hb r, by decide, by decide, fun _ _ => rfl⟩
  case reaches => exact (deriveHalf_ceil_le_iff hb r _).mp le_rfl
  case least => exact (deriveHalf_ceil_le_iff hb r h).mpr

end Sys2Proof.Machine

/-! PROOFS. The driver family: the operand checks of WRCFG in their order (44_driver.md R184). -/

namespace Sys2Proof.Machine

/-- Outside the fault state WRCFG is its check and then the write (R181); a `raise` of the check is the command's fault entry. -/
theorem exec_wrcfg_running {s : State} (hf : s.fault = false) (sel : Byte) (imm : U32) :
    exec (.wrcfg sel imm) s =
      .next (settle 0x02#8 sel ((wrcfgCheck sel imm s).andThen fun t => .done (writeRegister sel imm t))) := by
  have hrun : ¬ s.fault = true := by simp [hf]
  exact congrArg Host.Outcome.next (if_neg hrun)

/-- Settles O12: the check's branches, in its order, each followed by its fault entry or by the write. -/
theorem wrcfgChecksInOrder : Obligations.WrcfgChecksInOrder := by
  intro sel imm s hf
  rw [exec_wrcfg_running hf, wrcfgCheck_eq]
  congr 1
  split_ifs with hselector hext hlock
  · exact takeFault_eq (c := .illegalOperand) (by decide) hf
  · exact takeFault_eq (c := .illegalOperand) (by decide) hf
  · exact takeFault_eq (c := .sequence) (by decide) hf
  · rfl

end Sys2Proof.Machine

/-! PROOFS. The exceptions family: what the fault state executes, discards and records (60_exceptions.md R204 to R206). -/

namespace Sys2Proof.Machine

/-! ### RDREG's view of a register (10_state.md R21, R23) -/

/-- STATUS is the number whose binary digits are the flags, P the lowest. -/
theorem statusWord_eq (s : State) : statusWord s = BitVec.ofNat 32 (s.pol.toNat + 2 * s.timingOk.toNat + 4 * s.initDone.toNat
    + 8 * s.hdrDone.toNat + 16 * s.nameDone.toNat + 32 * s.samples.toNat + 64 * s.declared.toNat + 128 * s.closed.toNat
    + 256 * s.fault.toNat + 512 * s.eof.toNat) := by
  rw [← BitVec.setWidth_eq (statusWord s), ← BitVec.ofNat_toNat]
  congr 1
  simp only [statusWord, BitVec.append_ofBool, BitVec.toNat_concat, BitVec.toNat_ofNat]
  omega

/-- The two words of a 64-bit counter. -/
theorem extractLsb'_counter_low (c : U64) : c.extractLsb' 0 32 = BitVec.ofNat 32 c.toNat := rfl

theorem extractLsb'_counter_high (c : U64) : c.extractLsb' 32 32 = BitVec.ofNat 32 (c.toNat / 2 ^ 32) := by
  rw [← Nat.shiftRight_eq_div_pow]
  rfl

/-- A selector's register is its entry of the register file, and a selector past the last one reads 0. -/
theorem readRegister_eq (sel : Byte) (s : State) : readRegister sel s = ((registerFile s)[sel.toNat]?).getD 0#32 := by
  unfold readRegister
  split
  case h_26 =>
    have hpast : (registerFile s).length ≤ sel.toNat := by
      show 25 ≤ sel.toNat
      simp only [imp_false] at *
      omega
    rw [List.getElem?_eq_none hpast]
    rfl
  all_goals
    rename_i hsel
    rw [hsel]
  case h_14 => exact statusWord_eq s
  case h_16 => exact (BitVec.ofNat_toNat 32 s.blkcnt).symm
  case h_18 => exact extractLsb'_counter_high s.outcnt
  case h_20 => exact extractLsb'_counter_high s.sbytes
  case h_23 => exact extractLsb'_counter_high s.incnt
  all_goals rfl

/-! ### A command in the fault state (R205) -/

theorem exec_rdreg_faulted {s : State} (hf : s.fault = true) (sel : Byte) :
    exec (.rdreg sel) s = .next (respond (readRegister sel s) s) := by
  have hquiet : ¬ (lastReadable < sel.toNat ∧ s.fault = false) := by simp [hf]
  exact congrArg Host.Outcome.next (if_neg hquiet)

/-- NOP has no effect to begin with; every other command but RDREG and RESET runs through `runCommand`, which the fault state stops. -/
theorem exec_faulted {i : Instr} {s : State} (hf : s.fault = true) (hread : ∀ sel, i ≠ .rdreg sel) (hreset : i ≠ .reset) :
    exec i s = .next s := by
  cases i
  case nop => rfl
  case rdreg sel => exact absurd rfl (hread sel)
  case reset => exact absurd rfl hreset
  all_goals exact congrArg Host.Outcome.next (if_pos hf)

/-- A command of the fault state that is no RESET answers on the response port at most. -/
theorem exec_faulted_frame {i : Instr} {s t : State} (hf : s.fault = true) (hreset : i ≠ .reset) (h : exec i s = .next t) :
    t = { s with responses := t.responses } := by
  by_cases hread : ∃ sel, i = .rdreg sel
  · obtain ⟨sel, rfl⟩ := hread
    rw [exec_rdreg_faulted hf] at h
    cases h
    rfl
  · rw [exec_faulted hf (not_exists.mp hread) hreset] at h
    cases h
    rfl

/-! ### A step from the fault state (R205, R206) -/

section
variable {s u : State} {w : U64}

theorem decodeFaulted_nop (hopc : fieldOpc w = 0x01#8) : decodeFaulted w = .instr .nop := by
  unfold decodeFaulted
  rw [hopc]
  rfl

theorem decodeFaulted_rdreg (hopc : fieldOpc w = 0x03#8) : decodeFaulted w = .instr (.rdreg (fieldSel w)) := by
  unfold decodeFaulted
  rw [hopc]
  rfl

theorem decodeFaulted_reset (hopc : fieldOpc w = 0x7F#8) : decodeFaulted w = .instr .reset := by
  unfold decodeFaulted
  rw [hopc]
  rfl

theorem step_instr_faulted (h : fetch s = some (w, u)) (hf : u.fault = true) {i : Instr} (hd : decodeFaulted w = .instr i) :
    step s = exec i u := by
  have hin : decodeIn true w = .instr i := hd
  rw [step_of_fetch h, hf, hin]
  rfl

theorem step_nop_faulted (h : fetch s = some (w, u)) (hf : u.fault = true) (hopc : fieldOpc w = 0x01#8) :
    step s = .next u := step_instr_faulted h hf (decodeFaulted_nop hopc)

theorem step_rdreg_faulted (h : fetch s = some (w, u)) (hf : u.fault = true) (hopc : fieldOpc w = 0x03#8) :
    step s = .next { u with responses := u.responses ++ [((registerFile u)[(fieldSel w).toNat]?).getD 0#32] } := by
  rw [step_instr_faulted h hf (decodeFaulted_rdreg hopc), ← readRegister_eq]
  exact exec_rdreg_faulted hf (fieldSel w)

theorem step_reset_faulted (h : fetch s = some (w, u)) (hf : u.fault = true) (hopc : fieldOpc w = 0x7F#8) :
    step s = exec .reset u := step_instr_faulted h hf (decodeFaulted_reset hopc)

theorem step_other_faulted (h : fetch s = some (w, u)) (hf : u.fault = true) (hnop : fieldOpc w ≠ 0x01#8)
    (hread : fieldOpc w ≠ 0x03#8) (hreset : fieldOpc w ≠ 0x7F#8) : step s = .next u := by
  refine step_discards h hf ?_
  simpa [← BitVec.toNat_inj] using And.intro hnop (And.intro hread hreset)

/-- Whatever the word, RESET aside, the step leaves all but the response port as it was. -/
theorem step_faulted_frame {t : State} (h : fetch s = some (w, u)) (hf : u.fault = true) (hreset : fieldOpc w ≠ 0x7F#8)
    (hstep : step s = .next t) : t = { u with responses := t.responses } := by
  by_cases hnop : fieldOpc w = 0x01#8
  · rw [step_nop_faulted h hf hnop] at hstep
    cases hstep
    rfl
  by_cases hread : fieldOpc w = 0x03#8
  · rw [step_rdreg_faulted h hf hread] at hstep
    cases hstep
    rfl
  · rw [step_other_faulted h hf hnop hread hreset] at hstep
    cases hstep
    rfl

end

theorem step_idle {s : State} (h : s.commands = []) : step s = .next s := by
  unfold step fetch
  rw [h]
  rfl

/-- Settles O7: the word's OPC byte decides what the fault state makes of it; the record and OUT stay by the frame of the step. -/
theorem faultStateDiscards : Obligations.FaultStateDiscards := by
  intro s w rest hf hcommands
  have h := fetch_cons hcommands
  refine ⟨step_nop_faulted h hf, step_rdreg_faulted h hf, step_reset_faulted h hf, step_other_faulted h hf,
    fun t hstep hreset => ?kept⟩
  case kept =>
    rw [step_faulted_frame h hf hreset hstep]
    exact ⟨hf, rfl, rfl, rfl, rfl⟩

/-- Settles O9: RESET's new session has the power-on record; every other command and word keeps the record by its frame. -/
theorem onlyResetLeavesTheFaultState : Obligations.OnlyResetLeavesTheFaultState := by
  refine ⟨fun i s t hf hexec => ⟨fun hreset => ?other, fun hreset => ?reset⟩, fun s t hf hstep => ?step⟩
  case other =>
    rw [exec_faulted_frame hf hreset hexec]
    exact ⟨hf, rfl, rfl, rfl⟩
  case reset =>
    subst hreset
    cases hexec
    exact ⟨rfl, rfl, rfl, rfl, rfl⟩
  case step =>
    cases hcommands : s.commands with
    | nil =>
      rw [step_idle hcommands] at hstep
      cases hstep
      exact .inl ⟨hf, rfl, rfl, rfl, rfl⟩
    | cons w rest =>
      have h := fetch_cons hcommands
      by_cases hreset : fieldOpc w = 0x7F#8
      · exact .inr ⟨w, rest, rfl, hreset, step_reset_faulted h hf hreset⟩
      · rw [step_faulted_frame h hf hreset hstep]
        exact .inl ⟨hf, rfl, rfl, rfl, rfl⟩

/-! ### Entering the fault state (R204) -/

theorem takeFault_faulted {c : FaultCode} {opc sel : Byte} {v : Nat} {s : State} (hf : s.fault = true) :
    takeFault c opc sel v s = s := if_pos hf

theorem takeFault_faultInfo {c : FaultCode} {opc sel : Byte} {v : Nat} {s : State} (hf : s.fault = false) :
    (takeFault c opc sel v s).faultInfo = faultInfoWord opc sel := by
  unfold takeFault
  rw [if_neg (by simp [hf])]

/-- The bodies of RUN only report a fault: S.FAULT is not among what they write. -/
theorem Runs.fault {s t : State} (h : Runs s t) : t.fault = s.fault := by
  rw [h.frame]

/-- Settles O8: fault entry has the record of R200; RUN is faulted by its own fault entry alone, since its bodies leave S.FAULT. -/
theorem faultEntryRecords : Obligations.FaultEntryRecords := by
  refine ⟨fun c n opc sel v s hcode => ⟨takeFault_eq hcode, takeFault_faulted⟩,
    fun c n opc sel v body s r hcode hs hr hbody => runCommand_raised hs hbody hr hcode, fun s t hs hrun ht => ?run⟩
  case run =>
    rcases runCommand_sat hrun (runBody_runs s) with ⟨hfaulted, -⟩ | ⟨-, hdone | ⟨c, v, u, hraised, rfl⟩⟩
    · rw [hs] at hfaulted; cases hfaulted
    · rw [hdone.fault, hs] at ht; cases ht
    · rw [takeFault_faultInfo (hraised.fault.trans hs)]
      decide

end Sys2Proof.Machine

/-! PROOFS. The encoding family, completed: encoder and decoder are inverse to each other (30_encoding.md R70 to R73). -/

namespace Sys2Proof.Machine

theorem setWidth_setWidth_of_le {n : Nat} (v : BitVec n) (h : n ≤ 32) : (v.setWidth 32).setWidth n = v := by
  rw [BitVec.setWidth_setWidth_of_le v h, BitVec.setWidth_eq]

theorem toNat_setWidth_lt {n : Nat} (v : BitVec n) (h : n ≤ 32) : (v.setWidth 32).toNat < 2 ^ n := by
  rw [BitVec.toNat_setWidth_of_le h]
  exact v.isLt

/-- The operand row of a well-formed command accepts the fields that the encoder gives it, and reads that command (R71). -/
theorem operandsOf_fields {i : Instr} (h : i.wellFormed = true) : operandsOf (opcodeOf i) (selOf i) (immOf i) = some i := by
  have hnarrow {n : Nat} (v : BitVec n) (hn : n ≤ 32) (f : BitVec n → Instr) :
      (if (v.setWidth 32).toNat < 2 ^ n then some (f ((v.setWidth 32).setWidth n)) else none) = some (f v) := by
    rw [if_pos (toNat_setWidth_lt v hn), setWidth_setWidth_of_le v hn]
  cases i
  case blkwr index v => exact hnarrow v (by decide) (Instr.blkwr index)
  case put8 v => exact hnarrow v (by decide) Instr.put8
  case put16le v => exact hnarrow v (by decide) Instr.put16le
  case put16be v => exact hnarrow v (by decide) Instr.put16be
  case emitbyte v =>
    have hrow : (0#8 : Byte) = 0#8 ∧ (v.setWidth 32).toNat < 256 := ⟨rfl, toNat_setWidth_lt v (by decide)⟩
    exact (if_pos hrow).trans (congrArg (some ∘ Instr.emitbyte) (setWidth_setWidth_of_le v (by decide)))
  case emitbit b => cases b <;> rfl
  case txdata count => exact if_pos ⟨rfl, of_decide_eq_true h⟩
  all_goals rfl

/-- Settles O1: the word's fields are the command's, and the row of its OPC reads the command off them. -/
theorem decodeOfEncode : Obligations.DecodeOfEncode := by
  intro i hwf
  obtain ⟨-, hsel, himm, hrsv⟩ := Laws.WordFields.fields i
  have hopc : fieldOpc (encode i) = opcodeByte (opcodeOf i) := fieldOpc_commandWord _ _ _ _
  rw [decode_of_opcode hopc (by rw [hrsv]; rfl), hsel, himm, operandsOf_fields hwf]
  rfl

/-- Settles O2: what decodes holds the fields of its command, and a word is its fields. -/
theorem encodeOfDecode : Obligations.EncodeOfDecode := by
  intro w i h
  obtain ⟨-, -, -, -, hwf⟩ := decode_instr h
  exact ⟨encode_of_decode h, hwf⟩

/-- Settles O3: each word is decoded as it stands. -/
theorem decodesTheSpecsWords : Obligations.DecodesTheSpecsWords :=
  ⟨rfl, rfl, rfl, rfl, rfl, rfl, rfl, rfl, rfl, rfl, rfl⟩

/-! ### A step as the execution of one command (70_reset_and_hazards.md R243) -/

theorem tableWord_toNat (w : U64) : tableWord 64 w.toNat = w := by
  unfold tableWord
  rw [Nat.mod_eq_of_lt w.isLt, BitVec.ofNat_toNat, BitVec.setWidth_eq]

theorem step_of_decodeIn {s u : State} {w : U64} {i : Instr} (h : fetch s = some (w, u)) (hd : decodeIn u.fault w = .instr i) :
    step s = exec i u := by
  rw [step_of_fetch h, hd]
  rfl

/-- Settles O5: the step performs what the word decodes to, and the word of a command decodes to it (O1). -/
theorem stepRunsDecodedInstruction : Obligations.StepRunsDecodedInstruction := by
  refine ⟨fun s w rest i hcommands hd => step_of_decodeIn (fetch_cons hcommands) hd, fun s i hf hwf => ?_⟩
  have hfetch : fetch (s.withFetchWord 64 (encode i).toNat) = some (encode i, s) :=
    (fetch_cons rfl).trans (by rw [tableWord_toNat]; rfl)
  exact step_of_instr hfetch hf (decodeOfEncode i hwf)

/-- Settles O6. -/
theorem idleWithoutCommand : Obligations.IdleWithoutCommand := fun _ h => step_idle h

end Sys2Proof.Machine

/-! PROOFS. The invariant of a session: it holds at reset, and every step keeps it (10_state.md R21 to R29). -/

namespace Sys2Proof.Machine

/-! ### Reset -/

theorem inv_powerOn (cfg : Config) : Inv (State.powerOn cfg) where
  blk_wf := rfl
  half_range h := by cases h
  actRate_eq h := by cases h
  untimed _ := ⟨rfl, rfl⟩
  init_timed h := by cases h
  init_geometry h := by cases h
  init_levels h := by cases h
  init_buffers h := by cases h
  hdr_init h := by cases h
  hdr_mode h := by cases h
  samples_hdr h := by cases h
  name_hdr h := by cases h
  sbytes_zero _ := rfl
  declared_known h := by cases h
  declared_hdr h := by cases h
  declared_eq h := by cases h
  declared_room h := by cases h
  undeclared _ := rfl
  unread _ := ⟨rfl, rfl, rfl⟩
  outcnt_eq _ := rfl
  sbytes_le _ := Nat.zero_le _
  ext_high := by show 0 < 2 ^ 24; decide
  no_fault _ := ⟨rfl, rfl, rfl⟩
  fault_code h := by cases h

/-- The host's fields, but for an output begun, are no concern of the invariant. -/
theorem inv_newSession (s : State) : Inv (newSession s) := { inv_powerOn s.cfg with }

/-- Settles O58. -/
theorem invAtReset : Obligations.InvAtReset := ⟨inv_powerOn, inv_powerOn Config.built⟩

/-! ### The commands that do not run the engine -/

/-- A register that INIT does not lock holds no part of the invariant but EXT's range, and before INIT no register does. -/
theorem inv_writeRegister {sel : Byte} {imm : U32} {s : State} (hi : Inv s) (hext : ¬ (sel.toNat = 8 ∧ 2 ^ 24 ≤ imm.toNat))
    (hlock : ¬ (s.initDone = true ∧ sel.toNat ∈ [0, 1, 2, 3, 4, 5, 9, 10])) : Inv (writeRegister sel imm s) := by
  by_cases hinit : s.initDone = true
  · unfold writeRegister
    split
    case h_7 | h_8 | h_12 => exact { hi with }
    case h_9 hsel => exact { hi with ext_high := Nat.lt_of_not_le fun h => hext ⟨hsel, h⟩ }
    all_goals
      rename_i hsel
      exact absurd ⟨hinit, by rw [hsel]; decide⟩ hlock
  · obtain ⟨hhdr, hdecl, -, -⟩ := hi.early (by simpa using hinit)
    have noInit {p : Prop} (h : s.initDone = true) : p := absurd h hinit
    have noHdr {p : Prop} (h : s.hdrDone = true) : p := by rw [hhdr] at h; cases h
    have noDecl {p : Prop} (h : s.declared = true) : p := by rw [hdecl] at h; cases h
    unfold writeRegister
    split
    case h_9 hsel => exact { hi with ext_high := Nat.lt_of_not_le fun h => hext ⟨hsel, h⟩ }
    all_goals exact { hi with
      init_geometry := fun h => noInit h, init_levels := fun h => noInit h, init_buffers := fun h => noInit h
      hdr_mode := fun h => noHdr h, declared_known := fun h => noHdr h, declared_eq := fun h => noDecl h }

theorem wrcfg_keeps (sel : Byte) (imm : U32) (s : State) :
    Keeps s ((wrcfgCheck sel imm s).andThen fun t => .done (writeRegister sel imm t)) := by
  intro hi
  rw [wrcfgCheck_eq]
  split_ifs with hsel hext hlock
  · exact hi
  · exact hi
  · exact hi
  · exact inv_writeRegister hi hext hlock

theorem inv_respond {s : State} (hi : Inv s) (v : U32) : Inv (respond v s) := { hi with }

theorem inv_execRdreg {sel : Byte} {s t : State} (hi : Inv s) (h : exec (.rdreg sel) s = .next t) : Inv t := by
  injection h with h
  subst h
  split
  · exact inv_takeFault hi _ _ _ _
  · exact inv_respond hi _

/-! ### Every command, every step -/

/-- The pseudocode that `runCommand` runs for a command; NOP, RDREG and RESET, which the fault state does not stop, have none. -/
def bodyOf : Instr → State → Ran
  | .wrcfg sel imm => fun s => (wrcfgCheck sel imm s).andThen fun t => .done (writeRegister sel imm t)
  | .blkwr index v => fun s => .done (setBlockByte index v s)
  | .blkclr => fun s => .done (setBlock (List.replicate blkSize 0x00#8) s)
  | .timing => timingBody
  | .levels => levelsBody
  | .init => initBody
  | .emitbit b => emitbitBody b
  | .emitbyte v => emitbyteBody v
  | .txblock => txblockBody
  | .txname => txnameBody
  | .txdata count => txdataBody count
  | .txrest => txrestBody
  | .hdr => hdrBody
  | .put8 v => putBody [v]
  | .put16le v => putBody (put16Bytes v.toNat .little)
  | .put16be v => putBody (put16Bytes v.toNat .big)
  | .put32le v => putBody (put32Bytes v.toNat .little)
  | .put32be v => putBody (put32Bytes v.toNat .big)
  | .puttag t => putBody (putTagBytes t.toNat)
  | .run => runBody
  | .close => closeBody
  | .nop => .done
  | .rdreg _ => .done
  | .reset => .done

/-- A fault of a command names the OPC and SEL of its word (10_state.md R29). -/
theorem exec_eq_runCommand {i : Instr} (hnop : i ≠ .nop) (hread : ∀ sel, i ≠ .rdreg sel) (hreset : i ≠ .reset) (s : State) :
    exec i s = runCommand (opcodeByte (opcodeOf i)) (selOf i) (bodyOf i) s := by
  cases i
  case nop => exact absurd rfl hnop
  case rdreg sel => exact absurd rfl (hread sel)
  case reset => exact absurd rfl hreset
  all_goals rfl

/-- A command whose pseudocode goes through. -/
theorem exec_done {i : Instr} {s t : State} (hf : s.fault = false) (hb : bodyOf i s = .done t)
    (hread : ∀ sel, i ≠ .rdreg sel := by nofun) (hreset : i ≠ .reset := by nofun) : exec i s = .next t := by
  by_cases hnop : i = .nop
  · subst hnop; cases hb; rfl
  · rw [exec_eq_runCommand hnop hread hreset, runCommand_done hf hb]

/-- A command whose pseudocode ends at a `raise` (60_exceptions.md R204); `n` is the number of the code in R200. -/
theorem exec_raised {i : Instr} {s t : State} {c : FaultCode} {n v : Nat} (hf : s.fault = false) (hb : bodyOf i s = .raised c v t)
    (ht : t.fault = false) (hn : (c, n) ∈ codeNumbers) (hread : ∀ sel, i ≠ .rdreg sel := by nofun)
    (hreset : i ≠ .reset := by nofun) : exec i s = .next (t.faulted n (opcodeByte (opcodeOf i)) (selOf i) v) := by
  by_cases hnop : i = .nop
  · subst hnop; cases hb
  · rw [exec_eq_runCommand hnop hread hreset, runCommand_raised hf hb ht hn]

/-- What a command leaves, whatever its pseudocode guarantees at either end. -/
theorem exec_sat {i : Instr} {s t : State} {P : State → Prop} {Q : FaultCode → State → Prop} (h : exec i s = .next t)
    (hb : (bodyOf i s).Sat P Q) (hread : ∀ sel, i ≠ .rdreg sel := by nofun) (hreset : i ≠ .reset := by nofun) :
    (s.fault = true ∧ t = s) ∨
      (s.fault = false ∧ (P t ∨ ∃ c v u, Q c u ∧ t = takeFault c (opcodeByte (opcodeOf i)) (selOf i) v u)) := by
  by_cases hnop : i = .nop
  · subst hnop
    cases h
    cases hf : s.fault
    · exact .inr ⟨rfl, .inl hb⟩
    · exact .inl ⟨rfl, rfl⟩
  · rw [exec_eq_runCommand hnop hread hreset] at h
    exact runCommand_sat h hb

theorem bodyOf_keeps (i : Instr) (s : State) : Keeps s (bodyOf i s) := by
  cases i
  case nop | rdreg | reset => exact fun hi => hi
  case wrcfg sel imm => exact wrcfg_keeps sel imm s
  case blkwr index v => exact fun hi => inv_withBlk hi (wf_writeCell hi.blk_wf)
  case blkclr => exact fun hi => inv_withBlk hi (wf_cellsFrom List.length_replicate.le)
  case timing => exact timingBody_keeps s
  case levels => exact levelsBody_keeps s
  case init => exact initBody_keeps s
  case emitbit b => exact emitbitBody_keeps b s
  case emitbyte v => exact emitbyteBody_keeps v s
  case txblock => exact txblockBody_keeps s
  case txname => exact txnameBody_keeps s
  case txdata c => exact txdataBody_keeps c s
  case txrest => exact txrestBody_keeps s
  case hdr => exact hdrBody_keeps s
  case run => exact runBody_keeps s
  case close => exact closeBody_keeps s
  case put8 | put16le | put16be | put32le | put32be | puttag => exact putBody_keeps _ s

theorem exec_keeps_inv {i : Instr} {s t : State} (hi : Inv s) (h : exec i s = .next t) : Inv t := by
  by_cases hnop : i = .nop
  · subst hnop; cases h; exact hi
  by_cases hread : ∃ sel, i = .rdreg sel
  · obtain ⟨sel, rfl⟩ := hread; exact inv_execRdreg hi h
  by_cases hreset : i = .reset
  · subst hreset; cases h; exact inv_newSession s
  rw [exec_eq_runCommand hnop (not_exists.mp hread) hreset] at h
  exact inv_runCommand (bodyOf_keeps i s) hi h

/-- What a word means, once taken: a command, a fault, or nothing. -/
theorem perform_keeps_inv {w : U64} {d : Decoded} {s t : State} (hi : Inv s) (h : perform w d s = .next t) : Inv t := by
  cases d with
  | instr i => exact exec_keeps_inv hi h
  | illegalCommand opc => cases h; exact inv_takeFault hi _ _ _ _
  | illegalOperand value => cases h; exact inv_takeFault hi _ _ _ _
  | discarded => cases h; exact hi

/-- Settles O59: the queue of words is no part of the invariant, and whatever the word decodes to keeps it. -/
theorem stepKeepsInv : Obligations.StepKeepsInv := by
  intro s t hi hstep
  cases hcommands : s.commands with
  | nil => rw [step_idle hcommands] at hstep; cases hstep; exact hi
  | cons w rest =>
    rw [step_of_fetch (fetch_cons hcommands)] at hstep
    have hu : Inv { s with commands := rest } := { hi with }
    exact perform_keeps_inv hu hstep

end Sys2Proof.Machine

/-! PROOFS. The control commands and the block buffer: NOP, WRCFG, RDREG, RESET, BLKWR, BLKCLR (44_driver.md R180 to R187,
42_framer.md R140, R141). -/

namespace Sys2Proof.Machine

/-- Settles O10. -/
theorem nopChangesNothing : Obligations.NopChangesNothing := fun _ => rfl

/-! ### WRCFG (R181) -/

/-- A write reaches its own register and no other one. -/
theorem registerFile_writeRegister {sel : Byte} (hsel : sel.toNat ≤ 10) (imm : U32) (s : State) :
    registerFile (writeRegister sel imm s) = (registerFile s).set sel.toNat imm := by
  unfold writeRegister
  split
  case h_12 => simp only [imp_false] at *; omega
  all_goals
    rename_i h
    rw [h]
    rfl

/-- Where WRCFG can write: the registers of selectors 0 to 10. -/
theorem writeRegister_frame (sel : Byte) (imm : U32) (s : State) :
    let t := writeRegister sel imm s
    t = { s with
      baud := t.baud, reqRate := t.reqRate, width := t.width, container := t.container, inputMode := t.inputMode,
      dataLen := t.dataLen, nameA := t.nameA, nameB := t.nameB, ext := t.ext, lowValue := t.lowValue,
      highValue := t.highValue } := by
  unfold writeRegister
  split <;> rfl

/-- Settles O11: none of the three checks of R184 applies, so the write is all that happens. -/
theorem wrcfgWritesOneRegister : Obligations.WrcfgWritesOneRegister := by
  intro sel imm s hf hsel hext hlock
  have hunlocked : ¬ (s.initDone = true ∧ sel.toNat ∈ [0, 1, 2, 3, 4, 5, 9, 10]) := by
    rintro ⟨hinit, hmem⟩
    have := hlock hinit
    simp only [List.mem_cons, List.not_mem_nil, or_false] at hmem
    omega
  have hexec := wrcfgChecksInOrder sel imm s hf
  rw [if_neg (by omega), if_neg (fun h => by have := hext h.1; omega), if_neg hunlocked] at hexec
  exact ⟨_, hexec, registerFile_writeRegister hsel imm s, writeRegister_frame sel imm s⟩

/-! ### RDREG (R182) -/

theorem exec_rdreg_reads {sel : Byte} {s : State} (h : sel.toNat ≤ 24) :
    exec (.rdreg sel) s = .next (respond (readRegister sel s) s) := by
  have hlisted : ¬ (lastReadable < sel.toNat ∧ s.fault = false) := fun hr => absurd hr.1 (Nat.not_lt.mpr h)
  exact congrArg Host.Outcome.next (if_neg hlisted)

/-- Settles O13: RDREG's view of the selector is its entry of the register file; past the file there is none. -/
theorem rdregRespondsTheRegister : Obligations.RdregRespondsTheRegister := by
  intro sel s
  have hlen : (registerFile s).length = 25 := rfl
  refine ⟨fun v hv => ?_, fun hsel hf => exec_rdreg_reserved hf hsel, fun hsel hf => ?_, fun hsel => ?_⟩
  · have hsel : sel.toNat ≤ 24 := by have := (List.getElem?_eq_some_iff.mp hv).1; omega
    rw [exec_rdreg_reads hsel, readRegister_eq, hv]
    rfl
  · rw [exec_rdreg_faulted hf, readRegister_eq, List.getElem?_eq_none (by omega)]
    rfl
  · exact ⟨_, List.getElem?_eq_getElem (by omega)⟩

/-! ### RESET (R187) -/

/-- Settles O14. -/
theorem resetStartsANewSession : Obligations.ResetStartsANewSession := fun _ => rfl

theorem registerFile_powerOn (cfg : Config) : registerFile (State.powerOn cfg) =
    List.replicate 13 0#32 ++ [if cfg.initPolarity then 1#32 else 0#32] ++ List.replicate 11 0#32 := by
  have hstatus : BitVec.ofNat 32 cfg.initPolarity.toNat = if cfg.initPolarity then 1#32 else 0#32 := by
    cases cfg.initPolarity <;> rfl
  simp only [← hstatus]
  simp [registerFile, State.powerOn, List.replicate]

/-- Settles O15: RESET's registers and BLK are those of power-on, and an empty BLK reads 0x00 everywhere. -/
theorem resetValues : Obligations.ResetValues := by
  refine ⟨fun cfg => ⟨registerFile_powerOn cfg, fun _ => rfl⟩, ⟨Config.built, rfl⟩, fun s t h => ?_⟩
  cases h
  exact ⟨registerFile_powerOn s.cfg, fun _ => rfl⟩

/-! ### BLKWR, BLKCLR (R140, R141) -/

/-- Settles O16: the cell is written, and a write leaves the canonical form and every other cell. -/
theorem blkwrStoresOneByte : Obligations.BlkwrStoresOneByte := by
  intro index v s hf hwf
  refine ⟨setBlockByte index v s, exec_done hf rfl, rfl, wf_writeCell hwf, ?_, fun a ha => ?_⟩
  · exact (readCell_writeCell hwf).trans (if_pos rfl)
  · exact (readCell_writeCell hwf).trans (if_neg ha)

theorem setBlock_frame (bytes : List Byte) (s : State) : setBlock bytes s = { s with blk := (setBlock bytes s).blk } := rfl

/-- Settles O17: a block of zeros has no listed cell. -/
theorem blkclrClearsTheBuffer : Obligations.BlkclrClearsTheBuffer := by
  intro s hf
  have hempty : cellsFrom 0 (List.replicate blkSize 0x00#8) = [] := cellsFrom_zeros 0 blkSize
  refine ⟨setBlock (List.replicate blkSize 0x00#8) s, exec_done hf rfl, setBlock_frame _ s, ?_, fun a => ?_⟩
  · rw [setBlock_blk, hempty]
    rfl
  · rw [setBlock_blk, hempty]
    rfl

end Sys2Proof.Machine

/-! PROOFS. The codec family: the bytes of the PUT commands, granted and refused (40_codec.md R110 to R116). -/

namespace Sys2Proof.Machine

/-! ### Reading the bytes of a value back (R116) -/

theorem littleValue_le16 (v : U16) : littleValue (le16 v) = v.toNat := by
  have := v.isLt
  simp only [le16, littleValue, BitVec.extractLsb'_toNat, Nat.shiftRight_eq_div_pow]
  omega

theorem littleValue_le32 (v : U32) : littleValue (le32 v) = v.toNat := by
  have := v.isLt
  simp only [le32, littleValue, BitVec.extractLsb'_toNat, Nat.shiftRight_eq_div_pow]
  omega

/-- Settles O20: both orders are those of the fields `v[8i+7 : 8i]`, the number is the sum of the bytes by weight, and OutWrite leaves
the counter and flag of the samples. -/
theorem codecIsSymmetric : Obligations.CodecIsSymmetric := by
  refine ⟨fun v => ?half, fun v => ?word, fun bytes s t h => ?samples⟩
  case half =>
    rw [put16Bytes_little, put16Bytes_big]
    exact ⟨rfl, rfl, littleValue_le16 v, littleValue_le16 v⟩
  case word =>
    rw [put32Bytes_little, put32Bytes_big, putTagBytes_eq]
    exact ⟨rfl, rfl, rfl, littleValue_le32 v, littleValue_le32 v⟩
  case samples =>
    have hsat := outWriteAll_sat bytes s
    rw [h] at hsat
    obtain ⟨hwrites, hout⟩ := hsat
    exact ⟨hout, by rw [hwrites.frame], by rw [hwrites.frame]⟩

/-! ### PUT (R110 to R115) -/

theorem putBody_open {s : State} (hc : s.closed = false) (bytes : List Byte) : putBody bytes s = outWriteAll bytes s := by
  unfold putBody
  rw [if_neg (by simp [hc])]

/-- Settles O18: the bytes go to an open port that grants each. -/
theorem putAppendsItsBytes : Obligations.PutAppendsItsBytes := by
  intro i sel bytes s hput hf hc hg hfits
  rw [exec_put hput]
  exact runCommand_done hf ((putBody_open hc bytes).trans (outWriteAll_granted hc hg hfits))

/-- What a refused byte leaves of the bytes before it. -/
theorem written_take_drewOne {bytes : List Byte} {k : Nat} (hk : k < bytes.length) (s : State) :
    (s.written (bytes.take k)).drewOne = { s with
      outRev := (bytes.take k).reverse ++ s.outRev
      outcnt := s.outcnt + BitVec.ofNat 64 k
      hostRefuses := s.hostRefuses.drop (k + 1)
      drawn := s.drawn + (k + 1) } := by
  have hlen : (bytes.take k).length = k := List.length_take_of_le hk.le
  show s.port _ _ _ _ _ _ _ = s.port _ _ _ _ _ _ _
  congr 1
  · rw [written_hostRefuses, hlen, List.tail_drop]
  · rw [written_drawn, hlen, Nat.add_assoc]
  · rw [written_outcnt, hlen]

/-- Settles O19: the port stops the bytes at the (k+1)-th, and the command ends there with IO_OUTPUT. -/
theorem putRefusedKeepsItsPrefix : Obligations.PutRefusedKeepsItsPrefix := by
  intro i sel bytes k s hput hf hc hk hg hr hfits
  rw [exec_put hput, ← written_take_drewOne hk s]
  exact runCommand_raised hf ((putBody_open hc bytes).trans (outWriteAll_refused hc hk hg hr hfits)) hf (by decide)

end Sys2Proof.Machine

/-! PROOFS. The modulation family, continued: TIMING, LEVELS and INIT, their checks and what they write (41_modulation.md R121 to R126). -/

namespace Sys2Proof.Machine

theorem baudLegal_iff {cfg : Config} {b : Nat} : baudLegal cfg b = true ↔ b = 700 ∨ b = cfg.baudAlt := by
  simp [baudLegal, baudFixed]

theorem widthLegal_iff_mem {w : U32} : widthLegal w = true ↔ w.toNat ∈ [8, 16, 24, 32] := by simp [widthLegal]

theorem containerLegal_iff_mem {c : U32} : containerLegal c = true ↔ c.toNat ∈ [1, 2, 3] := by simp [containerLegal]

theorem modeLegal_iff_mem {m : U32} : modeLegal m = true ↔ m.toNat ∈ [1, 2] := by simp [modeLegal]

/-- A fault entered, or one that was there before. -/
theorem takeFault_fault (c : FaultCode) (opc sel : Byte) (v : Nat) (u : State) : (takeFault c opc sel v u).fault = true := by
  unfold takeFault
  split
  · assumption
  · rfl

/-! ### TIMING, check by check (R121) -/

section
variable {s : State}

theorem timingBody_badBaud (hi : s.initDone = false) (h : ¬ (s.baud.toNat = 700 ∨ s.baud.toNat = s.cfg.baudAlt)) :
    timingBody s = .raised .cfgBaud s.baud.toNat s := by
  unfold timingBody
  rw [if_neg (by simp [hi]), if_pos (by simpa using mt baudLegal_iff.mp h)]

theorem timingBody_badRate (hi : s.initDone = false) (hb : s.baud.toNat = 700 ∨ s.baud.toNat = s.cfg.baudAlt)
    (hr : s.reqRate.toNat < s.cfg.minSampleRate) : timingBody s = .raised .cfgRate s.reqRate.toNat s := by
  unfold timingBody
  rw [if_neg (by simp [hi]), if_neg (by simp [baudLegal_iff.mpr hb]), if_pos hr]

theorem timingBody_badHalf (hi : s.initDone = false) (hb : s.baud.toNat = 700 ∨ s.baud.toNat = s.cfg.baudAlt)
    (hr : s.cfg.minSampleRate ≤ s.reqRate.toNat)
    (hh : deriveHalf s.cfg.rounding s.reqRate.toNat s.baud.toNat < 1 ∨ 128 < deriveHalf s.cfg.rounding s.reqRate.toNat s.baud.toNat) :
    timingBody s = .raised .cfgHalfbit (deriveHalf s.cfg.rounding s.reqRate.toNat s.baud.toNat) s := by
  unfold timingBody
  rw [if_neg (by simp [hi]), if_neg (by simp [baudLegal_iff.mpr hb]), if_neg (by omega)]
  exact if_pos hh

theorem timingBody_done (hi : s.initDone = false) (hb : s.baud.toNat = 700 ∨ s.baud.toNat = s.cfg.baudAlt)
    (hr : s.cfg.minSampleRate ≤ s.reqRate.toNat) (h1 : 1 ≤ deriveHalf s.cfg.rounding s.reqRate.toNat s.baud.toNat)
    (h128 : deriveHalf s.cfg.rounding s.reqRate.toNat s.baud.toNat ≤ 128) :
    timingBody s = .done { s with
      half := BitVec.ofNat 32 (deriveHalf s.cfg.rounding s.reqRate.toNat s.baud.toNat)
      actRate := BitVec.ofNat 32 (actualRate (deriveHalf s.cfg.rounding s.reqRate.toNat s.baud.toNat) s.baud.toNat)
      timingOk := true } := by
  unfold timingBody
  rw [if_neg (by simp [hi]), if_neg (by simp [baudLegal_iff.mpr hb]), if_neg (by omega)]
  exact if_neg (by simp only [halfMax]; omega)

end

/-- Settles O22: the checks passed, H and ACT_RATE fit their registers. -/
theorem timingCompletes : Obligations.TimingCompletes := by
  intro s hf hi hb hr h1 h128
  obtain ⟨hrate, hhalf⟩ := actualRate_toNat (baudLegal_iff.mpr hb) h128
  exact ⟨_, exec_done hf (timingBody_done hi hb hr h1 h128), hhalf, by rw [hrate, hhalf], rfl, rfl⟩

/-- Settles O24. -/
theorem timingChecksInOrder : Obligations.TimingChecksInOrder := by
  intro s hf hi
  refine ⟨fun h700 halt => ?baud, fun hb => ⟨fun hr => ?rate, fun hr hh => ?half⟩⟩
  case baud => exact exec_raised hf (timingBody_badBaud hi (not_or.mpr ⟨h700, halt⟩)) hf (by decide)
  case rate => exact exec_raised hf (timingBody_badRate hi hb hr) hf (by decide)
  case half => exact exec_raised hf (timingBody_badHalf hi hb hr hh) hf (by decide)

/-! ### The laws of the actual rate (R123) -/

/-- The least H whose bound reaches 2·h·B is h, under either rounding. -/
theorem deriveHalf_actualRate (m : Rounding) {b : Nat} (hb : 0 < b) (h : Nat) : deriveHalf m (2 * h * b) b = h := by
  refine eq_of_forall_ge_iff fun k => ?_
  cases m with
  | ceil => rw [deriveHalf_ceil_le_iff hb, Nat.mul_right_comm, Nat.mul_le_mul_left_iff (by omega)]
  | floorEven => rw [deriveHalf_floorEven_le_iff hb, Nat.mul_lt_mul_right hb]; omega

/-- Settles O23: a TIMING without a fault has passed its checks, and its ACT_RATE is 2·H·BAUD. -/
theorem timingLaws : Obligations.TimingLaws := by
  refine ⟨fun m h b hb => deriveHalf_actualRate m hb h, fun s t hf hexec ht => ?_⟩
  rcases exec_sat hexec (timingBody_sat s) with ⟨hfaulted, -⟩ | ⟨-, hdone | ⟨c, v, u, -, rfl⟩⟩
  · rw [hf] at hfaulted; cases hfaulted
  · obtain ⟨-, hbaud, h, -, h1, h128, rfl⟩ := hdone
    obtain ⟨hrate, hhalf⟩ := actualRate_toNat hbaud h128
    have hpos : 0 < s.baud.toNat := (baudLegal_lt hbaud).1
    simp only [hrate, hhalf]
    exact ⟨h1, h128, deriveHalf_actualRate _ hpos h, Nat.mul_div_left _ hpos, Nat.mul_mod_left _ _⟩
  · rw [takeFault_fault] at ht; cases ht

/-! ### Geometry, levels and initialisation (R124 to R126) -/

section
variable {s : State}

theorem checkGeometry_badWidth (h : s.width.toNat ∉ [8, 16, 24, 32]) :
    checkGeometry s = .raised .cfgWidth s.width.toNat s := by
  unfold checkGeometry
  rw [if_pos (by simpa using mt widthLegal_iff_mem.mp h)]

theorem checkGeometry_badContainer (hw : s.width.toNat ∈ [8, 16, 24, 32]) (h : s.container.toNat ∉ [1, 2, 3]) :
    checkGeometry s = .raised .cfgContainer s.container.toNat s := by
  unfold checkGeometry
  rw [if_neg (by simp [widthLegal_iff_mem.mpr hw]), if_pos (by simpa using mt containerLegal_iff_mem.mp h)]

theorem checkGeometry_legal (hw : s.width.toNat ∈ [8, 16, 24, 32]) (hc : s.container.toNat ∈ [1, 2, 3]) :
    checkGeometry s = .done s := checkGeometry_done (widthLegal_iff_mem.mpr hw) (containerLegal_iff_mem.mpr hc)

/-- LEVELS before INIT is its geometry check and the two level words. -/
theorem levelsBody_open (hi : s.initDone = false) :
    levelsBody s = (checkGeometry s).andThen fun s => .done (setLevels s) := by
  unfold levelsBody
  rw [if_neg (by simp [hi])]

/-- INIT after TIMING is its geometry check, its level check and the filling of the buffers. -/
theorem initBody_open (hi : s.initDone = false) (ht : s.timingOk = true) :
    initBody s = (checkGeometry s).andThen fun s => (checkLevels s).andThen fun s => .done (fillBuffers s) := by
  unfold initBody
  rw [if_neg (by simp [hi]), if_neg (by simp [ht])]

/-- HDR in its place in the session is its three checks and the header. -/
theorem hdrBody_open (h : mayWriteHeader s = true) :
    hdrBody s = (checkGeometry s).andThen fun s => (checkMode s).andThen fun s => (checkLength s).andThen fun s =>
      (outWriteAll (headerBytes s) s).andThen fun s => .done (recordHeader s) := by
  unfold hdrBody
  rw [if_neg (by simp [h])]

theorem checkLevels_badLow (h : 2 ^ s.width.toNat ≤ s.lowValue.toNat) :
    checkLevels s = .raised .cfgLevel s.lowValue.toNat s := if_pos h

theorem checkLevels_badHigh (hl : s.lowValue.toNat < 2 ^ s.width.toNat) (h : 2 ^ s.width.toNat ≤ s.highValue.toNat) :
    checkLevels s = .raised .cfgLevel s.highValue.toNat s := by
  unfold checkLevels
  rw [if_neg (by omega), if_pos h]

theorem checkMode_bad (h : s.inputMode.toNat ∉ [1, 2]) : checkMode s = .raised .cfgMode s.inputMode.toNat s :=
  if_pos (by simpa using mt modeLegal_iff_mem.mp h)

theorem checkMode_legal (h : s.inputMode.toNat ∈ [1, 2]) : checkMode s = .done s :=
  if_neg (by simp [modeLegal_iff_mem.mpr h])

theorem lengthKnown_iff : lengthKnown s = true ↔ s.container = 1#32 ∧ s.inputMode = 1#32 := by simp [lengthKnown, isBuffered]

theorem checkLength_bad (hk : lengthKnown s = true) (h : 0xFFFFFFFE < riffLen s) :
    checkLength s = .raised .lengthOverflow (dataBytes s) s := if_pos ⟨hk, h⟩

theorem mayWriteHeader_iff : mayWriteHeader s = true ↔
    s.initDone = true ∧ s.hdrDone = false ∧ s.samples = false ∧ s.closed = false := by
  simp [mayWriteHeader, and_assoc]

theorem initBody_legal (hi : s.initDone = false) (ht : s.timingOk = true) (hw : s.width.toNat ∈ [8, 16, 24, 32])
    (hc : s.container.toNat ∈ [1, 2, 3]) : initBody s = (checkLevels s).andThen fun s => .done (fillBuffers s) := by
  rw [initBody_open hi ht, checkGeometry_legal hw hc, done_andThen]

end

/-- The two level words of a legal width are those of 30_encoding.md R82. -/
theorem levelWord_table {width low high : Nat} {offset : Bool}
    (h : (width, low, high) ∈ [(8, if offset then 0x40 else 0xC0, if offset then 0xD6 else 0x56), (16, 0xBF7D, 0x56C8),
      (24, 0xBF7CEE, 0x56C8B4), (32, 0xBF7CED92, 0x56C8B439)]) :
    width ∈ [8, 16, 24, 32] ∧ levelWord lowMilli width offset = BitVec.ofNat 32 low ∧
      levelWord highMilli width offset = BitVec.ofNat 32 high := by
  simp only [List.mem_cons, List.not_mem_nil, or_false, Prod.mk.injEq] at h
  rcases h with ⟨rfl, rfl, rfl⟩ | ⟨rfl, rfl, rfl⟩ | ⟨rfl, rfl, rfl⟩ | ⟨rfl, rfl, rfl⟩ <;> revert offset <;> decide

/-- Settles O25: the container's convention decides the offset, and the table gives both words. -/
theorem levelsWritesTheTable : Obligations.LevelsWritesTheTable := by
  intro s width low high offset hf hi hw hcontainer hrow
  obtain ⟨hlegal, hlow, hhigh⟩ := levelWord_table hrow
  have hconv : s.container.toNat ∈ [1, 2, 3] ∧ (convention s).offset8 = offset := by
    rcases hcontainer with ⟨hc, rfl⟩ | ⟨hc, rfl⟩ | ⟨hc, rfl⟩
    · exact ⟨by rw [hc]; decide, by rw [convention_chunk hc]; rfl⟩
    · exact ⟨by rw [hc]; decide, by rw [convention_simple hc]; rfl⟩
    · refine ⟨by rw [hc]; decide, ?_⟩
      rw [convention_raw hc]
      cases s.cfg.rawConvention <;> rfl
  refine exec_done hf ((levelsBody_open hi).trans ?_)
  rw [checkGeometry_legal (by rw [hw]; exact hlegal) hconv.1, done_andThen, setLevels, hconv.2, hw, hlow, hhigh]

/-- Settles O27: level words that fit the width are stored whole. -/
theorem initFillsTheBuffers : Obligations.InitFillsTheBuffers := by
  intro s hf hi ht hw hc hlow hhigh
  refine exec_done hf ((initBody_legal hi ht hw hc).trans ?_)
  rw [checkLevels_done hlow hhigh, done_andThen, fillBuffers, levelBits_eq hlow, levelBits_eq hhigh]

/-- Settles O28: each command meets its checks in the order of its rule, and the first that fails ends it in the state it began in. -/
theorem configurationChecks : Obligations.ConfigurationChecks := by
  intro s hf
  refine ⟨fun hi => ⟨fun hw => ?levelsWidth, fun ⟨hw, hc⟩ => ?levelsContainer⟩,
    fun hi ht => ⟨fun hw => ?initWidth, fun ⟨hw, hc⟩ => ?initContainer, fun ⟨hw, hc⟩ hl => ?initLow, fun ⟨hw, hc⟩ hl hh => ?initHigh⟩,
    fun hi hh hs ho => ?hdr⟩
  case levelsWidth =>
    exact exec_raised hf ((levelsBody_open hi).trans (by rw [checkGeometry_badWidth hw, raised_andThen])) hf (by decide)
  case levelsContainer =>
    exact exec_raised hf ((levelsBody_open hi).trans (by rw [checkGeometry_badContainer hw hc, raised_andThen])) hf (by decide)
  case initWidth =>
    exact exec_raised hf ((initBody_open hi ht).trans (by rw [checkGeometry_badWidth hw, raised_andThen])) hf (by decide)
  case initContainer =>
    exact exec_raised hf ((initBody_open hi ht).trans (by rw [checkGeometry_badContainer hw hc, raised_andThen])) hf (by decide)
  case initLow =>
    exact exec_raised hf ((initBody_legal hi ht hw hc).trans (by rw [checkLevels_badLow hl, raised_andThen])) hf (by decide)
  case initHigh =>
    exact exec_raised hf ((initBody_legal hi ht hw hc).trans (by rw [checkLevels_badHigh hl hh, raised_andThen])) hf (by decide)
  case hdr =>
    have hopen := hdrBody_open (mayWriteHeader_iff.mpr ⟨hi, hh, hs, ho⟩)
    refine ⟨fun hw => ?width, fun ⟨hw, hc⟩ => ?container, fun ⟨hw, hc⟩ hm => ?mode, fun ⟨hw, hc⟩ hchunk hbuf hlen => ?length⟩
    case width => exact exec_raised hf (hopen.trans (by rw [checkGeometry_badWidth hw, raised_andThen])) hf (by decide)
    case container => exact exec_raised hf (hopen.trans (by rw [checkGeometry_badContainer hw hc, raised_andThen])) hf (by decide)
    case mode =>
      exact exec_raised hf (hopen.trans (by rw [checkGeometry_legal hw hc, done_andThen, checkMode_bad hm, raised_andThen])) hf
        (by decide)
    case length =>
      exact exec_raised hf (hopen.trans (by
        rw [checkGeometry_legal hw hc, done_andThen, checkMode_legal (by rw [hbuf]; decide), done_andThen,
          checkLength_bad (lengthKnown_iff.mpr ⟨hchunk, hbuf⟩) hlen, raised_andThen])) hf (by decide)

end Sys2Proof.Machine

/-! PROOFS. The order of commands: sequence preconditions, the declared length, the flush (70_reset_and_hazards.md R233, 44_driver.md R186). -/

namespace Sys2Proof.Machine

section
variable {s : State}

theorem mayEmit_eq_false_iff : mayEmit s = false ↔ s.initDone = false ∨ s.hdrDone = false ∨ s.closed = true := by
  simp only [mayEmit, Bool.and_eq_false_iff, Bool.not_eq_false', or_assoc]

theorem emitCheck_sequence (h : mayEmit s = false) (n : Nat) : emitCheck n s = .raised .sequence 0 s :=
  if_pos (by simp [h])

/-- `EmitCheck(n)` where the declared length has no room for n bytes (41_modulation.md R127). -/
theorem emitCheck_past {n : Nat} (hm : mayEmit s = true) (hd : s.declared = true) (h : s.declBytes.toNat < s.sbytes.toNat + n) :
    emitCheck n s = .raised .lengthMismatch (s.sbytes.toNat + n) s := by
  unfold emitCheck
  rw [if_neg (by simp [hm]), if_pos ⟨hd, h⟩]

theorem timingBody_sequence (h : s.initDone = true) : timingBody s = .raised .sequence 0 s := if_pos h

theorem levelsBody_sequence (h : s.initDone = true) : levelsBody s = .raised .sequence 0 s := if_pos h

theorem initBody_sequence (h : s.initDone = true ∨ s.timingOk = false) : initBody s = .raised .sequence 0 s := by
  unfold initBody
  by_cases hi : s.initDone = true
  · rw [if_pos hi]
  · rw [if_neg hi, if_pos (by simpa using h.resolve_left hi)]

theorem hdrBody_sequence (h : s.initDone = false ∨ s.hdrDone = true ∨ s.samples = true ∨ s.closed = true) :
    hdrBody s = .raised .sequence 0 s := by
  have hm : mayWriteHeader s = false := by
    simpa only [mayWriteHeader, Bool.and_eq_false_iff, Bool.not_eq_false', or_assoc] using h
  exact if_pos (by simp [hm])

theorem txnameBody_sequence (h : mayEmit s = false ∨ s.nameDone = true) : txnameBody s = .raised .sequence 0 s := by
  have hm : mayName s = false := by simpa only [mayName, Bool.and_eq_false_iff, Bool.not_eq_false'] using h
  exact if_pos (by simp [hm])

theorem maySendData_eq_false (h : mayEmit s = false ∨ s.nameDone = false) : maySendData s = false := by
  simpa only [maySendData, Bool.and_eq_false_iff] using h

theorem txdataBody_sequence {c : U32} (h1 : 1 ≤ c.toNat) (h253 : c.toNat ≤ 253) (h : mayEmit s = false ∨ s.nameDone = false) :
    txdataBody c s = .raised .sequence 0 s := by
  unfold txdataBody
  rw [if_neg (by simp only [dataChunk]; omega), if_pos (by simp [maySendData_eq_false h])]

theorem txrestBody_sequence (h : mayEmit s = false ∨ s.nameDone = false) : txrestBody s = .raised .sequence 0 s :=
  if_pos (by simp [maySendData_eq_false h])

theorem putBody_sequence (h : s.closed = true) (bytes : List Byte) : putBody bytes s = .raised .sequence 0 s := if_pos h

theorem runBody_sequence (h : s.initDone = true ∨ s.hdrDone = true ∨ s.closed = true) : runBody s = .raised .sequence 0 s := by
  have hm : mayRun s = false := by
    simpa only [mayRun, Bool.and_eq_false_iff, Bool.not_eq_false', or_assoc] using h
  exact if_pos (by simp [hm])

theorem closeBody_sequence (h : s.closed = true) : closeBody s = .raised .sequence 0 s := if_pos h

end

/-- A command whose first check is its place in the session, and finds it wrong. -/
theorem exec_sequence {i : Instr} {s : State} (hf : s.fault = false) (hb : bodyOf i s = .raised .sequence 0 s)
    (hread : ∀ sel, i ≠ .rdreg sel := by nofun) (hreset : i ≠ .reset := by nofun) :
    exec i s = .next (s.faulted 0x0E (opcodeByte (opcodeOf i)) (selOf i) 0) :=
  exec_raised hf hb hf (by decide) hread hreset

/-- Settles O30: the precondition is the first check of each command's pseudocode. -/
theorem sequencePreconditions : Obligations.SequencePreconditions := by
  intro s hf
  refine ⟨fun sel imm hi hmem => ?wrcfg, fun hi => exec_sequence hf (timingBody_sequence hi),
    fun hi => exec_sequence hf (levelsBody_sequence hi), fun h => exec_sequence hf (initBody_sequence h),
    fun h => exec_sequence hf (hdrBody_sequence h), fun h => ?emission, fun h => exec_sequence hf (txnameBody_sequence (.inr h)),
    fun h c h1 h253 => exec_sequence hf (txdataBody_sequence h1 h253 (.inr h)),
    fun h => exec_sequence hf (txrestBody_sequence (.inr h)), fun h i sel bytes hput => ?put,
    fun h => exec_sequence hf (runBody_sequence h), fun h => exec_sequence hf (closeBody_sequence h)⟩
  case wrcfg =>
    have hexec := wrcfgChecksInOrder sel imm s hf
    have hsel : sel.toNat ≤ 10 ∧ sel.toNat ≠ 8 := by
      simp only [List.mem_cons, List.not_mem_nil, or_false] at hmem
      omega
    rwa [if_neg (by omega), if_neg (by omega), if_pos ⟨hi, hmem⟩] at hexec
  case put =>
    rw [exec_put hput]
    exact runCommand_raised hf (putBody_sequence h bytes) hf (by decide)
  case emission =>
    have hm := mayEmit_eq_false_iff.mpr h
    have hcheck {n : Nat} {f : State → Ran} : (emitCheck n s).andThen f = .raised .sequence 0 s := by
      rw [emitCheck_sequence hm, raised_andThen]
    exact ⟨fun b => exec_sequence hf hcheck, fun v => exec_sequence hf hcheck, exec_sequence hf hcheck,
      exec_sequence hf (txnameBody_sequence (.inl hm)), fun c h1 h253 => exec_sequence hf (txdataBody_sequence h1 h253 (.inl hm)),
      exec_sequence hf (txrestBody_sequence (.inl hm))⟩

/-! ### The declared length (41_modulation.md R127) -/

section
variable {s : State}

theorem txnameBody_ordered_eq (hm : mayEmit s = true) (hn : s.nameDone = false) :
    txnameBody s = (emitCheck (blockByteCount s) s).andThen fun s =>
      (frameBlock (setBlock (nameBlock s) s)).andThen fun s => .done { s with nameDone := true } :=
  if_neg (by simp [mayName, hm, hn])

theorem txdataBody_ordered_eq {c : U32} (h1 : 1 ≤ c.toNat) (h253 : c.toNat ≤ 253) (hm : mayEmit s = true) (hn : s.nameDone = true) :
    txdataBody c s = (emitCheck (blockByteCount s) s).andThen (readAndSend c.toNat) := by
  unfold txdataBody
  rw [if_neg (by simp only [dataChunk]; omega), if_neg (by simp [maySendData, hm, hn])]

theorem txrestBody_buffered_eq (hm : mayEmit s = true) (hn : s.nameDone = true) (hb : isBuffered s = true)
    (h0 : s.declared = true → s.sbytes.toNat ≤ s.declBytes.toNat) :
    txrestBody s = (emitCheck (ceilDiv (remaining s) dataChunk * blockByteCount s) s).andThen
      (sendBuffered (ceilDiv (remaining s) dataChunk) (remaining s)) := by
  unfold txrestBody
  rw [if_neg (by simp [maySendData, hm, hn]), emitCheck_done hm h0, done_andThen, if_pos hb]

end

/-- A command that would emit `n` bytes past the declared length. -/
theorem exec_past {i : Instr} {s : State} {n : Nat} {f : State → Ran} (hf : s.fault = false) (hm : mayEmit s = true)
    (hd : s.declared = true) (h : s.declBytes.toNat < s.sbytes.toNat + n) (hb : bodyOf i s = (emitCheck n s).andThen f)
    (hread : ∀ sel, i ≠ .rdreg sel := by nofun) (hreset : i ≠ .reset := by nofun) :
    exec i s = .next (s.faulted 0x09 (opcodeByte (opcodeOf i)) (selOf i) (s.sbytes.toNat + n)) :=
  exec_raised hf (by rw [hb, emitCheck_past hm hd h, raised_andThen]) hf (by decide) hread hreset

/-- Settles O31: past its place in the session, each emitting command checks the length next, with the count of R127. -/
theorem declaredLengthChecks : Obligations.DeclaredLengthChecks := by
  intro s hf hc hd
  refine ⟨fun hi hh => ?_, fun hne => ?close⟩
  case close =>
    refine exec_raised hf (c := .lengthMismatch) ?_ hf (by decide)
    show closeBody s = _
    unfold closeBody
    rw [if_neg (by simp [hc]), if_pos ⟨hd, hne⟩]
  have hm : mayEmit s = true := by simp [mayEmit, hi, hh, hc]
  exact ⟨fun b h => exec_past hf hm hd h rfl, fun v h => exec_past hf hm hd h rfl, fun h => exec_past hf hm hd h rfl,
    fun hn h => exec_past hf hm hd h (txnameBody_ordered_eq hm hn),
    fun hn h c h1 h253 => exec_past hf hm hd h (txdataBody_ordered_eq h1 h253 hm hn),
    fun hn hb h0 h => exec_past hf hm hd h
      (txrestBody_buffered_eq hm hn (isBuffered_iff.mpr hb) fun _ => Nat.le_of_not_lt h0)⟩

/-! ### CLOSE (44_driver.md R186) -/

/-- CLOSE of an open session with the declared length met asks the host for the flush. -/
theorem closeBody_flush {s : State} (hc : s.closed = false) (hd : s.declared = true → s.sbytes.toNat = s.declBytes.toNat) :
    closeBody s = if refusesAt s 0 = true then .raised .ioOutput s.outcnt.toNat s.drewOne
      else .done { s.drewOne with closed := true } := by
  unfold closeBody
  rw [if_neg (by simp [hc]), if_neg (by rintro ⟨h, hne⟩; exact hne (hd h)), refusesNext_eq]

theorem drewOne_eq (s : State) : s.drewOne = { s with hostRefuses := s.hostRefuses.drop 1, drawn := s.drawn + 1 } := by
  rw [List.drop_one]
  rfl

/-- Settles O48. -/
theorem closeFlushesTheOutput : Obligations.CloseFlushesTheOutput := by
  intro s hf hc hd
  have hbody := closeBody_flush hc hd
  rw [drewOne_eq] at hbody
  refine ⟨fun hr => exec_done hf (hbody.trans (if_neg (by simp [hr]))), fun hr => ?_⟩
  exact exec_raised hf (hbody.trans (if_pos hr)) hf (by decide)

end Sys2Proof.Machine

/-! PROOFS. The frames: what each command can change at most, in every state and whatever the host answers; what follows for the lock, for P
and for the output (10_state.md R22, R23, 20_memory.md R52, 70_reset_and_hazards.md R232, R240). -/

namespace Sys2Proof.Machine

/-- What a command leaves satisfies what its pseudocode keeps wherever it ends, the fault registers apart. -/
theorem exec_ends {i : Instr} {s t : State} {R : State → Prop} (h : exec i s = .next t) (hs : R s)
    (hb : (bodyOf i s).Sat R (fun _ => R)) (hread : ∀ sel, i ≠ .rdreg sel := by nofun) (hreset : i ≠ .reset := by nofun) :
    ∃ u, R u ∧ t = { u with fault := t.fault, faultCode := t.faultCode, faultInfo := t.faultInfo, faultValue := t.faultValue } := by
  rcases exec_sat h hb hread hreset with ⟨-, rfl⟩ | ⟨-, ht | ⟨c, v, u, hu, rfl⟩⟩
  · exact ⟨t, hs, rfl⟩
  · exact ⟨t, ht, rfl⟩
  · exact ⟨u, hu, takeFault_frame c _ _ v u⟩

/-- Both ends of a piece of pseudocode are in one relation to its beginning. -/
theorem sat_of_ends {s : State} {P : State → Prop} {Q : FaultCode → State → Prop} {R : State → Prop} {r : Ran} (h : r.Sat P Q)
    (hp : ∀ t, P t → R t) (hq : ∀ c t, Q c t → t = s ∨ R t) (hs : R s) : r.Sat R (fun _ => R) :=
  h.mono hp fun c t ht => (hq c t ht).elim (fun he => he ▸ hs) id

/-! ### PUT (40_codec.md R110 to R115) -/

theorem exec_put_frame {i : Instr} {sel : Byte} {bytes : List Byte} {s t : State} (hput : putImage i = some (sel, bytes))
    (h : exec i s = .next t) : t = { s with
      outRev := t.outRev, outcnt := t.outcnt, hostRefuses := t.hostRefuses, drawn := t.drawn,
      fault := t.fault, faultCode := t.faultCode, faultInfo := t.faultInfo, faultValue := t.faultValue } := by
  rw [exec_put hput] at h
  rcases runCommand_sat h (putBody_sat bytes s) with ⟨-, rfl⟩ | ⟨-, ⟨-, hw, -⟩ | ⟨c, v, u, ⟨hw, -⟩, rfl⟩⟩
  · rfl
  · rw [hw.frame]
  · rw [takeFault_frame, hw.frame]

/-- Settles O53. -/
theorem frameOfPut : Obligations.FrameOfPut := by
  intro i sel bytes s t hput h
  have hframe := exec_put_frame hput h
  exact ⟨hframe, fun a => by rw [hframe]⟩

/-! ### Control and configuration commands -/

section
variable {s t : State}

theorem exec_wrcfg_frame {sel : Byte} {imm : U32} (h : exec (.wrcfg sel imm) s = .next t) :
    t = { s with fault := t.fault, faultCode := t.faultCode, faultInfo := t.faultInfo, faultValue := t.faultValue } ∨
      t = writeRegister sel imm s := by
  have hb : (bodyOf (.wrcfg sel imm) s).Sat (fun u => u = writeRegister sel imm s) (fun _ u => u = s) := by
    show ((wrcfgCheck sel imm s).andThen _).Sat _ _
    rw [wrcfgCheck_eq]
    split_ifs <;> exact rfl
  rcases exec_sat h hb with ⟨-, rfl⟩ | ⟨-, ht | ⟨c, v, u, rfl, rfl⟩⟩
  · exact .inl rfl
  · exact .inr ht
  · exact .inl (takeFault_frame c _ _ v u)

theorem exec_rdreg_frame {sel : Byte} (h : exec (.rdreg sel) s = .next t) :
    t = { s with responses := t.responses, fault := t.fault, faultCode := t.faultCode, faultInfo := t.faultInfo,
                 faultValue := t.faultValue } := by
  injection h with h
  subst h
  split
  · rw [takeFault_frame]
  · rfl

theorem exec_blkwr_next {index v : Byte} (h : exec (.blkwr index v) s = .next t) : t = s ∨ t = setBlockByte index v s := by
  rcases exec_sat (P := fun u => u = setBlockByte index v s) (Q := fun _ _ => False) h rfl with ⟨-, ht⟩ | ⟨-, ht | ⟨-, -, -, hno, -⟩⟩
  · exact .inl ht
  · exact .inr ht
  · exact hno.elim

theorem exec_blkclr_frame (h : exec .blkclr s = .next t) : t = { s with blk := t.blk } := by
  have hb : (bodyOf .blkclr s).Sat (fun u => u = { s with blk := u.blk }) (fun _ _ => False) := setBlock_frame _ s
  rcases exec_sat h hb with ⟨-, rfl⟩ | ⟨-, ht | ⟨-, -, -, hno, -⟩⟩
  · rfl
  · exact ht
  · exact hno.elim

theorem exec_timing_frame (h : exec .timing s = .next t) : t = { s with
    half := t.half, actRate := t.actRate, timingOk := t.timingOk,
    fault := t.fault, faultCode := t.faultCode, faultInfo := t.faultInfo, faultValue := t.faultValue } := by
  obtain ⟨u, hu, ht⟩ := exec_ends (R := fun u => u = { s with half := u.half, actRate := u.actRate, timingOk := u.timingOk }) h rfl
    (sat_of_ends (timingBody_sat s) (fun u ⟨_, _, _, _, _, _, hu⟩ => by rw [hu]) (fun c u hu => .inl hu.1) rfl)
  rw [ht, hu]

theorem exec_levels_frame (h : exec .levels s = .next t) : t = { s with
    lowValue := t.lowValue, highValue := t.highValue,
    fault := t.fault, faultCode := t.faultCode, faultInfo := t.faultInfo, faultValue := t.faultValue } := by
  obtain ⟨u, hu, ht⟩ := exec_ends (R := fun u => u = { s with lowValue := u.lowValue, highValue := u.highValue }) h rfl
    (sat_of_ends (levelsBody_sat s) (fun u ⟨_, _, _, hu⟩ => by rw [hu]; rfl) (fun c u hu => .inl hu.1) rfl)
  rw [ht, hu]

theorem exec_init_frame (h : exec .init s = .next t) : t = { s with
    hiBuf := t.hiBuf, loBuf := t.loBuf, pol := t.pol, initDone := t.initDone,
    fault := t.fault, faultCode := t.faultCode, faultInfo := t.faultInfo, faultValue := t.faultValue } := by
  obtain ⟨u, hu, ht⟩ := exec_ends
    (R := fun u => u = { s with hiBuf := u.hiBuf, loBuf := u.loBuf, pol := u.pol, initDone := u.initDone }) h rfl
    (sat_of_ends (initBody_sat s) (fun u ⟨_, _, _, _, _, _, hu⟩ => by rw [hu]) (fun c u hu => .inl hu.1) rfl)
  rw [ht, hu]

end

/-- Settles O54. -/
theorem frameOfConfiguration : Obligations.FrameOfConfiguration := by
  intro s t faultOf
  refine ⟨fun h => by cases h; rfl, fun sel imm => exec_wrcfg_frame, fun sel => exec_rdreg_frame, fun index v h => ?_,
    exec_blkclr_frame, exec_timing_frame, exec_levels_frame, exec_init_frame⟩
  rcases exec_blkwr_next h with rfl | rfl
  · exact ⟨rfl, fun _ _ _ => rfl⟩
  · exact ⟨rfl, fun hwf a ha => (readCell_writeCell hwf).trans (if_neg ha)⟩

/-! ### The emitting commands -/

/-- What an emission of samples can change, and the fault registers. -/
abbrev EmitFrame (s t : State) : Prop := t = { s with
      outRev := t.outRev, outcnt := t.outcnt, hostRefuses := t.hostRefuses, drawn := t.drawn, sbytes := t.sbytes,
      samples := t.samples, pol := t.pol,
      fault := t.fault, faultCode := t.faultCode, faultInfo := t.faultInfo, faultValue := t.faultValue }

/-- What data blocks can change, and the fault registers. -/
abbrev SendFrame (s t : State) : Prop := t = { s with
      outRev := t.outRev, outcnt := t.outcnt, hostRefuses := t.hostRefuses, drawn := t.drawn, sbytes := t.sbytes,
      samples := t.samples, pol := t.pol, blk := t.blk, blkcnt := t.blkcnt, incnt := t.incnt, inPort := t.inPort, eof := t.eof,
      fault := t.fault, faultCode := t.faultCode, faultInfo := t.faultInfo, faultValue := t.faultValue }

section
variable {s t : State}

/-- A checked emission, wherever it ends, is an emission. -/
theorem emits_of_sat {n : Nat} {A B : Prop} {C : FaultCode → Prop} {r : Ran} (h : r.Sat (fun t => A ∧ B ∧ Emitted s n t)
    (fun c t => (t = s ∧ C c) ∨ (A ∧ B ∧ StoppedEmitting s n c t))) : r.Sat (Emits s) (fun _ => Emits s) :=
  sat_of_ends h (fun _ ht => ht.2.2.1) (fun _ _ ht => ht.imp (·.1) (·.2.2.1)) (Emits.refl s)

theorem exec_emits_frame {i : Instr} (h : exec i s = .next t) (hb : (bodyOf i s).Sat (Emits s) (fun _ => Emits s))
    (hread : ∀ sel, i ≠ .rdreg sel := by nofun) (hreset : i ≠ .reset := by nofun) : EmitFrame s t := by
  obtain ⟨u, hu, ht⟩ := exec_ends h (Emits.refl s) hb hread hreset
  rw [ht, hu.frame]
  rfl

theorem exec_emitbit_frame {b : Bool} (h : exec (.emitbit b) s = .next t) : EmitFrame s t :=
  exec_emits_frame h (emits_of_sat (emitbitBody_sat b s))

theorem exec_emitbyte_frame {v : Byte} (h : exec (.emitbyte v) s = .next t) : EmitFrame s t :=
  exec_emits_frame h (emits_of_sat (emitbyteBody_sat v s))

theorem exec_txblock_frame (h : exec .txblock s = .next t) : EmitFrame s t :=
  exec_emits_frame h (emits_of_sat (txblockBody_sat s))

theorem exec_txname_frame (h : exec .txname s = .next t) : t = { s with
      outRev := t.outRev, outcnt := t.outcnt, hostRefuses := t.hostRefuses, drawn := t.drawn, sbytes := t.sbytes,
      samples := t.samples, pol := t.pol, blk := t.blk, nameDone := t.nameDone,
      fault := t.fault, faultCode := t.faultCode, faultInfo := t.faultInfo, faultValue := t.faultValue } := by
  obtain ⟨u, hu, ht⟩ := exec_ends (R := fun u => u = { s with
      outRev := u.outRev, outcnt := u.outcnt, hostRefuses := u.hostRefuses, drawn := u.drawn, sbytes := u.sbytes,
      samples := u.samples, pol := u.pol, blk := u.blk, nameDone := u.nameDone }) h rfl
    (sat_of_ends (txnameBody_sat s) (fun u ⟨_, _, _, w, hw, hu⟩ => by rw [hu, hw.1.frame]; rfl)
      (fun c u hu => hu.imp (·.1) fun ⟨_, _, _, hw, _⟩ => by rw [hw.frame]; rfl) rfl)
  rw [ht, hu]

theorem exec_sends_frame {i : Instr} (h : exec i s = .next t) (hb : (bodyOf i s).Sat (Sends s) (fun _ => Sends s))
    (hread : ∀ sel, i ≠ .rdreg sel := by nofun) (hreset : i ≠ .reset := by nofun) : SendFrame s t := by
  obtain ⟨u, hu, ht⟩ := exec_ends h (Sends.refl s) hb hread hreset
  rw [ht, hu.frame]

theorem txdataBody_sends (c : U32) (s : State) : (txdataBody c s).Sat (Sends s) (fun _ => Sends s) :=
  sat_of_ends (txdataBody_sat c s) (fun _ ht => ht.2.2.2.1) (fun _ _ ht => ht.imp (·.1) (·.2.2.2.1)) (Sends.refl s)

theorem txrestBody_sends (s : State) : (txrestBody s).Sat (Sends s) (fun _ => Sends s) :=
  sat_of_ends (txrestBody_sat s) (fun _ ht => ht.2.2.1) (fun _ _ ht => ht.imp (·.1) (·.2.2.1)) (Sends.refl s)

theorem exec_txdata_frame {c : U32} (h : exec (.txdata c) s = .next t) : SendFrame s t :=
  exec_sends_frame h (txdataBody_sends c s)

theorem exec_txrest_frame (h : exec .txrest s = .next t) : SendFrame s t :=
  exec_sends_frame h (txrestBody_sends s)

end

/-- Settles O55. -/
theorem frameOfEmission : Obligations.FrameOfEmission := by
  intro s t faultOf emits reads
  exact ⟨fun b => exec_emitbit_frame, fun v => exec_emitbyte_frame, exec_txblock_frame, exec_txname_frame,
    fun c => exec_txdata_frame, exec_txrest_frame⟩

/-! ### HDR, CLOSE, RUN, and what every command carries over -/

section
variable {s t : State}

theorem exec_hdr_frame (h : exec .hdr s = .next t) : t = { s with
      outRev := t.outRev, outcnt := t.outcnt, hostRefuses := t.hostRefuses, drawn := t.drawn, declBytes := t.declBytes,
      declared := t.declared, hdrDone := t.hdrDone,
      fault := t.fault, faultCode := t.faultCode, faultInfo := t.faultInfo, faultValue := t.faultValue } := by
  have hrecord (u : State) : recordHeader u = { u with
      declBytes := (recordHeader u).declBytes, declared := (recordHeader u).declared, hdrDone := (recordHeader u).hdrDone } := by
    unfold recordHeader
    split <;> rfl
  obtain ⟨u, hu, ht⟩ := exec_ends (R := fun u => u = { s with
      outRev := u.outRev, outcnt := u.outcnt, hostRefuses := u.hostRefuses, drawn := u.drawn, declBytes := u.declBytes,
      declared := u.declared, hdrDone := u.hdrDone }) h rfl
    (sat_of_ends (hdrBody_sat s) (fun u ⟨_, w, hw, _, hu⟩ => by rw [hu, hrecord, hw.frame])
      (fun c u hu => hu.imp (·.1) fun ⟨_, hw, _⟩ => by rw [hw.frame]) rfl)
  rw [ht, hu]

theorem exec_close_frame (h : exec .close s = .next t) : t = { s with
      hostRefuses := t.hostRefuses, drawn := t.drawn, closed := t.closed,
      fault := t.fault, faultCode := t.faultCode, faultInfo := t.faultInfo, faultValue := t.faultValue } := by
  obtain ⟨u, hu, ht⟩ := exec_ends
    (R := fun u => u = { s with hostRefuses := u.hostRefuses, drawn := u.drawn, closed := u.closed }) h rfl
    (sat_of_ends (closeBody_sat s) (fun u ⟨_, _, hu⟩ => by rw [hu]; rfl) (fun c u hu => hu.imp (·.1) fun hu => by rw [hu.1]; rfl) rfl)
  rw [ht, hu]

end

/-- What every command but RESET carries over, RDREG's answer apart: the build, the queue, the host's earlier data, the flags but P, and
the output, to which it may add. -/
structure Carries (s t : State) : Prop where
  cfg : t.cfg = s.cfg
  commands : t.commands = s.commands
  delivered : t.delivered = s.delivered
  nextInputs : t.nextInputs = s.nextInputs
  session : t.session = s.session
  responses : t.responses = s.responses
  flags : FlagsKept s t
  appended : ∃ bs, t.outRev = bs ++ s.outRev

theorem Carries.refl (s : State) : Carries s s := ⟨rfl, rfl, rfl, rfl, rfl, rfl, .refl s, [], rfl⟩

theorem Runs.carries {s t : State} (h : Runs s t) : Carries s t where
  cfg := by rw [h.frame]
  commands := by rw [h.frame]
  delivered := by rw [h.frame]
  nextInputs := by rw [h.frame]
  session := by rw [h.frame]
  responses := by rw [h.frame]
  flags := h.flags
  appended := h.appended

theorem runs_of_ends {s : State} {r : Ran} (h : r.Sat (Runs s) (fun _ => Runs s)) : r.Sat (Carries s) (fun _ => Carries s) :=
  h.mono (fun _ => Runs.carries) (fun _ _ => Runs.carries)

theorem carries_writeRegister (sel : Byte) (imm : U32) (s : State) : Carries s (writeRegister sel imm s) := by
  rw [writeRegister_frame sel imm s]
  exact ⟨rfl, rfl, rfl, rfl, rfl, rfl, flagsKept_iff.mpr ⟨id, id, id, id, id, id, id, id, id⟩, [], rfl⟩

theorem carries_blk (m : Memory) (s : State) : Carries s { s with blk := m } :=
  ⟨rfl, rfl, rfl, rfl, rfl, rfl, flagsKept_iff.mpr ⟨id, id, id, id, id, id, id, id, id⟩, [], rfl⟩

theorem bodyOf_carries (i : Instr) (s : State) : (bodyOf i s).Sat (Carries s) (fun _ => Carries s) := by
  have hemits {r : Ran} (h : r.Sat (Emits s) (fun _ => Emits s)) : r.Sat (Carries s) (fun _ => Carries s) :=
    h.mono (fun _ h => h.runs.carries) (fun _ _ h => h.runs.carries)
  have hput (bytes : List Byte) : (putBody bytes s).Sat (Carries s) (fun _ => Carries s) :=
    (putBody_sat bytes s).mono (fun _ h => h.2.1.runs.carries) (fun _ _ h => h.1.runs.carries)
  cases i
  case nop | rdreg | reset => exact Carries.refl s
  case wrcfg sel imm =>
    show ((wrcfgCheck sel imm s).andThen _).Sat _ _
    rw [wrcfgCheck_eq]
    split_ifs
    · exact Carries.refl s
    · exact Carries.refl s
    · exact Carries.refl s
    · exact carries_writeRegister sel imm s
  case blkwr | blkclr => exact carries_blk _ s
  case timing => exact runs_of_ends (timingBody_runs s)
  case levels => exact runs_of_ends (levelsBody_runs s)
  case init => exact runs_of_ends (initBody_runs s)
  case emitbit b => exact hemits (emits_of_sat (emitbitBody_sat b s))
  case emitbyte v => exact hemits (emits_of_sat (emitbyteBody_sat v s))
  case txblock => exact hemits (emits_of_sat (txblockBody_sat s))
  case txname => exact runs_of_ends (txnameBody_runs s)
  case txdata c => exact (txdataBody_sends c s).mono (fun _ h => h.runs.carries) (fun _ _ h => h.runs.carries)
  case txrest => exact runs_of_ends (txrestBody_runs s)
  case hdr => exact runs_of_ends (hdrBody_runs s)
  case run => exact runs_of_ends (runBody_runs s)
  case close => exact runs_of_ends (closeBody_runs s)
  case put8 | put16le | put16be | put32le | put32be | puttag => exact hput _

theorem carries_takeFault (c : FaultCode) (opc sel : Byte) (v : Nat) (u : State) : Carries u (takeFault c opc sel v u) := by
  rw [takeFault_frame]
  exact ⟨rfl, rfl, rfl, rfl, rfl, rfl, by rw [← takeFault_frame]; exact flagsKept_takeFault c opc sel v u, [], rfl⟩

theorem Carries.trans {s t u : State} (h : Carries s t) (h' : Carries t u) : Carries s u where
  cfg := h'.cfg.trans h.cfg
  commands := h'.commands.trans h.commands
  delivered := h'.delivered.trans h.delivered
  nextInputs := h'.nextInputs.trans h.nextInputs
  session := h'.session.trans h.session
  responses := h'.responses.trans h.responses
  flags := h.flags.trans h'.flags
  appended := by
    obtain ⟨bs, hb⟩ := h.appended
    obtain ⟨cs, hc⟩ := h'.appended
    exact ⟨cs ++ bs, by rw [hc, hb, List.append_assoc]⟩

theorem exec_carries {i : Instr} {s t : State} (h : exec i s = .next t) (hread : ∀ sel, i ≠ .rdreg sel) (hreset : i ≠ .reset) :
    Carries s t := by
  rcases exec_sat h (bodyOf_carries i s) hread hreset with ⟨-, rfl⟩ | ⟨-, ht | ⟨c, v, u, hu, rfl⟩⟩
  · exact .refl t
  · exact ht
  · exact hu.trans (carries_takeFault c _ _ v u)

/-- RDREG carries over all of that but the responses. -/
theorem exec_rdreg_carries {sel : Byte} {s t : State} (h : exec (.rdreg sel) s = .next t) :
    Carries { s with responses := t.responses } t := by
  injection h with h
  subst h
  split
  · have hc := carries_takeFault .illegalOperand 0x03#8 sel sel.toNat s
    rw [hc.responses]
    exact hc
  · exact .refl _

/-- Settles O56. -/
theorem frameOfHeaderCloseAndRun : Obligations.FrameOfHeaderCloseAndRun := by
  refine ⟨fun s t => ⟨exec_hdr_frame, exec_close_frame, fun h => ?run⟩, fun i s t h => ?all⟩
  case run =>
    obtain ⟨u, hu, ht⟩ := exec_ends h (Runs.refl s) (runBody_runs s)
    rw [ht, hu.frame]
    exact ⟨rfl, rfl, rfl, rfl, rfl, rfl, rfl, rfl, rfl, rfl, rfl, rfl, rfl, rfl, rfl⟩
  case all =>
    by_cases hreset : i = .reset
    · subst hreset; cases h
      exact ⟨rfl, rfl, fun hne => absurd rfl hne, fun _ => rfl⟩
    by_cases hread : ∃ sel, i = .rdreg sel
    · obtain ⟨sel, rfl⟩ := hread
      have hc := exec_rdreg_carries h
      have hflags := flagsKept_iff.mp hc.flags
      exact ⟨hc.cfg, hc.commands, fun _ => ⟨hc.delivered, hc.nextInputs, hc.session, flagsKept_iff.mpr hflags⟩,
        fun hne => absurd rfl (hne sel)⟩
    · have hc := exec_carries h (not_exists.mp hread) hreset
      exact ⟨hc.cfg, hc.commands, fun _ => ⟨hc.delivered, hc.nextInputs, hc.session, hc.flags⟩, fun _ => hc.responses⟩

/-- Settles O57. -/
theorem outIsAppendOnly : Obligations.OutIsAppendOnly := by
  intro i s t h
  have hout {s' : State} (hs : s'.outRev = s.outRev) (hc : Carries s' t) : ∃ bytes, t.out = s.out ++ bytes := by
    obtain ⟨bs, hb⟩ := hc.appended
    exact ⟨bs.reverse, by rw [State.out, State.out, hb, hs, List.reverse_append]⟩
  refine ⟨fun hreset => ?_, fun hreset => ?_⟩
  · by_cases hread : ∃ sel, i = .rdreg sel
    · obtain ⟨sel, rfl⟩ := hread
      exact hout (s' := { s with responses := t.responses }) rfl (exec_rdreg_carries h)
    · exact hout rfl (exec_carries h (not_exists.mp hread) hreset)
  · subst hreset; cases h
    exact ⟨rfl, rfl⟩

/-! ### The lock (10_state.md R22) and P (70_reset_and_hazards.md R232) -/

/-- What INIT locks, and INIT_DONE itself. -/
def LockKept (s t : State) : Prop :=
  t.initDone = true ∧ t.baud = s.baud ∧ t.reqRate = s.reqRate ∧ t.width = s.width ∧ t.container = s.container ∧
    t.inputMode = s.inputMode ∧ t.dataLen = s.dataLen ∧ t.lowValue = s.lowValue ∧ t.highValue = s.highValue ∧
    t.half = s.half ∧ t.actRate = s.actRate ∧ t.hiBuf = s.hiBuf ∧ t.loBuf = s.loBuf

theorem LockKept.refl {s : State} (h : s.initDone = true) : LockKept s s :=
  ⟨h, rfl, rfl, rfl, rfl, rfl, rfl, rfl, rfl, rfl, rfl, rfl, rfl⟩

theorem lockKept_faulted {s t : State} (h : s.initDone = true)
    (ht : t = { s with fault := t.fault, faultCode := t.faultCode, faultInfo := t.faultInfo, faultValue := t.faultValue }) :
    LockKept s t := by
  rw [ht]
  exact .refl h

/-- A command that the lock stops changes the fault registers at most. -/
theorem lockKept_of_raised {i : Instr} {s t : State} (hi : s.initDone = true) (h : exec i s = .next t)
    (hb : bodyOf i s = .raised .sequence 0 s) (hread : ∀ sel, i ≠ .rdreg sel := by nofun) (hreset : i ≠ .reset := by nofun) :
    LockKept s t := by
  obtain ⟨u, rfl, ht⟩ := exec_ends (R := fun u => u = s) h rfl (by rw [hb]; exact rfl) hread hreset
  exact lockKept_faulted hi ht

theorem lockKept_wrcfg {sel : Byte} {imm : U32} {s t : State} (hi : s.initDone = true) (h : exec (.wrcfg sel imm) s = .next t) :
    LockKept s t := by
  have hb : (bodyOf (.wrcfg sel imm) s).Sat (LockKept s) (fun _ u => u = s) := by
    show ((wrcfgCheck sel imm s).andThen _).Sat _ _
    rw [wrcfgCheck_eq]
    split_ifs with h1 h2 hlock
    · exact rfl
    · exact rfl
    · exact rfl
    · show LockKept s (writeRegister sel imm s)
      unfold writeRegister
      split
      case h_7 | h_8 | h_9 | h_12 => exact LockKept.refl hi
      all_goals
        rename_i hsel
        exact absurd ⟨hi, by rw [hsel]; decide⟩ hlock
  rcases exec_sat h hb with ⟨-, rfl⟩ | ⟨-, ht | ⟨c, v, u, rfl, rfl⟩⟩
  · exact .refl hi
  · exact ht
  · exact lockKept_faulted hi (takeFault_frame c _ _ v u)

/-- Settles O29: the commands that write the locked state raise SEQUENCE, and the frames of the others leave it out. -/
theorem configurationStaysLocked : Obligations.ConfigurationStaysLocked := by
  intro i s t hi hreset h
  show LockKept s t
  cases i
  case reset => exact absurd rfl hreset
  case nop => cases h; exact .refl hi
  case wrcfg => exact lockKept_wrcfg hi h
  case rdreg => rw [exec_rdreg_frame h]; exact LockKept.refl (s := s) hi
  case blkwr => rcases exec_blkwr_next h with rfl | rfl <;> exact LockKept.refl hi
  case blkclr => rw [exec_blkclr_frame h]; exact LockKept.refl (s := s) hi
  case timing => exact lockKept_of_raised hi h (timingBody_sequence hi)
  case levels => exact lockKept_of_raised hi h (levelsBody_sequence hi)
  case init => exact lockKept_of_raised hi h (initBody_sequence (.inl hi))
  case run => exact lockKept_of_raised hi h (runBody_sequence (.inl hi))
  case emitbit => rw [exec_emitbit_frame h]; exact LockKept.refl (s := s) hi
  case emitbyte => rw [exec_emitbyte_frame h]; exact LockKept.refl (s := s) hi
  case txblock => rw [exec_txblock_frame h]; exact LockKept.refl (s := s) hi
  case txname => rw [exec_txname_frame h]; exact LockKept.refl (s := s) hi
  case txdata => rw [exec_txdata_frame h]; exact LockKept.refl (s := s) hi
  case txrest => rw [exec_txrest_frame h]; exact LockKept.refl (s := s) hi
  case hdr => rw [exec_hdr_frame h]; exact LockKept.refl (s := s) hi
  case close => rw [exec_close_frame h]; exact LockKept.refl (s := s) hi
  case put8 | put16le | put16be | put32le | put32be | puttag =>
    rw [exec_put_frame rfl h]; exact LockKept.refl (s := s) hi

theorem exec_init_pol {s t : State} (h : exec .init s = .next t) (hi : s.initDone = false) (ht : t.initDone = true) :
    t.pol = s.cfg.initPolarity := by
  rcases exec_sat h (initBody_sat s) with ⟨-, rfl⟩ | ⟨-, ⟨-, -, -, -, -, -, rfl⟩ | ⟨c, v, u, ⟨rfl, -⟩, rfl⟩⟩
  · rw [hi] at ht; cases ht
  · rfl
  · rw [takeFault_frame] at ht; rw [hi] at ht; cases ht

/-- Settles O37: P is out of the frame of every command that is not named; after INIT, INIT is stopped by the lock. -/
theorem polarityChangesOnlyByEmission : Obligations.PolarityChangesOnlyByEmission := by
  refine ⟨fun cfg => rfl, fun s t h => by cases h; rfl, fun s t h hi ht => exec_init_pol h hi ht, fun i s t h hne => ?_⟩
  cases i
  case reset => exact .inl rfl
  case init =>
    cases hi : s.initDone with
    | false => exact .inr (.inl ⟨rfl, rfl⟩)
    | true =>
      obtain ⟨u, rfl, ht⟩ := exec_ends (R := fun u => u = s) h rfl
        (by rw [show bodyOf .init s = _ from initBody_sequence (.inl hi)]; exact rfl)
      exact absurd (by rw [ht]) hne
  case emitbit b => exact .inr (.inr (.inl ⟨b, rfl⟩))
  case emitbyte v => exact .inr (.inr (.inr (.inl ⟨v, rfl⟩)))
  case txblock => exact .inr (.inr (.inr (.inr (.inl rfl))))
  case txname => exact .inr (.inr (.inr (.inr (.inr (.inl rfl)))))
  case txdata c => exact .inr (.inr (.inr (.inr (.inr (.inr (.inl ⟨c, rfl⟩))))))
  case txrest => exact .inr (.inr (.inr (.inr (.inr (.inr (.inr (.inl rfl)))))))
  case run => exact .inr (.inr (.inr (.inr (.inr (.inr (.inr (.inr rfl)))))))
  case nop => cases h; exact absurd rfl hne
  case wrcfg sel imm =>
    rcases exec_wrcfg_frame h with ht | ht
    · exact absurd (by rw [ht]) hne
    · exact absurd (by rw [ht, writeRegister_frame]) hne
  case blkwr => rcases exec_blkwr_next h with rfl | rfl <;> exact absurd rfl hne
  case rdreg => exact absurd (by rw [exec_rdreg_frame h]) hne
  case blkclr => exact absurd (by rw [exec_blkclr_frame h]) hne
  case timing => exact absurd (by rw [exec_timing_frame h]) hne
  case levels => exact absurd (by rw [exec_levels_frame h]) hne
  case hdr => exact absurd (by rw [exec_hdr_frame h]) hne
  case close => exact absurd (by rw [exec_close_frame h]) hne
  case put8 | put16le | put16be | put32le | put32be | puttag => exact absurd (by rw [exec_put_frame rfl h]) hne

end Sys2Proof.Machine

/-! PROOFS. Emission: the waveform of bits and bytes, how long it is, where it leaves P, and where the port cuts it (41_modulation.md R127 to
R134, 20_memory.md R53). -/

namespace Sys2Proof.Machine

/-! ### Emissions that go through (R130, R131) -/

theorem emitted_out (s : State) (bs : List Byte) (p : Bool) : (s.emitted bs p).out = s.out ++ bs := by simp [State.out]

theorem emitbitBody_granted {b : Bool} {s : State} (hi : Inv s) (hr : EmitReady s (bitByteCount s)) (hg : Granted s (bitByteCount s)) :
    emitbitBody b s = .done (s.emitted (bitWave s s.pol b) (polarityAfterBit s.pol b)) := by
  rw [emitbitBody, hr.emitCheck, done_andThen, emitBit_granted (hi.emittable hr hg)]

/-- Settles O32. -/
theorem emitbitWritesTwoRuns : Obligations.EmitbitWritesTwoRuns := by
  intro b s hi hr hg
  exact exec_done hr.running (emitbitBody_granted hi hr hg)

theorem emitbyteBody_granted {v : Byte} {s : State} (hi : Inv s) (hr : EmitReady s (byteByteCount s))
    (hg : Granted s (byteByteCount s)) :
    emitbyteBody v s = .done (s.emitted (bitsWave s s.pol (bitsOf v)) (polarityAfter s.pol (bitsOf v))) := by
  rw [emitbyteBody, hr.emitCheck, done_andThen, emitByte,
    emitBits_granted (by rw [length_bitsOf]; exact hi.emittable hr hg)]

/-- Settles O33. -/
theorem emitbyteWritesEightBits : Obligations.EmitbyteWritesEightBits :=
  fun _ _ hi hr hg => exec_done hr.running (emitbyteBody_granted hi hr hg)

/-! ### How long an emission is (R132) -/

theorem outRev_length_of_done {s t : State} {n : Nat} {Q : FaultCode → State → Prop} {r : Ran} (h : r.Sat (Emitted s n) Q)
    (hr : r = .done t) : t.outRev.length = s.outRev.length + n := by
  rw [hr] at h
  exact h.2

/-- Settles O34: what went through is what the emission had to write, byte by byte. -/
theorem framesPerBit : Obligations.FramesPerBit := by
  intro s t
  have hbyte : byteByteCount s = 16 * s.half.toNat * (s.width.toNat / 8) := by
    unfold byteByteCount bitByteCount frameSize
    ring
  have hblock : blockByteCount s = 295 * 16 * s.half.toNat * (s.width.toNat / 8) := by
    rw [blockByteCount, hbyte, blockByteTotal]
    ring
  refine ⟨fun b h => outRev_length_of_done (emitBit_sat b s) h, fun v h => ?_, fun h => ?_⟩
  · rw [outRev_length_of_done (emitByte_sat v s) h, hbyte]
  · rw [outRev_length_of_done (frameBlock_sat s) h, hblock]

/-! ### Where an emission leaves P (R133) -/

theorem emitSampleBytes_pol (bs : List Byte) (s : State) : (emitSampleBytes bs s).Sat (fun t => t.pol = s.pol) (fun _ _ => True) := by
  induction bs generalizing s with
  | nil => exact rfl
  | cons b bs ih =>
    refine (outWrite_sat b s).andThen (fun t ht => ?_) (fun _ _ _ => trivial)
    subst ht
    exact ih _

theorem halfBitFrom_pol (i n : Nat) (s : State) : (halfBitFrom i n s).Sat (fun t => t.pol = s.pol) (fun _ _ => True) := by
  induction n generalizing i s with
  | zero => exact rfl
  | succ n ih =>
    refine (emitSampleBytes_pol _ s).andThen (fun t ht => ?_) (fun _ _ _ => trivial)
    rw [← ht]
    exact ih (i + 1) t

/-- A bit toggles P once more if it is a 1 (R130). -/
theorem emitBit_pol (b : Bool) (s : State) : (emitBit b s).Sat (fun t => t.pol = polarityAfterBit s.pol b) (fun _ _ => True) := by
  refine (halfBitFrom_pol 0 _ (togglePolarity s)).andThen (fun t ht => ?_) (fun _ _ _ => trivial)
  refine (halfBitFrom_pol 0 _ _).mono (fun u hu => hu.trans ?_) (fun _ _ _ => trivial)
  cases b
  · exact ht
  · exact (congrArg not ht).trans (Bool.not_not s.pol)

theorem emitBits_pol (bs : List Bool) (s : State) : (emitBits bs s).Sat (fun t => t.pol = polarityAfter s.pol bs) (fun _ _ => True) := by
  induction bs generalizing s with
  | nil => exact rfl
  | cons b bs ih =>
    refine (emitBit_pol b s).andThen (fun t ht => ?_) (fun _ _ _ => trivial)
    rw [polarityAfter, ← ht]
    exact ih t

theorem emitBytes_pol (vs : List Byte) (s : State) :
    (emitBytes vs s).Sat (fun t => t.pol = polarityAfter s.pol (bitStream vs)) (fun _ _ => True) := by
  induction vs generalizing s with
  | nil => exact rfl
  | cons v vs ih =>
    refine (emitBits_pol (bitsOf v) s).andThen (fun t ht => ?_) (fun _ _ _ => trivial)
    rw [bitStream_cons, polarityAfter_append, ← ht]
    exact ih t

/-- P after a bit sequence is P toggled once for each 0 bit. -/
theorem polarityAfter_eq (p : Bool) (bs : List Bool) : polarityAfter p bs = (p ^^ decide (bs.count false % 2 = 1)) := by
  induction bs generalizing p with
  | nil => simp [polarityAfter]
  | cons b bs ih =>
    rw [polarityAfter, ih]
    cases b with
    | true => simp [polarityAfterBit]
    | false =>
      have hodd : decide ((bs.count false + 1) % 2 = 1) = !decide (bs.count false % 2 = 1) := by
        rw [← decide_not, decide_eq_decide]
        omega
      rw [List.count_cons_self, hodd]
      cases p <;> simp [polarityAfterBit]

theorem pol_of_done {s t : State} {bs : List Bool} {Q : FaultCode → State → Prop} {r : Ran}
    (h : r.Sat (fun t => t.pol = polarityAfter s.pol bs) Q) (hr : r = .done t) :
    t.pol = (s.pol ^^ decide (bs.count false % 2 = 1)) := by
  rw [hr] at h
  exact Eq.trans h (polarityAfter_eq s.pol bs)

/-- Settles O35. -/
theorem polarityLaw : Obligations.PolarityLaw :=
  ⟨fun bits s _ h => pol_of_done (emitBits_pol bits s) h, fun v s _ h => pol_of_done (emitBits_pol (bitsOf v) s) h,
    fun bytes s _ h => pol_of_done (emitBytes_pol bytes s) h⟩

/-! ### Square waves (R134) -/

/-- The bytes of a frame in the container's order, for the containers that INIT allows (30_encoding.md R80, R83). -/
theorem sampleBytes_convention {s : State} (hw : widthLegal s.width = true) (hc : containerLegal s.container = true) (v : U32) :
    sampleBytes v s.width.toNat (convention s).order =
      if s.container = 2#32 ∨ s.container = 3#32 ∧ s.cfg.rawConvention = .simple then ((le32 v).take (s.width.toNat / 8)).reverse
      else (le32 v).take (s.width.toNat / 8) := by
  have hsize : s.width.toNat / 8 ≤ 4 := by
    rcases widthLegal_iff.1 hw with h | h | h | h <;> rw [h] <;> decide
  rw [← sampleBytes_little hsize, ← sampleBytes_big]
  rcases containerLegal_iff.1 hc with h | h | h
  · rw [convention_chunk h, h, if_neg (by simp)]
    rfl
  · rw [convention_simple h, if_pos (.inl h)]
    rfl
  · rw [convention_raw h, h]
    cases s.cfg.rawConvention <;> rfl

/-- Two 0 bits are one period of the slow wave. -/
theorem bitsWave_zeros (s : State) (p : Bool) (n : Nat) : bitsWave s p (List.replicate (2 * n) false) =
    (List.replicate n (levelRun s (!p) ++ levelRun s (!p) ++ levelRun s p ++ levelRun s p)).flatten ∧
    polarityAfter p (List.replicate (2 * n) false) = p := by
  induction n with
  | zero => exact ⟨rfl, rfl⟩
  | succ n ih =>
    have htwo : List.replicate (2 * (n + 1)) false = [false, false] ++ List.replicate (2 * n) false := rfl
    have hperiod : bitsWave s p [false, false] = levelRun s (!p) ++ levelRun s (!p) ++ levelRun s p ++ levelRun s p := by
      simp [bitsWave, bitWave, polarityAfterBit]
    have hpol : polarityAfter p [false, false] = p := Bool.not_not p
    rw [htwo, bitsWave_append, polarityAfter_append, hpol, hperiod, ih.1, ih.2, List.replicate_succ, List.flatten_cons]
    exact ⟨rfl, rfl⟩

/-- A 1 bit is one period of the fast wave. -/
theorem bitsWave_ones (s : State) (p : Bool) (n : Nat) : bitsWave s p (List.replicate n true) =
    (List.replicate n (levelRun s (!p) ++ levelRun s p)).flatten ∧ polarityAfter p (List.replicate n true) = p := by
  induction n with
  | zero => exact ⟨rfl, rfl⟩
  | succ n ih =>
    rw [List.replicate_succ, List.replicate_succ, bitsWave, polarityAfter, List.flatten_cons, ← ih.1]
    exact ⟨rfl, ih.2⟩

/-- After INIT a state of an open session can emit whatever the host grants and the counters hold. -/
theorem Inv.emittable_open {s : State} {n : Nat} (hi : Inv s) (hinit : s.initDone = true) (ho : s.closed = false) (hg : Granted s n)
    (hout : s.outcnt.toNat + n < 2 ^ 64) (hsb : s.sbytes.toNat + n < 2 ^ 64) : Emittable s n :=
  ⟨ho, hg, hout, hsb, (hi.half_range (hi.init_timed hinit)).2, (hi.init_buffers hinit).1, (hi.init_buffers hinit).2⟩

/-- Bits that leave P as it was. -/
theorem emitBits_wave {s : State} {bs : List Bool} {wave : List Byte} (hwave : bitsWave s s.pol bs = wave)
    (hpol : polarityAfter s.pol bs = s.pol) (h : Emittable s wave.length) :
    ∃ t, emitBits bs s = .done t ∧ t.pol = s.pol ∧ t.out = s.out ++ wave := by
  rw [← hwave, length_bitsWave] at h
  refine ⟨_, emitBits_granted h, hpol, ?_⟩
  rw [emitted_out, hwave]

theorem length_flatten_replicate (n : Nat) (w : List Byte) : (List.replicate n w).flatten.length = n * w.length := by simp

/-- Settles O36: the two periods as half-bit runs of one level each, in the container's byte order. -/
theorem waveformLaw : Obligations.WaveformLaw := by
  intro s n hi hinit ho size frame high low slow fast fits
  obtain ⟨hwidth, hcontainer⟩ := hi.init_geometry hinit
  have hhigh : high = levelRun s true :=
    congrArg (fun f => (List.replicate s.half.toNat f).flatten) (sampleBytes_convention hwidth hcontainer s.highValue).symm
  have hlow : low = levelRun s false :=
    congrArg (fun f => (List.replicate s.half.toNat f).flatten) (sampleBytes_convention hwidth hcontainer s.lowValue).symm
  have hslow : slow = levelRun s (!s.pol) ++ levelRun s (!s.pol) ++ levelRun s s.pol ++ levelRun s s.pol := by
    simp only [slow, hhigh, hlow]
    cases s.pol <;> rfl
  have hfast : fast = levelRun s (!s.pol) ++ levelRun s s.pol := by
    simp only [fast, hhigh, hlow]
    cases s.pol <;> rfl
  have hslowLength : slow.length = 4 * s.half.toNat * size := by
    simp only [hslow, List.length_append, length_levelRun, size, frameSize]
    ring
  have hfastLength : fast.length = 2 * s.half.toNat * size := by
    simp only [hfast, List.length_append, length_levelRun, size, frameSize]
    ring
  have hzeros (k : Nat) : bitsWave s s.pol (List.replicate (2 * k) false) = (List.replicate k slow).flatten := by
    rw [(bitsWave_zeros s s.pol k).1, hslow]
  have hones (k : Nat) : bitsWave s s.pol (List.replicate k true) = (List.replicate k fast).flatten := by
    rw [(bitsWave_ones s s.pol k).1, hfast]
  have hemittable {k : Nat} (h : fits k) : Emittable s k := hi.emittable_open hinit ho h.1 h.2.1 h.2.2
  refine ⟨hslowLength, hfastLength, fun h => ?zeros, fun h => ?ones, fun hr hg => ?bytes⟩
  case zeros =>
    exact emitBits_wave (hzeros n) (bitsWave_zeros s s.pol n).2 (hemittable (by rw [length_flatten_replicate]; exact h))
  case ones =>
    exact emitBits_wave (hones n) (bitsWave_ones s s.pol n).2 (hemittable (by rw [length_flatten_replicate]; exact h))
  case bytes =>
    have hcount : 8 * fast.length = byteByteCount s := by rw [hfastLength]; rfl
    rw [hcount] at hr hg
    refine ⟨⟨_, exec_done hr.running (emitbyteBody_granted hi hr hg), ?_, ?_⟩,
      ⟨_, exec_done hr.running (emitbyteBody_granted hi hr hg), ?_, ?_⟩⟩
    · exact (bitsWave_zeros s s.pol 4).2
    · rw [emitted_out, ← hzeros 4]
      rfl
    · exact (bitsWave_ones s s.pol 8).2
    · rw [emitted_out, ← hones 8]
      rfl

end Sys2Proof.Machine

/-! PROOFS. Where the port cuts one command short (60_exceptions.md R204, 20_memory.md R53). -/

namespace Sys2Proof.Machine

/-- What an emission of `bits` that the port cuts at its (k+1)-th byte leaves of the output, the counters, SAMPLES, P and the fault. -/
def EmissionCut (s : State) (k : Nat) (opc : Byte) (bits : List Bool) (t : State) : Prop :=
  t.out = s.out ++ (bitsWave s s.pol bits).take k ∧ (polarities s s.pol bits)[k]? = some t.pol ∧
  t.samples = (s.samples || decide (0 < k)) ∧ t.outcnt.toNat = s.outcnt.toNat + k ∧ t.sbytes.toNat = s.sbytes.toNat + k ∧
  t.fault = true ∧ t.faultCode = 0x0A#32 ∧ t.faultInfo = BitVec.ofNat 32 opc.toNat ∧
  t.faultValue = BitVec.ofNat 32 (s.outcnt.toNat + k)

/-- The state `u` a cut emission began in may differ from `s` in what is no part of the record: BLK and the input. -/
theorem emissionCut_faulted {s u : State} {k : Nat} {opc : Byte} {bits : List Bool} {p : Bool}
    (hp : (polarities s s.pol bits)[k]? = some p) (hk : k ≤ (bitsWave s s.pol bits).length) (ho : s.outcnt.toNat + k < 2 ^ 64)
    (hs : s.sbytes.toNat + k < 2 ^ 64) (hrev : u.outRev = s.outRev) (hout : u.outcnt = s.outcnt) (hsb : u.sbytes = s.sbytes)
    (hsam : u.samples = s.samples) :
    EmissionCut s k opc bits
      (((u.emitted ((bitsWave s s.pol bits).take k) p).drewOne).faulted 0x0A opc 0#8 (u.outcnt.toNat + k)) := by
  have hlen : ((bitsWave s s.pol bits).take k).length = k := List.length_take_of_le hk
  refine ⟨?_, hp, ?_, ?_, ?_, rfl, rfl, ?_, ?_⟩
  · show (u.emitted _ p).out = _
    rw [emitted_out, State.out, hrev]
    rfl
  · show (u.samples || !((bitsWave s s.pol bits).take k).isEmpty) = _
    rw [hsam, not_isEmpty_eq, hlen]
  · show (u.outcnt + BitVec.ofNat 64 ((bitsWave s s.pol bits).take k).length).toNat = _
    rw [hout, hlen, counter_toNat ho]
  · show (u.sbytes + BitVec.ofNat 64 ((bitsWave s s.pol bits).take k).length).toNat = _
    rw [hsb, hlen, counter_toNat hs]
  · exact congrArg (BitVec.ofNat 32) (Nat.zero_add opc.toNat)
  · exact congrArg (fun c : U64 => BitVec.ofNat 32 (c.toNat + k)) hout

/-- A command whose pseudocode the port cuts. -/
theorem exec_stopsAt {i : Instr} {s u : State} {k n : Nat} {opc : Byte} {bits : List Bool} (hr : EmitReady s n) (hk : k < n)
    (hlen : (bitsWave s s.pol bits).length = n)
    (hstop : StopsAt u (bitsWave s s.pol bits) (polarities s s.pol bits) k (bodyOf i s)) (hrun : u.fault = s.fault)
    (hrev : u.outRev = s.outRev) (hout : u.outcnt = s.outcnt) (hsb : u.sbytes = s.sbytes) (hsam : u.samples = s.samples)
    (hopc : opcodeByte (opcodeOf i) = opc) (hsel : selOf i = 0#8) (hread : ∀ sel, i ≠ .rdreg sel := by nofun)
    (hreset : i ≠ .reset := by nofun) :
    ∃ t, exec i s = .next t ∧ EmissionCut s k opc bits t ∧ t.blk = u.blk ∧ t.nameDone = u.nameDone ∧ t.blkcnt = u.blkcnt ∧
      t.incnt = u.incnt ∧ t.inBytes = u.inBytes ∧ t.eof = u.eof := by
  obtain ⟨p, hp, hraised⟩ := hstop
  have ho := hr.outcnt_fits
  have hs := hr.sbytes_fits
  refine ⟨_, exec_raised (n := 0x0A) hr.running hraised (hrun.trans hr.running) (by decide) hread hreset, ?_, rfl, rfl, rfl, rfl, rfl, rfl⟩
  rw [hopc, hsel]
  exact emissionCut_faulted hp (by omega) (by omega) (by omega) hrev hout hsb hsam

/-- What a block just assembled reads as (10_state.md R27). -/
theorem readCell_payload {payload : List Byte} (h : payload.length ≤ 256) (a : Nat) :
    readCell (cellsFrom 0 payload) a = (payload[a]?).getD 0x00#8 := by
  rw [readCell_cellsFrom (by omega) (Nat.zero_le a), Nat.sub_zero, List.getD_eq_getElem?_getD]

theorem Inv.stopping {s : State} {n k : Nat} (hi : Inv s) (hr : EmitReady s n) (hk : k < n) (hg : Granted s k)
    (href : refusesAt s k = true) : Stopping s k :=
  ⟨hi.emittable (hr.of_le hk.le) hg, href⟩

theorem length_blockWave (s : State) (p : Bool) {payload : List Byte} (h : payload.length = 256) :
    (bitsWave s p (bitStream (framedBytes s.cfg payload))).length = blockByteCount s := by
  rw [length_byteWave, length_framedBytes h]
  rfl

theorem txblockBody_refused {s : State} {k : Nat} (hr : EmitReady s (blockByteCount s)) (h : Stopping s k) (hk : k < blockByteCount s) :
    StopsAt s (bitsWave s s.pol (bitStream (framedBytes s.cfg (blockBytes s.blk))))
      (polarities s s.pol (bitStream (framedBytes s.cfg (blockBytes s.blk)))) k (txblockBody s) := by
  rw [txblockBody, hr.emitCheck, done_andThen]
  exact frameBlock_refused h hk

theorem StopsAt.andThen {s : State} {wave : List Byte} {pols : List Bool} {k : Nat} {r : Ran} {f : State → Ran}
    (h : StopsAt s wave pols k r) : StopsAt s wave pols k (r.andThen f) := by
  obtain ⟨p, hp, rfl⟩ := h
  exact ⟨p, hp, rfl⟩

theorem txnameBody_refused {s : State} {k : Nat} (hr : EmitReady s (blockByteCount s)) (hn : s.nameDone = false) (h : Stopping s k)
    (hk : k < blockByteCount s) :
    StopsAt (setBlock (nameBlock s) s) (bitsWave s s.pol (bitStream (framedBytes s.cfg (nameBlock s))))
      (polarities s s.pol (bitStream (framedBytes s.cfg (nameBlock s)))) k (txnameBody s) := by
  rw [txnameBody_ready hr hn]
  exact (frameBlock_setBlock_refused (length_nameBlock s) h hk).andThen

/-- HDR that the port cuts: its checks passed, the bytes before the refusal stay. -/
theorem hdrBody_refused {s : State} {k : Nat} (h : HdrReady s) (ho : s.closed = false) (hk : k < (headerBytes s).length)
    (hg : Granted s k) (hr : refusesAt s k = true) (hc : s.outcnt.toNat + k < 2 ^ 64) :
    hdrBody s = .raised .ioOutput (s.outcnt.toNat + k) (s.written ((headerBytes s).take k)).drewOne := by
  rw [hdrBody_ready h, outWriteAll_refused ho hk hg hr hc, raised_andThen]

theorem exec_hdr_refused {s : State} {k : Nat} (hf : s.fault = false) (h : HdrReady s) (ho : s.closed = false)
    (hk : k < (headerBytes s).length) (hg : Granted s k) (hr : refusesAt s k = true) (hc : s.outcnt.toNat + k < 2 ^ 64) :
    exec .hdr s = .next (State.faulted { s with
        outRev := ((headerBytes s).take k).reverse ++ s.outRev
        outcnt := s.outcnt + BitVec.ofNat 64 k
        hostRefuses := s.hostRefuses.drop (k + 1)
        drawn := s.drawn + (k + 1) } 0x0A 0x40#8 0#8 (s.outcnt.toNat + k)) := by
  rw [← written_take_drewOne hk s]
  exact exec_raised hf (hdrBody_refused h ho hk hg hr hc) hf (by decide)

theorem txdataBody_refused {s : State} {c : U32} {k : Nat} (hr : EmitReady s (blockByteCount s)) (hn : s.nameDone = true)
    (he : s.eof = false) (h1 : 1 ≤ c.toNat) (h253 : c.toNat ≤ 253) (hl : c.toNat ≤ s.inBytes.length)
    (hc : s.incnt.toNat + c.toNat < 2 ^ 64) (hem : Emittable s k) (hk : k < blockByteCount s) (hg : Granted s (c.toNat + k))
    (href : refusesAt s (c.toNat + k) = true) :
    let bits := bitStream (framedBytes s.cfg (dataBlock s.blkcnt (s.inBytes.take c.toNat)))
    StopsAt (setBlock (dataBlock s.blkcnt (s.inBytes.take c.toNat)) (s.taken (s.inBytes.take c.toNat)))
      (bitsWave s s.pol bits) (polarities s s.pol bits) k (txdataBody c s) := by
  intro bits
  have hlen : (s.inBytes.take c.toNat).length = c.toNat := List.length_take_of_le hl
  have hstop : Stopping (s.taken (s.inBytes.take c.toNat)) k := Stopping.taken hem (by rw [hlen]; exact hg) (by rw [hlen]; exact href)
  have hcut := sendDataBlock_refused (bytes := s.inBytes.take c.toNat) (by rw [hlen]; exact h253) hstop
    (by rw [blockByteCount_taken]; exact hk)
  rw [bitsWave_congr (t := s.taken (s.inBytes.take c.toNat)) (s := s) rfl rfl rfl rfl rfl rfl,
    polarities_congr (t := s.taken (s.inBytes.take c.toNat)) (s := s) rfl rfl] at hcut
  rw [txdataBody_ready hr hn h1 h253, readAndSend, inReadUpTo_full h1 he hl (granted_of_le hg (by omega)) hc, List.reverse_nil,
    List.nil_append]
  exact hcut

/-- Settles O38: each command past its checks is one emission, which the port cuts. -/
theorem emissionRefusedKeepsItsPrefix : Obligations.EmissionRefusedKeepsItsPrefix := by
  refine ⟨fun s k hi hg href => ⟨fun b hr hk => ?bit, fun v hr hk => ?byte, fun hr hk => ?block, fun hr hn hk => ?name,
    fun hf hinit hh hs ho hm hlen hk hc => ?header⟩, fun c s k hi hr hn he h1 h253 hl hc hk hg href => ?data⟩
  case bit =>
    have hstop : StopsAt s (bitsWave s s.pol [b]) (polarities s s.pol [b]) k (emitbitBody b s) := by
      have h := emitBit_refused (b := b) (hi.stopping hr hk hg href) hk
      rw [emitbitBody, hr.emitCheck, done_andThen, bitsWave, bitsWave, List.append_nil]
      exact h
    obtain ⟨t, hexec, hcut, -⟩ := exec_stopsAt (i := .emitbit b) hr hk
      (by rw [length_bitsWave, List.length_singleton, Nat.one_mul]) hstop rfl rfl rfl rfl rfl rfl rfl
    exact ⟨t, hexec, hcut⟩
  case byte =>
    have hstop : StopsAt s (bitsWave s s.pol (bitsOf v)) (polarities s s.pol (bitsOf v)) k (emitbyteBody v s) := by
      rw [emitbyteBody, hr.emitCheck, done_andThen]
      exact emitByte_refused (hi.stopping hr hk hg href) hk
    obtain ⟨t, hexec, hcut, -⟩ := exec_stopsAt (i := .emitbyte v) hr hk
      (by rw [length_bitsWave, length_bitsOf]; rfl) hstop rfl rfl rfl rfl rfl rfl rfl
    exact ⟨t, hexec, hcut⟩
  case block =>
    obtain ⟨t, hexec, hcut, -⟩ := exec_stopsAt (i := .txblock) hr hk (length_blockWave s s.pol (length_blockBytes s.blk))
      (txblockBody_refused hr (hi.stopping hr hk hg href) hk) rfl rfl rfl rfl rfl rfl rfl
    exact ⟨t, hexec, hcut⟩
  case name =>
    obtain ⟨t, hexec, hcut, hblk, hname, -⟩ := exec_stopsAt (i := .txname) hr hk (length_blockWave s s.pol (length_nameBlock s))
      (txnameBody_refused hr hn (hi.stopping hr hk hg href) hk) rfl rfl rfl rfl rfl rfl rfl
    refine ⟨t, hexec, hname.trans hn, fun a => ?_, hcut⟩
    rw [hblk]
    exact readCell_payload (length_nameBlock s).le a
  case header =>
    obtain ⟨hwidth, hcontainer⟩ := hi.init_geometry hinit
    exact exec_hdr_refused hf ⟨mayWriteHeader_iff.mpr ⟨hinit, hh, hs, ho⟩, hwidth, hcontainer, modeLegal_iff_mem.mpr hm, hlen⟩ ho hk hg
      href hc
  case data =>
    have hlen : (s.inBytes.take c.toNat).length = c.toNat := List.length_take_of_le hl
    have hpayload := length_dataBlock (counter := s.blkcnt) (bytes := s.inBytes.take c.toNat) (by omega)
    obtain ⟨t, hexec, hcut, hblk, -, hblkcnt, hincnt, hin, heof⟩ := exec_stopsAt (i := .txdata c) hr hk (length_blockWave s s.pol hpayload)
      (txdataBody_refused hr hn he h1 h253 hl hc (hi.emittable (hr.of_le hk.le) (granted_of_le hg (by omega))) hk hg href)
      rfl rfl rfl rfl rfl rfl rfl
    refine ⟨t, hexec, hblkcnt, ?_, ?_, heof.trans he, fun a => ?_, hcut⟩
    · rw [hincnt, setBlock_incnt, taken_incnt, hlen, counter_toNat hc]
    · exact hin.trans (congrArg s.inBytes.drop hlen)
    · rw [hblk]
      exact readCell_payload hpayload.le a

end Sys2Proof.Machine

/-! PROOFS. The Block Framer's commands where every access is granted (42_framer.md R142 to R149), and TXDATA and TXREST on an input
that ends early (R145, R146). -/

namespace Sys2Proof.Machine

/-! ### The block's bytes -/

/-- The framed block, spelled out (R149). -/
theorem framedBytes_eq (cfg : Config) (payload : List Byte) :
    List.replicate 32 0x00#8 ++ [cfg.syncByte, cfg.syncByte, cfg.syncByte, cfg.stxByte] ++ payload
      ++ [cfg.etxByte, (checksum cfg.etxByte payload).extractLsb' 0 8, (checksum cfg.etxByte payload).extractLsb' 8 8] =
      framedBytes cfg payload := by
  have hsum : bytesOf 2 .little (checksum cfg.etxByte payload).toNat = le16 (checksum cfg.etxByte payload) := put16Bytes_little _
  rw [framedBytes, hsum, le16]
  simp only [List.append_assoc, List.replicate, List.cons_append, List.nil_append]

/-- The data block, spelled out (R148). -/
theorem dataBlock_eq (counter : U16) (bytes : List Byte) :
    [0x00#8] ++ le16 counter ++ bytes ++ List.replicate (253 - bytes.length) 0x00#8 = dataBlock counter bytes := by
  have hcounter : bytesOf 2 .little counter.toNat = le16 counter := put16Bytes_little counter
  rw [dataBlock, hcounter, dataChunk]

/-- Settles O39: the payload is taken from BLK as it stands, and the frame around it is modulated. -/
theorem txblockFramesTheBuffer : Obligations.TxblockFramesTheBuffer := by
  intro s hi hr hg payload csum framed
  have hpayload : payload = blockBytes s.blk := rfl
  have hframed : framed = framedBytes s.cfg (blockBytes s.blk) := by rw [← hpayload]; exact framedBytes_eq s.cfg payload
  clear_value framed
  subst hframed
  refine ⟨length_framedBytes (length_blockBytes _), exec_done hr.running ?_⟩
  show txblockBody s = _
  rw [txblockBody, hr.emitCheck, done_andThen]
  exact frameBlock_granted (hi.emittable hr hg)

theorem sum_toNat_le (bytes : List Byte) : (bytes.map BitVec.toNat).sum ≤ bytes.length * 255 := by
  have hbyte : ∀ x ∈ bytes.map BitVec.toNat, x ≤ 255 := fun x hx => by
    obtain ⟨b, -, rfl⟩ := List.mem_map.1 hx
    exact Nat.le_of_lt_succ b.isLt
  simpa using List.sum_le_card_nsmul _ _ hbyte

/-- Settles O40: 257 bytes add up to 65535 at most. -/
theorem checksumNeverWraps : Obligations.ChecksumNeverWraps := by
  intro payload etx hlen
  have hsum := sum_toNat_le payload
  have hetx := etx.isLt
  have hchecksum : (checksum etx payload).toNat = (payload.map BitVec.toNat).sum + etx.toNat := by
    rw [checksum, BitVec.toNat_ofNat]
    omega
  exact ⟨hchecksum, by omega⟩

/-! ### TXNAME and TXDATA -/

/-- Modulation neither reads nor writes BLK. -/
theorem modulated_setBlock (payload bytes : List Byte) (s : State) :
    (setBlock payload s).modulated bytes = { s.modulated bytes with blk := cellsFrom 0 payload } := by
  unfold State.modulated
  rw [bitsWave_congr (t := setBlock payload s) (s := s) rfl rfl rfl rfl rfl rfl, setBlock_pol]
  rfl

theorem txnameBody_granted {s : State} (hi : Inv s) (hr : EmitReady s (blockByteCount s)) (hn : s.nameDone = false)
    (hg : Granted s (blockByteCount s)) :
    txnameBody s = .done { s.modulated (framedBytes s.cfg (nameBlock s)) with blk := cellsFrom 0 (nameBlock s), nameDone := true } := by
  rw [txnameBody_ready hr hn, frameBlock_setBlock (length_nameBlock s) (hi.emittable hr hg), done_andThen, modulated_setBlock]

/-- Settles O41. -/
theorem txnameSendsTheNameBlock : Obligations.TxnameSendsTheNameBlock := by
  intro s hi hr hn hg payload
  have hpayload : payload = nameBlock s := nameBlock_eq s
  clear_value payload
  subst hpayload
  exact ⟨_, exec_done (i := .txname) hr.running (txnameBody_granted hi hr hn hg), rfl, wf_cellsFrom (length_nameBlock s).le,
    readCell_payload (length_nameBlock s).le⟩

theorem txdataBody_granted {c : U32} {s : State} (hi : Inv s) (hr : EmitReady s (blockByteCount s)) (hn : s.nameDone = true)
    (he : s.eof = false) (h1 : 1 ≤ c.toNat) (h253 : c.toNat ≤ 253) (hl : c.toNat ≤ s.inBytes.length)
    (hc : s.incnt.toNat + c.toNat < 2 ^ 64) (hg : Granted s (c.toNat + blockByteCount s)) :
    txdataBody c s = .done (s.chunkSent (s.inBytes.take c.toNat)) := by
  have hlen : (s.inBytes.take c.toNat).length = c.toNat := List.length_take_of_le hl
  rw [txdataBody_ready hr hn h1 h253, readAndSend, inReadUpTo_full h1 he hl (granted_of_le hg (Nat.le_add_right _ _)) hc, List.reverse_nil,
    List.nil_append]
  exact sendDataBlock_taken (by rw [hlen]; exact h253) (by rw [hlen]; exact hg)
    (hi.emittable hr (granted_of_le hg (Nat.le_add_left _ _)))

/-- A data block sent, as an emission and what else it changes. -/
theorem chunkSent_emitted (s : State) (c : List Byte) :
    s.chunkSent c = { s.emitted (s.chunkWave c) (polarityAfter s.pol (bitStream (framedBytes s.cfg (dataBlock s.blkcnt c)))) with
      hostRefuses := s.hostRefuses.drop (c.length + (s.chunkWave c).length)
      drawn := s.drawn + (c.length + (s.chunkWave c).length)
      inPort := some (s.inBytes.drop c.length)
      incnt := s.incnt + BitVec.ofNat 64 c.length
      blkcnt := s.blkcnt + 1#16
      blk := cellsFrom 0 (dataBlock s.blkcnt c) } := by
  rw [chunkSent_eq]
  generalize s.chunkWave c = wave
  generalize dataBlock s.blkcnt c = payload
  generalize polarityAfter s.pol (bitStream (framedBytes s.cfg payload)) = p
  rfl

/-- Settles O42. -/
theorem txdataSendsOneBlock : Obligations.TxdataSendsOneBlock := by
  intro c s hi hr hn he h1 h253 hl hc hg input payload wave
  have hlen : input.length = c.toNat := List.length_take_of_le hl
  have hpayload : payload = dataBlock s.blkcnt input := by rw [← dataBlock_eq, hlen]
  clear_value payload
  subst hpayload
  have hfits := (length_dataBlock (counter := s.blkcnt) (hlen.trans_le h253)).le
  have hsent := chunkSent_emitted s input
  rw [hlen] at hsent
  have hblk : (s.chunkSent input).blk = cellsFrom 0 (dataBlock s.blkcnt input) := by rw [hsent]
  refine ⟨_, exec_done hr.running (txdataBody_granted hi hr hn he h1 h253 hl hc hg), ?_, ?_⟩
  · rw [← hblk] at hsent
    exact hsent
  · rw [hblk]
    exact ⟨wf_cellsFrom hfits, readCell_payload hfits⟩

/-! ### An input that ends early, or that the host refuses -/

/-- The bytes of `tail` read, if there are any, and the end of the input met. -/
theorem readToEnd_eq (u : State) (tail : List Byte) :
    (if tail = [] then u else u.taken tail).endOfInput = { u with
      hostRefuses := u.hostRefuses.drop (tail.length + 1)
      drawn := u.drawn + (tail.length + 1)
      inPort := if tail.isEmpty then u.inPort else some (u.inBytes.drop tail.length)
      incnt := u.incnt + BitVec.ofNat 64 tail.length
      eof := true } := by
  cases tail with
  | nil => simp [State.endOfInput, drewOne_eq]
  | cons b rest =>
    rw [if_neg (List.cons_ne_nil b rest), State.taken, State.endOfInput, drewOne_eq, List.drop_drop]
    rfl

theorem readSome_drewOne (s : State) {k : Nat} (hk : k ≤ s.inBytes.length) :
    (if k = 0 then s else s.taken (s.inBytes.take k)).drewOne = { s with
      hostRefuses := s.hostRefuses.drop (k + 1)
      drawn := s.drawn + (k + 1)
      inPort := if k = 0 then s.inPort else some (s.inBytes.drop k)
      incnt := s.incnt + BitVec.ofNat 64 k } := by
  have hlen : (s.inBytes.take k).length = k := List.length_take_of_le hk
  cases k with
  | zero => simp [drewOne_eq]
  | succ k =>
    rw [if_neg (Nat.succ_ne_zero k), if_neg (Nat.succ_ne_zero k), State.taken, hlen, drewOne_eq, List.drop_drop]
    rfl

section
variable {s : State}

/-- TXDATA past its checks, of whatever counters (42_framer.md R145). -/
theorem txdataBody_reads {c : U32} (hm : mayEmit s = true) (hn : s.nameDone = true) (h1 : 1 ≤ c.toNat) (h253 : c.toNat ≤ 253)
    (hroom : s.declared = true → s.sbytes.toNat + blockByteCount s ≤ s.declBytes.toNat) : txdataBody c s = readAndSend c.toNat s := by
  rw [txdataBody_ordered_eq h1 h253 hm hn, emitCheck_done hm hroom, done_andThen]

theorem readAndSend_reported {n : Nat} (hn : 0 < n) (he : s.eof = true) : readAndSend n s = .raised .ioInput 0 s := by
  rw [readAndSend, inReadUpTo_eof hn he]
  rfl

theorem readAndSend_short {n : Nat} (he : s.eof = false) (hl : s.inBytes.length < n) (hc : s.incnt.toNat + s.inBytes.length < 2 ^ 64)
    (hg : Granted s (s.inBytes.length + 1)) :
    readAndSend n s = .raised .ioInput s.inBytes.length (if s.inBytes = [] then s else s.taken s.inBytes).endOfInput := by
  rw [readAndSend, inReadUpTo_short he hl hg hc, ← apply_ite State.endOfInput]
  rfl

theorem readAndSend_refused {n k : Nat} (hk : k < n) (he : s.eof = false) (hl : k ≤ s.inBytes.length) (hc : s.incnt.toNat + k < 2 ^ 64)
    (hg : Granted s k) (hr : refusesAt s k = true) :
    readAndSend n s = .raised .ioInput (s.incnt.toNat + k) (if k = 0 then s else s.taken (s.inBytes.take k)).drewOne := by
  rw [readAndSend, inReadUpTo_refused hk he hl hg hr hc, readSome_drewOne s hl]
  exact congrArg (Ran.raised .ioInput · _) (counter_toNat hc)

theorem sendBuffered_reported {rem : Nat} (hr : 0 < rem) (he : s.eof = true) :
    sendBuffered (ceilDiv rem dataChunk) rem s = .raised .ioInput s.incnt.toNat s := by
  obtain ⟨k, hk⟩ : ∃ k, ceilDiv rem dataChunk = k + 1 := ⟨ceilDiv rem dataChunk - 1, by simp only [ceilDiv, dataChunk]; omega⟩
  rw [hk, sendBuffered, inReadUpTo_eof (by simp only [dataChunk]; omega) he]

theorem flatten_chunksOf (k : Nat) (bytes : List Byte) : (chunksOf k bytes).flatten = bytes.take (253 * k) := by
  induction k generalizing bytes with
  | zero => simp [chunksOf]
  | succ k ih =>
    by_cases h : bytes = []
    · rw [h, chunksOf_nil, List.take_nil]
      rfl
    · rw [chunksOf_cons h, List.flatten_cons, ih, ← List.take_add, Nat.mul_succ, Nat.add_comm]

/-- What the data blocks have taken of the input. -/
theorem blocksSent_inPort (chunks : List (List Byte)) : (s.blocksSent chunks).inPort =
    if chunks.flatten.isEmpty then s.inPort else some (s.inBytes.drop chunks.flatten.length) := rfl

theorem blocksSent_incnt (chunks : List (List Byte)) :
    (s.blocksSent chunks).incnt = s.incnt + BitVec.ofNat 64 chunks.flatten.length := rfl

theorem blocksSent_inBytes (chunks : List (List Byte)) : (s.blocksSent chunks).inBytes = s.inBytes.drop chunks.flatten.length := by
  rw [State.inBytes, blocksSent_inPort]
  cases h : chunks.flatten.isEmpty
  · rfl
  · rw [List.isEmpty_iff.mp h, if_pos rfl]
    rfl

/-- The input port after the full blocks and the bytes left over have been taken. -/
theorem inPort_allTaken {u : State} {there full : Nat} (hthere : s.inBytes.length = there) (hfull : there / 253 = full)
    (hu : u = s.blocksSent (chunksOf full s.inBytes)) :
    (if (s.inBytes.drop (253 * full)).isEmpty then u.inPort else some (u.inBytes.drop (s.inBytes.drop (253 * full)).length)) =
      (if s.inBytes.isEmpty then s.inPort else some []) ∧
    u.incnt + BitVec.ofNat 64 (s.inBytes.drop (253 * full)).length = s.incnt + BitVec.ofNat 64 there := by
  have hflat := flatten_chunksOf full s.inBytes
  have htaken : (chunksOf full s.inBytes).flatten.length = 253 * full := by rw [hflat, List.length_take]; omega
  have htail : (s.inBytes.drop (253 * full)).length = there - 253 * full := by rw [List.length_drop, hthere]
  constructor
  · rw [hu, blocksSent_inPort, blocksSent_inBytes, htaken, hflat, List.drop_drop]
    have hdrop : s.inBytes.drop (253 * full + (s.inBytes.drop (253 * full)).length) = [] :=
      List.drop_of_length_le (by rw [htail]; omega)
    rw [hdrop]
    by_cases h0 : s.inBytes = []
    · simp [h0]
    · have hpos : 0 < there := hthere ▸ List.length_pos_iff.mpr h0
      by_cases htl : s.inBytes.drop (253 * full) = []
      · have hne : s.inBytes.take (253 * full) ≠ [] := by
          intro h
          have := List.take_append_drop (253 * full) s.inBytes
          rw [h, htl] at this
          exact h0 this.symm
        simp [h0, htl, hne]
      · simp [h0, htl]
  · rw [hu, blocksSent_incnt, htaken, counter_add, htail]
    congr 2
    omega

end

/-- Settles O43: TXDATA reads all its bytes before it sends any; TXREST sends the full blocks first. -/
theorem txdataNeedsItsInput : Obligations.TxdataNeedsItsInput := by
  refine ⟨fun c s hf hi hh hc hroom hn h253 => ?data, fun s hi hmode hn => ?rest⟩
  case data =>
    have hm : mayEmit s = true := by simp [mayEmit, hi, hh, hc]
    have hreads (h1 : 1 ≤ c.toNat) := txdataBody_reads hm hn h1 h253 hroom
    refine ⟨fun he h1 => ?_, fun he hl hcnt hg => ?_, fun k he hk hl hcnt hg href => ?_⟩
    · exact exec_raised (n := 0x0B) hf ((hreads h1).trans (readAndSend_reported h1 he)) hf (by decide)
    · have hshort := (hreads (by omega)).trans (readAndSend_short he hl hcnt hg)
      rw [readToEnd_eq, List.drop_length] at hshort
      exact exec_raised (n := 0x0B) hf hshort hf (by decide)
    · have hrefused := (hreads (by omega)).trans (readAndSend_refused hk he hl hcnt hg href)
      rw [readSome_drewOne s hl] at hrefused
      exact exec_raised (n := 0x0B) hf hrefused hf (by decide)
  case rest =>
    intro rem there full u hr
    have hrest : txrestBody s = sendBuffered (ceilDiv rem dataChunk) rem s := txrestBody_buffered hr hn (by simp [isBuffered, hmode])
    refine ⟨fun he hrem => ?_, fun he hl hg => ?_⟩
    · exact exec_raised (n := 0x0B) hr.running (hrest.trans (sendBuffered_reported hrem he)) hr.running (by decide)
    · have hlen := s.dataLen.isLt
      have hle : full * blockByteCount s ≤ (rem + 253 - 1) / 253 * blockByteCount s := Nat.mul_le_mul_right _ (by omega)
      have hem := hi.emittable (hr.of_le hle) (granted_of_le hg (Nat.le_succ_of_le (Nat.le_add_left _ _)))
      have hshort := hrest.trans (sendBuffered_short rfl he hl (by omega) hg hem)
      obtain ⟨hport, hcount⟩ := inPort_allTaken (s := s) (there := there) (full := full) rfl rfl rfl
      have htail : (s.inBytes.drop (253 * full)).length = there % 253 := by rw [List.length_drop]; omega
      have hrun : u.fault = false := hr.running
      simp only [readToEnd_eq] at hshort
      rw [show s.blocksSent (chunksOf (s.inBytes.length / 253) s.inBytes) = u from rfl] at hshort
      rw [hport, hcount, htail] at hshort
      clear_value u
      exact exec_raised (n := 0x0B) hr.running hshort hrun (by decide)

end Sys2Proof.Machine

/-! PROOFS. TXREST where every access is granted: the rest of the input as data blocks (42_framer.md R146, R150). -/

namespace Sys2Proof.Machine

/-- TXREST in BUFFERED mode, all that is left of DATA_LEN there. -/
theorem txrestBody_buffered_granted {s : State} (hi : Inv s) (hb : isBuffered s = true) (hn : s.nameDone = true)
    (hr : EmitReady s (ceilDiv (remaining s) dataChunk * blockByteCount s)) (he : 0 < remaining s → s.eof = false)
    (hl : remaining s ≤ s.inBytes.length) (hc : s.incnt.toNat + remaining s < 2 ^ 64)
    (hg : Granted s (remaining s + ceilDiv (remaining s) dataChunk * blockByteCount s)) :
    txrestBody s = .done (s.blocksSent (chunksOf (ceilDiv (remaining s) dataChunk) (s.inBytes.take (remaining s)))) := by
  rw [txrestBody_buffered hr hn hb]
  by_cases hrem : remaining s = 0
  · rw [hrem]
    exact congrArg Ran.done (blocksSent_nil s).symm
  · exact sendBuffered_granted rfl hl (he (Nat.pos_of_ne_zero hrem)) hc hg
      (hi.emittable hr (granted_of_le hg (Nat.le_add_left _ _)))

/-- TXREST in STREAMING mode, the end of the input not yet met. -/
theorem txrestBody_streaming_granted {s : State} (hi : Inv s) (hb : isBuffered s = false) (hn : s.nameDone = true)
    (hr : EmitReady s (ceilDiv s.inBytes.length dataChunk * blockByteCount s)) (he : s.eof = false)
    (hc : s.incnt.toNat + s.inBytes.length < 2 ^ 64)
    (hg : Granted s (s.inBytes.length + ceilDiv s.inBytes.length dataChunk * blockByteCount s + 1)) :
    txrestBody s = .done (s.blocksSent (chunksOf (ceilDiv s.inBytes.length dataChunk) s.inBytes)).endOfInput := by
  rw [txrestBody_streaming (hr.of_le (Nat.zero_le _)) hn hb]
  exact sendStreaming_granted rfl he hc hg
    (hi.emittable hr (granted_of_le hg (Nat.le_succ_of_le (Nat.le_add_left _ _))))

/-- Settles O44. -/
theorem txrestBufferedSendsTheRest : Obligations.TxrestBufferedSendsTheRest := fun _ hi hmode hn hr he hl hc hg =>
  exec_done (i := .txrest) hr.running (txrestBody_buffered_granted hi (by simp [isBuffered, hmode]) hn hr he hl hc hg)

/-- Settles O45. -/
theorem txrestStreamingSendsTheRest : Obligations.TxrestStreamingSendsTheRest := by
  intro s hi hmode hn len blocks
  have hb : isBuffered s = false := by simp [isBuffered, hmode]
  refine ⟨fun he hr => ?_, fun he hr hc hg => exec_done (i := .txrest) hr.running (txrestBody_streaming_granted hi hb hn hr he hc hg)⟩
  exact exec_done (i := .txrest) hr.running ((txrestBody_streaming hr hn hb).trans (sendStreaming_eof he))

/-! ### The law of block counts (R150) -/

/-- The k-th run of 253 bytes. -/
def chunkAt (bytes : List Byte) (k : Nat) : List Byte := (bytes.drop (253 * k)).take 253

theorem length_chunkAt (bytes : List Byte) (k : Nat) : (chunkAt bytes k).length = min 253 (bytes.length - 253 * k) := by
  rw [chunkAt, List.length_take, List.length_drop]

theorem chunkAt_drop (bytes : List Byte) (k : Nat) : chunkAt (bytes.drop 253) k = chunkAt bytes (k + 1) := by
  rw [chunkAt, chunkAt, List.drop_drop, Nat.mul_succ, Nat.add_comm]

/-- Cutting into chunks, where each of them gets a byte. -/
theorem chunksOf_eq_map {n : Nat} {bytes : List Byte} (h : ∀ k < n, 253 * k < bytes.length) :
    chunksOf n bytes = (List.range n).map (chunkAt bytes) := by
  induction n generalizing bytes with
  | zero => rfl
  | succ n ih =>
    have hne : bytes ≠ [] := List.length_pos_iff.mp (h 0 (Nat.succ_pos n))
    have hrest : ∀ k < n, 253 * k < (bytes.drop 253).length := fun k hk => by
      have := h (k + 1) (by omega)
      rw [List.length_drop]
      omega
    rw [chunksOf_cons hne, ih hrest, List.range_succ_eq_map, List.map_cons, List.map_map]
    exact congrArg₂ List.cons rfl (List.map_congr_left fun k _ => chunkAt_drop bytes k)

/-- The framed blocks of chunks, the counter written out for each (R151). -/
theorem framedChunks_map_range (cfg : Config) (j n : Nat) (chunk : Nat → List Byte) :
    framedChunks cfg (BitVec.ofNat 16 j) ((List.range n).map chunk) =
      (List.range n).flatMap fun k => framedBytes cfg (dataBlock (BitVec.ofNat 16 (j + k)) (chunk k)) := by
  induction n generalizing j chunk with
  | zero => rfl
  | succ n ih =>
    have hnext : BitVec.ofNat 16 j + 1#16 = BitVec.ofNat 16 (j + 1) := (BitVec.ofNat_add j 1).symm
    rw [List.range_succ_eq_map, List.map_cons, framedChunks, List.map_map, hnext, ih, List.flatMap_cons, List.flatMap_map]
    simp only [Function.comp_apply, Nat.add_zero, Nat.add_assoc, Nat.add_comm 1]

/-- How many times TXREST asks for more than there is: once in STREAMING mode, to meet the end of the input. -/
def State.endReads (s : State) : Nat := if isBuffered s then 0 else 1

theorem endReads_le (s : State) : s.endReads ≤ 1 := by
  unfold State.endReads
  split <;> decide

/-- What TXREST leaves: the blocks sent, and in STREAMING mode the end of the input met. -/
theorem txrestBody_completes {s : State} {length : Nat} (hi : Inv s) (hn : s.nameDone = true) (he : s.eof = false)
    (h0 : s.incnt = 0#64) (hm : s.inputMode.toNat ∈ [1, 2])
    (hlength : length = if s.inputMode = 1#32 then s.dataLen.toNat else s.inBytes.length) (hl : length ≤ s.inBytes.length)
    (hc : length < 2 ^ 64) (hr : EmitReady s (ceilDiv length dataChunk * blockByteCount s))
    (hg : Granted s (length + ceilDiv length dataChunk * blockByteCount s + s.endReads)) :
    ∃ u, u = s.blocksSent (chunksOf (ceilDiv length dataChunk) (s.inBytes.take length)) ∧ txrestBody s = .done { u with
      hostRefuses := u.hostRefuses.drop s.endReads, drawn := u.drawn + s.endReads, eof := decide (s.inputMode = 2#32) } := by
  generalize hu : s.blocksSent (chunksOf (ceilDiv length dataChunk) (s.inBytes.take length)) = u
  by_cases hmode : s.inputMode = 1#32
  · have hb : isBuffered s = true := by simp [isBuffered, hmode]
    have hends : s.endReads = 0 := if_pos hb
    rw [hends] at hg ⊢
    rw [if_pos hmode] at hlength
    have hrem : remaining s = length := by rw [remaining, h0, hlength]; rfl
    have hdone := txrestBody_buffered_granted hi hb hn (hrem ▸ hr) (fun _ => he) (hrem ▸ hl)
      (by rw [hrem, h0]; exact (Nat.zero_add _).trans_lt hc) (hrem ▸ hg)
    rw [hrem, hu] at hdone
    have heof : u.eof = decide (s.inputMode = 2#32) := by rw [← hu, hmode]; exact he
    exact ⟨u, rfl, by rw [← heof]; exact hdone⟩
  · have hb : isBuffered s = false := by simp [isBuffered, hmode]
    have hends : s.endReads = 1 := if_neg (by simp [hb])
    rw [hends] at hg ⊢
    rw [if_neg hmode] at hlength
    have hmode2 : s.inputMode = 2#32 := by
      simp only [List.mem_cons, List.not_mem_nil, or_false, ← BitVec.toNat_inj, BitVec.toNat_ofNat] at hm hmode ⊢
      omega
    subst hlength
    have hdone := txrestBody_streaming_granted hi hb hn hr he
      (by rw [h0]; exact (Nat.zero_add _).trans_lt hc) hg
    rw [List.take_length] at hu
    rw [hu, State.endOfInput, drewOne_eq] at hdone
    exact ⟨u, rfl, by rw [hmode2]; exact hdone⟩

section
variable (s : State) (chunks : List (List Byte))

theorem blocksSent_out : (s.blocksSent chunks).out =
    s.out ++ bitsWave s s.pol (bitStream (framedChunks s.cfg s.blkcnt chunks)) :=
  emitted_out s _ (polarityAfter s.pol (bitStream (framedChunks s.cfg s.blkcnt chunks)))

theorem blocksSent_pol : (s.blocksSent chunks).pol = polarityAfter s.pol (bitStream (framedChunks s.cfg s.blkcnt chunks)) := rfl

theorem blocksSent_blkcnt : (s.blocksSent chunks).blkcnt = s.blkcnt + BitVec.ofNat 16 chunks.length := rfl

theorem blocksSent_outcnt : (s.blocksSent chunks).outcnt =
    s.outcnt + BitVec.ofNat 64 (bitsWave s s.pol (bitStream (framedChunks s.cfg s.blkcnt chunks))).length := rfl

theorem blocksSent_sbytes : (s.blocksSent chunks).sbytes =
    s.sbytes + BitVec.ofNat 64 (bitsWave s s.pol (bitStream (framedChunks s.cfg s.blkcnt chunks))).length := rfl

end

theorem length_framedBlocks {n : Nat} {cfg : Config} {payload : Nat → List Byte} (h : ∀ k, (payload k).length = 256) :
    ((List.range n).flatMap fun k => framedBytes cfg (payload k)).length = n * 295 := by
  simp [List.length_flatMap, fun k => length_framedBytes (cfg := cfg) (h k)]

/-- Settles O46: TXREST sends the chunks of the input, and the k-th chunk is the k-th run of 253 bytes. -/
theorem blockCountLaw : Obligations.BlockCountLaw := by
  intro s hi hn he h0 hk0 hm length n block chunk payload bits hl hc hr hg
  have hlen : (s.inBytes.take length).length = length := List.length_take_of_le hl
  have hchunk (k : Nat) : (chunk k).length = min 253 (length - 253 * k) := by
    rw [← hlen]
    exact length_chunkAt (s.inBytes.take length) k
  have hchunks : chunksOf n (s.inBytes.take length) = (List.range n).map chunk :=
    chunksOf_eq_map fun k hk => by rw [hlen]; omega
  have hpayload : ∀ k, payload k = dataBlock (BitVec.ofNat 16 k) (chunk k) := fun k => dataBlock_eq _ _
  have hbits : bits = bitStream (framedChunks s.cfg s.blkcnt ((List.range n).map chunk)) := by
    rw [hk0, framedChunks_map_range s.cfg 0]
    simp only [Nat.zero_add, ← hpayload]
    rfl
  have hwave : (bitsWave s s.pol bits).length = n * block := by
    have hfits (k : Nat) : (payload k).length = 256 := by
      rw [hpayload]
      exact length_dataBlock (by rw [hchunk]; omega)
    show (bitsWave s s.pol (bitStream _)).length = _
    rw [length_byteWave, length_framedBlocks hfits, Nat.mul_assoc]
    rfl
  have hflat : ((List.range n).map chunk).flatten.length = length := by
    rw [← hchunks, flatten_chunksOf, List.length_take, hlen]
    omega
  obtain ⟨u, hu, hdone⟩ := txrestBody_completes hi hn he h0 hm rfl hl hc hr
    (granted_of_le hg (Nat.add_le_add_left (endReads_le s) _))
  have hu' : u = s.blocksSent ((List.range n).map chunk) := hu.trans (congrArg s.blocksSent hchunks)
  have hlast : 0 < n → (chunk (n - 1)).length = length - 253 * (n - 1) := fun hpos => by rw [hchunk]; omega
  refine ⟨fun k hk => by rw [hchunk]; omega, hlast, _, exec_done (i := .txrest) hr.running hdone, ?_⟩
  have ho := hr.outcnt_fits
  have hs := hr.sbytes_fits
  have hout : u.out = s.out ++ bitsWave s s.pol bits := by rw [hu', hbits, blocksSent_out]
  have hpol : u.pol = polarityAfter s.pol bits := by rw [hu', hbits, blocksSent_pol]
  have hblkcnt : u.blkcnt = BitVec.ofNat 16 n := by
    rw [hu', blocksSent_blkcnt, hk0, List.length_map, List.length_range, BitVec.zero_add]
  have hoc : u.outcnt.toNat = s.outcnt.toNat + n * block := by rw [hu', blocksSent_outcnt, ← hbits, hwave, counter_toNat ho]
  have hsb : u.sbytes.toNat = s.sbytes.toNat + n * block := by rw [hu', blocksSent_sbytes, ← hbits, hwave, counter_toNat hs]
  have hinc : u.incnt.toNat = length := by
    rw [hu', blocksSent_incnt, hflat, h0, BitVec.zero_add, BitVec.toNat_ofNat, Nat.mod_eq_of_lt hc]
  have hin : u.inBytes = s.inBytes.drop length := by rw [hu', blocksSent_inBytes, hflat]
  exact ⟨hout, hpol, hblkcnt, hsb, hoc, hinc, hin, rfl⟩

end Sys2Proof.Machine

/-! PROOFS. HDR where every byte is granted (43_container.md R160 to R166). -/

namespace Sys2Proof.Machine

section
variable {s : State}

theorem headerBytes_chunk (h : s.container = 1#32) : headerBytes s = chunkHeader s := by
  unfold headerBytes
  rw [h]
  rfl

theorem headerBytes_simple (h : s.container = 2#32) : headerBytes s = simpleHeader s := by
  unfold headerBytes
  rw [h]
  rfl

theorem headerBytes_raw (h : s.container = 3#32) : headerBytes s = [] := by
  unfold headerBytes
  rw [h]
  rfl

/-- A length field holds the length where the input is BUFFERED, else the sentinel (R161). -/
theorem declared_field (hc : s.container = 1#32) (n : Nat) : BitVec.ofNat 32 (if lengthKnown s then n else unknownLength) =
    if s.inputMode = 1#32 then BitVec.ofNat 32 n else 0xFFFFFFFF#32 := by
  by_cases h : s.inputMode = 1#32 <;> simp [lengthKnown, isBuffered, hc, h, unknownLength]

/-- The encoding code of a legal width (R164). -/
theorem encodingCode_table (hw : s.width.toNat ∈ [8, 16, 24, 32]) : BitVec.ofNat 32 (encodingCode s.width.toNat) =
    if s.width = 8#32 then 2#32 else if s.width = 16#32 then 3#32 else if s.width = 24#32 then 4#32 else 5#32 := by
  have hwidth (w : U32) (h : s.width.toNat = w.toNat) : s.width = w := BitVec.eq_of_toNat_eq h
  simp only [List.mem_cons, List.not_mem_nil, or_false] at hw
  rcases hw with h | h | h | h
  · rw [hwidth 8#32 h]; rfl
  · rw [hwidth 16#32 h]; rfl
  · rw [hwidth 24#32 h]; rfl
  · rw [hwidth 32#32 h]; rfl

theorem hdrBody_granted (h : HdrReady s) (ho : s.closed = false) (hg : Granted s (headerBytes s).length)
    (hc : s.outcnt.toNat + (headerBytes s).length < 2 ^ 64) : hdrBody s = .done (recordHeader (s.written (headerBytes s))) := by
  rw [hdrBody_ready h, outWriteAll_granted ho hg hc, done_andThen]

theorem recordHeader_written (bytes : List Byte) : recordHeader (s.written bytes) = { s.written bytes with
    hdrDone := true
    declared := if s.container = 1#32 ∧ s.inputMode = 1#32 then true else s.declared
    declBytes := if s.container = 1#32 ∧ s.inputMode = 1#32 then BitVec.ofNat 32 (dataBytes s) else s.declBytes } := by
  have hknown : lengthKnown (s.written bytes) = lengthKnown s := rfl
  unfold recordHeader
  rw [hknown]
  by_cases h : lengthKnown s = true
  · rw [if_pos h, if_pos (lengthKnown_iff.mp h), if_pos (lengthKnown_iff.mp h)]
    rfl
  · rw [if_neg h, if_neg (mt lengthKnown_iff.mpr h), if_neg (mt lengthKnown_iff.mpr h)]
    rfl

end

/-- Settles O47: the header of each container is its bytes, and HDR past its checks writes them. -/
theorem hdrWritesTheHeader : Obligations.HdrWritesTheHeader := by
  intro s header hf hinit hh hs ho hw hm known frame data len hheader hfits hg hc
  have hbytes : header = headerBytes s := by
    rcases hheader with ⟨hcon, rfl⟩ | ⟨hcon, rfl⟩ | ⟨hcon, rfl⟩
    · rw [headerBytes_chunk hcon, chunkHeader_eq, declaredRiffLen, declaredDataBytes, declared_field hcon, declared_field hcon]
      rfl
    · rw [headerBytes_simple hcon, simpleHeader_eq, encodingCode_table hw]
    · exact (headerBytes_raw hcon).symm
  have hcontainer : containerLegal s.container = true := by
    rcases hheader with ⟨hcon, -⟩ | ⟨hcon, -⟩ | ⟨hcon, -⟩ <;> rw [hcon] <;> rfl
  have hready : HdrReady s := ⟨mayWriteHeader_iff.mpr ⟨hinit, hh, hs, ho⟩, widthLegal_iff_mem.mpr hw, hcontainer,
    modeLegal_iff_mem.mpr hm, fun h => hfits (lengthKnown_iff.mp h)⟩
  subst hbytes
  refine ⟨fun h => length_headerBytes.trans (if_pos h), fun h => length_headerBytes.trans ?_, ?_⟩
  · rw [h]
    rfl
  · rw [exec_done (i := .hdr) hf (hdrBody_granted hready ho hg hc), recordHeader_written]
    rfl

/-! ### The length law (R167) -/

/-- A command that left no fault began without one, and its pseudocode went through. -/
theorem exec_completed {i : Instr} {s t : State} {P : State → Prop} {Q : FaultCode → State → Prop} (h : exec i s = .next t)
    (ht : t.fault = false) (hb : (bodyOf i s).Sat P Q) (hread : ∀ sel, i ≠ .rdreg sel := by nofun) (hreset : i ≠ .reset := by nofun) :
    s.fault = false ∧ P t := by
  rcases exec_sat h hb hread hreset with ⟨hf, rfl⟩ | ⟨hf, hp | ⟨c, v, u, -, rfl⟩⟩
  · exact absurd (ht.symm.trans hf) nofun
  · exact ⟨hf, hp⟩
  · exact absurd (ht.symm.trans (takeFault_fault _ _ _ _ _)) nofun

/-- HDR of a chunk-style container whose length is known. -/
theorem exec_hdr_known {s t : State} (hk : lengthKnown s = true) (h : exec .hdr s = .next t) (ht : t.fault = false) :
    riffLen s ≤ 0xFFFFFFFE ∧ t.outRev = (chunkHeader s).reverse ++ s.outRev ∧ t.declared = true ∧
      t.declBytes = BitVec.ofNat 32 (dataBytes s) ∧ t.dataLen = s.dataLen ∧ blockByteCount t = blockByteCount s ∧
      t.inputMode = s.inputMode := by
  obtain ⟨-, hready, u, hu, hout, rfl⟩ := exec_completed (i := .hdr) h ht (hdrBody_sat s)
  have hframe := hu.frame
  have hku : lengthKnown u = true := by rw [hframe]; exact hk
  have hdata : dataBytes u = dataBytes s := by rw [hframe]; rfl
  rw [headerBytes_chunk (lengthKnown_iff.mp hk).1] at hout
  unfold recordHeader
  rw [if_pos hku, hdata]
  exact ⟨hready.length_fits hk, hout, rfl, rfl, by rw [hframe], by rw [hframe]; rfl, by rw [hframe]⟩

theorem exec_txname_completed {s t : State} (h : exec .txname s = .next t) (ht : t.fault = false) :
    s.nameDone = false ∧ t.outRev.length = s.outRev.length + blockByteCount s ∧ t.incnt = s.incnt ∧ t.dataLen = s.dataLen ∧
      blockByteCount t = blockByteCount s ∧ t.inputMode = s.inputMode ∧ t.declared = s.declared ∧ t.declBytes = s.declBytes := by
  obtain ⟨-, -, -, hn, u, ⟨hu, hlen⟩, rfl⟩ := exec_completed (i := .txname) h ht (txnameBody_sat s)
  refine ⟨hn, hlen, ?_⟩
  rw [hu.frame]
  exact ⟨rfl, rfl, rfl, rfl, rfl, rfl⟩

theorem exec_txrest_buffered_completed {s t : State} (hb : isBuffered s = true) (h : exec .txrest s = .next t) (ht : t.fault = false) :
    t.outRev.length = s.outRev.length + ceilDiv (remaining s) dataChunk * blockByteCount s ∧ t.declared = s.declared ∧
      t.declBytes = s.declBytes := by
  obtain ⟨-, -, -, hsends, hsent⟩ := exec_completed (i := .txrest) h ht (txrestBody_sat s)
  obtain ⟨-, -, -, -, -, -, hdecl, hbytes, -, -⟩ := hsends.keeps
  exact ⟨(hsent hb).1.2, hdecl, hbytes⟩

theorem exec_close_completed {s t : State} (h : exec .close s = .next t) (ht : t.fault = false) :
    (s.declared = true → s.sbytes.toNat = s.declBytes.toNat) ∧ t = { s.drewOne with closed := true } := by
  obtain ⟨-, -, hdecl, rfl⟩ := exec_completed (i := .close) h ht (closeBody_sat s)
  exact ⟨hdecl, rfl⟩

/-- Settles O52: the header, the name block and the data blocks are all that goes out between, and OUTCNT counts them. -/
theorem lengthLaw : Obligations.LengthLaw := by
  intro s s1 s2 s3 s4 hi hk hfits h1 h2 h3 h4 ht
  obtain ⟨hclosed, hs4⟩ := exec_close_completed h4 ht
  have ht3 : s3.fault = false := by rw [← ht, hs4]; rfl
  obtain ⟨ht2, -⟩ := exec_completed (i := .txrest) h3 ht3 (txrestBody_sat s2)
  obtain ⟨ht1, -⟩ := exec_completed (i := .txname) h2 ht2 (txnameBody_sat s1)
  obtain ⟨hriff, hout1, hdecl1, hbytes1, hlen1, hblock1, hmode1⟩ := exec_hdr_known hk h1 ht1
  obtain ⟨hname1, hout2, hincnt2, hlen2, hblock2, hmode2, hdecl2, hbytes2⟩ := exec_txname_completed h2 ht2
  have hbuffered : isBuffered s2 = true := by
    rw [isBuffered, hmode2, hmode1]
    exact beq_iff_eq.mpr (lengthKnown_iff.mp hk).2
  obtain ⟨hout3, hdecl3, hbytes3⟩ := exec_txrest_buffered_completed hbuffered h3 ht3
  have hi1 := exec_keeps_inv hi h1
  have hi4 := exec_keeps_inv (exec_keeps_inv (exec_keeps_inv hi1 h2) h3) h4
  have hrem : remaining s2 = s.dataLen.toNat := by
    rw [remaining, hincnt2, (hi1.unread hname1).1, hlen2, hlen1]
    rfl
  have hheader : (chunkHeader s).length = 44 := by rw [chunkHeader_eq]; rfl
  have hout4 : s4.outRev.length = s.outRev.length + 44 + dataBytes s := by
    have hout : s4.outRev = s3.outRev := by rw [hs4]; rfl
    rw [hout, hout3, hout2, hrem, hblock2, hblock1, hout1, List.length_append, List.length_reverse, hheader, dataBytes_eq]
    ring
  have hbytes : s4.declBytes = BitVec.ofNat 32 (dataBytes s) := by
    have hbytes4 : s4.declBytes = s3.declBytes := by rw [hs4]; rfl
    rw [hbytes4, hbytes3, hbytes2, hbytes1]
  have hvalue : s4.declBytes.toNat = dataBytes s := by
    rw [riffLen] at hriff
    rw [hbytes, BitVec.toNat_ofNat]
    omega
  refine ⟨hclosed (by rw [hdecl3, hdecl2, hdecl1]), by rw [hs4]; rfl, by rw [hs4]; rfl, hvalue, ?_, ?_⟩
  · rw [hi4.outcnt_eq (by omega), hi.outcnt_eq (by omega), hout4, hvalue]
  · have hfield : (chunkHeader s).drop 40 = le32 (BitVec.ofNat 32 (dataBytes s)) := by
      rw [chunkHeader_eq, declaredDataBytes, if_pos hk]
      rfl
    have hout : s1.out = s.out ++ chunkHeader s := by
      rw [State.out, hout1, List.reverse_append, List.reverse_reverse]
      rfl
    rw [hout, hbytes, ← hfield]
    exact List.drop_length_add_append _

end Sys2Proof.Machine

/-! PROOFS. RUN (44_driver.md R185): its TIMING, LEVELS and INIT, what is left of it from there, and its configuration traps (R189). -/

namespace Sys2Proof.Machine

/-! ### The two halves of RUN -/

/-- RUN up to INIT. -/
def prepareBody (s : State) : Ran := (timingBody s).andThen fun s => (levelsBody s).andThen initBody

/-- RUN from the header on. -/
def transmitBody (s : State) : Ran :=
  (hdrBody s).andThen fun s => (txnameBody s).andThen fun s => (txrestBody s).andThen closeBody

theorem mayRun_iff {s : State} : mayRun s = true ↔ s.initDone = false ∧ s.hdrDone = false ∧ s.closed = false := by
  simp [mayRun, and_assoc]

theorem runBody_eq {s : State} (h : mayRun s = true) : runBody s = (prepareBody s).andThen transmitBody := by
  unfold runBody prepareBody
  rw [if_neg (by simp [h]), andThen_assoc]
  simp only [andThen_assoc]
  rfl

/-- H of the configured rate and baud (41_modulation.md R122). -/
abbrev State.derivedHalf (s : State) : Nat := deriveHalf s.cfg.rounding s.reqRate.toNat s.baud.toNat

/-- The state after RUN's TIMING. -/
def State.timed (s : State) : State := { s with half := s.prepared.half, actRate := s.prepared.actRate, timingOk := true }

/-- A timing configuration that TIMING accepts (41_modulation.md R121). -/
structure TimingLegal (s : State) : Prop where
  baud : s.baud.toNat = 700 ∨ s.baud.toNat = s.cfg.baudAlt
  rate : s.cfg.minSampleRate ≤ s.reqRate.toNat
  half_pos : 1 ≤ s.derivedHalf
  half_le : s.derivedHalf ≤ 128

section
variable {s : State}

theorem prepareBody_timed (hi : s.initDone = false) (h : TimingLegal s) :
    prepareBody s = (levelsBody s.timed).andThen initBody := by
  rw [prepareBody, timingBody_done hi h.baud h.rate h.half_pos h.half_le, done_andThen]
  rfl

theorem prepareBody_badWidth (hi : s.initDone = false) (h : TimingLegal s) (hw : s.width.toNat ∉ [8, 16, 24, 32]) :
    prepareBody s = .raised .cfgWidth s.width.toNat s.timed := by
  have hgeometry : checkGeometry s.timed = .raised .cfgWidth s.width.toNat s.timed := checkGeometry_badWidth hw
  rw [prepareBody_timed hi h, levelsBody_open (s := s.timed) hi, hgeometry, raised_andThen, raised_andThen]

theorem prepareBody_badContainer (hi : s.initDone = false) (h : TimingLegal s) (hw : s.width.toNat ∈ [8, 16, 24, 32])
    (hc : s.container.toNat ∉ [1, 2, 3]) : prepareBody s = .raised .cfgContainer s.container.toNat s.timed := by
  have hgeometry : checkGeometry s.timed = .raised .cfgContainer s.container.toNat s.timed := checkGeometry_badContainer hw hc
  rw [prepareBody_timed hi h, levelsBody_open (s := s.timed) hi, hgeometry, raised_andThen, raised_andThen]

/-- The level words that LEVELS computes pass INIT's check, which stores them whole (41_modulation.md R126). -/
theorem prepareBody_legal (hi : s.initDone = false) (h : TimingLegal s) (hw : s.width.toNat ∈ [8, 16, 24, 32])
    (hc : s.container.toNat ∈ [1, 2, 3]) : prepareBody s = .done s.prepared := by
  obtain ⟨hlow, hhigh⟩ := setLevels_fit (s := s.timed) (widthLegal_iff_mem.mpr hw)
  have hlevels : levelsBody s.timed = .done (setLevels s.timed) := by
    rw [levelsBody_open (s := s.timed) hi, checkGeometry_legal (s := s.timed) hw hc, done_andThen]
  rw [prepareBody_timed hi h, hlevels, done_andThen, initBody_legal (s := setLevels s.timed) hi rfl hw hc, checkLevels_done hlow hhigh, done_andThen,
    fillBuffers, levelBits_eq hlow, levelBits_eq hhigh]
  rfl

theorem runBody_prepared (hm : mayRun s = true) (h : TimingLegal s) (hw : s.width.toNat ∈ [8, 16, 24, 32])
    (hc : s.container.toNat ∈ [1, 2, 3]) : runBody s = transmitBody s.prepared := by
  rw [runBody_eq hm, prepareBody_legal (mayRun_iff.mp hm).1 h hw hc, done_andThen]

theorem transmitBody_badMode (h : mayWriteHeader s = true) (hw : s.width.toNat ∈ [8, 16, 24, 32])
    (hc : s.container.toNat ∈ [1, 2, 3]) (hm : s.inputMode.toNat ∉ [1, 2]) :
    transmitBody s = .raised .cfgMode s.inputMode.toNat s := by
  rw [transmitBody, hdrBody_open h, checkGeometry_legal hw hc, done_andThen, checkMode_bad hm, raised_andThen, raised_andThen]

theorem transmitBody_tooLong (h : mayWriteHeader s = true) (hw : s.width.toNat ∈ [8, 16, 24, 32])
    (hc : s.container.toNat ∈ [1, 2, 3]) (hk : lengthKnown s = true) (hl : 0xFFFFFFFE < riffLen s) :
    transmitBody s = .raised .lengthOverflow (dataBytes s) s := by
  have hm : s.inputMode.toNat ∈ [1, 2] := by rw [(lengthKnown_iff.mp hk).2]; decide
  rw [transmitBody, hdrBody_open h, checkGeometry_legal hw hc, done_andThen, checkMode_legal hm, done_andThen, checkLength_bad hk hl,
    raised_andThen, raised_andThen]

/-- What RUN's TIMING, LEVELS and INIT can do before INIT: all three, or the first check that fails, with nothing written out or read. -/
theorem prepareBody_sat (hi : s.initDone = false) :
    (prepareBody s).Sat (fun t => (TimingLegal s ∧ s.width.toNat ∈ [8, 16, 24, 32] ∧ s.container.toNat ∈ [1, 2, 3]) ∧ t = s.prepared)
      (fun c t => c ∈ [FaultCode.cfgBaud, .cfgRate, .cfgHalfbit, .cfgWidth, .cfgContainer] ∧ (t = s ∨ t = s.timed)) := by
  by_cases hb : s.baud.toNat = 700 ∨ s.baud.toNat = s.cfg.baudAlt
  case neg => rw [prepareBody, timingBody_badBaud hi hb]; exact ⟨by decide, .inl rfl⟩
  by_cases hr : s.cfg.minSampleRate ≤ s.reqRate.toNat
  case neg => rw [prepareBody, timingBody_badRate hi hb (by omega)]; exact ⟨by decide, .inl rfl⟩
  by_cases hh : s.derivedHalf < 1 ∨ 128 < s.derivedHalf
  case pos => rw [prepareBody, timingBody_badHalf hi hb hr hh]; exact ⟨by decide, .inl rfl⟩
  have ht : TimingLegal s := ⟨hb, hr, by omega, by omega⟩
  by_cases hw : s.width.toNat ∈ [8, 16, 24, 32]
  case neg => rw [prepareBody_badWidth hi ht hw]; exact ⟨by decide, .inr rfl⟩
  by_cases hc : s.container.toNat ∈ [1, 2, 3]
  case neg => rw [prepareBody_badContainer hi ht hw hc]; exact ⟨by decide, .inr rfl⟩
  rw [prepareBody_legal hi ht hw hc]
  exact ⟨⟨ht, hw, hc⟩, rfl⟩

end

/-! ### Where a configuration fault ends it -/

/-- Nothing has gone out and nothing has been read. -/
def Untouched (s t : State) : Prop :=
  t.outRev = s.outRev ∧ t.outcnt = s.outcnt ∧ t.sbytes = s.sbytes ∧ t.incnt = s.incnt ∧ t.drawn = s.drawn

theorem Untouched.refl (s : State) : Untouched s s := ⟨rfl, rfl, rfl, rfl, rfl⟩

/-- A fault with one of the codes 1 to 8 leaves the ports as they were. -/
def ConfigEarly (s : State) (c : FaultCode) (t : State) : Prop := (codeWord c).toNat ≤ 8 → Untouched s t

theorem configEarly_of_port {s t : State} {c : FaultCode} (h : c = .sequence ∨ c = .lengthMismatch ∨ c = .ioOutput ∨ c = .ioInput) :
    ConfigEarly s c t := fun hle => by
  rcases h with rfl | rfl | rfl | rfl <;> exact absurd hle (by decide)

theorem configEarly_of_output {s t u : State} {c : FaultCode} (h : OutputFault u c) : ConfigEarly s c t :=
  configEarly_of_port (h.elim (fun h => .inr (.inr (.inl h))) (fun h => .inl h.1))

/-- From the header on, the only configuration faults are those of HDR's own checks. -/
theorem transmitBody_configEarly (s : State) : (transmitBody s).Sat (fun _ => True) (ConfigEarly s) := by
  refine (hdrBody_sat s).andThen (fun t _ => ?_) (fun c t h => ?_)
  · refine (txnameBody_sat t).andThen (fun u _ => ?_) (fun c u h => ?_)
    · refine (txrestBody_sat u).andThen (fun v _ => ?_) (fun c v h => ?_)
      · refine (closeBody_sat v).mono (fun _ _ => trivial) (fun c w h => configEarly_of_port ?_)
        rcases h with ⟨-, rfl | ⟨rfl, -⟩⟩ | ⟨-, rfl⟩ <;> simp
      · rcases h with ⟨-, rfl | ⟨rfl, -⟩⟩ | ⟨-, -, -, h | rfl, -⟩
        · exact configEarly_of_port (.inl rfl)
        · exact configEarly_of_port (.inr (.inl rfl))
        · exact configEarly_of_output h
        · exact configEarly_of_port (.inr (.inr (.inr rfl)))
    · rcases h with ⟨-, rfl | ⟨rfl, -⟩⟩ | ⟨-, -, -, -, -, h⟩
      · exact configEarly_of_port (.inl rfl)
      · exact configEarly_of_port (.inr (.inl rfl))
      · exact configEarly_of_output h
  · rcases h with ⟨rfl, -⟩ | ⟨-, -, h⟩
    · exact fun _ => .refl _
    · exact configEarly_of_output h

theorem runBody_configEarly (s : State) : (runBody s).Sat (fun _ => True) (ConfigEarly s) := by
  by_cases h : mayRun s = true
  · rw [runBody_eq h]
    refine (prepareBody_sat (mayRun_iff.mp h).1).andThen (fun t ht => ?_) (fun c t ht => ?_)
    · rw [ht.2]
      exact transmitBody_configEarly s.prepared
    · rcases ht.2 with rfl | rfl <;> exact fun _ => .refl _
  · unfold runBody
    rw [if_pos (by simpa using h)]
    exact fun _ => .refl _

theorem takeFault_records {c : FaultCode} {opc sel : Byte} {v : Nat} {u : State} (h : u.fault = false) :
    (takeFault c opc sel v u).faultCode = codeWord c := by
  unfold takeFault
  rw [if_neg (by simp [h])]

theorem exec_run_configEarly {s t : State} (hf : s.fault = false) (h : exec .run s = .next t) (ht : t.fault = true)
    (hcode : t.faultCode.toNat ≤ 8) : Untouched s t := by
  have hsat := (runBody_configEarly s).and (runBody_runs s)
  rcases exec_sat (i := .run) h hsat with ⟨hf', -⟩ | ⟨-, ⟨-, hruns⟩ | ⟨c, v, u, ⟨hearly, hruns⟩, rfl⟩⟩
  · exact absurd (hf.symm.trans hf') nofun
  · have : t.fault = s.fault := by rw [hruns.frame]
    exact absurd (ht.symm.trans (this.trans hf)) nofun
  · have hu : u.fault = false := by rw [hruns.frame]; exact hf
    rw [takeFault_records hu] at hcode
    obtain ⟨h1, h2, h3, h4, h5⟩ := hearly hcode
    rw [takeFault_frame]
    exact ⟨h1, h2, h3, h4, h5⟩

/-- Settles O50: RUN meets its checks in this order, and HDR's come before its first byte. -/
theorem configurationFaultsBeforeOutput : Obligations.ConfigurationFaultsBeforeOutput := by
  refine ⟨fun s t hf h ht _ hcode => ?early, fun s hf hi hh hc => ?order⟩
  case early =>
    obtain ⟨hrev, hrest⟩ := exec_run_configEarly hf h ht hcode
    exact ⟨by rw [State.out, hrev, State.out], hrest⟩
  case order =>
    intro h p timed
    have hmay : mayRun s = true := mayRun_iff.mpr ⟨hi, hh, hc⟩
    have hlegal (hb : s.baud.toNat = 700 ∨ s.baud.toNat = s.cfg.baudAlt) (hr : s.cfg.minSampleRate ≤ s.reqRate.toNat) (h1 : 1 ≤ h)
        (h128 : h ≤ 128) := runBody_prepared hmay ⟨hb, hr, h1, h128⟩
    have htrap {c : FaultCode} {n v : Nat} {u : State} (hp : prepareBody s = .raised c v u) (hu : u.fault = false)
        (hn : (c, n) ∈ codeNumbers) : exec .run s = .next (u.faulted n 0x60#8 0#8 v) :=
      exec_raised (i := .run) hf ((runBody_eq hmay).trans (by rw [hp, raised_andThen])) hu hn
    refine ⟨fun h1 h2 => htrap (c := .cfgBaud) ?_ hf (by decide), fun hb => ⟨fun hr => htrap (c := .cfgRate) ?_ hf (by decide),
      fun hr => ⟨fun hh => htrap (c := .cfgHalfbit) ?_ hf (by decide), fun h1 h128 => ⟨fun hw => ?_, fun hw =>
        ⟨fun hc => ?_, fun hcon hs => ⟨fun hm => ?_, fun hchunk hmode hlen => ?_⟩⟩⟩⟩⟩⟩
    · rw [prepareBody, timingBody_badBaud hi (by omega), raised_andThen]
    · rw [prepareBody, timingBody_badRate hi hb hr, raised_andThen]
    · rw [prepareBody, timingBody_badHalf hi hb hr hh, raised_andThen]
    · exact htrap (prepareBody_badWidth hi ⟨hb, hr, h1, h128⟩ hw) hf (by decide)
    · exact htrap (prepareBody_badContainer hi ⟨hb, hr, h1, h128⟩ hw hc) hf (by decide)
    · exact exec_raised (i := .run) (n := 0x06) hf ((hlegal hb hr h1 h128 hw hcon).trans
        (transmitBody_badMode (s := p) (mayWriteHeader_iff.mpr ⟨rfl, hh, hs, hc⟩) hw hcon hm)) hf (by decide)
    · exact exec_raised (i := .run) (n := 0x08) hf ((hlegal hb hr h1 h128 hw hcon).trans
        (transmitBody_tooLong (s := p) (mayWriteHeader_iff.mpr ⟨rfl, hh, hs, hc⟩) hw hcon (lengthKnown_iff.mpr ⟨hchunk, hmode⟩) hlen))
        hf (by decide)

end Sys2Proof.Machine

/-! PROOFS. From INIT on, RUN finds its sequence and its lengths right (44_driver.md R185): its header, name block and data blocks are in
order and add up to the length the header declares. -/

namespace Sys2Proof.Machine

/-- None of the faults that cannot occur within RUN (44_driver.md R185). -/
def RunFault (c : FaultCode) : Prop := c ≠ .lengthMismatch ∧ c ≠ .cfgLevel ∧ c ≠ .sequence

/-- A state of a session that RUN reaches with its INIT. -/
structure Launched (s : State) : Prop where
  inv : Inv s
  initDone : s.initDone = true
  hdrDone : s.hdrDone = false
  samples : s.samples = false
  nameDone : s.nameDone = false
  open_ : s.closed = false

/-- A state that RUN reaches with its HDR. -/
structure Headed (s : State) : Prop where
  inv : Inv s
  mayEmit : mayEmit s = true
  samples : s.samples = false
  nameDone : s.nameDone = false

/-- A state that RUN reaches with its TXNAME: what it has sent is the name block. -/
structure Named (s : State) : Prop where
  inv : Inv s
  mayEmit : mayEmit s = true
  nameDone : s.nameDone = true
  unread : s.incnt = 0#64
  counted : s.declared = true → s.sbytes.toNat = blockByteCount s

/-- A state that RUN reaches with its TXREST: what it has sent is the declared length. -/
structure Sated (s : State) : Prop where
  open_ : s.closed = false
  counted : s.declared = true → s.sbytes.toNat = s.declBytes.toNat

/-- The declared length is that of the name block and of the data blocks for all of DATA_LEN, and fits DECL_BYTES (43_container.md R162). -/
theorem Inv.declared_blocks {s : State} (hi : Inv s) (hd : s.declared = true) :
    s.declBytes.toNat = blockByteCount s + ceilDiv s.dataLen.toNat dataChunk * blockByteCount s := by
  rw [hi.declared_eq hd, dataBytes_eq, Nat.add_mul, Nat.one_mul, Nat.add_comm]

/-- What went out is what SBYTES counts, where it cannot wrap. -/
theorem Sends.sbytes_eq {s t : State} {n : Nat} (h : Sends s t) (hlen : t.outRev.length = s.outRev.length + n)
    (hfits : s.sbytes.toNat + n < 2 ^ 64) : t.sbytes.toNat = s.sbytes.toNat + n := by
  have hcounts := h.counts.1
  rw [hlen, Nat.add_sub_cancel_left] at hcounts
  exact hcounts hfits

theorem runFault_of_output {s : State} {c : FaultCode} (hc : s.closed = false) (h : OutputFault s c) : RunFault c := by
  rcases h with rfl | ⟨-, h⟩
  · exact ⟨nofun, nofun, nofun⟩
  · exact absurd (hc.symm.trans h) nofun

theorem hdrBody_launched {s : State} (h : Launched s) : (hdrBody s).Sat Headed (fun c _ => RunFault c) := by
  have hmay : mayWriteHeader s = true := mayWriteHeader_iff.mpr ⟨h.initDone, h.hdrDone, h.samples, h.open_⟩
  refine (((hdrBody_sat s).and (hdrBody_ordered h.open_ hmay)).and (hdrBody_keeps s h.inv)).mono (fun t ht => ?_) (fun c t ht => ?_)
  · obtain ⟨⟨⟨-, u, hw, -, rfl⟩, -⟩, hinv⟩ := ht
    have hu : u.initDone = true ∧ u.closed = false ∧ u.samples = false ∧ u.nameDone = false := by
      rw [hw.frame]
      exact ⟨h.initDone, h.open_, h.samples, h.nameDone⟩
    obtain ⟨hinit, hopen, hsamples, hname⟩ := hu
    have hrecorded : (recordHeader u).initDone = u.initDone ∧ (recordHeader u).closed = u.closed ∧ (recordHeader u).hdrDone = true ∧
        (recordHeader u).samples = u.samples ∧ (recordHeader u).nameDone = u.nameDone := by
      unfold recordHeader
      split <;> exact ⟨rfl, rfl, rfl, rfl, rfl⟩
    obtain ⟨e1, e2, e3, e4, e5⟩ := hrecorded
    exact ⟨hinv, by simp [mayEmit, e1, e2, e3, hinit, hopen], e4.trans hsamples, e5.trans hname⟩
  · obtain ⟨⟨hsat, hseq⟩, -⟩ := ht
    rcases hsat with ⟨-, hc⟩ | ⟨-, -, hof⟩
    · rcases hc with rfl | rfl | rfl | rfl | rfl
      · exact absurd rfl hseq
      all_goals exact ⟨nofun, nofun, nofun⟩
    · exact runFault_of_output h.open_ hof

theorem txnameBody_headed {s : State} (h : Headed s) : (txnameBody s).Sat Named (fun c _ => RunFault c) := by
  have hzero : s.sbytes.toNat = 0 := congrArg BitVec.toNat (h.inv.sbytes_zero h.samples)
  refine (((txnameBody_sat s).and (txnameBody_ordered h.mayEmit h.nameDone)).and (txnameBody_keeps s h.inv)).mono
    (fun t ht => ?_) (fun c t ht => ?_)
  · obtain ⟨⟨⟨hmay, -, -, u, ⟨hemits, hlen⟩, rfl⟩, -⟩, hinv⟩ := ht
    have hsends : Sends s u := (sends_nameBlock s).trans hemits.sends
    have hfields : u.initDone = s.initDone ∧ u.hdrDone = s.hdrDone ∧ u.closed = s.closed ∧ u.incnt = s.incnt := by
      rw [hemits.frame]
      exact ⟨rfl, rfl, rfl, rfl⟩
    obtain ⟨e1, e2, e3, e4⟩ := hfields
    obtain ⟨hi, hh, hc⟩ := mayEmit_flags hmay
    have hsize : blockByteCount u = blockByteCount s := hsends.blockByteCount
    refine ⟨hinv, by simp [mayEmit, e1, e2, e3, hi, hh, hc], rfl, e4.trans (h.inv.unread h.nameDone).1, fun hd => ?_⟩
    have hblocks := hinv.declared_blocks hd
    have hfits := u.declBytes.isLt
    have hbytes := hsends.sbytes_eq hlen (by
      have : u.declBytes.toNat = blockByteCount u + ceilDiv u.dataLen.toNat dataChunk * blockByteCount u := hblocks
      omega)
    show u.sbytes.toNat = blockByteCount u
    omega
  · obtain ⟨⟨hsat, hseq⟩, -⟩ := ht
    rcases hsat with ⟨-, rfl | ⟨rfl, hd, hlt⟩⟩ | ⟨-, -, -, -, -, hof⟩
    · exact absurd rfl hseq
    · have := h.inv.declared_blocks hd
      omega
    · exact runFault_of_output (mayEmit_flags h.mayEmit).2.2 hof

theorem txrestBody_named {s : State} (h : Named s) : (txrestBody s).Sat Sated (fun c _ => RunFault c) := by
  have hrem : remaining s = s.dataLen.toNat := by
    rw [remaining, h.unread]
    rfl
  have htotal (hd : s.declared = true) :
      s.sbytes.toNat + ceilDiv (remaining s) dataChunk * blockByteCount s = s.declBytes.toNat := by
    rw [h.counted hd, hrem, h.inv.declared_blocks hd]
  have hopen : s.closed = false := (mayEmit_flags h.mayEmit).2.2
  refine ((txrestBody_sat s).and (txrestBody_ordered h.mayEmit h.nameDone)).mono (fun t ht => ?_) (fun c t ht => ?_)
  · obtain ⟨⟨-, -, hsends, hsent⟩, -⟩ := ht
    obtain ⟨-, -, -, -, hclosed, -, hdecl, hbytes, -, -⟩ := hsends.keeps
    refine ⟨hclosed.trans hopen, fun hd => ?_⟩
    have hd' : s.declared = true := hdecl ▸ hd
    have hfits := s.declBytes.isLt
    have heq := htotal hd'
    rw [hbytes, ← heq]
    exact hsends.sbytes_eq (hsent (h.inv.buffered_of_declared hd')).1.2 (by omega)
  · obtain ⟨hsat, hseq⟩ := ht
    rcases hsat with ⟨-, rfl | ⟨rfl, hd, hlt⟩⟩ | ⟨-, -, -, hof | rfl, -⟩
    · exact absurd rfl hseq
    · have heq := htotal hd
      have hroom := h.inv.declared_room hd
      omega
    · exact runFault_of_output hopen hof
    · exact ⟨nofun, nofun, nofun⟩

theorem closeBody_sated {s : State} (h : Sated s) : (closeBody s).Sat (fun _ => True) (fun c _ => RunFault c) := by
  unfold closeBody
  rw [if_neg (by simp [h.open_]), if_neg (by rintro ⟨hd, hne⟩; exact hne (h.counted hd))]
  split
  · exact ⟨nofun, nofun, nofun⟩
  · trivial

theorem transmitBody_launched {s : State} (h : Launched s) : (transmitBody s).Sat (fun _ => True) (fun c _ => RunFault c) :=
  (hdrBody_launched h).andThen (fun _ ht => (txnameBody_headed ht).andThen (fun _ hu => (txrestBody_named hu).andThen
    (fun _ hv => closeBody_sated hv) (fun _ _ hc => hc)) (fun _ _ hc => hc)) (fun _ _ hc => hc)

/-- TIMING, LEVELS and INIT keep the invariant. -/
theorem prepareBody_keeps (s : State) : Keeps s (prepareBody s) := fun hi =>
  (timingBody_keeps s hi).andThen (fun t ht => (levelsBody_keeps t ht).andThen (fun u hu => initBody_keeps u hu) (fun _ _ hc => hc))
    (fun _ _ hc => hc)

theorem launched_prepared {s : State} (hi : Inv s) (hinit : s.initDone = false) (hc : s.closed = false) (h : TimingLegal s)
    (hw : s.width.toNat ∈ [8, 16, 24, 32]) (hcon : s.container.toNat ∈ [1, 2, 3]) : Launched s.prepared := by
  obtain ⟨hh, -, hs, hn⟩ := hi.early hinit
  have hkeeps := prepareBody_keeps s hi
  rw [prepareBody_legal hinit h hw hcon] at hkeeps
  exact ⟨hkeeps, rfl, hh, hs, hn, hc⟩

theorem runBody_runFault {s : State} (hi : Inv s) (hm : mayRun s = true) : (runBody s).Sat (fun _ => True) (fun c _ => RunFault c) := by
  obtain ⟨hinit, -, hc⟩ := mayRun_iff.mp hm
  rw [runBody_eq hm]
  refine (prepareBody_sat hinit).andThen (fun t ht => ?_) (fun c t ht => ?_)
  · obtain ⟨⟨htiming, hw, hcon⟩, rfl⟩ := ht
    exact transmitBody_launched (launched_prepared hi hinit hc htiming hw hcon)
  · have hcodes : ∀ c ∈ [FaultCode.cfgBaud, .cfgRate, .cfgHalfbit, .cfgWidth, .cfgContainer],
        c ≠ .lengthMismatch ∧ c ≠ .cfgLevel ∧ c ≠ .sequence := by decide
    exact hcodes c ht.1

theorem codeWord_runFault (c : FaultCode) : RunFault c → codeWord c ≠ 0x09#32 ∧ codeWord c ≠ 0x07#32 ∧ codeWord c ≠ 0x0E#32 := by
  unfold RunFault
  cases c <;> decide

/-- Settles O51: RUN's own blocks are the declared length, and each of its commands is in its place. -/
theorem runNeverMismatches : Obligations.RunNeverMismatches := by
  intro s t hi hf h ht
  by_cases hm : mayRun s = true
  · rcases exec_sat (i := .run) h ((runBody_runFault hi hm).and (runBody_runs s)) with
      ⟨hf', -⟩ | ⟨-, ⟨-, hruns⟩ | ⟨c, v, u, ⟨hfault, hruns⟩, rfl⟩⟩
    · exact absurd (hf.symm.trans hf') nofun
    · have hkept : t.fault = s.fault := by rw [hruns.frame]
      exact absurd (ht.symm.trans (hkept.trans hf)) nofun
    · have hu : u.fault = false := by rw [hruns.frame]; exact hf
      obtain ⟨h9, h7, h14⟩ := codeWord_runFault c hfault
      rw [takeFault_records hu]
      exact ⟨h9, h7, fun e => absurd e h14⟩
  · have hseq : s.initDone = true ∨ s.hdrDone = true ∨ s.closed = true := by
      rw [mayRun_iff] at hm
      simp only [not_and_or, Bool.not_eq_false] at hm
      exact hm
    have hexec := exec_sequence (i := .run) hf (runBody_sequence hseq)
    rw [h] at hexec
    have hcode : t.faultCode = 0x0E#32 := by
      cases hexec
      rfl
    rw [hcode]
    exact ⟨by decide, by decide, fun _ => hseq⟩

end Sys2Proof.Machine

/-! PROOFS. RUN where every access is granted (44_driver.md R185, R188). -/

namespace Sys2Proof.Machine

/-! ### The header and the name block -/

/-- The state after an HDR that wrote its header. -/
def State.headed (s : State) : State := recordHeader (s.written (headerBytes s))

/-- The state after a TXNAME that sent the name block. -/
def State.named (s : State) : State :=
  { s.modulated (framedBytes s.cfg (nameBlock s)) with blk := cellsFrom 0 (nameBlock s), nameDone := true }

/-- The samples of the name block. -/
def State.nameWave (s : State) : List Byte := bitsWave s s.pol (bitStream (framedBytes s.cfg (nameBlock s)))

/-- P after the name block. -/
def State.namePol (s : State) : Bool := polarityAfter s.pol (bitStream (framedBytes s.cfg (nameBlock s)))

theorem length_nameWave (s : State) : s.nameWave.length = blockByteCount s := length_blockWave s s.pol (length_nameBlock s)

theorem nameBlock_congr {s t : State} (hA : t.nameA = s.nameA) (hB : t.nameB = s.nameB) (hE : t.ext = s.ext) :
    nameBlock t = nameBlock s := by rw [nameBlock, nameBlock, hA, hB, hE]

theorem nameWave_congr {s t : State} (h1 : t.half = s.half) (h2 : t.highValue = s.highValue) (h3 : t.lowValue = s.lowValue)
    (h4 : t.width = s.width) (h5 : t.container = s.container) (h6 : t.cfg = s.cfg) (h7 : t.pol = s.pol)
    (h8 : nameBlock t = nameBlock s) : t.nameWave = s.nameWave := by
  rw [State.nameWave, State.nameWave, h6, h7, h8, bitsWave_congr h1 h2 h3 h4 h5 h6]

theorem namePol_congr {s t : State} (h6 : t.cfg = s.cfg) (h7 : t.pol = s.pol) (h8 : nameBlock t = nameBlock s) :
    t.namePol = s.namePol := by rw [State.namePol, State.namePol, h6, h7, h8]

section
variable {s : State}

theorem headed_eq (hd : s.declared = false) (hb : s.declBytes = 0#32) : s.headed = { s.written (headerBytes s) with
    hdrDone := true
    declared := lengthKnown s
    declBytes := if lengthKnown s then BitVec.ofNat 32 (dataBytes s) else 0#32 } := by
  unfold State.headed recordHeader
  have hknown : lengthKnown (s.written (headerBytes s)) = lengthKnown s := rfl
  rw [hknown]
  cases lengthKnown s
  · rw [if_neg Bool.false_ne_true, if_neg Bool.false_ne_true, ← hd, ← hb]
    rfl
  · rw [if_pos rfl, if_pos rfl]
    rfl

theorem named_eq : s.named = { s.emitted s.nameWave s.namePol with blk := cellsFrom 0 (nameBlock s), nameDone := true } := rfl

/-- The header and then the name block, as one output. -/
theorem headed_named_eq (hd : s.declared = false) (hb : s.declBytes = 0#32) : s.headed.named = { s with
    hostRefuses := s.hostRefuses.drop ((headerBytes s).length + blockByteCount s)
    drawn := s.drawn + ((headerBytes s).length + blockByteCount s)
    outRev := (headerBytes s ++ s.nameWave).reverse ++ s.outRev
    outcnt := s.outcnt + BitVec.ofNat 64 ((headerBytes s).length + blockByteCount s)
    sbytes := s.sbytes + BitVec.ofNat 64 (blockByteCount s)
    samples := s.samples || decide (0 < blockByteCount s)
    pol := s.namePol
    blk := cellsFrom 0 (nameBlock s)
    nameDone := true
    hdrDone := true
    declared := lengthKnown s
    declBytes := if lengthKnown s then BitVec.ofNat 32 (dataBytes s) else 0#32 } := by
  have hname : nameBlock s.headed = nameBlock s := by rw [headed_eq hd hb]; exact nameBlock_congr rfl rfl rfl
  have hpol : s.headed.namePol = s.namePol := namePol_congr (by rw [headed_eq hd hb]; rfl) (by rw [headed_eq hd hb]; rfl) hname
  have hwave : s.headed.nameWave = s.nameWave := by
    rw [headed_eq hd hb] at hname ⊢
    exact nameWave_congr rfl rfl rfl rfl rfl rfl rfl hname
  have hlen := length_nameWave s
  rw [named_eq, hwave, hpol, hname, headed_eq hd hb, ← hlen]
  generalize s.nameWave = wave
  generalize s.namePol = pol
  generalize headerBytes s = header
  unfold State.emitted State.written
  simp only [List.drop_drop, Nat.add_assoc, List.reverse_append, List.append_assoc, counter_add, not_isEmpty_eq]

theorem Launched.undeclared (h : Launched s) : s.declared = false ∧ s.declBytes = 0#32 := by
  have hd : s.declared = false := by
    cases hd : s.declared
    · rfl
    · exact absurd ((h.inv.declared_hdr hd).symm.trans h.hdrDone) nofun
  exact ⟨hd, h.inv.undeclared hd⟩

/-- The header and the name block of a launched RUN, in one equation. -/
theorem Launched.named_eq (h : Launched s) : s.headed.named = { s with
    hostRefuses := s.hostRefuses.drop ((headerBytes s).length + blockByteCount s)
    drawn := s.drawn + ((headerBytes s).length + blockByteCount s)
    outRev := (headerBytes s ++ s.nameWave).reverse ++ s.outRev
    outcnt := s.outcnt + BitVec.ofNat 64 ((headerBytes s).length + blockByteCount s)
    sbytes := BitVec.ofNat 64 (blockByteCount s)
    samples := decide (0 < blockByteCount s)
    pol := s.namePol
    blk := cellsFrom 0 (nameBlock s)
    nameDone := true
    hdrDone := true
    declared := lengthKnown s
    declBytes := if lengthKnown s then BitVec.ofNat 32 (dataBytes s) else 0#32 } := by
  obtain ⟨hd, hb⟩ := h.undeclared
  rw [headed_named_eq hd hb, h.inv.sbytes_zero h.samples, h.samples, BitVec.zero_add, Bool.false_or]

theorem Headed.emitReady (h : Headed s) (hf : s.fault = false) (ho : s.outcnt.toNat + blockByteCount s < 2 ^ 64) :
    EmitReady s (blockByteCount s) := by
  obtain ⟨hinit, hhdr, hopen⟩ := mayEmit_flags h.mayEmit
  have hzero : s.sbytes.toNat = 0 := congrArg BitVec.toNat (h.inv.sbytes_zero h.samples)
  exact ⟨hf, hinit, hhdr, hopen, fun hd => by have := h.inv.declared_blocks hd; omega, ho, by omega⟩

/-- The data blocks of a RUN have the room that its header declared. -/
theorem Named.emitReady {n : Nat} (h : Named s) (hf : s.fault = false)
    (hn : s.declared = true → n ≤ ceilDiv s.dataLen.toNat dataChunk * blockByteCount s) (ho : s.outcnt.toNat + n < 2 ^ 64)
    (hs : s.sbytes.toNat + n < 2 ^ 64) : EmitReady s n := by
  obtain ⟨hinit, hhdr, hopen⟩ := mayEmit_flags h.mayEmit
  refine ⟨hf, hinit, hhdr, hopen, fun hd => ?_, ho, hs⟩
  rw [h.counted hd, h.inv.declared_blocks hd]
  exact Nat.add_le_add_left (hn hd) _

/-- What RUN's HDR needs of a launched state. -/
structure HdrLegal (s : State) : Prop where
  width : s.width.toNat ∈ [8, 16, 24, 32]
  container : s.container.toNat ∈ [1, 2, 3]
  mode : s.inputMode.toNat ∈ [1, 2]
  length : lengthKnown s = true → riffLen s ≤ 0xFFFFFFFE

theorem Launched.hdrReady (h : Launched s) (hl : HdrLegal s) : HdrReady s :=
  ⟨mayWriteHeader_iff.mpr ⟨h.initDone, h.hdrDone, h.samples, h.open_⟩, widthLegal_iff_mem.mpr hl.width,
    containerLegal_iff_mem.mpr hl.container, modeLegal_iff_mem.mpr hl.mode, hl.length⟩

/-- HDR of a RUN, every byte granted. -/
theorem Launched.hdr_granted (h : Launched s) (hl : HdrLegal s) (hg : Granted s (headerBytes s).length)
    (ho : s.outcnt.toNat + (headerBytes s).length < 2 ^ 64) : hdrBody s = .done s.headed ∧ Headed s.headed := by
  have hdone := hdrBody_granted (h.hdrReady hl) h.open_ hg ho
  have hsat := hdrBody_launched h
  rw [hdone] at hsat
  exact ⟨hdone, hsat⟩

/-- HDR and TXNAME of a RUN, every byte granted. -/
theorem Launched.txname_granted (h : Launched s) (hl : HdrLegal s) (hf : s.fault = false)
    (hg : Granted s ((headerBytes s).length + blockByteCount s))
    (ho : s.outcnt.toNat + ((headerBytes s).length + blockByteCount s) < 2 ^ 64) :
    hdrBody s = .done s.headed ∧ txnameBody s.headed = .done s.headed.named ∧ Named s.headed.named := by
  obtain ⟨hhdr, hheaded⟩ := h.hdr_granted hl (granted_of_le hg (Nat.le_add_right _ _)) (by omega)
  obtain ⟨hd, hb⟩ := h.undeclared
  have hsize : blockByteCount s.headed = blockByteCount s := blockByteCount_congr (by rw [headed_eq hd hb]; rfl) (by rw [headed_eq hd hb]; rfl)
  have hout : s.headed.outcnt.toNat = s.outcnt.toNat + (headerBytes s).length := by
    rw [headed_eq hd hb]
    exact counter_toNat (by omega)
  have hgranted : Granted s.headed (blockByteCount s.headed) := by
    rw [hsize]
    exact granted_drop (s := s) (n := (headerBytes s).length) (by rw [headed_eq hd hb]; rfl) (by rw [headed_eq hd hb]; rfl) hg
  have hready := hheaded.emitReady (by rw [headed_eq hd hb]; exact hf) (by rw [hsize, hout]; omega)
  have hdone : txnameBody s.headed = .done s.headed.named := txnameBody_granted hheaded.inv hready hheaded.nameDone hgranted
  have hsat := txnameBody_headed hheaded
  rw [hdone] at hsat
  exact ⟨hhdr, hdone, hsat⟩

/-- The data bytes that RUN sends: in BUFFERED mode DATA_LEN of them, in STREAMING mode all there are. -/
def State.runInput (s : State) : List Byte := if s.inputMode = 1#32 then s.inBytes.take s.dataLen.toNat else s.inBytes

theorem length_runInput (hl : s.inputMode = 1#32 → s.dataLen.toNat ≤ s.inBytes.length) :
    s.runInput.length = (if s.inputMode = 1#32 then s.dataLen.toNat else s.inBytes.length) ∧ s.runInput.length ≤ s.inBytes.length ∧
      s.inBytes.take s.runInput.length = s.runInput := by
  unfold State.runInput
  split
  · next hm =>
    have hlen : (s.inBytes.take s.dataLen.toNat).length = s.dataLen.toNat := List.length_take_of_le (hl hm)
    exact ⟨hlen, hlen.trans_le (hl hm), by rw [hlen]⟩
  · exact ⟨rfl, Nat.le_refl _, List.take_length⟩

/-- The chunks of an input: as many as its blocks, all of its bytes, 253 at most in each. -/
theorem chunksOf_input {blocks : Nat} {bytes : List Byte} (hb : blocks = ceilDiv bytes.length dataChunk) :
    (chunksOf blocks bytes).length = blocks ∧ (chunksOf blocks bytes).flatten.length = bytes.length ∧
      ∀ c ∈ chunksOf blocks bytes, c.length ≤ 253 := by
  simp only [ceilDiv, dataChunk] at hb
  have hmap : chunksOf blocks bytes = (List.range blocks).map (chunkAt bytes) := chunksOf_eq_map fun k hk => by omega
  refine ⟨by rw [hmap, List.length_map, List.length_range], by rw [flatten_chunksOf, List.length_take]; omega, fun c hc => ?_⟩
  rw [hmap] at hc
  obtain ⟨k, -, rfl⟩ := List.mem_map.mp hc
  rw [length_chunkAt]
  omega

theorem length_chunksWave {chunks : List (List Byte)} (h : ∀ c ∈ chunks, c.length ≤ 253) :
    (s.chunksWave chunks).length = chunks.length * blockByteCount s := by
  rw [State.chunksWave, length_byteWave, length_framedChunks h, Nat.mul_assoc]
  rfl

/-- How far the host's answers have been drawn when the data blocks are out. -/
theorem blocksSent_port {blocks : Nat} {bytes : List Byte} (hb : blocks = ceilDiv bytes.length dataChunk) :
    (s.blocksSent (chunksOf blocks bytes)).hostRefuses = s.hostRefuses.drop (bytes.length + blocks * blockByteCount s) ∧
      (s.blocksSent (chunksOf blocks bytes)).drawn = s.drawn + (bytes.length + blocks * blockByteCount s) := by
  obtain ⟨hcount, hflat, hfits⟩ := chunksOf_input hb
  have hwave := length_chunksWave (s := s) hfits
  rw [hcount] at hwave
  generalize chunksOf blocks bytes = chunks at *
  rw [← hflat, ← hwave]
  exact ⟨rfl, rfl⟩

/-- All of a RUN's transmission, every access granted. -/
theorem Launched.transmit_granted (h : Launched s) (hl : HdrLegal s) (hf : s.fault = false) {blocks : Nat}
    (hin : s.inputMode = 1#32 → s.dataLen.toNat ≤ s.inBytes.length) (hb : blocks = ceilDiv s.runInput.length dataChunk)
    (ho : s.outcnt.toNat + ((headerBytes s).length + (blocks + 1) * blockByteCount s) + s.runInput.length < 2 ^ 64)
    (hg : Granted s ((headerBytes s).length + (blocks + 1) * blockByteCount s + s.runInput.length + 2)) :
    ∃ u t, u = s.headed.named.blocksSent (chunksOf blocks s.runInput) ∧ transmitBody s = .done t ∧
      t = { u with hostRefuses := t.hostRefuses, drawn := t.drawn, eof := decide (s.inputMode = 2#32), closed := true } := by
  have hmul : (blocks + 1) * blockByteCount s = blocks * blockByteCount s + blockByteCount s := Nat.succ_mul _ _
  obtain ⟨hhdr, hname, hnamed⟩ := h.txname_granted hl hf (granted_of_le hg (by omega)) (by omega)
  obtain ⟨hlen, hle, htake⟩ := length_runInput hin
  have heq := h.named_eq
  have hout : s.headed.named.outcnt.toNat = s.outcnt.toNat + ((headerBytes s).length + blockByteCount s) := by
    rw [heq]
    exact counter_toNat (by omega)
  have hsb : s.headed.named.sbytes.toNat = blockByteCount s := by
    rw [heq]
    exact (BitVec.toNat_ofNat _ _).trans (Nat.mod_eq_of_lt (by omega))
  have hport : s.headed.named.hostRefuses = s.hostRefuses.drop ((headerBytes s).length + blockByteCount s) ∧
      s.headed.named.drawn = s.drawn + ((headerBytes s).length + blockByteCount s) := by rw [heq]; exact ⟨rfl, rfl⟩
  have hinr : s.headed.named.inBytes = s.inBytes := by
    rw [State.inBytes, heq]
    rfl
  have hsame : s.headed.named.inputMode = s.inputMode ∧ s.headed.named.dataLen = s.dataLen ∧
      s.headed.named.eof = s.eof ∧ s.headed.named.fault = s.fault ∧ blockByteCount s.headed.named = blockByteCount s ∧
      s.headed.named.declared = lengthKnown s := by rw [heq]; exact ⟨rfl, rfl, rfl, rfl, blockByteCount_congr rfl rfl, rfl⟩
  generalize s.headed.named = r at *
  obtain ⟨hmoder, hlenr, heofr, hfr, hsizer, hdeclr⟩ := hsame
  have hready : EmitReady r (blocks * blockByteCount r) := by
    refine hnamed.emitReady (hfr.trans hf) (fun hd => ?_) (by rw [hsizer]; omega) (by rw [hsizer]; omega)
    have hmode := (lengthKnown_iff.mp (hdeclr ▸ hd)).2
    rw [hlenr, hb, hlen, if_pos hmode]
  have hj := endReads_le r
  obtain ⟨u, hu, hrest⟩ := txrestBody_completes (length := s.runInput.length) hnamed.inv hnamed.nameDone
    (heofr.trans (h.inv.unread h.nameDone).2.1) hnamed.unread (by rw [hmoder]; exact hl.mode) (by rw [hmoder, hlenr, hinr]; exact hlen)
    (by rw [hinr]; exact hle) (by omega) (by rw [← hb]; exact hready)
    (granted_drop hport.1 hport.2 (granted_of_le hg (by rw [← hb, hsizer]; omega)))
  rw [hinr, htake, ← hb] at hu
  have hsated := txrestBody_named hnamed
  rw [hrest] at hsated
  generalize hv : ({ u with
    hostRefuses := u.hostRefuses.drop r.endReads
    drawn := u.drawn + r.endReads
    eof := decide (r.inputMode = 2#32) } : State) = v at hrest hsated
  have hflush : refusesAt v 0 = false := by
    obtain ⟨hrefuses, hdrawn⟩ := blocksSent_port (s := r) hb
    rw [← hu, hsizer] at hrefuses hdrawn
    rw [refusesAt_drop (s := u) (n := r.endReads) (by rw [← hv]) (by rw [← hv]), refusesAt_drop hrefuses hdrawn,
      refusesAt_drop hport.1 hport.2]
    exact hg _ (by omega)
  refine ⟨u, { v with hostRefuses := v.hostRefuses.drop 1, drawn := v.drawn + 1, closed := true }, hu, ?_, ?_⟩
  · rw [transmitBody, hhdr, done_andThen, hname, done_andThen, hrest, done_andThen, closeBody_flush hsated.open_ hsated.counted,
      hflush, if_neg Bool.false_ne_true, drewOne_eq]
  · rw [← hv, hmoder]

/-- The bits of a RUN: the framed name block, then the framed data blocks. -/
def State.runStream (s : State) (chunks : List (List Byte)) : List Bool :=
  bitStream (framedBytes s.cfg (nameBlock s) ++ framedChunks s.cfg 0#16 chunks)

theorem runStream_wave (chunks : List (List Byte)) : bitsWave s s.pol (s.runStream chunks) =
    s.nameWave ++ bitsWave s s.namePol (bitStream (framedChunks s.cfg 0#16 chunks)) := by
  rw [State.runStream, bitStream_append, bitsWave_append]
  rfl

theorem runStream_pol (chunks : List (List Byte)) : polarityAfter s.pol (s.runStream chunks) =
    polarityAfter s.namePol (bitStream (framedChunks s.cfg 0#16 chunks)) := by
  rw [State.runStream, bitStream_append, polarityAfter_append]
  rfl

/-- The data blocks of a RUN go on where its name block stopped. -/
theorem Launched.chunksWave_eq (h : Launched s) (chunks : List (List Byte)) :
    s.headed.named.chunksWave chunks = bitsWave s s.namePol (bitStream (framedChunks s.cfg 0#16 chunks)) := by
  have heq := h.named_eq
  have hcfg : s.headed.named.cfg = s.cfg := by rw [heq]
  have hpol : s.headed.named.pol = s.namePol := by rw [heq]
  have hblkcnt : s.headed.named.blkcnt = 0#16 := by rw [heq]; exact (h.inv.unread h.nameDone).2.2
  rw [State.chunksWave, hpol, hblkcnt, bitsWave_congr (t := s.headed.named) (s := s) (by rw [heq]) (by rw [heq]) (by rw [heq]) (by rw [heq])
    (by rw [heq]) hcfg, hcfg]

/-- What a RUN that went through has put out, counted and left. -/
theorem Launched.sent (h : Launched s) {blocks : Nat} {input : List Byte} {u : State} (hb : blocks = ceilDiv input.length dataChunk)
    (hu : u = s.headed.named.blocksSent (chunksOf blocks input))
    (ho : s.outcnt.toNat + ((headerBytes s).length + (blocks + 1) * blockByteCount s) + input.length < 2 ^ 64) :
    u.out = s.out ++ headerBytes s ++ bitsWave s s.pol (s.runStream (chunksOf blocks input)) ∧
    (bitsWave s s.pol (s.runStream (chunksOf blocks input))).length = (blocks + 1) * blockByteCount s ∧
    u.pol = polarityAfter s.pol (s.runStream (chunksOf blocks input)) ∧
    u.sbytes.toNat = (blocks + 1) * blockByteCount s ∧
    u.outcnt.toNat = s.outcnt.toNat + ((headerBytes s).length + (blocks + 1) * blockByteCount s) ∧
    u.blk = lastBlock (cellsFrom 0 (nameBlock s)) 0#16 (chunksOf blocks input) ∧ u.inBytes = s.inBytes.drop input.length ∧
    u.incnt.toNat = input.length ∧ u.blkcnt = BitVec.ofNat 16 blocks := by
  have heq := h.named_eq
  have hwave := h.chunksWave_eq (chunksOf blocks input)
  obtain ⟨hcount, hflat, hfits⟩ := chunksOf_input hb
  have hlen := length_chunksWave (s := s.headed.named) hfits
  have hsize : blockByteCount s.headed.named = blockByteCount s := by rw [heq]; exact blockByteCount_congr rfl rfl
  obtain ⟨hincnt, -, hblkcnt⟩ := h.inv.unread h.nameDone
  have hinr : s.headed.named.inBytes = s.inBytes := by
    rw [State.inBytes, heq]
    rfl
  have hout : s.headed.named.out = s.out ++ headerBytes s ++ s.nameWave := by
    rw [State.out, heq, List.reverse_append, List.reverse_reverse, List.append_assoc]
    rfl
  have hcfg : s.headed.named.cfg = s.cfg := by rw [heq]
  have hpol : s.headed.named.pol = s.namePol := by rw [heq]
  have hbc : s.headed.named.blkcnt = s.blkcnt := by rw [heq]
  have hic : s.headed.named.incnt = s.incnt := by rw [heq]
  have hblk : s.headed.named.blk = cellsFrom 0 (nameBlock s) := by rw [heq]
  have hoc : s.headed.named.outcnt = s.outcnt + BitVec.ofNat 64 ((headerBytes s).length + blockByteCount s) := by rw [heq]
  have hsb : s.headed.named.sbytes = BitVec.ofNat 64 (blockByteCount s) := by rw [heq]
  have hname := length_nameWave s
  rw [hcount, hsize] at hlen
  rw [runStream_wave, runStream_pol]
  generalize s.headed.named = r at *
  have hmul : (blocks + 1) * blockByteCount s = blocks * blockByteCount s + blockByteCount s := Nat.succ_mul _ _
  rw [← hwave]
  refine ⟨?_, ?_, ?_, ?_, ?_, ?_, ?_, ?_, ?_⟩
  · rw [hu, blocksSent_out, hout, List.append_assoc, List.append_assoc, List.append_assoc]
    rfl
  · rw [List.length_append, hname, hlen]
    omega
  · rw [hu, blocksSent_pol, hcfg, hpol, hbc, hblkcnt]
  · rw [hu, blocksSent_sbytes, hsb, ← BitVec.ofNat_add, ← State.chunksWave, hlen, BitVec.toNat_ofNat]
    omega
  · rw [hu, blocksSent_outcnt, hoc, counter_add, ← State.chunksWave, hlen, counter_toNat (by omega)]
    omega
  · rw [hu]
    show lastBlock r.blk r.blkcnt _ = _
    rw [hblk, hbc, hblkcnt]
  · rw [hu, blocksSent_inBytes, hflat, hinr]
  · rw [hu, blocksSent_incnt, hflat, hic, hincnt, BitVec.zero_add, BitVec.toNat_ofNat, Nat.mod_eq_of_lt (by omega)]
  · rw [hu, blocksSent_blkcnt, hcount, hbc, hblkcnt, BitVec.zero_add]

/-- What data blocks leave of the flags and registers. -/
theorem blocksSent_kept (s : State) (chunks : List (List Byte)) :
    (s.blocksSent chunks).fault = s.fault ∧ (s.blocksSent chunks).timingOk = s.timingOk ∧
    (s.blocksSent chunks).initDone = s.initDone ∧ (s.blocksSent chunks).hdrDone = s.hdrDone ∧
    (s.blocksSent chunks).nameDone = s.nameDone ∧ (s.samples = true → (s.blocksSent chunks).samples = true) ∧
    (s.blocksSent chunks).declared = s.declared ∧ (s.blocksSent chunks).half = s.half ∧
    (s.blocksSent chunks).actRate = s.actRate ∧ (s.blocksSent chunks).lowValue = s.lowValue ∧
    (s.blocksSent chunks).highValue = s.highValue ∧ (s.blocksSent chunks).declBytes = s.declBytes :=
  ⟨rfl, rfl, rfl, rfl, rfl, fun h => Bool.or_eq_true_iff.mpr (.inl h), rfl, rfl, rfl, rfl, rfl, rfl⟩

/-- The flags and registers of a RUN that went through. -/
theorem Launched.sent_flags (h : Launched s) {chunks : List (List Byte)} {u : State} (hu : u = s.headed.named.blocksSent chunks)
    (hpos : 0 < blockByteCount s) :
    u.fault = s.fault ∧ u.timingOk = s.timingOk ∧ u.initDone = true ∧ u.hdrDone = true ∧ u.nameDone = true ∧ u.samples = true ∧
    u.declared = lengthKnown s ∧ u.half = s.half ∧ u.actRate = s.actRate ∧ u.lowValue = s.lowValue ∧ u.highValue = s.highValue ∧
    u.declBytes = if lengthKnown s then BitVec.ofNat 32 (dataBytes s) else 0#32 := by
  have heq := h.named_eq
  obtain ⟨e1, e2, e3, e4, e5, e6, e7, e8, e9, e10, e11, e12⟩ := blocksSent_kept s.headed.named chunks
  have hsamples : s.headed.named.samples = true := by rw [heq]; exact decide_eq_true hpos
  have hinit : s.headed.named.initDone = true := by rw [heq]; exact h.initDone
  rw [hu]
  exact ⟨e1.trans (by rw [heq]), e2.trans (by rw [heq]), e3.trans hinit, e4.trans (by rw [heq]), e5.trans (by rw [heq]), e6 hsamples,
    e7.trans (by rw [heq]), e8.trans (by rw [heq]), e9.trans (by rw [heq]), e10.trans (by rw [heq]), e11.trans (by rw [heq]),
    e12.trans (by rw [heq])⟩

end

/-- H of a legal timing configuration fits its register (41_modulation.md R121). -/
theorem prepared_blockByteCount {s : State} (h : TimingLegal s) :
    blockByteCount s.prepared = 295 * (8 * (2 * s.derivedHalf * (s.width.toNat / 8))) := by
  have hle := h.half_le
  have hhalf : s.prepared.half.toNat = s.derivedHalf := by
    show (BitVec.ofNat 32 s.derivedHalf).toNat = _
    rw [BitVec.toNat_ofNat]
    omega
  rw [blockByteCount, byteByteCount, bitByteCount, hhalf]
  rfl

/-- Settles O49. -/
theorem runWritesTheTransmission : Obligations.RunWritesTheTransmission := by
  intro s hi hf hinit hc p h block input blocks stream total hbaud hrate h1 h128 hw hcon hm hfits hin ho hg
  have htiming : TimingLegal s := ⟨hbaud, hrate, h1, h128⟩
  have hlaunched : Launched p := launched_prepared hi hinit hc htiming hw hcon
  have hlegal : HdrLegal p := ⟨hw, hcon, hm, hfits⟩
  have hsize : blockByteCount p = block := prepared_blockByteCount htiming
  have hhdr : s.hdrDone = false := hlaunched.hdrDone
  have hstream : stream = p.runStream (chunksOf blocks input) := rfl
  have ho' : p.outcnt.toNat + ((headerBytes p).length + (blocks + 1) * blockByteCount p) + input.length < 2 ^ 64 := by
    rw [hsize]
    exact ho
  obtain ⟨u, t, hu, hdone, ht⟩ := hlaunched.transmit_granted hlegal hf (blocks := blocks) hin rfl ho' (by rw [hsize]; exact hg)
  obtain ⟨hout, hlen, hpol, hsb, hoc, hblk, hinb, hinc, hbc⟩ := hlaunched.sent (input := input) rfl hu ho'
  have hpos : 0 < blockByteCount p := by
    have hframe : 1 ≤ s.width.toNat / 8 := by
      simp only [List.mem_cons, List.not_mem_nil, or_false] at hw
      omega
    have hbit : 0 < h * (s.width.toNat / 8) := Nat.mul_pos h1 hframe
    rw [hsize]
    show 0 < 295 * (8 * (2 * h * (s.width.toNat / 8)))
    rw [Nat.mul_assoc]
    omega
  obtain ⟨hfault, htimed, hinit', hhdr', hname, hsamples, hdecl, hhalf, hrate', hlow, hhigh, hbytes⟩ := hlaunched.sent_flags hu hpos
  have hexec : exec .run s = .next t := exec_done (i := .run) hf
    ((runBody_prepared (mayRun_iff.mpr ⟨hinit, hhdr, hc⟩) htiming hw hcon).trans hdone)
  have hknown : lengthKnown s = true → t.declBytes.toNat = (blocks + 1) * block := fun hk => by
    have hmode : s.inputMode = 1#32 := (lengthKnown_iff.mp hk).2
    have hlength : input.length = s.dataLen.toNat := (length_runInput (s := p) hin).1.trans (if_pos hmode)
    have hdata : dataBytes p = (blocks + 1) * block := by
      rw [dataBytes_eq, hsize]
      show (ceilDiv s.dataLen.toNat dataChunk + 1) * block = _
      rw [← hlength]
      rfl
    have hriff := hfits hk
    have hbytes' : u.declBytes = BitVec.ofNat 32 (dataBytes p) := hbytes.trans (if_pos hk)
    rw [riffLen] at hriff
    rw [ht, ← hdata]
    show u.declBytes.toNat = _
    rw [hbytes', BitVec.toNat_ofNat]
    omega
  rw [hsize] at hlen hsb hoc
  rw [ht] at hexec hknown
  exact ⟨_, hexec, hout, hlen, hpol, hfault.trans hf, htimed, hinit', hhdr', hname, hsamples, rfl, hdecl, rfl, hhalf, hrate', hlow, hhigh,
    hsb, hoc, hblk, hinb, hinc, hbc, hknown⟩

end Sys2Proof.Machine

/-! PROOFS. TXREST cut short, by the host or by the end of a BUFFERED input (42_framer.md R146, 20_memory.md R51, R53, 60_exceptions.md R204). -/

namespace Sys2Proof.Machine

/-! ### The fault of an access -/

/-- The number of the fault that an access raises (60_exceptions.md R200). -/
def Access.number : Access → Nat
  | .byteIn | .endOfInput => 0x0B
  | .headerByte | .sampleByte | .flush => 0x0A

theorem Access.number_mem (a : Access) : (a.fault, a.number) ∈ codeNumbers := by cases a <;> decide

/-- The fault record that an access leaves: IO_OUTPUT with OUTCNT, or IO_INPUT with INCNT. -/
def Records (s t : State) (a : Access) : Prop := t.fault = true ∧ t.closed = s.closed ∧
  (a ∈ [Access.headerByte, Access.sampleByte, Access.flush] → t.faultCode = 0x0A#32 ∧ t.faultValue = BitVec.ofNat 32 t.outcnt.toNat) ∧
  (a ∈ [Access.byteIn, Access.endOfInput] → t.faultCode = 0x0B#32 ∧ t.faultValue = BitVec.ofNat 32 t.incnt.toNat)

theorem records_faulted {s t : State} (hc : t.closed = s.closed) (a : Access) (opc sel : Byte) :
    Records s (t.faulted a.number opc sel (a.value t)) a := by
  cases a with
  | byteIn | endOfInput => exact ⟨rfl, hc, fun h => absurd h (by decide), fun _ => ⟨rfl, rfl⟩⟩
  | headerByte | sampleByte | flush => exact ⟨rfl, hc, fun _ => ⟨rfl, rfl⟩, fun h => absurd h (by decide)⟩

/-- What the n accesses before the last one did, which is no byte where it was granted. -/
structure Before (s t : State) (made : List Access) (ended : Bool) (wave : List Byte) : Prop where
  out : t.out = s.out ++ wave.take (written made)
  outcnt : t.outcnt.toNat = s.outcnt.toNat + written made
  sbytes : t.sbytes.toNat = s.sbytes.toNat + made.count Access.sampleByte
  incnt : t.incnt.toNat = s.incnt.toNat + made.count Access.byteIn
  samples : t.samples = (s.samples || decide (0 < made.count Access.sampleByte))
  eof : t.eof = (s.eof || (made.contains Access.endOfInput || ended))
  input : t.inBytes = s.inBytes.drop (made.count Access.byteIn)

/-- A raise records the fault and nothing more. -/
theorem Before.faulted {s t : State} {made : List Access} {ended : Bool} {wave : List Byte} (h : Before s t made ended wave) (n : Nat)
    (opc sel : Byte) (v : Nat) : Before s (t.faulted n opc sel v) made ended wave :=
  ⟨h.out, h.outcnt, h.sbytes, h.incnt, h.samples, h.eof, h.input⟩

theorem Cut.before {s t : State} {acc : List Access} {wave : List Byte} {pols : List Bool} {n d blocks : Nat} {blk : Memory} {a : Access}
    (h : Cut s t acc wave pols n d blocks blk) (ha : acc[n]? = some a) (hd : d = 0 ∨ d = 1 ∧ a = Access.endOfInput) :
    Before s t (acc.take n) (decide (d = 1)) wave := by
  obtain ⟨hcount, hends⟩ := take_ended ha hd
  have hwritten : written (acc.take (n + d)) = written (acc.take n) :=
    congrArg₂ (· + ·) (hcount _ (by decide)) (hcount _ (by decide))
  have ht := h.tally
  refine ⟨?_, ?_, ?_, ?_, ?_, ?_, ?_⟩
  · rw [State.out, ht.out, hwritten, List.reverse_append, List.reverse_reverse]
    rfl
  · rw [ht.outcnt, hwritten]
  · rw [ht.sbytes, hcount _ (by decide)]
  · rw [ht.incnt, hcount _ (by decide)]
  · rw [ht.samples, hcount _ (by decide)]
  · rw [ht.eof, hends]
  · rw [ht.input, hcount _ (by decide)]

/-- The last access is refused, or else it is the end of an input that falls short (`Q`), which is granted. -/
theorem exists_ending {s : State} {n : Nat} {a : Access} {Q : Prop} (hg : Granted s n) (hstop : refusesAt s n = true ∨ Q)
    (hq : Q → a = Access.endOfInput) :
    ∃ d, (d = 0 ∧ refusesAt s n = true ∨ d = 1 ∧ Q) ∧ Granted s (n + d) ∧ (d = 0 ∨ d = 1 ∧ a = Access.endOfInput) ∧
      decide (d = 1) = !refusesAt s n := by
  cases href : refusesAt s n with
  | true => exact ⟨0, .inl ⟨rfl, rfl⟩, hg, .inl rfl, rfl⟩
  | false =>
    have hlast := hstop.resolve_left (by rw [href]; exact Bool.false_ne_true)
    refine ⟨1, .inr ⟨rfl, hlast⟩, fun k hk => ?_, .inr ⟨rfl, hq hlast⟩, rfl⟩
    rcases Nat.lt_or_eq_of_le (Nat.le_of_lt_succ hk) with h | rfl
    · exact hg k h
    · exact href

/-! ### TXREST -/

section
variable {s : State}

/-- The bytes that TXREST would send. -/
def State.restInput (s : State) : List Byte := if s.inputMode = 1#32 then s.inBytes.take (remaining s) else s.inBytes

/-- The input ends before DATA_LEN. -/
abbrev State.FallsShort (s : State) : Prop := s.inputMode = 1#32 ∧ s.restInput.length < remaining s

/-- The accesses of TXREST, or those up to the end of an input that falls short. -/
def State.accessesOfRest (s : State) : List Access :=
  if s.FallsShort then s.shortAccesses s.restInput.length else s.restAccesses s.restInput.length

/-- How many blocks TXREST checks the declared length for. -/
def State.restBlocks (s : State) : Nat := ceilDiv (if s.inputMode = 1#32 then remaining s else s.restInput.length) dataChunk

/-- The chunks that TXREST would send. -/
def State.restChunks (s : State) : List (List Byte) := chunksOf (ceilDiv s.restInput.length dataChunk) s.restInput

/-- After INIT a block is not empty: H and the width are not 0. -/
theorem Inv.block_pos (hi : Inv s) (hinit : s.initDone = true) : 0 < blockByteCount s := by
  have hhalf := (hi.half_range (hi.init_timed hinit)).1
  have hwidth := widthLegal_iff_mem.mp (hi.init_geometry hinit).1
  simp only [List.mem_cons, List.not_mem_nil, or_false] at hwidth
  have hframe : 1 ≤ frameSize s := by
    unfold frameSize
    omega
  have hbit : 0 < s.half.toNat * frameSize s := Nat.mul_pos hhalf hframe
  rw [blockByteCount, byteByteCount, bitByteCount, blockByteTotal, Nat.mul_assoc 2]
  omega

theorem Inv.sendable {n m : Nat} (hi : Inv s) (hr : EmitReady s n) (hm : m ≤ n) : Sendable s m :=
  ⟨hr.open_, by have := hr.outcnt_fits; omega, by have := hr.sbytes_fits; omega, (hi.half_range (hi.init_timed hr.initDone)).2,
    (hi.init_buffers hr.initDone).1, (hi.init_buffers hr.initDone).2⟩

/-- TXREST ended by its (n+1)-th access: refused (`d` = 0), or the end of an input that falls short (`d` = 1). -/
theorem txrestBody_cut {n d : Nat} (hi : Inv s) (hn : s.nameDone = true) (he : s.eof = false)
    (hr : EmitReady s (s.restBlocks * blockByteCount s)) (hc : s.incnt.toNat + s.restInput.length < 2 ^ 64)
    (hlt : n < s.accessesOfRest.length) (hg : Granted s (n + d))
    (hd : d = 0 ∧ refusesAt s n = true ∨ d = 1 ∧ s.FallsShort ∧ n + 1 = s.accessesOfRest.length) :
    CutIn s s.accessesOfRest s.restChunks n d (txrestBody s) := by
  have hB := hi.block_pos hr.initDone
  by_cases hmode : s.inputMode = 1#32
  · have hb : isBuffered s = true := by simp [isBuffered, hmode]
    have hblocks : s.restBlocks = ceilDiv (remaining s) dataChunk := by rw [State.restBlocks, if_pos hmode]
    have hinput : s.restInput = s.inBytes.take (remaining s) := by rw [State.restInput, if_pos hmode]
    rw [hblocks] at hr
    rw [txrestBody_buffered hr hn hb]
    by_cases hshort : s.FallsShort
    · have hless : s.inBytes.length < remaining s := by
        have := hshort.2
        rw [hinput, List.length_take] at this
        omega
      have hall : s.restInput = s.inBytes := by rw [hinput, List.take_of_length_le hless.le]
      have haccesses : s.accessesOfRest = s.shortAccesses s.inBytes.length := by rw [State.accessesOfRest, if_pos hshort, hall]
      have hle : s.inBytes.length / 253 * blockByteCount s ≤ ceilDiv (remaining s) dataChunk * blockByteCount s :=
        Nat.mul_le_mul_right _ (by simp only [ceilDiv, dataChunk]; omega)
      rw [haccesses] at hlt hd ⊢
      rw [hall] at hc
      rw [State.restChunks, hall]
      exact sendBuffered_ended rfl he hless hc hB (hi.sendable hr hle) hlt hg (hd.imp id fun h => ⟨h.1, h.2.2⟩)
    · obtain ⟨rfl, href⟩ := hd.resolve_right fun h => hshort h.2.1
      have hle : remaining s ≤ s.inBytes.length := by
        have hge : ¬ s.restInput.length < remaining s := fun h => hshort ⟨hmode, h⟩
        rw [hinput, List.length_take] at hge
        omega
      have hlen : s.restInput.length = remaining s := by rw [hinput, List.length_take_of_le hle]
      have haccesses : s.accessesOfRest = s.restAccesses (remaining s) := by rw [State.accessesOfRest, if_neg hshort, hlen]
      rw [haccesses] at hlt ⊢
      rw [hlen] at hc
      rw [State.restChunks, hlen, hinput]
      exact sendBuffered_refused rfl hb he hle hc hB (hi.sendable hr (Nat.le_refl _)) hlt hg href
  · have hb : isBuffered s = false := by simp [isBuffered, hmode]
    have hshort : ¬ s.FallsShort := fun h => hmode h.1
    obtain ⟨rfl, href⟩ := hd.resolve_right fun h => hshort h.2.1
    have hinput : s.restInput = s.inBytes := by rw [State.restInput, if_neg hmode]
    have haccesses : s.accessesOfRest = s.restAccesses s.inBytes.length := by rw [State.accessesOfRest, if_neg hshort, hinput]
    rw [State.restBlocks, if_neg hmode, hinput] at hr
    rw [haccesses] at hlt ⊢
    rw [hinput] at hc
    rw [txrestBody_streaming (hr.of_le (Nat.zero_le _)) hn hb, State.restChunks, hinput]
    exact sendStreaming_refused rfl hb he hc hB (hi.sendable hr (Nat.le_refl _)) hlt hg href

/-- Neither kind of trace writes a header byte. -/
theorem headerByte_accessesOfRest (n : Nat) : (s.accessesOfRest.take n).count Access.headerByte = 0 := by
  rw [State.accessesOfRest]
  split
  · exact List.count_eq_zero.mpr fun h => headerByte_not_mem_shortAccesses _ _ (List.mem_of_mem_take h)
  · exact headerByte_restAccesses _ _ _

theorem written_accessesOfRest (n : Nat) :
    written (s.accessesOfRest.take n) = (s.accessesOfRest.take n).count Access.sampleByte := by
  rw [written, headerByte_accessesOfRest, Nat.zero_add]

/-- The last access of a trace that falls short is the end of the input. -/
theorem accessesOfRest_last {n : Nat} {a : Access} (hs : s.FallsShort) (hn : n + 1 = s.accessesOfRest.length)
    (ha : s.accessesOfRest[n]? = some a) : a = Access.endOfInput := by
  rw [State.accessesOfRest, if_pos hs] at hn ha
  have hlast := shortAccesses_last s s.restInput.length
  rw [← hn, Nat.add_sub_cancel, ha] at hlast
  exact Option.some.inj hlast

end

/-- The part of O60 about TXREST: the cut trace, and the fault record of its last access. -/
theorem exec_txrest_cut {s : State} {n : Nat} {a : Access} (hi : Inv s) (hn : s.nameDone = true) (he : s.eof = false)
    (hr : EmitReady s (s.restBlocks * blockByteCount s))
    (hc : s.incnt.toNat + s.restInput.length < 2 ^ 64) (ha : s.accessesOfRest[n]? = some a) (hg : Granted s n)
    (hstop : refusesAt s n = true ∨ s.FallsShort ∧ n + 1 = s.accessesOfRest.length) :
    ∃ t, exec .txrest s = .next t ∧ Records s t a ∧ t.faultInfo = 0x33#32 ∧
      Before s t (s.accessesOfRest.take n) (!refusesAt s n) (s.chunksWave s.restChunks) ∧
      t.blkcnt = s.blkcnt + BitVec.ofNat 16 (blocksIn s (s.accessesOfRest.take n)) ∧
      (s.pol :: s.chunksPols s.restChunks)[(s.accessesOfRest.take (n + 1)).count Access.sampleByte]? = some t.pol ∧
      t.blk = lastBlock s.blk s.blkcnt (s.restChunks.take (blocksBegun s (s.accessesOfRest.take (n + 1)))) := by
  have hlt : n < s.accessesOfRest.length := (List.getElem?_eq_some_iff.mp ha).1
  obtain ⟨d, hd, hg', hends, hflag⟩ := exists_ending hg hstop fun h => accessesOfRest_last h.1 h.2 ha
  obtain ⟨b, t, hb, hraised, hcut⟩ := txrestBody_cut hi hn he hr hc hlt hg' hd
  obtain rfl : b = a := Option.some.inj (hb.symm.trans ha)
  have hbefore := hcut.before ha hends
  rw [hflag] at hbefore
  exact ⟨_, exec_raised (i := .txrest) hr.running hraised (hcut.tally.fault.trans hr.running) b.number_mem,
    records_faulted hcut.tally.closed b _ _, rfl, hbefore.faulted b.number _ _ _, hcut.blkcnt, hcut.tally.pol, hcut.blk⟩

end Sys2Proof.Machine

/-! PROOFS. RUN cut short, access by access (44_driver.md R185, 20_memory.md R51, R53, 60_exceptions.md R204). -/

namespace Sys2Proof.Machine

section
variable {s : State}

/-! ### The registers of RUN's own commands -/

/-- What RUN has written beside the ports, P, BLK and the counters, `s` being its state after INIT: with its HDR and its TXNAME done or not. -/
def RunRecord (s t : State) (hdr name : Bool) : Prop :=
  t.half = s.half ∧ t.actRate = s.actRate ∧ t.lowValue = s.lowValue ∧ t.highValue = s.highValue ∧ t.timingOk = s.timingOk ∧
  t.initDone = s.initDone ∧ t.hdrDone = hdr ∧ t.nameDone = name ∧ t.declared = (hdr && lengthKnown s) ∧
  t.declBytes = if hdr && lengthKnown s then BitVec.ofNat 32 (dataBytes s) else 0#32

theorem RunRecord.sends {t u : State} {hdr name : Bool} (h : RunRecord s t hdr name) (hs : Sends t u) : RunRecord s u hdr name := by
  unfold RunRecord
  rw [hs.frame]
  exact h

theorem Launched.record (h : Launched s) : RunRecord s s false false := by
  obtain ⟨hd, hb⟩ := h.undeclared
  exact ⟨rfl, rfl, rfl, rfl, rfl, rfl, h.hdrDone, h.nameDone, hd, hb⟩

theorem Launched.record_writes {t : State} (h : Launched s) (hw : Writes s t) : RunRecord s t false false := by
  have hr := h.record
  unfold RunRecord at hr ⊢
  rw [hw.frame]
  exact hr

theorem Launched.record_headed (h : Launched s) : RunRecord s s.headed true false := by
  obtain ⟨hd, hb⟩ := h.undeclared
  rw [headed_eq hd hb]
  exact ⟨rfl, rfl, rfl, rfl, rfl, rfl, rfl, h.nameDone, rfl, rfl⟩

theorem Launched.record_named (h : Launched s) : RunRecord s s.headed.named true true := by
  rw [h.named_eq]
  exact ⟨rfl, rfl, rfl, rfl, rfl, rfl, rfl, rfl, rfl, rfl⟩

/-! ### The header and the name block as accesses -/

/-- P for each sample byte of the name block. -/
def State.namePols (s : State) : List Bool := polarities s s.pol (bitStream (framedBytes s.cfg (nameBlock s)))

theorem length_namePols (s : State) : s.namePols.length = blockByteCount s := by
  rw [State.namePols, length_polarities, ← length_bitsWave s s.pol, ← State.nameWave, length_nameWave]

theorem namePols_congr {s t : State} (h1 : t.half = s.half) (h4 : t.width = s.width) (h6 : t.cfg = s.cfg) (h7 : t.pol = s.pol)
    (h8 : nameBlock t = nameBlock s) : t.namePols = s.namePols := by
  rw [State.namePols, State.namePols, h6, h7, h8, polarities_congr h1 h4]

theorem runStream_pols (chunks : List (List Byte)) : polarities s s.pol (s.runStream chunks) =
    s.namePols ++ polarities s s.namePol (bitStream (framedChunks s.cfg 0#16 chunks)) := by
  rw [State.runStream, bitStream_append, polarities_append]
  rfl

/-- HDR's bytes, all of them. -/
theorem tally_header {bytes : List Byte} (ho : s.outcnt.toNat + bytes.length < 2 ^ 64) :
    Tally s (s.written bytes) (List.replicate bytes.length Access.headerByte) 0 bytes [] := by
  have hnone (b : Access) (hb : b ≠ Access.headerByte) : (List.replicate bytes.length Access.headerByte).count b = 0 := by
    rw [List.count_replicate, if_neg (by simpa using hb.symm)]
  refine ⟨?_, ?_, ?_, ?_, ?_, ?_, ?_, rfl, rfl, rfl⟩
  · rw [written_headerByte, List.take_length]
    rfl
  · rw [written_headerByte]
    exact counter_toNat ho
  · rw [hnone _ (by decide)]
    rfl
  · rw [hnone _ (by decide)]
    rfl
  · rw [hnone _ (by decide)]
    exact (Bool.or_false _).symm
  · show s.eof = _
    simp
  · rw [hnone _ (by decide)]
    rfl

/-- A name block, all of its samples. -/
theorem tally_named (ho : s.outcnt.toNat + blockByteCount s < 2 ^ 64) (hs : s.sbytes.toNat + blockByteCount s < 2 ^ 64)
    (hB : 0 < blockByteCount s) :
    Tally s s.named (List.replicate (blockByteCount s) Access.sampleByte) (blockByteCount s) s.nameWave s.namePols := by
  have hl := length_nameWave s
  have hend : (s.pol :: s.namePols)[blockByteCount s]? = some s.namePol := by
    have := polarities_end (bit_pos hB) s.pol (bitStream (framedBytes s.cfg (nameBlock s)))
    rw [← length_bitsWave s s.pol, ← State.nameWave, hl] at this
    exact this
  rw [named_eq]
  generalize s.nameWave = wave at *
  generalize s.namePol = pol at *
  refine ⟨?_, ?_, ?_, ?_, ?_, ?_, ?_, hend, rfl, rfl⟩
  · rw [written_sampleByte, ← hl, List.take_length]
    rfl
  · rw [written_sampleByte, ← hl]
    exact counter_toNat (by rw [hl]; exact ho)
  · rw [List.count_replicate_self, ← hl]
    exact counter_toNat (by rw [hl]; exact hs)
  · rw [List.count_replicate, if_neg (by decide)]
    rfl
  · rw [List.count_replicate_self, ← hl, ← not_isEmpty_eq]
    rfl
  · show s.eof = _
    simp
  · rw [List.count_replicate, if_neg (by decide)]
    rfl

theorem Launched.tally_headed (h : Launched s) (ho : s.outcnt.toNat + (headerBytes s).length < 2 ^ 64) :
    Tally s s.headed (List.replicate (headerBytes s).length Access.headerByte) 0 (headerBytes s) [] := by
  obtain ⟨hd, hb⟩ := h.undeclared
  have ht := tally_header (s := s) ho
  rw [headed_eq hd hb]
  exact ⟨ht.out, ht.outcnt, ht.sbytes, ht.incnt, ht.samples, ht.eof, ht.input, ht.pol, ht.closed, ht.fault⟩

theorem count_headerByte (n : Nat) : (List.replicate n Access.headerByte).count Access.sampleByte = 0 := by
  rw [List.count_replicate, if_neg (by decide)]

/-- What RUN's TXNAME finds of the name block and the sizes, after its HDR. -/
theorem Launched.headed_same (h : Launched s) : blockByteCount s.headed = blockByteCount s ∧ nameBlock s.headed = nameBlock s ∧
    s.headed.nameWave = s.nameWave ∧ s.headed.namePols = s.namePols ∧ s.headed.blkcnt = s.blkcnt ∧ s.headed.sbytes = s.sbytes ∧
    s.headed.outcnt = s.outcnt + BitVec.ofNat 64 (headerBytes s).length := by
  obtain ⟨hd, hb⟩ := h.undeclared
  have heq := headed_eq hd hb
  have hhalf : s.headed.half = s.half := by rw [heq]; rfl
  have hwidth : s.headed.width = s.width := by rw [heq]; rfl
  have hcfg : s.headed.cfg = s.cfg := by rw [heq]; rfl
  have hpol : s.headed.pol = s.pol := by rw [heq]; rfl
  have hname : nameBlock s.headed = nameBlock s := nameBlock_congr (by rw [heq]; rfl) (by rw [heq]; rfl) (by rw [heq]; rfl)
  exact ⟨blockByteCount_congr hhalf hwidth, hname,
    nameWave_congr hhalf (by rw [heq]; rfl) (by rw [heq]; rfl) hwidth (by rw [heq]; rfl) hcfg hpol hname,
    namePols_congr hhalf hwidth hcfg hpol hname, by rw [heq]; rfl, by rw [heq]; rfl, by rw [heq]; rfl⟩

/-- The header and the name block, all of their bytes. -/
theorem Launched.tally_named (h : Launched s) (ho : s.outcnt.toNat + ((headerBytes s).length + blockByteCount s) < 2 ^ 64) :
    Tally s s.headed.named (List.replicate (headerBytes s).length Access.headerByte ++ List.replicate (blockByteCount s) Access.sampleByte)
      (blockByteCount s) (headerBytes s ++ s.nameWave) s.namePols := by
  obtain ⟨hsize, -, hwave, hpols, -, hsb, hoc⟩ := h.headed_same
  have hB : 0 < blockByteCount s := h.inv.block_pos h.initDone
  have hzero : s.sbytes = 0#64 := h.inv.sbytes_zero h.samples
  have hout : s.headed.outcnt.toNat = s.outcnt.toNat + (headerBytes s).length := by rw [hoc, counter_toNat (by omega)]
  have hname := Machine.tally_named (s := s.headed) (by rw [hsize, hout]; omega)
    (by rw [hsize, hsb, hzero]; show 0 + blockByteCount s < _; omega) (by rw [hsize]; exact hB)
  rw [hsize, hwave, hpols] at hname
  have hheader := h.tally_headed (by omega)
  have hnone := count_headerByte (headerBytes s).length
  have hboth := Tally.trans (as := List.replicate (headerBytes s).length Access.headerByte) (v := headerBytes s) (p := [])
    (by rw [hnone]; exact hheader) (written_headerByte _).symm hnone.symm hname
  rw [hnone, Nat.zero_add, List.nil_append] at hboth
  exact hboth

/-! ### Where RUN is cut -/

/-- A piece of pseudocode that is cut, and what holds of the state it leaves. -/
theorem CutAt.ending {acc : List Access} {wave : List Byte} {pols : List Bool} {n d blocks : Nat} {blk : Memory} {r : Ran}
    {P Q : State → Prop} {a : Access} (h : CutAt s acc wave pols n d blocks blk r) (hq : r.Sat P (fun _ => Q)) (ha : acc[n]? = some a) :
    ∃ t, r = .raised a.fault (a.value t) t ∧ Cut s t acc wave pols n d blocks blk ∧ Q t := by
  obtain ⟨b, t, hb, rfl, hcut⟩ := h
  obtain rfl : b = a := Option.some.inj (hb.symm.trans ha)
  exact ⟨t, rfl, hcut, hq⟩

/-- RUN's transmission ends at access `a`, the (n+1)-th of `acc`. -/
def RunCut (s : State) (acc : List Access) (wave : List Byte) (pols : List Bool) (n d blocks : Nat) (blk : Memory) (hdr name : Bool)
    (a : Access) : Prop :=
  ∃ t, transmitBody s = .raised a.fault (a.value t) t ∧ Cut s t acc wave pols n d blocks blk ∧ RunRecord s t hdr name

theorem txnameBody_ends (s : State) : (txnameBody s).Sat (fun _ => True) (fun _ => Sends s) :=
  (txnameBody_sat s).mono (fun _ _ => trivial) (fun c t h => by
    rcases h with ⟨rfl, -⟩ | ⟨-, -, -, h⟩
    · exact Sends.refl _
    · exact (sends_nameBlock s).trans h.1.sends)

theorem closeBody_ends (s : State) : (closeBody s).Sat (fun _ => True) (fun _ => Sends s) :=
  (closeBody_sat s).mono (fun _ _ => trivial) (fun c t h => by
    rcases h with ⟨rfl, -⟩ | ⟨rfl, -⟩
    · exact Sends.refl _
    · exact (emits_drewOne s).sends)

/-- Cut in the header. -/
theorem Launched.cut_header (h : Launched s) (hl : HdrLegal s) {n : Nat} {a : Access} {rest : List Access} {w : List Byte} {pols : List Bool}
    (hn : n < (headerBytes s).length) (hg : Granted s n) (hr : refusesAt s n = true) (ho : s.outcnt.toNat + n < 2 ^ 64)
    (ha : (List.replicate (headerBytes s).length Access.headerByte ++ rest)[n]? = some a) :
    RunCut s (List.replicate (headerBytes s).length Access.headerByte ++ rest) (headerBytes s ++ w) pols n 0 0 s.blk false false a := by
  have hlt : n < (List.replicate (headerBytes s).length Access.headerByte).length := by rw [List.length_replicate]; exact hn
  have hcut := (cutAt_header h.open_ hn hg hr ho).extend (bs := rest) (w := w) (p' := pols) hlt (written_headerByte _).symm
  have hsat : (outWriteAll (headerBytes s) s).Sat (fun _ => True) (fun _ t => RunRecord s t false false) :=
    (outWriteAll_sat _ s).mono (fun _ _ => trivial) (fun c t ht => h.record_writes ht.1)
  obtain ⟨t, hraised, hcut, hrecord⟩ := hcut.ending hsat ha
  refine ⟨t, ?_, hcut, hrecord⟩
  rw [transmitBody, hdrBody_ready (h.hdrReady hl), hraised]
  rfl

/-- Cut in the name block. -/
theorem Launched.cut_name (h : Launched s) (hl : HdrLegal s) (hf : s.fault = false) {n : Nat} {a : Access} {rest : List Access}
    {w : List Byte} {pols : List Bool} (hle : (headerBytes s).length ≤ n) (hlt : n < (headerBytes s).length + blockByteCount s)
    (hg : Granted s n) (hr : refusesAt s n = true) (ho : s.outcnt.toNat + ((headerBytes s).length + blockByteCount s) < 2 ^ 64)
    (ha : (List.replicate (headerBytes s).length Access.headerByte ++
      (List.replicate (blockByteCount s) Access.sampleByte ++ rest))[n]? = some a) :
    RunCut s (List.replicate (headerBytes s).length Access.headerByte ++ (List.replicate (blockByteCount s) Access.sampleByte ++ rest))
      (headerBytes s ++ (s.nameWave ++ w)) (s.namePols ++ pols) n 0 0 (cellsFrom 0 (nameBlock s)) true false a := by
  obtain ⟨k, rfl⟩ : ∃ k, n = (headerBytes s).length + k := ⟨n - (headerBytes s).length, by omega⟩
  have hk : k < blockByteCount s := by omega
  obtain ⟨hhdr, hheaded⟩ := h.hdr_granted hl (granted_of_le hg (Nat.le_add_right _ _)) (by omega)
  obtain ⟨hsize, hname, hwave, hpols, hblkcnt, hsb, hoc⟩ := h.headed_same
  obtain ⟨hd, hb⟩ := h.undeclared
  have heq := headed_eq hd hb
  have hport : s.headed.hostRefuses = s.hostRefuses.drop (headerBytes s).length ∧
      s.headed.drawn = s.drawn + (headerBytes s).length := by rw [heq]; exact ⟨rfl, rfl⟩
  have hfault : s.headed.fault = false := by rw [heq]; exact hf
  have hout : s.headed.outcnt.toNat = s.outcnt.toNat + (headerBytes s).length := by rw [hoc, counter_toNat (by omega)]
  have hzero : s.headed.sbytes.toNat = 0 := by rw [hsb, h.inv.sbytes_zero h.samples]; rfl
  have hready := hheaded.emitReady hfault (by rw [hsize, hout]; omega)
  have hstop : Stopping s.headed k := hheaded.inv.stopping hready (by rw [hsize]; exact hk) (granted_drop hport.1 hport.2 hg)
    (by rw [refusesAt_drop hport.1 hport.2]; exact hr)
  have hnone := count_headerByte (headerBytes s).length
  have hlen := length_nameWave s
  have hstops : StopsAt (setBlock (nameBlock s.headed) s.headed) s.nameWave s.namePols k (txnameBody s.headed) := by
    rw [← hwave, ← hpols]
    exact txnameBody_refused hready hheaded.nameDone hstop (by rw [hsize]; exact hk)
  have hcut := (hstops.cutAt (by rw [hlen]; exact hk) (by rw [hout]; omega) (by omega)).extend (bs := rest) (w := w) (p' := pols)
    (by rw [List.length_replicate, hlen]; exact hk) (by rw [written_sampleByte])
  rw [hlen, hname] at hcut
  have hall := CutAt.right (as := List.replicate (headerBytes s).length Access.headerByte) (v := headerBytes s) (p := []) (k := 0)
    (n := (headerBytes s).length + k) (by rw [hnone]; exact h.tally_headed (by omega)) (written_headerByte _).symm hnone.symm
    (by rw [hblkcnt]; exact (BitVec.add_zero _).symm) (by rw [List.length_replicate]; exact hle)
    (by rw [List.length_replicate, Nat.add_sub_cancel_left]; exact hcut)
  have hsat := (txnameBody_ends s.headed).mono (fun _ h => h) (fun c t ht => h.record_headed.sends ht)
  obtain ⟨t, hraised, hcut, hrecord⟩ := hall.ending hsat ha
  refine ⟨t, ?_, hcut, hrecord⟩
  rw [transmitBody, hhdr, done_andThen, hraised]
  rfl

/-! ### The data blocks as accesses -/

theorem written_restAccesses (s : State) (left : Nat) :
    written (s.restAccesses left) = ceilDiv left dataChunk * blockByteCount s := by
  have hnone := headerByte_restAccesses s left (s.restAccesses left).length
  rw [List.take_length] at hnone
  rw [written, hnone, Nat.zero_add, (count_restAccesses s left).1]

/-- A TXREST that went through, all of its accesses: `t` is `s` after the blocks, and after the end of the input in STREAMING mode. -/
theorem tally_rest {t : State} {blocks : Nat} {bytes : List Byte} (hb : blocks = ceilDiv bytes.length dataChunk)
    (hB : 0 < blockByteCount s) (he : s.eof = false) (ho : s.outcnt.toNat + blocks * blockByteCount s < 2 ^ 64)
    (hs : s.sbytes.toNat + blocks * blockByteCount s < 2 ^ 64) (hc : s.incnt.toNat + bytes.length < 2 ^ 64)
    (ht : ∃ u, u = s.blocksSent (chunksOf blocks bytes) ∧
      t = { u with hostRefuses := t.hostRefuses, drawn := t.drawn, eof := !isBuffered s }) :
    Tally s t (s.restAccesses bytes.length) ((s.restAccesses bytes.length).count Access.sampleByte)
      (s.chunksWave (chunksOf blocks bytes)) (s.chunksPols (chunksOf blocks bytes)) := by
  obtain ⟨hcount, hflat, hfits⟩ := chunksOf_input hb
  obtain ⟨hsample, hbyte, -⟩ := count_restAccesses s bytes.length
  have hwritten := written_restAccesses s bytes.length
  have hends := contains_restAccesses s bytes.length
  have hlen := length_chunksWave (s := s) hfits
  rw [hcount] at hlen
  have hend : (s.pol :: s.chunksPols (chunksOf blocks bytes))[blocks * blockByteCount s]? =
      some (polarityAfter s.pol (bitStream (framedChunks s.cfg s.blkcnt (chunksOf blocks bytes)))) := by
    have := polarities_end (bit_pos hB) s.pol (bitStream (framedChunks s.cfg s.blkcnt (chunksOf blocks bytes)))
    rw [← length_bitsWave s s.pol, ← State.chunksWave, hlen] at this
    exact this
  rw [← hb] at hsample hwritten
  obtain ⟨u, hu, ht⟩ := ht
  have hout : u.outRev = (s.chunksWave (chunksOf blocks bytes)).reverse ++ s.outRev := by rw [hu]; rfl
  have hsamples : u.samples = (s.samples || !(s.chunksWave (chunksOf blocks bytes)).isEmpty) := by rw [hu]; rfl
  have hoc := blocksSent_outcnt s (chunksOf blocks bytes)
  have hsb := blocksSent_sbytes s (chunksOf blocks bytes)
  have hic := blocksSent_incnt (s := s) (chunksOf blocks bytes)
  have hin := blocksSent_inBytes (s := s) (chunksOf blocks bytes)
  have hpol := blocksSent_pol s (chunksOf blocks bytes)
  have hclosed : u.closed = s.closed := by rw [hu]; rfl
  have hfault : u.fault = s.fault := by rw [hu]; rfl
  rw [← hu] at hoc hsb hic hin hpol
  rw [← State.chunksWave, hlen] at hoc hsb
  rw [ht]
  refine ⟨?_, ?_, ?_, ?_, ?_, ?_, ?_, ?_, hclosed, hfault⟩
  · rw [hwritten, ← hlen, List.take_length]
    exact hout
  · rw [hwritten]
    exact (congrArg BitVec.toNat hoc).trans (counter_toNat ho)
  · rw [hsample]
    exact (congrArg BitVec.toNat hsb).trans (counter_toNat hs)
  · rw [hbyte, ← hflat]
    exact (congrArg BitVec.toNat hic).trans (counter_toNat (by rw [hflat]; exact hc))
  · rw [hsample, ← hlen, ← not_isEmpty_eq]
    exact hsamples
  · rw [hends, he]
    rfl
  · rw [hbyte, ← hflat]
    exact hin
  · rw [hsample, hend]
    exact congrArg some hpol.symm

/-- What RUN's TXREST finds of the input, the sizes and the ports, after its HDR and its TXNAME. -/
structure NamedSame (s r : State) : Prop where
  input : r.restInput = s.runInput
  inBytes : r.inBytes = s.inBytes
  mode : r.inputMode = s.inputMode
  left : remaining r = s.dataLen.toNat
  size : blockByteCount r = blockByteCount s
  half : r.half = s.half
  width : r.width = s.width
  eof : r.eof = false
  fault : r.fault = s.fault
  incnt : r.incnt = 0#64
  blkcnt : r.blkcnt = 0#16
  blk : r.blk = cellsFrom 0 (nameBlock s)
  outcnt : r.outcnt = s.outcnt + BitVec.ofNat 64 ((headerBytes s).length + blockByteCount s)
  sbytes : r.sbytes = BitVec.ofNat 64 (blockByteCount s)
  refuses : r.hostRefuses = s.hostRefuses.drop ((headerBytes s).length + blockByteCount s)
  drawn : r.drawn = s.drawn + ((headerBytes s).length + blockByteCount s)

theorem Launched.named_same (h : Launched s) : NamedSame s s.headed.named := by
  have heq := h.named_eq
  obtain ⟨hincnt, heof, hblkcnt⟩ := h.inv.unread h.nameDone
  have hmode : s.headed.named.inputMode = s.inputMode := by rw [heq]
  have hbytes : s.headed.named.inBytes = s.inBytes := by
    rw [State.inBytes, heq]
    rfl
  have hleft : remaining s.headed.named = s.dataLen.toNat := by
    have hlen : s.headed.named.dataLen = s.dataLen := by rw [heq]
    have hread : s.headed.named.incnt = 0#64 := by rw [heq]; exact hincnt
    rw [remaining, hlen, hread]
    rfl
  have hhalf : s.headed.named.half = s.half := by rw [heq]
  have hwidth : s.headed.named.width = s.width := by rw [heq]
  exact ⟨by rw [State.restInput, hmode, hbytes, hleft, State.runInput], hbytes, hmode, hleft, blockByteCount_congr hhalf hwidth, hhalf, hwidth,
    by rw [heq]; exact heof, by rw [heq], by rw [heq]; exact hincnt, by rw [heq]; exact hblkcnt, by rw [heq], by rw [heq], by rw [heq],
    by rw [heq], by rw [heq]⟩

/-- The input of a RUN falls short of DATA_LEN. -/
abbrev State.RunsShort (s : State) : Prop := s.inputMode = 1#32 ∧ s.runInput.length < s.dataLen.toNat

/-- How many data blocks a RUN checks the declared length for. -/
def State.runBlocks (s : State) : Nat := ceilDiv (if s.inputMode = 1#32 then s.dataLen.toNat else s.runInput.length) dataChunk

/-- The accesses of RUN's TXREST, or those up to the end of an input that falls short. -/
def State.accessesOfRun (s : State) : List Access :=
  if s.RunsShort then s.shortAccesses s.runInput.length else s.restAccesses s.runInput.length

/-- The chunks that a RUN would send. -/
def State.runChunks (s : State) : List (List Byte) := chunksOf (ceilDiv s.runInput.length dataChunk) s.runInput

theorem shortAccesses_congr {s t : State} (h1 : t.half = s.half) (h2 : t.width = s.width) (there : Nat) :
    t.shortAccesses there = s.shortAccesses there := by
  simp only [State.shortAccesses, State.blockAccesses, blockByteCount_congr h1 h2]

theorem NamedSame.accesses {r : State} (h : NamedSame s r) : (r.FallsShort ↔ s.RunsShort) ∧ r.accessesOfRest = s.accessesOfRun ∧
    r.restBlocks = s.runBlocks ∧ r.restChunks = s.runChunks := by
  have hshort : r.FallsShort ↔ s.RunsShort := by rw [State.FallsShort, State.RunsShort, h.mode, h.input, h.left]
  refine ⟨hshort, ?_, ?_, ?_⟩
  · unfold State.accessesOfRest State.accessesOfRun
    by_cases hs : s.RunsShort
    · rw [if_pos (hshort.mpr hs), if_pos hs, h.input, shortAccesses_congr h.half h.width]
    · rw [if_neg (mt hshort.mp hs), if_neg hs, h.input, restAccesses_congr h.half h.width h.mode]
  · rw [State.restBlocks, State.runBlocks, h.mode, h.left, h.input]
  · rw [State.restChunks, State.runChunks, h.input]

theorem Launched.rest_ready (h : Launched s) (hn : Named s.headed.named) (hf : s.fault = false)
    (ho : s.outcnt.toNat + ((headerBytes s).length + (s.runBlocks + 1) * blockByteCount s) + s.runInput.length < 2 ^ 64) :
    EmitReady s.headed.named (s.headed.named.restBlocks * blockByteCount s.headed.named) := by
  have hsame := h.named_same
  have hdecl : s.headed.named.declared = lengthKnown s := by rw [h.named_eq]
  obtain ⟨-, -, hblocks, -⟩ := hsame.accesses
  have hmul : (s.runBlocks + 1) * blockByteCount s = s.runBlocks * blockByteCount s + blockByteCount s := Nat.succ_mul _ _
  have hlen : s.headed.named.dataLen = s.dataLen := by rw [h.named_eq]
  rw [hblocks, hsame.size]
  refine hn.emitReady (hsame.fault.trans hf) (fun hd => ?_) ?_ ?_
  · have hmode := (lengthKnown_iff.mp (hdecl ▸ hd)).2
    rw [hlen, hsame.size, State.runBlocks, if_pos hmode]
  · rw [hsame.outcnt, counter_toNat (by omega)]
    omega
  · rw [hsame.sbytes, BitVec.toNat_ofNat]
    omega

theorem Launched.chunksPols_eq (h : Launched s) (chunks : List (List Byte)) :
    s.headed.named.chunksPols chunks = polarities s s.namePol (bitStream (framedChunks s.cfg 0#16 chunks)) := by
  have hsame := h.named_same
  have hcfg : s.headed.named.cfg = s.cfg := by rw [h.named_eq]
  have hpol : s.headed.named.pol = s.namePol := by rw [h.named_eq]
  rw [State.chunksPols, hpol, hsame.blkcnt, polarities_congr hsame.half hsame.width, hcfg]

/-- What is cut after the name block is cut that much later in RUN. -/
theorem Launched.after_name (h : Launched s) (ho : s.outcnt.toNat + ((headerBytes s).length + blockByteCount s) < 2 ^ 64)
    {k d blocks : Nat} {acc : List Access} {cs : List (List Byte)} {blk : Memory} {r : Ran}
    (hc : CutAt s.headed.named acc (s.headed.named.chunksWave cs) (s.headed.named.chunksPols cs) k d blocks blk r) :
    CutAt s (s.runAccesses acc) (headerBytes s ++ bitsWave s s.pol (s.runStream cs)) (polarities s s.pol (s.runStream cs))
      ((headerBytes s).length + blockByteCount s + k) d blocks blk r := by
  have hsame := h.named_same
  have hlen : (List.replicate (headerBytes s).length Access.headerByte ++
      List.replicate (blockByteCount s) Access.sampleByte).length = (headerBytes s).length + blockByteCount s := by
    rw [List.length_append, List.length_replicate, List.length_replicate]
  have hcount : (List.replicate (headerBytes s).length Access.headerByte ++
      List.replicate (blockByteCount s) Access.sampleByte).count Access.sampleByte = blockByteCount s := by
    rw [List.count_append, count_headerByte, List.count_replicate_self, Nat.zero_add]
  have hwritten : (headerBytes s ++ s.nameWave).length = written (List.replicate (headerBytes s).length Access.headerByte ++
      List.replicate (blockByteCount s) Access.sampleByte) := by
    rw [written_append, written_headerByte, written_sampleByte, List.length_append, length_nameWave]
  have hblkcnt : s.headed.named.blkcnt = s.blkcnt + BitVec.ofNat 16 0 := by
    rw [hsame.blkcnt, (h.inv.unread h.nameDone).2.2]
    rfl
  have hall := CutAt.right (as := List.replicate (headerBytes s).length Access.headerByte ++
      List.replicate (blockByteCount s) Access.sampleByte) (n := (headerBytes s).length + blockByteCount s + k) (k := 0)
    (by rw [hcount]; exact h.tally_named ho) hwritten ((length_namePols s).trans hcount.symm) hblkcnt
    (by rw [hlen]; exact Nat.le_add_right _ k) (by rw [hlen, Nat.add_sub_cancel_left]; exact hc)
  rw [Nat.zero_add, h.chunksWave_eq, h.chunksPols_eq, List.append_assoc, List.append_assoc, ← runStream_wave, ← runStream_pols] at hall
  exact hall

/-- Cut in the data blocks. -/
theorem Launched.cut_rest (h : Launched s) (hl : HdrLegal s) (hf : s.fault = false) {k d : Nat} {a : Access} {bs : List Access}
    (hlt : k < s.accessesOfRun.length) (hbs : bs = [] ∨ ¬ s.RunsShort)
    (ho : s.outcnt.toNat + ((headerBytes s).length + (s.runBlocks + 1) * blockByteCount s) + s.runInput.length < 2 ^ 64)
    (hg : Granted s ((headerBytes s).length + blockByteCount s + k + d))
    (hd : d = 0 ∧ refusesAt s ((headerBytes s).length + blockByteCount s + k) = true ∨
      d = 1 ∧ s.RunsShort ∧ k + 1 = s.accessesOfRun.length)
    (ha : (s.runAccesses (s.accessesOfRun ++ bs))[(headerBytes s).length + blockByteCount s + k]? = some a) :
    RunCut s (s.runAccesses (s.accessesOfRun ++ bs)) (headerBytes s ++ bitsWave s s.pol (s.runStream s.runChunks))
      (polarities s s.pol (s.runStream s.runChunks)) ((headerBytes s).length + blockByteCount s + k) d
      (blocksIn s (s.accessesOfRun.take k))
      (lastBlock (cellsFrom 0 (nameBlock s)) 0#16 (s.runChunks.take (blocksBegun s (s.accessesOfRun.take (k + 1))))) true true a := by
  have hmul : (s.runBlocks + 1) * blockByteCount s = s.runBlocks * blockByteCount s + blockByteCount s := Nat.succ_mul _ _
  obtain ⟨hhdr, hname, hnamed⟩ := h.txname_granted hl hf (granted_of_le hg (by omega)) (by omega)
  have hsame := h.named_same
  obtain ⟨hshort, haccesses, hblocks, hchunks⟩ := hsame.accesses
  have hrefuses := refusesAt_drop hsame.refuses hsame.drawn k
  have hcut := txrestBody_cut (n := k) (d := d) hnamed.inv hnamed.nameDone hsame.eof (h.rest_ready hnamed hf ho)
    (by rw [hsame.incnt, hsame.input]; show 0 + _ < _; omega) (by rw [haccesses]; exact hlt)
    (granted_drop hsame.refuses hsame.drawn (by rw [← Nat.add_assoc]; exact hg)) (by rw [hrefuses, haccesses, hshort]; exact hd)
  rw [CutIn, haccesses, hchunks, blocksIn, blocksBegun, hsame.size, hsame.blk, hsame.blkcnt, ← blocksIn, ← blocksBegun] at hcut
  generalize blocksIn s (s.accessesOfRun.take k) = blocks at hcut ⊢
  generalize lastBlock (cellsFrom 0 (nameBlock s)) 0#16 (s.runChunks.take (blocksBegun s (s.accessesOfRun.take (k + 1)))) = blk at hcut ⊢
  have hcut' : CutAt s.headed.named (s.accessesOfRun ++ bs) (s.headed.named.chunksWave s.runChunks) (s.headed.named.chunksPols s.runChunks)
      k d blocks blk (txrestBody s.headed.named) := by
    rcases hbs with rfl | hlong
    · rw [List.append_nil]
      exact hcut
    · have hwritten : (s.headed.named.chunksWave s.runChunks).length = written s.accessesOfRun := by
        obtain ⟨hcount, -, hfits⟩ := chunksOf_input (bytes := s.runInput) rfl
        rw [State.accessesOfRun, if_neg hlong, written_restAccesses, State.runChunks, length_chunksWave hfits, hcount, hsame.size]
      have hext := hcut.extend (bs := bs) (w := []) (p' := []) hlt hwritten
      rw [List.append_nil, List.append_nil] at hext
      exact hext
  have hsat := (txrestBody_sends s.headed.named).mono (fun _ h => h) (fun c t ht => h.record_named.sends ht)
  obtain ⟨t, hraised, hcut, hrecord⟩ := (h.after_name (by omega) hcut').ending hsat ha
  refine ⟨t, ?_, hcut, hrecord⟩
  rw [transmitBody, hhdr, done_andThen, hname, done_andThen, hraised]
  rfl

/-- Where the input of a RUN does not fall short, its data blocks are those of the input. -/
theorem length_runInput_long (hlong : ¬ s.RunsShort) :
    s.runInput.length = (if s.inputMode = 1#32 then s.dataLen.toNat else s.inBytes.length) ∧ s.runInput.length ≤ s.inBytes.length ∧
      s.inBytes.take s.runInput.length = s.runInput ∧ s.runBlocks = ceilDiv s.runInput.length dataChunk ∧
      s.accessesOfRun = s.restAccesses s.runInput.length := by
  have hin : s.inputMode = 1#32 → s.dataLen.toNat ≤ s.inBytes.length := fun hm => by
    have hge : ¬ s.runInput.length < s.dataLen.toNat := fun h => hlong ⟨hm, h⟩
    rw [State.runInput, if_pos hm, List.length_take] at hge
    omega
  obtain ⟨hlen, hle, htake⟩ := length_runInput hin
  refine ⟨hlen, hle, htake, ?_, by rw [State.accessesOfRun, if_neg hlong]⟩
  rw [State.runBlocks]
  split
  · next hm => rw [hlen, if_pos hm]
  · rfl

/-- The data blocks of a RUN, all of their accesses granted. -/
theorem Launched.rest_done (h : Launched s) (hl : HdrLegal s) (hn : Named s.headed.named) (hf : s.fault = false) (hlong : ¬ s.RunsShort)
    (ho : s.outcnt.toNat + ((headerBytes s).length + (s.runBlocks + 1) * blockByteCount s) + s.runInput.length < 2 ^ 64)
    (hg : Granted s ((headerBytes s).length + blockByteCount s + s.accessesOfRun.length)) :
    ∃ v, txrestBody s.headed.named = .done v ∧
      Tally s.headed.named v s.accessesOfRun (s.accessesOfRun.count Access.sampleByte) (s.headed.named.chunksWave s.runChunks)
        (s.headed.named.chunksPols s.runChunks) ∧
      v.blkcnt = s.headed.named.blkcnt + BitVec.ofNat 16 s.runBlocks ∧
      v.blk = lastBlock (cellsFrom 0 (nameBlock s)) 0#16 s.runChunks ∧
      refusesAt v 0 = refusesAt s ((headerBytes s).length + blockByteCount s + s.accessesOfRun.length) := by
  have hmul : (s.runBlocks + 1) * blockByteCount s = s.runBlocks * blockByteCount s + blockByteCount s := Nat.succ_mul _ _
  have hsame := h.named_same
  obtain ⟨hlen, hle, htake, hceil, haccesses⟩ := length_runInput_long hlong
  have hready := h.rest_ready hn hf ho
  rw [hsame.accesses.2.2.1] at hready
  have hdataLen : s.headed.named.dataLen = s.dataLen := by rw [h.named_eq]
  have hB := h.inv.block_pos h.initDone
  generalize s.headed.named = r at *
  have hsize : s.accessesOfRun.length = s.runInput.length + s.runBlocks * blockByteCount s + r.endReads := by
    have hmode : isBuffered r = isBuffered s := by rw [isBuffered, isBuffered, hsame.mode]
    rw [haccesses, (count_restAccesses s _).2.2, hceil, State.endReads, hmode]
  have hgr : Granted r s.accessesOfRun.length := granted_drop hsame.refuses hsame.drawn hg
  obtain ⟨u, hu, hdone⟩ := txrestBody_completes (length := s.runInput.length) hn.inv hn.nameDone hsame.eof hn.unread
    (by rw [hsame.mode]; exact hl.mode) (by rw [hsame.mode, hdataLen, hsame.inBytes]; exact hlen) (by rw [hsame.inBytes]; exact hle)
    (by omega) (by rw [← hceil]; exact hready) (by rw [← hceil, hsame.size, ← hsize]; exact hgr)
  rw [hsame.inBytes, htake] at hu
  obtain ⟨hrefuses, hdrawn⟩ := blocksSent_port (s := r) (bytes := s.runInput) rfl
  rw [← hu, ← hceil, hsame.size] at hrefuses hdrawn
  have hends : decide (r.inputMode = 2#32) = !isBuffered r := by
    have hm := hl.mode
    rw [← hsame.mode] at hm
    simp only [List.mem_cons, List.not_mem_nil, or_false] at hm
    rcases hm with hm | hm
    · have h1 : r.inputMode = 1#32 := BitVec.eq_of_toNat_eq hm
      simp [isBuffered, h1]
    · have h2 : r.inputMode = 2#32 := BitVec.eq_of_toNat_eq hm
      simp [isBuffered, h2]
  have htally := tally_rest (s := r) (bytes := s.runInput) hceil (by rw [hsame.size]; exact hB) hsame.eof
    (by have := hready.outcnt_fits; exact this) hready.sbytes_fits (by rw [hsame.incnt]; show 0 + _ < _; omega)
    (t := { u with hostRefuses := u.hostRefuses.drop r.endReads, drawn := u.drawn + r.endReads, eof := decide (r.inputMode = 2#32) })
    ⟨u, by rw [hceil]; exact hu, by rw [hends]⟩
  rw [restAccesses_congr hsame.half hsame.width hsame.mode, ← haccesses] at htally
  refine ⟨_, hdone, ?_, ?_, ?_, ?_⟩
  · rw [State.runChunks, ← hceil]
    exact htally
  · show u.blkcnt = _
    rw [hu, blocksSent_blkcnt, (chunksOf_input (bytes := s.runInput) rfl).1, hceil]
  · show u.blk = _
    rw [hu, ← hsame.blk, ← hsame.blkcnt]
    rfl
  · rw [refusesAt_drop (s := u) (n := r.endReads) rfl rfl, refusesAt_drop hrefuses hdrawn, refusesAt_drop hsame.refuses hsame.drawn, hsize]
    rfl

/-- Cut at the flush. -/
theorem Launched.cut_flush (h : Launched s) (hl : HdrLegal s) (hf : s.fault = false) {a : Access} (hlong : ¬ s.RunsShort)
    (ho : s.outcnt.toNat + ((headerBytes s).length + (s.runBlocks + 1) * blockByteCount s) + s.runInput.length < 2 ^ 64)
    (hg : Granted s ((headerBytes s).length + blockByteCount s + s.accessesOfRun.length))
    (hr : refusesAt s ((headerBytes s).length + blockByteCount s + s.accessesOfRun.length) = true)
    (ha : (s.runAccesses (s.accessesOfRun ++ [Access.flush]))[(headerBytes s).length + blockByteCount s + s.accessesOfRun.length]? =
      some a) :
    RunCut s (s.runAccesses (s.accessesOfRun ++ [Access.flush])) (headerBytes s ++ bitsWave s s.pol (s.runStream s.runChunks))
      (polarities s s.pol (s.runStream s.runChunks)) ((headerBytes s).length + blockByteCount s + s.accessesOfRun.length) 0 s.runBlocks
      (lastBlock (cellsFrom 0 (nameBlock s)) 0#16 s.runChunks) true true a := by
  have hmul : (s.runBlocks + 1) * blockByteCount s = s.runBlocks * blockByteCount s + blockByteCount s := Nat.succ_mul _ _
  obtain ⟨hhdr, hname, hnamed⟩ := h.txname_granted hl hf (granted_of_le hg (by omega)) (by omega)
  obtain ⟨v, hdone, htally, hblkcnt, hblk, hrefuses⟩ := h.rest_done hl hnamed hf hlong ho hg
  obtain ⟨-, -, -, hceil, haccesses⟩ := length_runInput_long hlong
  have hsated := txrestBody_named hnamed
  have hsends := txrestBody_sends s.headed.named
  rw [hdone] at hsated hsends
  obtain ⟨hcount, -, hfits⟩ := chunksOf_input (bytes := s.runInput) rfl
  have hsize := h.named_same.size
  have hlen : (s.headed.named.chunksWave s.runChunks).length = s.runBlocks * blockByteCount s := by
    rw [State.runChunks, length_chunksWave hfits, hcount, hsize, hceil]
  have hwritten : written s.accessesOfRun = s.runBlocks * blockByteCount s := by rw [haccesses, written_restAccesses, hceil]
  have hsamples : s.accessesOfRun.count Access.sampleByte = s.runBlocks * blockByteCount s := by
    rw [haccesses, (count_restAccesses s _).1, hceil]
  have hpols : (s.headed.named.chunksPols s.runChunks).length = s.accessesOfRun.count Access.sampleByte := by
    rw [hsamples, ← hlen, State.chunksPols, length_polarities, ← length_bitsWave]
    rfl
  have hcut := CutAt.right htally (hlen.trans hwritten.symm) hpols hblkcnt (Nat.le_refl _)
    (by rw [Nat.sub_self]; exact cutAt_flush hsated.open_ hsated.counted (hrefuses.trans hr))
  rw [List.append_nil, List.append_nil, Nat.add_zero, hblk] at hcut
  have hsat := (closeBody_ends v).mono (fun _ h => h) (fun c t ht => (h.record_named.sends hsends).sends ht)
  obtain ⟨t, hraised, hcut, hrecord⟩ := (h.after_name (by omega) hcut).ending hsat ha
  refine ⟨t, ?_, hcut, hrecord⟩
  rw [transmitBody, hhdr, done_andThen, hname, done_andThen, hdone, done_andThen, hraised]

end

end Sys2Proof.Machine

/-! PROOFS. TXREST and RUN where the host or a short input ends them (O60): the counters and BLK at the raise point, in one form for every
access of the transmission. -/

namespace Sys2Proof.Machine

section
variable {s : State}

/-- The accesses of RUN after INIT; the flush is not among them where the input falls short. -/
def State.runTrace (s : State) : List Access := s.runAccesses (s.accessesOfRun ++ if s.RunsShort then [] else [Access.flush])

theorem runTrace_eq (s : State) : s.runTrace = s.runAccesses (if s.RunsShort then s.shortAccesses s.runInput.length
    else s.restAccesses s.runInput.length ++ [Access.flush]) := by
  rw [State.runTrace, State.accessesOfRun]
  split
  · rw [List.append_nil]
  · rfl

/-- BLK when the accesses `tried` have been tried: untouched by the header, then the name block, then the last data block begun. -/
def State.runBlk (s : State) (tried : List Access) : Memory :=
  if tried.count Access.sampleByte = 0 then s.blk
  else lastBlock (cellsFrom 0 (nameBlock s)) 0#16 (s.runChunks.take (blocksBegun s tried - 1))

/-- The sample bytes among the first accesses of RUN: those of the name block, then those of the rest. -/
theorem count_runAccesses (s : State) (rest : List Access) (n : Nat) :
    ((s.runAccesses rest).take n).count Access.sampleByte = min (n - (headerBytes s).length) (blockByteCount s) +
      (rest.take (n - (headerBytes s).length - blockByteCount s)).count Access.sampleByte := by
  simp only [State.runAccesses, List.take_append, List.take_replicate, List.length_replicate, List.count_append, List.count_replicate_self,
    count_headerByte, Nat.zero_add]

theorem length_runAccesses (s : State) (rest : List Access) :
    (s.runAccesses rest).length = (headerBytes s).length + blockByteCount s + rest.length := by
  simp only [State.runAccesses, List.length_append, List.length_replicate, Nat.add_assoc]

/-- Within the header no sample byte is tried, and no block is sent. -/
theorem run_header {rest : List Access} {n : Nat} (hn : n < (headerBytes s).length) :
    blocksIn s ((s.runAccesses rest).take n) = 0 ∧ s.runBlk ((s.runAccesses rest).take (n + 1)) = s.blk := by
  have hnone (m : Nat) (hm : m ≤ (headerBytes s).length) : ((s.runAccesses rest).take m).count Access.sampleByte = 0 := by
    rw [count_runAccesses, Nat.sub_eq_zero_of_le hm, Nat.zero_sub, Nat.zero_min, List.take_zero]
    rfl
  exact ⟨by rw [blocksIn, hnone n hn.le, Nat.zero_div], if_pos (hnone (n + 1) hn)⟩

/-- Within the name block the name block is the only one begun. -/
theorem run_name {rest : List Access} {n : Nat} (hle : (headerBytes s).length ≤ n)
    (hlt : n < (headerBytes s).length + blockByteCount s) :
    blocksIn s ((s.runAccesses rest).take n) = 0 ∧
      s.runBlk ((s.runAccesses rest).take (n + 1)) = cellsFrom 0 (nameBlock s) := by
  have hcount (m : Nat) (hm : m ≤ (headerBytes s).length + blockByteCount s) :
      ((s.runAccesses rest).take m).count Access.sampleByte = m - (headerBytes s).length := by
    rw [count_runAccesses, show m - (headerBytes s).length - blockByteCount s = 0 by omega, List.take_zero, Nat.min_eq_left (by omega)]
    rfl
  have htried := hcount (n + 1) hlt
  have hbegun : blocksBegun s ((s.runAccesses rest).take (n + 1)) = 1 := by
    rw [blocksBegun, htried, ceilDiv, Nat.div_eq_iff (by omega)]
    omega
  refine ⟨by rw [blocksIn, hcount n hlt.le, Nat.div_eq_of_lt (by omega)], ?_⟩
  rw [State.runBlk, if_neg (by omega), hbegun]
  rfl

/-- After the name block the data blocks are counted from it on. -/
theorem run_rest {rest : List Access} {k : Nat} (hB : 0 < blockByteCount s) :
    blocksIn s ((s.runAccesses rest).take ((headerBytes s).length + blockByteCount s + k)) - 1 = blocksIn s (rest.take k) ∧
      s.runBlk ((s.runAccesses rest).take ((headerBytes s).length + blockByteCount s + k + 1)) =
        lastBlock (cellsFrom 0 (nameBlock s)) 0#16 (s.runChunks.take (blocksBegun s (rest.take (k + 1)))) := by
  have hcount (m : Nat) : ((s.runAccesses rest).take ((headerBytes s).length + blockByteCount s + m)).count Access.sampleByte =
      blockByteCount s + (rest.take m).count Access.sampleByte := by
    rw [count_runAccesses, Nat.add_assoc, Nat.add_sub_cancel_left, Nat.add_sub_cancel_left, Nat.min_eq_right (Nat.le_add_right _ _)]
  have htried := hcount (k + 1)
  have hbegun : blocksBegun s ((s.runAccesses rest).take ((headerBytes s).length + blockByteCount s + (k + 1))) =
      blocksBegun s (rest.take (k + 1)) + 1 := by
    rw [blocksBegun, htried, ceilDiv, Nat.add_assoc, Nat.add_sub_assoc (by omega), Nat.add_div_left _ hB, blocksBegun, ceilDiv,
      Nat.add_sub_assoc (by omega)]
  refine ⟨by rw [blocksIn, hcount, Nat.add_div_left _ hB, Nat.succ_sub_one, blocksIn], ?_⟩
  rw [Nat.add_assoc _ k 1, State.runBlk, if_neg (by omega), hbegun, Nat.add_sub_cancel]

/-- RUN ended at its (n+1)-th access after INIT, with the counters and BLK of that access. -/
def RunStops (s : State) (n d : Nat) (a : Access) : Prop :=
  RunCut s s.runTrace (headerBytes s ++ bitsWave s s.pol (s.runStream s.runChunks)) (polarities s s.pol (s.runStream s.runChunks)) n d
    (blocksIn s (s.runTrace.take n) - 1) (s.runBlk (s.runTrace.take (n + 1))) (decide ((headerBytes s).length ≤ n))
    (decide ((headerBytes s).length + blockByteCount s ≤ n)) a

/-- Cut after the name block, in the data blocks or at the flush. -/
theorem Launched.stops_after_name (h : Launched s) (hl : HdrLegal s) (hf : s.fault = false) {k d : Nat} {a : Access}
    (ho : s.outcnt.toNat + ((headerBytes s).length + (s.runBlocks + 1) * blockByteCount s) + s.runInput.length < 2 ^ 64)
    (hg : Granted s ((headerBytes s).length + blockByteCount s + k + d))
    (hd : d = 0 ∧ refusesAt s ((headerBytes s).length + blockByteCount s + k) = true ∨
      d = 1 ∧ s.RunsShort ∧ k + 1 = s.accessesOfRun.length)
    (ha : s.runTrace[(headerBytes s).length + blockByteCount s + k]? = some a) :
    RunStops s ((headerBytes s).length + blockByteCount s + k) d a := by
  have hB := h.inv.block_pos h.initDone
  unfold RunStops
  rw [State.runTrace] at ha ⊢
  rw [(run_rest hB).1, (run_rest hB).2, decide_eq_true (by omega), decide_eq_true (by omega)]
  have hlast : k < s.accessesOfRun.length ∨ k = s.accessesOfRun.length ∧ ¬ s.RunsShort := by
    have hlen := (List.getElem?_eq_some_iff.mp ha).1
    rw [length_runAccesses, List.length_append] at hlen
    split at hlen
    · exact .inl (by simpa using hlen)
    · next hlong => exact (Nat.lt_or_eq_of_le (by simpa [Nat.lt_succ_iff] using hlen)).imp id fun h => ⟨h, hlong⟩
  rcases hlast with hlt | ⟨rfl, hlong⟩
  · rw [List.take_append_of_le_length hlt.le, List.take_append_of_le_length hlt]
    refine h.cut_rest hl hf hlt ?_ ho hg hd ha
    split
    · exact .inl rfl
    · next hlong => exact .inr hlong
  · obtain ⟨rfl, hr⟩ := hd.resolve_right fun h => hlong h.2.1
    obtain ⟨-, -, -, hceil, haccesses⟩ := length_runInput_long hlong
    have hcount : s.accessesOfRun.count Access.sampleByte = s.runBlocks * blockByteCount s := by
      rw [haccesses, (count_restAccesses s _).1, hceil]
    have hchunks : s.runChunks.length = s.runBlocks := by
      rw [State.runChunks, (chunksOf_input (bytes := s.runInput) rfl).1, hceil]
    have hbegun : blocksBegun s ((s.accessesOfRun ++ [Access.flush]).take (s.accessesOfRun.length + 1)) = s.runBlocks := by
      have hflush : [Access.flush].count Access.sampleByte = 0 := rfl
      rw [List.take_of_length_le (by simp), blocksBegun, List.count_append, hcount, hflush, ceilDiv, Nat.div_eq_iff hB]
      omega
    rw [if_neg hlong] at ha ⊢
    rw [List.take_left' rfl, hbegun, List.take_of_length_le hchunks.le, blocksIn, hcount, Nat.mul_div_cancel _ hB]
    exact h.cut_flush hl hf hlong ho hg hr ha

/-- RUN cut at any of its accesses after INIT. -/
theorem Launched.stops (h : Launched s) (hl : HdrLegal s) (hf : s.fault = false) {n d : Nat} {a : Access}
    (ho : s.outcnt.toNat + ((headerBytes s).length + (s.runBlocks + 1) * blockByteCount s) + s.runInput.length < 2 ^ 64)
    (hg : Granted s (n + d)) (hd : d = 0 ∧ refusesAt s n = true ∨ d = 1 ∧ s.RunsShort ∧ n + 1 = s.runTrace.length)
    (ha : s.runTrace[n]? = some a) : RunStops s n d a := by
  have hmul : (s.runBlocks + 1) * blockByteCount s = s.runBlocks * blockByteCount s + blockByteCount s := Nat.succ_mul _ _
  have hlen : s.RunsShort → s.runTrace.length = (headerBytes s).length + blockByteCount s + s.accessesOfRun.length := fun hshort => by
    rw [State.runTrace, if_pos hshort, List.append_nil, length_runAccesses]
  have hpos : s.RunsShort → 0 < s.accessesOfRun.length := fun hshort => by
    rw [State.accessesOfRun, if_pos hshort]
    exact (List.getElem?_eq_some_iff.mp (shortAccesses_last s s.runInput.length)).1.pos
  by_cases hname : n < (headerBytes s).length + blockByteCount s
  · obtain ⟨rfl, hr⟩ := hd.resolve_right fun ⟨_, hshort, hlast⟩ => by
      have := hlen hshort
      have := hpos hshort
      omega
    unfold RunStops
    rw [State.runTrace] at ha ⊢
    by_cases hhdr : n < (headerBytes s).length
    · rw [(run_header hhdr).1, (run_header hhdr).2, decide_eq_false (by omega), decide_eq_false (by omega)]
      exact h.cut_header hl hhdr hg hr (by omega) ha
    · rw [(run_name (by omega) hname).1, (run_name (by omega) hname).2, decide_eq_true (by omega), decide_eq_false (by omega),
        runStream_wave, runStream_pols]
      exact h.cut_name hl hf (by omega) hname hg hr (by omega) ha
  · obtain ⟨k, rfl⟩ : ∃ k, n = (headerBytes s).length + blockByteCount s + k := ⟨_, (Nat.add_sub_of_le (by omega)).symm⟩
    refine h.stops_after_name hl hf ho hg (hd.imp id fun ⟨hone, hshort, hlast⟩ => ⟨hone, hshort, ?_⟩) ha
    have := hlen hshort
    omega

/-- The last access of a RUN over an input that falls short is the end of the input. -/
theorem runTrace_last {n : Nat} {a : Access} (hs : s.RunsShort) (hn : n + 1 = s.runTrace.length) (ha : s.runTrace[n]? = some a) :
    a = Access.endOfInput := by
  have hlast := shortAccesses_last s s.runInput.length
  have hpos := (List.getElem?_eq_some_iff.mp hlast).1.pos
  rw [State.runTrace, if_pos hs, List.append_nil, State.accessesOfRun, if_pos hs] at hn ha
  rw [length_runAccesses] at hn
  rw [State.runAccesses, ← List.append_assoc, List.getElem?_append_right (by simp only [List.length_append, List.length_replicate]; omega),
    List.length_append, List.length_replicate, List.length_replicate,
    show n - ((headerBytes s).length + blockByteCount s) = (s.shortAccesses s.runInput.length).length - 1 by omega, hlast] at ha
  exact (Option.some.inj ha).symm

end

/-- The part of O60 about RUN: the cut trace, and the fault record of its last access. -/
theorem exec_run_cut {s : State} {n : Nat} {a : Access} (hi : Inv s) (hf : s.fault = false) (hinit : s.initDone = false)
    (hc : s.closed = false) (ht : TimingLegal s) (hl : HdrLegal s.prepared)
    (ho : s.prepared.outcnt.toNat + ((headerBytes s.prepared).length + (s.prepared.runBlocks + 1) * blockByteCount s.prepared) +
      s.prepared.runInput.length < 2 ^ 64)
    (ha : s.prepared.runTrace[n]? = some a) (hg : Granted s n)
    (hstop : refusesAt s n = true ∨ s.prepared.RunsShort ∧ n + 1 = s.prepared.runTrace.length) :
    ∃ t, exec .run s = .next t ∧ Records s t a ∧ t.faultInfo = 0x60#32 ∧
      Before s.prepared t (s.prepared.runTrace.take n) (!refusesAt s n)
        (headerBytes s.prepared ++ bitsWave s.prepared s.prepared.pol (s.prepared.runStream s.prepared.runChunks)) ∧
      t.blkcnt = s.prepared.blkcnt + BitVec.ofNat 16 (blocksIn s.prepared (s.prepared.runTrace.take n) - 1) ∧
      (s.prepared.pol :: polarities s.prepared s.prepared.pol (s.prepared.runStream s.prepared.runChunks))[
        (s.prepared.runTrace.take (n + 1)).count Access.sampleByte]? = some t.pol ∧
      t.blk = s.prepared.runBlk (s.prepared.runTrace.take (n + 1)) ∧
      RunRecord s.prepared t (decide ((headerBytes s.prepared).length ≤ n))
        (decide ((headerBytes s.prepared).length + blockByteCount s.prepared ≤ n)) := by
  have hlaunched : Launched s.prepared := launched_prepared hi hinit hc ht hl.width hl.container
  have hbody : runBody s = transmitBody s.prepared :=
    runBody_prepared (mayRun_iff.mpr ⟨hinit, hlaunched.hdrDone, hc⟩) ht hl.width hl.container
  have hclosed : s.prepared.closed = s.closed := rfl
  have hfault : s.prepared.fault = false := hf
  have hg' : Granted s.prepared n := hg
  have href : refusesAt s.prepared n = refusesAt s n := rfl
  rw [← href] at hstop ⊢
  generalize s.prepared = p at *
  obtain ⟨d, hd, hgd, hends, hflag⟩ := exists_ending hg' hstop fun h => runTrace_last h.1 h.2 ha
  obtain ⟨t, hraised, hcut, hrecord⟩ := hlaunched.stops hl hfault ho hgd hd ha
  have hbefore := hcut.before ha hends
  rw [hflag] at hbefore
  exact ⟨_, exec_raised (i := .run) hf (hbody.trans hraised) (hcut.tally.fault.trans hfault) a.number_mem,
    records_faulted (hcut.tally.closed.trans hclosed) a _ _, rfl, hbefore.faulted a.number _ _ _, hcut.blkcnt, hcut.tally.pol, hcut.blk,
    hrecord⟩

/-- Settles O60: TXREST and RUN are the accesses of their traces, cut at the (n+1)-th. -/
theorem transmissionStopsAtARefusal : Obligations.TransmissionStopsAtARefusal := by
  refine ⟨fun s n a hi hn he hm => ?_, fun s n a hi hf hinit hc => ?_⟩
  · intro rem input short accesses blocks chunks stream made tried hr hread ha hg hstop
    obtain ⟨t, hexec, hrecords, hinfo, hbefore, hblkcnt, hpol, hblk⟩ := exec_txrest_cut hi hn he hr hread ha hg hstop
    have hout := hbefore.out
    have houtcnt := hbefore.outcnt
    have heof := hbefore.eof
    rw [he, Bool.false_or] at heof
    rw [written_accessesOfRest] at hout houtcnt
    exact ⟨t, hexec, hrecords, hinfo, hout, houtcnt, hbefore.sbytes, hbefore.incnt, hblkcnt, hbefore.samples, heof, hbefore.input, hpol, hblk⟩
  · intro p h input short accesses blocks chunks stream made tried came hbaud hrate h1 h128 hw hcon hm hfits ho ha hg hstop
    have hlegal : HdrLegal p := ⟨hw, hcon, hm, hfits⟩
    have htrace : accesses = p.runTrace := (runTrace_eq p).symm
    have ho' : p.outcnt.toNat + ((headerBytes p).length + (p.runBlocks + 1) * blockByteCount p) + p.runInput.length < 2 ^ 64 := by
      rw [← Nat.add_assoc]
      exact ho
    clear_value accesses
    subst htrace
    obtain ⟨t, hexec, hrecords, hinfo, hbefore, hblkcnt, hpol, hblk, hrecord⟩ :=
      exec_run_cut hi hf hinit hc ⟨hbaud, hrate, h1, h128⟩ hlegal ho' ha hg hstop
    obtain ⟨-, -, hs, hname⟩ := hi.early hinit
    obtain ⟨hincnt, heof, hblkcnt0⟩ := hi.unread hname
    obtain ⟨hhalf, hactRate, hlow, hhigh, htimed, hinited, hhdr, hnamed, hdecl, hbytes⟩ := hrecord
    have hsb : t.sbytes.toNat = s.sbytes.toNat + made.count Access.sampleByte := hbefore.sbytes
    have hin : t.incnt.toNat = s.incnt.toNat + made.count Access.byteIn := hbefore.incnt
    have hbc : t.blkcnt = s.blkcnt + BitVec.ofNat 16 (made.count Access.sampleByte / blockByteCount p - 1) := hblkcnt
    have hsm : t.samples = (s.samples || decide (0 < made.count Access.sampleByte)) := hbefore.samples
    have hend : t.eof = (s.eof || (made.contains Access.endOfInput || !refusesAt s n)) := hbefore.eof
    rw [hi.sbytes_zero hs, BitVec.toNat_ofNat, Nat.zero_mod, Nat.zero_add] at hsb
    rw [hincnt, BitVec.toNat_ofNat, Nat.zero_mod, Nat.zero_add] at hin
    rw [hblkcnt0, BitVec.zero_add] at hbc
    rw [hs, Bool.false_or] at hsm
    rw [heof, Bool.false_or] at hend
    have hdeclared : t.declared = (t.hdrDone && lengthKnown s) := by rw [hhdr]; exact hdecl
    refine ⟨t, hexec, hrecords, hinfo, hbefore.out, hbefore.outcnt, hsb, hin, hbc, hsm, hend, hbefore.input, hpol, hblk, hhalf, hactRate,
      hlow, hhigh, htimed, hinited, hhdr, hnamed, hdeclared, ?_⟩
    rw [hdecl]
    exact hbytes

end Sys2Proof.Machine
